-- ==== Sys2Proof/Word.lean ====
section
/-! DEFINITION. The machine's word and byte (00_scope R1, 02_core R18): plain types and the plainest arithmetic on them. -/

namespace Sys2Proof

/-- A scalar register's contents: 64 bits (R18). -/
abbrev Word := BitVec 64

/-- One byte of storage (R1). -/
abbrev Byte := BitVec 8

/-- A global core identifier, 0 to 1,023 (00 "The package at a glance"; R35: the window of core g). -/
abbrev CoreId := BitVec 10

end Sys2Proof
end

