-- ==== Sys2Proof/Syntax.lean ====
section
/-! DEFINITION. The instruction set as syntax: one constructor of `Instr` for each row of the operation and event table
(opcode_table.json), with the operand types that 05_encoding gives them. -/

namespace Sys2Proof

/-- A scalar register number `x0`..`x31` (R82). -/
abbrev Reg := BitVec 5

/-- A region register name `v0`..`v2047` (R86, R274). -/
abbrev VReg := BitVec 11

/-- The three contexts of a core (R18). -/
inductive CtxId where
  | a
  | x
  | s
  deriving DecidableEq, Repr

/-- The five engine queues of a core (02_core, "The engines around the control core"; R82 q). -/
inductive Queue where
  | lq
  | sq
  | mq
  | vq
  | kq
  deriving DecidableEq, Repr

/-- A guard field pair (pd, pn) (R84). -/
structure Guard where
  p : BitVec 3
  n : Bool
  deriving DecidableEq, Repr

/-- The guard of a long form: a predicate (ext 0b00) or a stage predicate (ext 0b01) (R87). -/
inductive LGuard where
  | pred (g : Guard)
  | stage (j : BitVec 4)
  deriving DecidableEq, Repr

/-- Condition codes of `cmp` and `cmpi` (R91). -/
inductive Cond where
  | eq
  | ne
  | lt
  | ltu
  | ge
  | geu
  | true
  deriving DecidableEq, Repr

/-- A predicate specifier of major 0x0E: `p0`..`p7` or `k0`..`k15` (R89, R110). -/
inductive PSpec where
  | p (n : BitVec 3)
  | k (n : BitVec 4)
  deriving DecidableEq, Repr

/-- The scope of a system access or fence (R91, R240). -/
inductive Scope where
  | core
  | cluster
  | package
  | system
  deriving DecidableEq, Repr

/-- The size of a system access (R91). -/
inductive Size where
  | b
  | h
  | w
  | d
  deriving DecidableEq, Repr

/-- The mode of `fwait` and `fread` (R119). -/
inductive FMode where
  | seq
  | slot
  | cslot
  deriving DecidableEq, Repr

/-- The second operand of a vector instruction: a region, or a scalar register when SC is set (R281). -/
inductive VOperand where
  | reg (v : VReg)
  | scalar (xc : Reg)
  deriving DecidableEq, Repr

/-- The condition codes of `vcmp` (R294). -/
inductive VCond where
  | eq
  | ne
  | lt
  | le
  | gt
  | ge
  | un
  deriving DecidableEq, Repr

/-- The operations of `vscan` (R300). -/
inductive ScanOp where
  | add
  | max
  | min
  deriving DecidableEq, Repr

/-- The field codes of `vset` and `vget` (R277). -/
inductive VField where
  | base
  | peer
  | count
  | stride
  | fmt
  deriving DecidableEq, Repr

/-- The directions of a TRF line (R88). -/
inductive LineDir where
  | row
  | col
  | dia
  | adi
  deriving DecidableEq, Repr

/-- Guard and `.p` bit of a vector instruction (R86, R87). -/
structure VHead where
  pl : Bool
  g : LGuard
  deriving DecidableEq, Repr

/-- An engine record (R93): its fields, numbered as in the table of R93. -/
structure Record where
  opc : BitVec 8
  mod : BitVec 8
  order : BitVec 3
  null : Bool
  pub : Bool
  pslot : BitVec 4
  res25 : Bool
  pop0 : BitVec 4
  pop1 : BitVec 4
  pop2 : BitVec 4
  push : BitVec 8
  res46 : BitVec 2
  seq : BitVec 16
  t0 : BitVec 16
  t1 : BitVec 16
  t2 : BitVec 16
  t3 : BitVec 16
  dbase : BitVec 64
  ds0 : BitVec 24
  ds1 : BitVec 24
  ds2 : BitVec 24
  ds3 : BitVec 24
  sbase : BitVec 64
  ss0 : BitVec 24
  ss1 : BitVec 24
  ss2 : BitVec 24
  ss3 : BitVec 24
  aux : BitVec 64
  deriving DecidableEq, Repr

/-- The header of a Nolham MEM transaction as far as its effect depends on it (R415). -/
structure MemHdr where
  src : BitVec 16
  addr : Word
  key : BitVec 12
  tag : BitVec 16
  len : BitVec 13
  ord : BitVec 2
  /-- Every reserved field of the header is zero (R416, status 8). -/
  clean : Bool
  deriving DecidableEq, Repr

/-- The header of a Nolham QPUT transaction as far as its effect depends on it, but for its node and tag (R415). -/
structure PutHdr where
  /-- The queue number; its upper bits are zero. -/
  addr : Word
  len : BitVec 13
  ord : BitVec 2
  /-- Every reserved field of the header is zero (R416, status 8). -/
  clean : Bool
  deriving DecidableEq, Repr

/-- Where a soft error strikes (R246). -/
inductive ErrSite where
  | spad (sector : Nat)
  | trf (word : Nat)
  | region (n : Nat)
  | seat (s : Bool)
  | istore (word : Nat)
  | control
  | mem (sector : Nat)
  deriving DecidableEq, Repr

/-- The state of a work queue that the supervisor programs (R334). -/
structure QueueProg where
  en : Bool
  domain : Option Nat
  prio : Nat
  depth : Nat
  done : Option Nat
  deriving DecidableEq, Repr

/-- The instruction and event set: one constructor for each row of opcode_table.json, instruction words first and record
operations last. -/
inductive Instr where
  -- integer arithmetic (R105, R106)
  | add (d a b : Reg) (g : Guard)
  | sub (d a b : Reg) (g : Guard)
  | and (d a b : Reg) (g : Guard)
  | or (d a b : Reg) (g : Guard)
  | xor (d a b : Reg) (g : Guard)
  | shl (d a b : Reg) (g : Guard)
  | shr (d a b : Reg) (g : Guard)
  | sar (d a b : Reg) (g : Guard)
  | min (d a b : Reg) (g : Guard)
  | max (d a b : Reg) (g : Guard)
  | minu (d a b : Reg) (g : Guard)
  | maxu (d a b : Reg) (g : Guard)
  | mul (d a b : Reg) (g : Guard)
  | mulh (d a b : Reg) (g : Guard)
  | mulhu (d a b : Reg) (g : Guard)
  | div (d a b : Reg) (g : Guard)
  | divu (d a b : Reg) (g : Guard)
  | rem (d a b : Reg) (g : Guard)
  | remu (d a b : Reg) (g : Guard)
  | clz (d a : Reg) (g : Guard)
  | popc (d a : Reg) (g : Guard)
  | sextb (d a : Reg) (g : Guard)
  | sexth (d a : Reg) (g : Guard)
  | sextw (d a : Reg) (g : Guard)
  | zextw (d a : Reg) (g : Guard)
  -- immediate forms (R107)
  | addi (d a : Reg) (imm : BitVec 12) (g : Guard)
  | andi (d a : Reg) (imm : BitVec 12) (g : Guard)
  | ori (d a : Reg) (imm : BitVec 12) (g : Guard)
  | xori (d a : Reg) (imm : BitVec 12) (g : Guard)
  | shli (d a : Reg) (sh : BitVec 6) (g : Guard)
  | shri (d a : Reg) (sh : BitVec 6) (g : Guard)
  | sari (d a : Reg) (sh : BitVec 6) (g : Guard)
  -- constants and addresses (R108)
  | lui (d : Reg) (imm : BitVec 21)
  | luih (d : Reg) (imm : BitVec 21)
  | addpc (d : Reg) (imm : BitVec 21)
  -- compares, predicates, selection (R109-R111)
  | cmp (pd : BitVec 3) (a b : Reg) (cc : Cond)
  | cmpi (pd : BitVec 3) (a : Reg) (cc : Cond) (imm : BitVec 12)
  | pand (pd : BitVec 3) (sa sb : PSpec) (g : Guard)
  | por (pd : BitVec 3) (sa sb : PSpec) (g : Guard)
  | pxor (pd : BitVec 3) (sa sb : PSpec) (g : Guard)
  | pandn (pd : BitVec 3) (sa sb : PSpec) (g : Guard)
  | pnot (pd : BitVec 3) (sa : PSpec) (g : Guard)
  | sel (d a b : Reg) (psel : BitVec 3) (g : Guard)
  -- local loads and stores (R112)
  | ldb (t a : Reg) (off : BitVec 12) (g : Guard)
  | ldh (t a : Reg) (off : BitVec 12) (g : Guard)
  | ldw (t a : Reg) (off : BitVec 12) (g : Guard)
  | ldd (t a : Reg) (off : BitVec 12) (g : Guard)
  | ldbu (t a : Reg) (off : BitVec 12) (g : Guard)
  | ldhu (t a : Reg) (off : BitVec 12) (g : Guard)
  | ldwu (t a : Reg) (off : BitVec 12) (g : Guard)
  | stb (t a : Reg) (off : BitVec 12) (g : Guard)
  | sth (t a : Reg) (off : BitVec 12) (g : Guard)
  | stw (t a : Reg) (off : BitVec 12) (g : Guard)
  | std (t a : Reg) (off : BitVec 12) (g : Guard)
  -- system accesses and atomics (R113, R115)
  | lds (a : Reg) (scope : Scope) (size : Size) (acq : Bool) (g : Guard)
  | sts (a b : Reg) (scope : Scope) (size : Size) (rel : Bool) (g : Guard)
  | amoadd (a b : Reg) (scope : Scope) (dw acq rel : Bool) (g : Guard)
  | amoand (a b : Reg) (scope : Scope) (dw acq rel : Bool) (g : Guard)
  | amoor (a b : Reg) (scope : Scope) (dw acq rel : Bool) (g : Guard)
  | amoxor (a b : Reg) (scope : Scope) (dw acq rel : Bool) (g : Guard)
  | amomin (a b : Reg) (scope : Scope) (dw acq rel : Bool) (g : Guard)
  | amomax (a b : Reg) (scope : Scope) (dw acq rel : Bool) (g : Guard)
  | amominu (a b : Reg) (scope : Scope) (dw acq rel : Bool) (g : Guard)
  | amomaxu (a b : Reg) (scope : Scope) (dw acq rel : Bool) (g : Guard)
  | amoswap (a b : Reg) (scope : Scope) (dw acq rel : Bool) (g : Guard)
  /-- `amocas`: `b` is half the even register number (R91). -/
  | amocas (a : Reg) (b : BitVec 4) (scope : Scope) (dw acq rel : Bool) (g : Guard)
  -- queue group (R116-R120, R210)
  | pushq (a : Reg) (recv : BitVec 8) (g : Guard)
  | popq (d : Reg) (src : BitVec 8) (g : Guard)
  | fmt (a : Reg) (g : Guard)
  | toksig (mask : BitVec 8) (g : Guard)
  | tokwait (prod : BitVec 3) (g : Guard)
  | fwait (a : Reg) (mode : FMode) (slot : BitVec 4) (g : Guard)
  | fread (a : Reg) (mode : FMode) (slot : BitVec 4) (g : Guard)
  -- sync group (R121-R124, R250, R386, R333, R396)
  | mfence (mask : BitVec 5) (g : Guard)
  | join (g : Guard)
  | fence (scope : Scope) (g : Guard)
  | bar (grp : BitVec 8) (g : Guard)
  | bara (grp : BitVec 8) (g : Guard)
  | barw (grp : BitVec 8) (g : Guard)
  | phase (g : Guard)
  | acwait (a : Reg) (n : BitVec 8) (g : Guard)
  | acany (a : Reg) (n : BitVec 8) (g : Guard)
  | wquiet (d a : Reg) (g : Guard)
  -- branches and loops (R126-R130)
  | br (off : BitVec 22) (g : Guard)
  | call (off : BitVec 22) (g : Guard)
  | jr (d a : Reg) (imm : BitVec 12) (g : Guard)
  | loop (off : BitVec 22) (g : Guard)
  | loopr (off : BitVec 22) (g : Guard)
  | done (g : Guard)
  -- enqueuing (R131, R183)
  | enq (q : Queue) (xrec xp0 xp1 : Reg) (g : Guard)
  | enqG (xrec xp0 xp1 : Reg) (g : Guard)
  -- system group (R134-R141)
  | csrr (d : Reg) (csr : BitVec 12)
  | csrw (d a : Reg) (csr : BitVec 12)
  | csrs (d a : Reg) (csr : BitVec 12)
  | csrc (d a : Reg) (csr : BitVec 12)
  | trapMapPool
  | trapUnmap
  | trapYield
  | trapLog
  | trapExit
  | trap (n : BitVec 12)
  | eret
  | wfe
  | brk
  | resume (a : Reg)
  | squash (a : Reg)
  | tlbinv (a : Reg) (sel : BitVec 2)
  -- vector instructions (R290)
  | vadd (vd va : VReg) (b : VOperand) (h : VHead)
  | vsub (vd va : VReg) (b : VOperand) (h : VHead)
  | vmul (vd va : VReg) (b : VOperand) (h : VHead)
  | vfma (vd va : VReg) (b : VOperand) (h : VHead)
  | vdiv (vd va : VReg) (b : VOperand) (h : VHead)
  | vmin (vd va : VReg) (b : VOperand) (h : VHead)
  | vmax (vd va : VReg) (b : VOperand) (h : VHead)
  | vand (vd va : VReg) (b : VOperand) (h : VHead)
  | vor (vd va : VReg) (b : VOperand) (h : VHead)
  | vxor (vd va : VReg) (b : VOperand) (h : VHead)
  | vshl (vd va : VReg) (b : VOperand) (h : VHead)
  | vshr (vd va : VReg) (b : VOperand) (h : VHead)
  | vsar (vd va : VReg) (b : VOperand) (h : VHead)
  | vcmp (vd va : VReg) (b : VOperand) (cc : VCond) (h : VHead)
  | vsel (vd vm : VReg) (b : VOperand) (h : VHead)
  | vabs (vd va : VReg) (h : VHead)
  | vneg (vd va : VReg) (h : VHead)
  | vnot (vd va : VReg) (h : VHead)
  | vcvt (vd va : VReg) (h : VHead)
  | vquant (vd va vb : VReg) (xc : Reg) (grp : BitVec 2) (h : VHead)
  | vdeq (vd va vb : VReg) (xc : Reg) (grp : BitVec 2) (h : VHead)
  | vsf (vd va : VReg) (fn : BitVec 3) (h : VHead)
  | vmove (vd va : VReg) (h : VHead)
  | vfill (vd : VReg) (xc : Reg) (h : VHead)
  | viota (vd : VReg) (xc : Reg) (step : BitVec 6) (h : VHead)
  | vclip (vd va vb : VReg) (h : VHead)
  | vscan (vd va : VReg) (op : ScanOp) (h : VHead)
  | vzcnt (va : VReg) (h : VHead)
  | vperm (vd va : VReg) (n : BitVec 3) (g : LGuard)
  | vpset (va : VReg) (n : BitVec 3) (g : LGuard)
  | vpred (pd : BitVec 3) (xc : Reg) (va : VReg) (g : LGuard)
  | vrsum (va : VReg) (h : VHead)
  | vrmax (va : VReg) (h : VHead)
  | vrmin (va : VReg) (h : VHead)
  -- summaries (15)
  | vskq (vd va : VReg) (h : VHead)
  | vskh (vd va : VReg) (h : VHead)
  | vskd (vd va : VReg) (h : VHead)
  | smerge (vd va : VReg) (g : LGuard)
  | squeryQuant (va : VReg) (xc : Reg) (g : LGuard)
  | squeryRank (va : VReg) (xc : Reg) (g : LGuard)
  | squeryCount (va : VReg) (xc : Reg) (g : LGuard)
  | squeryEntry (va : VReg) (xc : Reg) (g : LGuard)
  | squeryEst (va : VReg) (g : LGuard)
  | sinit (vd : VReg) (xc : Reg) (g : LGuard)
  -- TRF lines (R227)
  | tload (vb : VReg) (dir : LineDir) (line first : BitVec 8)
  | tstore (vb : VReg) (dir : LineDir) (line first : BitVec 8)
  -- region registers (R278)
  | vset (f : VField) (vd va : VReg) (xc : Reg) (g : LGuard)
  | vget (f : VField) (xd : Reg) (va : VReg) (g : LGuard)
  | vaddb (vd va : VReg) (xc : Reg) (g : LGuard)
  | vcopy (vd va : VReg) (g : LGuard)
  -- steps of the engines, the homes and the recovery machinery
  | engineElement (c : CoreId) (u : Nat)
  | commandRetire (c : CoreId) (u : Nat)
  | engineFault (c : CoreId) (k : CtxId)
  | chaseCycle (c : CoreId)
  | pageWalk (c : CoreId) (va : Word) (write : Bool)
  | systemLoadPerform (c : CoreId) (u : Nat)
  | systemStorePerform (c : CoreId) (u : Nat)
  | atomicPerform (c : CoreId) (u : Nat)
  | updateSequence (c : CoreId) (u : Nat)
  | replicaApply (die : BitVec 2)
  | cxlWriteCompletion (c : CoreId) (u : Nat)
  | cxlReadData (c : CoreId) (u : Nat) (poison : Bool)
  | cxlLinkDown (port : Bool)
  | gangReserve (c : CoreId) (k : CtxId) (m : CoreId)
  | gangTimeout (c : CoreId) (k : CtxId)
  | gangPartContinue (c : CoreId) (u : Nat)
  | heldTokenPush (c : CoreId) (prod cons : BitVec 3)
  | phaseCommit (c : CoreId)
  | refetch (c : CoreId) (u : Nat)
  | footstoolCompare (c : CoreId) (u : Nat) (differ : Bool)
  | signaturePass (c : CoreId)
  | tieBreak (even : CoreId)
  | instructionStoreRewrite (c : CoreId) (k : CtxId)
  | watchdog (c : CoreId)
  -- launch, dealing, pre-emption (17)
  | queuePut (src tag : BitVec 16) (h : PutHdr) (rec : List Byte)
  | admitHead
  | levelAging (q : BitVec 16)
  | preemptDecision
  | dealIteration (job : BitVec 12) (c : CoreId)
  | jobEnd (job : BitVec 12)
  | preemptRequest (cluster : BitVec 5)
  | drainlimExpiry (c : CoreId)
  | saveComplete (c : CoreId)
  | restoreStart (cluster : BitVec 5)
  | restoreComplete (c : CoreId)
  | counterFold (c : CoreId)
  -- messages, collectives, quiet (19, 20, 21)
  | messageApply (id : Nat)
  | parkFull (id : Nat)
  | exactTileFinish (c : CoreId) (ac : BitVec 8)
  | fastTileFinish (c : CoreId) (ac : BitVec 8)
  | exponentByteArrive (id : Nat)
  | exponentReturnArrive (id : Nat)
  | collTimeout (c : CoreId) (u : Nat)
  | arrivalMerge (id : Nat)
  | amsgDeliver (id : Nat)
  | amsgHandlerEnqueue (c : CoreId)
  | tsendFire (c : CoreId) (u : Nat)
  | quietWave
  | wavePassEnd
  | waveAgentGather (device : BitVec 6) (sums : List Nat)
  -- further steps
  | commandIssue (c : CoreId) (u : Nat)
  | illegalEncoding (cause : BitVec 8) (tval : Word)
  | softError (c : CoreId) (site : ErrSite) (corrected : Bool)
  | bridgeFailure
  | quarantineClear (c : CoreId)
  | linkBringUp (port : BitVec 4)
  | freadFill (c : CoreId) (u : Nat)
  | cxlExpanderRemove (port : Bool)
  -- the Sideboard and the supervisor (R427-R431, R334, R344)
  | powerCycle
  | computeDiePower (on : Bool)
  | telemetryRead
  | errorLogRead
  | jobLogRead (node : BitVec 16) (session : Option Nat) (job : BitVec 12)
  | stageFirmware (image : Nat) (version : Nat) (key body signature : List Byte)
  | jobAbort (job : BitVec 12)
  | programQueue (q : BitVec 16) (p : QueueProg)
  | reserveClusters (clusters : List (BitVec 5))
  | setDrainlim (v : Word)
  | setGangwait (v : Word)
  | bindQuietDomain (jobs : List (BitVec 6 × BitVec 12)) (agents : Bool)
  | nodeDomainBind (node : BitVec 16) (domain : Nat)
  | keySlotAssign (domain : Nat) (slot : BitVec 12)
  -- MEM transactions of the Nolham fabric (R415, R416)
  | memRead (h : MemHdr)
  | memWrite (h : MemHdr) (data : List Byte)
  | memAmoadd (h : MemHdr) (data : List Byte)
  | memAmoand (h : MemHdr) (data : List Byte)
  | memAmoor (h : MemHdr) (data : List Byte)
  | memAmoxor (h : MemHdr) (data : List Byte)
  | memAmomin (h : MemHdr) (data : List Byte)
  | memAmomax (h : MemHdr) (data : List Byte)
  | memAmominu (h : MemHdr) (data : List Byte)
  | memAmomaxu (h : MemHdr) (data : List Byte)
  | memAmoswap (h : MemHdr) (data : List Byte)
  | memAmocas (h : MemHdr) (data : List Byte)
  -- RDMA of the scale-out Ethernet (R418)
  | rdmaWrite (qp : Nat) (addr : Word) (data : List Byte)
  | rdmaRead (qp : Nat) (addr : Word) (len : Nat)
  -- the Nolham fabric (22)
  | frameLoss (port : BitVec 4) (id : Nat)
  | linkDown (port : BitVec 4)
  | linkAck (port : BitVec 4) (id : Nat)
  | replayRequest (port : BitVec 4) (id : Nat)
  | creditReturn (port : BitVec 4) (cls : BitVec 3) (n : Nat)
  | linkRekey (port : BitVec 4)
  -- power and heat (R429, R431)
  | setPowerCap (watts : Nat)
  | thermalTrip
  -- scale-out Ethernet (R418)
  | roceSend (qp : Nat) (data : List Byte)
  | congestionNotification (qp : Nat) (marked : Bool)
  | queuePairCreate (qp : Nat) (create : Bool)
  -- trust (R420-R424)
  | deviceReset
  | getVersion
  | getCapabilities
  | negotiateAlgorithms
  | getDigests
  | getCertificate
  | challenge (nonce : List Byte)
  | getMeasurements (nonce : List Byte)
  | keyExchange (domain : Nat)
  | finish (session : Nat)
  | heartbeat (session : Nat)
  | endSession (session : Nat)
  | keySet (session : Nat) (slot : BitVec 12) (key : BitVec 512)
  | keyClear (session : Nat) (slot : BitVec 12)
  -- record operations (R94): the next piece of work of the issued command `u` of core `c`
  | copy (c : CoreId) (u : Nat)
  | copyt (c : CoreId) (u : Nat)
  | gather (c : CoreId) (u : Nat)
  | gatherff (c : CoreId) (u : Nat)
  | scatter (c : CoreId) (u : Nat)
  | scatteraAdd (c : CoreId) (u : Nat)
  | scatteraMax (c : CoreId) (u : Nat)
  | scatteraMin (c : CoreId) (u : Nat)
  | scatteraBor (c : CoreId) (u : Nat)
  | scatteraBand (c : CoreId) (u : Nat)
  | fill (c : CoreId) (u : Nat)
  | mcast (c : CoreId) (u : Nat)
  | seat (c : CoreId) (u : Nat)
  | seats (c : CoreId) (u : Nat)
  | mmul (c : CoreId) (u : Nat)
  | drain (c : CoreId) (u : Nat)
  | tzero (c : CoreId) (u : Nat)
  | tzeroStat (c : CoreId) (u : Nat)
  | tcopy (c : CoreId) (u : Nat)
  | cput (c : CoreId) (u : Nat)
  | credExact (c : CoreId) (u : Nat)
  | credFast (c : CoreId) (u : Nat)
  | rxpost (c : CoreId) (u : Nat)
  | tsend (c : CoreId) (u : Nat)
  | smrg (c : CoreId) (u : Nat)
  | amsg (c : CoreId) (u : Nat)
  deriving DecidableEq, Repr

end Sys2Proof
end

