-- ==== Sys2Proof/WellFormed.lean ====
section
/-! DEFINITION. Which terms of `Instr` an instruction word or record can stand for (R84-R97): each check that the operand types alone do not make. -/

namespace Sys2Proof

/-- Service numbers 0x01 to 0x05 have rows of their own (R91, R136). -/
def serviceFree (n : BitVec 12) : Bool := n.toNat == 0 || 5 < n.toNat

/-- The slot field of `fwait` and `fread` is zero in mode 0 (R119). -/
def slotFits (m : FMode) (slot : BitVec 4) : Bool := m != .seq || slot == 0

/-- The rows that a 32-bit word or a long form encodes; the others are record operations and events. -/
def Instr.isWord : Instr → Bool
  | .copy .. | .copyt .. | .gather .. | .gatherff .. | .scatter .. | .scatteraAdd .. | .scatteraMax .. | .scatteraMin ..
  | .scatteraBor .. | .scatteraBand .. | .fill .. | .mcast .. | .seat .. | .seats .. | .mmul .. | .drain .. | .tzero ..
  | .tzeroStat .. | .tcopy .. | .cput .. | .credExact .. | .credFast .. | .rxpost .. | .tsend .. | .smrg .. | .amsg .. => false
  | .engineElement .. | .commandRetire .. | .engineFault .. | .chaseCycle .. | .pageWalk .. | .systemLoadPerform ..
  | .systemStorePerform .. | .atomicPerform .. | .updateSequence .. | .replicaApply .. | .cxlWriteCompletion .. | .cxlReadData ..
  | .cxlLinkDown .. | .gangReserve .. | .gangTimeout .. | .gangPartContinue .. | .heldTokenPush .. | .phaseCommit .. | .refetch ..
  | .footstoolCompare .. | .signaturePass .. | .tieBreak .. | .instructionStoreRewrite .. | .watchdog .. => false
  | .queuePut .. | .admitHead | .levelAging .. | .preemptDecision | .dealIteration .. | .jobEnd .. | .preemptRequest ..
  | .drainlimExpiry .. | .saveComplete .. | .restoreStart .. | .restoreComplete .. | .counterFold .. | .messageApply ..
  | .parkFull .. | .exactTileFinish .. | .fastTileFinish .. | .exponentByteArrive .. | .exponentReturnArrive .. | .collTimeout ..
  | .arrivalMerge .. | .amsgDeliver .. | .amsgHandlerEnqueue .. | .tsendFire .. | .quietWave | .wavePassEnd | .waveAgentGather .. => false
  | .frameLoss .. | .linkDown .. | .linkAck .. | .replayRequest .. | .creditReturn .. | .linkRekey .. | .memRead .. | .memWrite ..
  | .memAmoadd .. | .memAmoand .. | .memAmoor .. | .memAmoxor .. | .memAmomin .. | .memAmomax .. | .memAmominu .. | .memAmomaxu ..
  | .memAmoswap .. | .memAmocas .. | .roceSend .. | .rdmaWrite .. | .rdmaRead .. | .congestionNotification .. | .queuePairCreate .. => false
  | .deviceReset | .getVersion | .getCapabilities | .negotiateAlgorithms | .getDigests | .getCertificate | .challenge ..
  | .getMeasurements .. | .keyExchange .. | .finish .. | .heartbeat .. | .endSession .. | .keySet .. | .keyClear .. | .powerCycle
  | .computeDiePower .. | .telemetryRead | .errorLogRead | .jobLogRead .. | .stageFirmware .. | .jobAbort .. | .programQueue ..
  | .reserveClusters .. | .setDrainlim .. | .setGangwait .. | .bindQuietDomain .. | .nodeDomainBind .. | .keySlotAssign ..
  | .setPowerCap .. | .thermalTrip | .commandIssue .. | .illegalEncoding .. | .softError .. | .bridgeFailure | .quarantineClear ..
  | .linkBringUp .. | .freadFill .. | .cxlExpanderRemove .. => false
  | _ => true

/-- A term that some instruction word encodes: a word row whose fields obey R91 and R119. -/
def Instr.wf : Instr → Bool
  | .trap n => serviceFree n
  | .fwait _ m slot _ => slotFits m slot
  | .fread _ m slot _ => slotFits m slot
  | i => i.isWord

end Sys2Proof
end

