-- ==== Sys2Proof/Decode.lean ====
section
/-! DEFINITION. Instruction words and records to syntax, and back: the formats and opcode maps of 05_encoding (R80-R97). The decoder is total:
a word that is no defined instruction is answered with the cause that R96 gives it. -/

namespace Sys2Proof

/-- The fates of a word that is no defined instruction (R96). -/
inductive DecodeError where
  | illegal
  | reserved
  deriving DecidableEq, Repr

/-- `n` bits of a 32-bit word from bit `lo` up. -/
def fld (w : BitVec 32) (lo n : Nat) : BitVec n := w.extractLsb' lo n

/-- One bit of a 32-bit word. -/
def bitAt (w : BitVec 32) (k : Nat) : Bool := w.getLsbD k

/-- The checks of one word: ILLEGAL wins over RESERVED_FIELD (R97, R30). -/
def fate (ill res : Bool) (i : Instr) : Except DecodeError Instr :=
  if ill then .error .illegal else if res then .error .reserved else .ok i

/-- Guard of F-RR (R82): pd[10:8] pn[7]. -/
def guardRR (w : BitVec 32) : Guard := ⟨fld w 8 3, bitAt w 7⟩
/-- Guard of F-RI and F-M (R82): pd[15:13] pn[12]. -/
def guardRI (w : BitVec 32) : Guard := ⟨fld w 13 3, bitAt w 12⟩
/-- Guard of F-B (R82): pd[25:23] pn[22]. -/
def guardB (w : BitVec 32) : Guard := ⟨fld w 23 3, bitAt w 22⟩
/-- Guard of F-E and F-Q (R82): pd[7:5] pn[4]. -/
def guardQ (w : BitVec 32) : Guard := ⟨fld w 5 3, bitAt w 4⟩

/-- Condition codes 0-6 (R91). -/
def condOf (c : BitVec 3) : Cond :=
  match c.toNat with
  | 0 => .eq | 1 => .ne | 2 => .lt | 3 => .ltu | 4 => .ge | 5 => .geu | _ => .true

/-- The code of a condition (R91). -/
def condCode : Cond → BitVec 3
  | .eq => 0 | .ne => 1 | .lt => 2 | .ltu => 3 | .ge => 4 | .geu => 5 | .true => 6

/-- Predicate specifiers: 0-7 name p0-p7 and 16-31 name k0-k15 (R89). -/
def pspecOf (s : BitVec 5) : PSpec :=
  if s.getLsbD 4 then .k (s.extractLsb' 0 4) else .p (s.extractLsb' 0 3)

/-- Specifiers 8-15 are unassigned (R110). -/
def pspecBad (s : BitVec 5) : Bool := !s.getLsbD 4 && s.getLsbD 3

/-- The code of a predicate specifier (R89). -/
def pspecCode : PSpec → BitVec 5
  | .p n => 0#2 ++ n
  | .k n => 1#1 ++ n

/-- Scope codes (R91). -/
def scopeOf (c : BitVec 2) : Scope :=
  match c.toNat with
  | 0 => .core | 1 => .cluster | 2 => .package | _ => .system

/-- The code of a scope (R91). -/
def scopeCode : Scope → BitVec 2
  | .core => 0 | .cluster => 1 | .package => 2 | .system => 3

/-- Size codes (R91). -/
def sizeOf (c : BitVec 2) : Size :=
  match c.toNat with
  | 0 => .b | 1 => .h | 2 => .w | _ => .d

/-- The code of a size (R91). -/
def sizeCode : Size → BitVec 2
  | .b => 0 | .h => 1 | .w => 2 | .d => 3

/-- Modes of `fwait` and `fread` (R119); 3 is unassigned. -/
def fmodeOf (c : BitVec 2) : FMode :=
  match c.toNat with
  | 0 => .seq | 1 => .slot | _ => .cslot

/-- The code of a mode (R119). -/
def fmodeCode : FMode → BitVec 2
  | .seq => 0 | .slot => 1 | .cslot => 2

/-- Queue numbers (R82). -/
def queueOf (c : BitVec 3) : Queue :=
  match c.toNat with
  | 0 => .lq | 1 => .sq | 2 => .mq | 3 => .vq | _ => .kq

/-- The number of a queue, which is also its token endpoint (R82, R67). -/
def queueCode : Queue → BitVec 3
  | .lq => 0 | .sq => 1 | .mq => 2 | .vq => 3 | .kq => 4

/-- Major 0x01, the OP group (R89, R105). -/
def decodeOp (w : BitVec 32) : Except DecodeError Instr :=
  let d := fld w 21 5
  let a := fld w 16 5
  let b := fld w 11 5
  let g := guardRR w
  let un := fate false (b != 0)
  match (fld w 0 7).toNat with
  | 0x00 => .ok (.add d a b g) | 0x01 => .ok (.sub d a b g) | 0x02 => .ok (.and d a b g) | 0x03 => .ok (.or d a b g)
  | 0x04 => .ok (.xor d a b g) | 0x05 => .ok (.shl d a b g) | 0x06 => .ok (.shr d a b g) | 0x07 => .ok (.sar d a b g)
  | 0x08 => .ok (.min d a b g) | 0x09 => .ok (.max d a b g) | 0x0A => .ok (.minu d a b g) | 0x0B => .ok (.maxu d a b g)
  | 0x10 => .ok (.mul d a b g) | 0x11 => .ok (.mulh d a b g) | 0x12 => .ok (.mulhu d a b g)
  | 0x14 => .ok (.div d a b g) | 0x15 => .ok (.divu d a b g) | 0x16 => .ok (.rem d a b g) | 0x17 => .ok (.remu d a b g)
  | 0x18 => un (.clz d a g) | 0x19 => un (.popc d a g)
  | 0x1A => un (.sextb d a g) | 0x1B => un (.sexth d a g) | 0x1C => un (.sextw d a g) | 0x1D => un (.zextw d a g)
  | _ => .error .illegal

/-- Major 0x0E, the predicate operations (R89, R90, R110). -/
def decodePred (w : BitVec 32) : Except DecodeError Instr :=
  let d := fld w 21 3
  let hi := fld w 24 2 != 0
  let a := fld w 16 5
  let b := fld w 11 5
  let g := guardRR w
  let bin := fate (hi || pspecBad a || pspecBad b) false
  match (fld w 0 7).toNat with
  | 0 => bin (.pand d (pspecOf a) (pspecOf b) g)
  | 1 => bin (.por d (pspecOf a) (pspecOf b) g)
  | 2 => bin (.pxor d (pspecOf a) (pspecOf b) g)
  | 3 => bin (.pandn d (pspecOf a) (pspecOf b) g)
  | 4 => fate (hi || pspecBad a) (b != 0) (.pnot d (pspecOf a) g)
  | _ => .error .illegal

/-- Major 0x1B, `lds` and `sts` (R91, R113). -/
def decodeSys (w : BitVec 32) : Except DecodeError Instr :=
  let a := fld w 16 5
  let b := fld w 11 5
  let g := guardRR w
  let xd := fld w 21 5 != 0
  let sc := scopeOf (fld w 5 2)
  let sz := sizeOf (fld w 3 2)
  if bitAt w 0 then fate (bitAt w 2) xd (.sts a b sc sz (bitAt w 1) g)
  else fate (bitAt w 1) (xd || b != 0) (.lds a sc sz (bitAt w 2) g)

/-- Major 0x1C, the atomics (R91, R115). -/
def decodeAmo (w : BitVec 32) : Except DecodeError Instr :=
  let a := fld w 16 5
  let b := fld w 11 5
  let g := guardRR w
  let sc := scopeOf (fld w 5 2)
  let dw := bitAt w 3
  let acq := bitAt w 2
  let rel := bitAt w 1
  let f := fate (!bitAt w 4) (bitAt w 0)
  match (fld w 21 5).toNat with
  | 0 => f (.amoadd a b sc dw acq rel g) | 1 => f (.amoand a b sc dw acq rel g) | 2 => f (.amoor a b sc dw acq rel g)
  | 3 => f (.amoxor a b sc dw acq rel g) | 4 => f (.amomin a b sc dw acq rel g) | 5 => f (.amomax a b sc dw acq rel g)
  | 6 => f (.amominu a b sc dw acq rel g) | 7 => f (.amomaxu a b sc dw acq rel g) | 8 => f (.amoswap a b sc dw acq rel g)
  | 9 => fate (!bitAt w 4 || bitAt w 11) (bitAt w 0) (.amocas a (fld w 12 4) sc dw acq rel g)
  | _ => .error .illegal

/-- Major 0x1D, the queue group (R90, R116-R119, R210). -/
def decodeQueue (w : BitVec 32) : Except DecodeError Instr :=
  let d := fld w 21 5
  let a := fld w 16 5
  let sel := fld w 8 8
  let g := guardQ w
  let mode := fld w 14 2
  let slot := fld w 8 4
  let fres := d != 0 || fld w 12 2 != 0 || !slotFits (fmodeOf mode) slot
  match (fld w 0 4).toNat with
  | 0 => fate false (d != 0) (.pushq a sel g)
  | 1 => fate false (a != 0) (.popq d sel g)
  | 2 => fate false (d != 0 || sel != 0) (.fmt a g)
  | 3 => fate false (d != 0 || a != 0) (.toksig sel g)
  | 4 => fate false (d != 0 || a != 0 || fld w 11 5 != 0) (.tokwait (fld w 8 3) g)
  | 5 => fate (mode == 3) fres (.fwait a (fmodeOf mode) slot g)
  | 6 => fate (mode == 3) fres (.fread a (fmodeOf mode) slot g)
  | _ => .error .illegal

/-- Major 0x1E, the sync group (R90, R121-R124, R250, R386, R333, R396). -/
def decodeSync (w : BitVec 32) : Except DecodeError Instr :=
  let d := fld w 21 5
  let a := fld w 16 5
  let sel := fld w 8 8
  let g := guardQ w
  let da := d != 0 || a != 0
  match (fld w 0 4).toNat with
  | 0 => fate false (da || fld w 13 3 != 0) (.mfence (fld w 8 5) g)
  | 1 => fate false (da || sel != 0) (.join g)
  | 2 => fate false (da || fld w 10 6 != 0) (.fence (scopeOf (fld w 8 2)) g)
  | 3 => fate false da (.bar sel g)
  | 4 => fate false da (.bara sel g)
  | 5 => fate false da (.barw sel g)
  | 6 => fate false (da || sel != 0) (.phase g)
  | 7 => fate false (d != 0) (.acwait a sel g)
  | 8 => fate false (d != 0) (.acany a sel g)
  | 9 => fate false (sel != 0) (.wquiet d a g)
  | _ => .error .illegal

/-- `trap n`: service numbers 0x01-0x05 have rows of their own (R91, R136). -/
def trapOf (n : BitVec 12) : Instr :=
  match n.toNat with
  | 1 => .trapMapPool | 2 => .trapUnmap | 3 => .trapYield | 4 => .trapLog | 5 => .trapExit | _ => .trap n

/-- Major 0x26, the system group (R90, R134-R141). -/
def decodeSystem (w : BitVec 32) : Except DecodeError Instr :=
  let d := fld w 21 5
  let a := fld w 16 5
  let csr := fld w 4 12
  let da := d != 0 || a != 0
  match (fld w 0 4).toNat with
  | 0 => fate false (a != 0) (.csrr d csr)
  | 1 => .ok (.csrw d a csr)
  | 2 => .ok (.csrs d a csr)
  | 3 => .ok (.csrc d a csr)
  | 4 => fate false da (trapOf csr)
  | 5 => fate false (da || csr != 0) .eret
  | 6 => fate false (da || csr != 0) .wfe
  | 7 => fate false (da || csr != 0) .brk
  | 8 => fate false (d != 0 || csr != 0) (.resume a)
  | 9 => fate false (d != 0 || csr != 0) (.squash a)
  | 10 => let rest := d != 0 || fld w 6 10 != 0
    -- selector 3 is unassigned: without a reserved bit the instruction itself traps (R97, R141)
    fate (rest && fld w 4 2 == 3) rest (.tlbinv a (fld w 4 2))
  | _ => .error .illegal

/-- A 32-bit word (R82, R89). An `enq` with g = 1 and another queue than MQ is ILLEGAL here, whatever its guard (R94; log entry 67). -/
def decode32 (w : BitVec 32) : Except DecodeError Instr :=
  let d := fld w 21 5
  let a := fld w 16 5
  let imm := fld w 0 12
  let gi := guardRI w
  let sh := fate false (fld w 6 6 != 0)
  let s6 := fld w 0 6
  match (fld w 26 6).toNat with
  | 0x01 => decodeOp w
  | 0x02 => .ok (.addi d a imm gi) | 0x03 => .ok (.andi d a imm gi) | 0x04 => .ok (.ori d a imm gi) | 0x05 => .ok (.xori d a imm gi)
  | 0x06 => sh (.shli d a s6 gi) | 0x07 => sh (.shri d a s6 gi) | 0x08 => sh (.sari d a s6 gi)
  | 0x09 => .ok (.lui d (fld w 0 21)) | 0x0A => .ok (.luih d (fld w 0 21)) | 0x0B => .ok (.addpc d (fld w 0 21))
  | 0x0C => fate (fld w 0 3 == 7) (fld w 24 2 != 0 || fld w 3 8 != 0) (.cmp (fld w 21 3) a (fld w 11 5) (condOf (fld w 0 3)))
  | 0x0D => fate (fld w 13 3 == 7) (fld w 24 2 != 0 || bitAt w 12) (.cmpi (fld w 21 3) a (condOf (fld w 13 3)) imm)
  | 0x0E => decodePred w
  | 0x0F => fate false (fld w 3 4 != 0) (.sel d a (fld w 11 5) (fld w 0 3) (guardRR w))
  | 0x10 => .ok (.ldb d a imm gi) | 0x11 => .ok (.ldh d a imm gi) | 0x12 => .ok (.ldw d a imm gi) | 0x13 => .ok (.ldd d a imm gi)
  | 0x14 => .ok (.ldbu d a imm gi) | 0x15 => .ok (.ldhu d a imm gi) | 0x16 => .ok (.ldwu d a imm gi)
  | 0x17 => .ok (.stb d a imm gi) | 0x18 => .ok (.sth d a imm gi) | 0x19 => .ok (.stw d a imm gi) | 0x1A => .ok (.std d a imm gi)
  | 0x1B => decodeSys w
  | 0x1C => decodeAmo w
  | 0x1D => decodeQueue w
  | 0x1E => decodeSync w
  | 0x1F => .ok (.br (fld w 0 22) (guardB w)) | 0x20 => .ok (.call (fld w 0 22) (guardB w))
  | 0x21 => .ok (.jr d a imm gi)
  | 0x22 => .ok (.loop (fld w 0 22) (guardB w)) | 0x23 => .ok (.loopr (fld w 0 22) (guardB w))
  | 0x24 => fate false (fld w 0 22 != 0) (.done (guardB w))
  | 0x25 =>
    if bitAt w 3 then fate (fld w 23 3 != 2) (fld w 0 3 != 0) (.enqG (fld w 18 5) (fld w 13 5) (fld w 8 5) (guardQ w))
    else fate (4 < (fld w 23 3).toNat) (fld w 0 3 != 0) (.enq (queueOf (fld w 23 3)) (fld w 18 5) (fld w 13 5) (fld w 8 5) (guardQ w))
  | 0x26 => decodeSystem w
  | _ => .error .illegal

/-- Condition codes of `vcmp` (R294). -/
def vcondOf (c : BitVec 5) : VCond :=
  match c.toNat with
  | 0 => .eq | 1 => .ne | 2 => .lt | 3 => .le | 4 => .gt | 5 => .ge | _ => .un

/-- The code of a `vcmp` condition (R294). -/
def vcondCode : VCond → BitVec 5
  | .eq => 0 | .ne => 1 | .lt => 2 | .le => 3 | .gt => 4 | .ge => 5 | .un => 6

/-- Codes of `vscan` (R300). -/
def scanOf (c : BitVec 5) : ScanOp :=
  match c.toNat with
  | 0 => .add | 1 => .max | _ => .min

/-- The code of a `vscan` operation (R300). -/
def scanCode : ScanOp → BitVec 5
  | .add => 0 | .max => 1 | .min => 2

/-- Field codes of `vset` and `vget` (R277). -/
def vfieldOf (c : BitVec 5) : VField :=
  match c.toNat with
  | 0 => .base | 1 => .peer | 2 => .count | 3 => .stride | _ => .fmt

/-- The code of a region-register field (R277). -/
def vfieldCode : VField → BitVec 5
  | .base => 0 | .peer => 1 | .count => 2 | .stride => 3 | .fmt => 4

/-- Directions of a TRF line (R88). -/
def dirOf (c : BitVec 2) : LineDir :=
  match c.toNat with
  | 0 => .row | 1 => .col | 2 => .dia | _ => .adi

/-- The code of a direction (R88). -/
def dirCode : LineDir → BitVec 2
  | .row => 0 | .col => 1 | .dia => 2 | .adi => 3

/-- A long form with the layout of R86 (ext 0b00 or 0b01), by its lop (R92, R290, 15_summary_isa "The instructions", R278, R289).
An unassigned value of a field is ILLEGAL, and so is any f5 or m6 that an entry of R290's table does not assign; of `vperm` and `vpset` the reserved bits of
f5, and every other field that an instruction does not use, are RESERVED_FIELD (R96, R290). -/
def decodeLop (w0 w1 : BitVec 32) : Except DecodeError Instr :=
  let vd := fld w0 13 11
  let va := fld w0 2 11
  let vb := fld w1 21 11
  let xc := fld w1 16 5
  let g : LGuard := if bitAt w0 0 then .stage (fld w1 12 1 ++ fld w1 13 3) else .pred ⟨fld w1 13 3, bitAt w1 12⟩
  let pl := bitAt w1 11
  let f5 := fld w1 6 5
  let m6 := fld w1 0 6
  let h : VHead := ⟨pl, g⟩
  let sc := bitAt w1 0
  let b : VOperand := if sc then .scalar xc else .reg vb
  let scIll := fld w1 1 5 != 0
  let scRes := if sc then vb != 0 else xc != 0
  let code := f5 != 0 || m6 != 0
  let bin := fate (scIll || f5 != 0) scRes
  let un := fate code (vb != 0 || xc != 0)
  let sk := fate false (code || vb != 0 || xc != 0)
  let noP := pl || m6 != 0
  match (fld w0 24 6).toNat with
  | 0x00 => bin (.vadd vd va b h) | 0x01 => bin (.vsub vd va b h) | 0x02 => bin (.vmul vd va b h) | 0x03 => bin (.vfma vd va b h)
  | 0x04 => bin (.vdiv vd va b h) | 0x05 => bin (.vmin vd va b h) | 0x06 => bin (.vmax vd va b h)
  | 0x07 => bin (.vand vd va b h) | 0x08 => bin (.vor vd va b h) | 0x09 => bin (.vxor vd va b h)
  | 0x0A => bin (.vshl vd va b h) | 0x0B => bin (.vshr vd va b h) | 0x0C => bin (.vsar vd va b h)
  | 0x0D => fate (scIll || 6 < f5.toNat) scRes (.vcmp vd va b (vcondOf f5) h)
  | 0x0E => bin (.vsel vd va b h)
  | 0x10 => un (.vabs vd va h) | 0x11 => un (.vneg vd va h) | 0x12 => un (.vnot vd va h) | 0x13 => un (.vcvt vd va h)
  | 0x14 => fate (bitAt w1 0 || fld w1 3 3 != 0 || f5 != 0) false (.vquant vd va vb xc (fld w1 1 2) h)
  | 0x15 => fate (bitAt w1 0 || fld w1 3 3 != 0 || f5 != 0) false (.vdeq vd va vb xc (fld w1 1 2) h)
  | 0x16 => fate (7 < f5.toNat || m6 != 0) (vb != 0 || xc != 0) (.vsf vd va (fld w1 6 3) h)
  | 0x17 => un (.vmove vd va h)
  | 0x18 => fate code (va != 0 || vb != 0) (.vfill vd xc h)
  | 0x19 => fate (f5 != 0) (va != 0 || vb != 0) (.viota vd xc m6 h)
  | 0x1A => fate code (xc != 0) (.vclip vd va vb h)
  | 0x1B => fate (2 < f5.toNat || m6 != 0) (vb != 0 || xc != 0) (.vscan vd va (scanOf f5) h)
  | 0x1C => fate code (vd != 0 || vb != 0 || xc != 0) (.vzcnt va h)
  | 0x1D => fate (m6 != 0) (pl || vb != 0 || xc != 0 || fld w1 9 2 != 0) (.vperm vd va (fld w1 6 3) g)
  | 0x1E => fate (m6 != 0) (pl || vd != 0 || vb != 0 || xc != 0 || fld w1 9 2 != 0) (.vpset va (fld w1 6 3) g)
  | 0x1F => fate false (noP || vd != 0 || vb != 0 || fld w1 9 2 != 0) (.vpred (fld w1 6 3) xc va g)
  | 0x20 => fate code (vd != 0 || vb != 0 || xc != 0) (.vrsum va h)
  | 0x21 => fate code (vd != 0 || vb != 0 || xc != 0) (.vrmax va h)
  | 0x22 => fate code (vd != 0 || vb != 0 || xc != 0) (.vrmin va h)
  | 0x23 => sk (.vskq vd va h) | 0x24 => sk (.vskh vd va h) | 0x25 => sk (.vskd vd va h)
  | 0x26 => fate false (noP || vb != 0 || xc != 0 || f5 != 0) (.smerge vd va g)
  | 0x27 =>
    let res := noP || vd != 0 || vb != 0
    match f5.toNat with
    | 0 => fate false res (.squeryQuant va xc g) | 1 => fate false res (.squeryRank va xc g)
    | 2 => fate false res (.squeryCount va xc g) | 3 => fate false res (.squeryEntry va xc g)
    | 4 => fate false (res || xc != 0) (.squeryEst va g)
    | _ => .error .illegal
  | 0x28 => fate false (noP || va != 0 || vb != 0 || f5 != 0) (.sinit vd xc g)
  | 0x30 => fate (4 < f5.toNat) (noP || vb != 0) (.vset (vfieldOf f5) vd va xc g)
  | 0x31 => fate (4 < f5.toNat) (noP || vd != 0 || vb != 0) (.vget (vfieldOf f5) xc va g)
  | 0x32 => fate false (noP || vb != 0 || f5 != 0) (.vaddb vd va xc g)
  | 0x33 => fate false (noP || vb != 0 || xc != 0 || f5 != 0) (.vcopy vd va g)
  | _ => .error .illegal

/-- A long form (R86-R88, R81): word 0 has bits [31:30] = 0b11. -/
def decodeLong (w0 w1 : BitVec 32) : Except DecodeError Instr :=
  let ext := (fld w0 0 2).toNat
  let lop := (fld w0 24 6).toNat
  let res := fld w0 13 11 != 0 || fld w0 2 11 != 0 || fld w1 0 3 != 0
  if w1 = 0xFFFFFFFF#32 ∨ ext = 3 then .error .illegal
  else if ext = 2 then
    if lop = 0x2C then fate false res (.tload (fld w1 21 11) (dirOf (fld w1 19 2)) (fld w1 11 8) (fld w1 3 8))
    else if lop = 0x2D then fate false res (.tstore (fld w1 21 11) (dirOf (fld w1 19 2)) (fld w1 11 8) (fld w1 3 8))
    else .error .illegal
  else decodeLop w0 w1

/-- Whether a first word begins a long form (R80). -/
def isLong (w0 : BitVec 32) : Bool := fld w0 30 2 == 3

/-- One instruction from its first word and, for a long form, the word after it. -/
def decodeWords (w0 w1 : BitVec 32) : Except DecodeError Instr :=
  if isLong w0 then decodeLong w0 w1 else decode32 w0

/-- Four bytes as a little-endian word (R1). -/
def word32 (b0 b1 b2 b3 : Byte) : BitVec 32 := b3 ++ b2 ++ b1 ++ b0

/-- Decoding of a list of bytes: the instruction and the rest of the list. A list that ends inside the instruction is refused as ILLEGAL
here; a fetch never reaches the decoder with too few bytes (R37, R99). -/
def decode : List Byte → Except DecodeError (Instr × List Byte)
  | b0 :: b1 :: b2 :: b3 :: rest =>
    if isLong (word32 b0 b1 b2 b3) then
      match rest with
      | c0 :: c1 :: c2 :: c3 :: rest' => (decodeLong (word32 b0 b1 b2 b3) (word32 c0 c1 c2 c3)).map (·, rest')
      | _ => .error .illegal
    else (decode32 (word32 b0 b1 b2 b3)).map (·, rest)
  | _ => .error .illegal

/-- `n` bytes of a number, lowest first (R1). -/
def bytesOf : Nat → Nat → List Byte
  | 0, _ => []
  | n + 1, v => BitVec.ofNat 8 v :: bytesOf n (v / 256)

/-- The instruction that the decoder reads from a table row's word: `w` has bit 0 of the first word as its bit 0 and the second word, when the
row has one, above it; the bits of the instruction above `nbits` are zero. -/
def decodeTableWord (nbits w : Nat) : Option Instr :=
  match decode (bytesOf 8 (w % 2 ^ nbits)) with
  | .ok (i, _) => some i
  | .error _ => none

/-! ### The encoder -/

/-- pn as a bit. -/
def bit (b : Bool) : BitVec 1 := BitVec.ofBool b

/-- F-RR (R82). -/
def packRR (maj : BitVec 6) (d a b : Reg) (g : Guard) (fn : BitVec 7) : BitVec 32 := maj ++ d ++ a ++ b ++ g.p ++ bit g.n ++ fn
/-- F-RI and F-M (R82). -/
def packRI (maj : BitVec 6) (d a : Reg) (g : Guard) (imm : BitVec 12) : BitVec 32 := maj ++ d ++ a ++ g.p ++ bit g.n ++ imm
/-- F-B (R82). -/
def packB (maj : BitVec 6) (g : Guard) (off : BitVec 22) : BitVec 32 := maj ++ g.p ++ bit g.n ++ off
/-- F-U (R82). -/
def packU (maj : BitVec 6) (d : Reg) (imm : BitVec 21) : BitVec 32 := maj ++ d ++ imm
/-- F-E (R82). -/
def packE (maj : BitVec 6) (q : BitVec 3) (xrec p0 p1 : Reg) (g : Guard) (gang : Bool) : BitVec 32 :=
  maj ++ q ++ xrec ++ p0 ++ p1 ++ g.p ++ bit g.n ++ bit gang ++ 0#3
/-- F-S (R82). -/
def packS (d a : Reg) (csr : BitVec 12) (fn : BitVec 4) : BitVec 32 := 0x26#6 ++ d ++ a ++ csr ++ fn
/-- F-Q (R82). -/
def packQ (maj : BitVec 6) (d a : Reg) (sel : BitVec 8) (g : Guard) (fn : BitVec 4) : BitVec 32 := maj ++ d ++ a ++ sel ++ g.p ++ bit g.n ++ fn
/-- The fn field of majors 0x1B and 0x1C (R91). -/
def sysFn (sc : Scope) (sz : BitVec 2) (acq rel low : Bool) : BitVec 7 := scopeCode sc ++ sz ++ bit acq ++ bit rel ++ bit low
/-- Size of an atomic: word or doubleword (R91). -/
def amoSize (dw : Bool) : BitVec 2 := 1#1 ++ bit dw

/-- Word 0 of a long form (R86): the guard's kind is the low bit of ext (R87). -/
def packL0 (lop : BitVec 6) (vd va : VReg) (g : LGuard) : BitVec 32 :=
  3#2 ++ lop ++ vd ++ va ++ 0#1 ++ (match g with | .pred _ => 0#1 | .stage _ => 1#1)
/-- The guard bits pd and pn of word 1 (R86, R87). -/
def lguardBits : LGuard → BitVec 4
  | .pred g => g.p ++ bit g.n
  | .stage j => j.extractLsb' 0 3 ++ j.extractLsb' 3 1
/-- Word 1 of a long form (R86). -/
def packL1 (vb : VReg) (xc : Reg) (g : LGuard) (pl : Bool) (f5 : BitVec 5) (m6 : BitVec 6) : BitVec 32 :=
  vb ++ xc ++ lguardBits g ++ bit pl ++ f5 ++ m6

/-- A long form as its two words. -/
def longForm (lop : BitVec 6) (vd va vb : VReg) (xc : Reg) (g : LGuard) (pl : Bool) (f5 : BitVec 5) (m6 : BitVec 6) : List (BitVec 32) :=
  [packL0 lop vd va g, packL1 vb xc g pl f5 m6]

/-- A vector instruction with a region or scalar second operand (R281). -/
def binForm (lop : BitVec 6) (vd va : VReg) (b : VOperand) (h : VHead) (f5 : BitVec 5) : List (BitVec 32) :=
  match b with
  | .reg vb => longForm lop vd va vb 0 h.g h.pl f5 0
  | .scalar xc => longForm lop vd va 0 xc h.g h.pl f5 1

/-- A vector instruction with one source region. -/
def unForm (lop : BitVec 6) (vd va : VReg) (h : VHead) (f5 : BitVec 5) : List (BitVec 32) := longForm lop vd va 0 0 h.g h.pl f5 0

/-- A TRF-line form (R88, R227). -/
def lineForm (lop : BitVec 6) (vb : VReg) (dir : LineDir) (line first : BitVec 8) : List (BitVec 32) :=
  [3#2 ++ lop ++ 0#22 ++ 2#2, vb ++ dirCode dir ++ line ++ first ++ 0#3]

/-- The OP group's word. -/
def opWord (fn : BitVec 7) (d a b : Reg) (g : Guard) : List (BitVec 32) := [packRR 0x01 d a b g fn]
/-- A predicate operation's word. -/
def predWord (fn : BitVec 7) (pd : BitVec 3) (sa sb : BitVec 5) (g : Guard) : List (BitVec 32) := [packRR 0x0E (0#2 ++ pd) sa sb g fn]
/-- An atomic's word. -/
def amoWord (op : BitVec 5) (a b : Reg) (sc : Scope) (dw acq rel : Bool) (g : Guard) : List (BitVec 32) :=
  [packRR 0x1C op a b g (sysFn sc (amoSize dw) acq rel false)]

/-- The words of an instruction, from the formats and maps of 05_encoding; empty for a row that no word encodes. -/
def encode : Instr → List (BitVec 32)
  | .add d a b g => opWord 0x00 d a b g
  | .sub d a b g => opWord 0x01 d a b g
  | .and d a b g => opWord 0x02 d a b g
  | .or d a b g => opWord 0x03 d a b g
  | .xor d a b g => opWord 0x04 d a b g
  | .shl d a b g => opWord 0x05 d a b g
  | .shr d a b g => opWord 0x06 d a b g
  | .sar d a b g => opWord 0x07 d a b g
  | .min d a b g => opWord 0x08 d a b g
  | .max d a b g => opWord 0x09 d a b g
  | .minu d a b g => opWord 0x0A d a b g
  | .maxu d a b g => opWord 0x0B d a b g
  | .mul d a b g => opWord 0x10 d a b g
  | .mulh d a b g => opWord 0x11 d a b g
  | .mulhu d a b g => opWord 0x12 d a b g
  | .div d a b g => opWord 0x14 d a b g
  | .divu d a b g => opWord 0x15 d a b g
  | .rem d a b g => opWord 0x16 d a b g
  | .remu d a b g => opWord 0x17 d a b g
  | .clz d a g => opWord 0x18 d a 0 g
  | .popc d a g => opWord 0x19 d a 0 g
  | .sextb d a g => opWord 0x1A d a 0 g
  | .sexth d a g => opWord 0x1B d a 0 g
  | .sextw d a g => opWord 0x1C d a 0 g
  | .zextw d a g => opWord 0x1D d a 0 g
  | .addi d a imm g => [packRI 0x02 d a g imm]
  | .andi d a imm g => [packRI 0x03 d a g imm]
  | .ori d a imm g => [packRI 0x04 d a g imm]
  | .xori d a imm g => [packRI 0x05 d a g imm]
  | .shli d a sh g => [packRI 0x06 d a g (0#6 ++ sh)]
  | .shri d a sh g => [packRI 0x07 d a g (0#6 ++ sh)]
  | .sari d a sh g => [packRI 0x08 d a g (0#6 ++ sh)]
  | .lui d imm => [packU 0x09 d imm]
  | .luih d imm => [packU 0x0A d imm]
  | .addpc d imm => [packU 0x0B d imm]
  | .cmp pd a b cc => [packRR 0x0C (0#2 ++ pd) a b ⟨0, false⟩ (0#4 ++ condCode cc)]
  | .cmpi pd a cc imm => [packRI 0x0D (0#2 ++ pd) a ⟨condCode cc, false⟩ imm]
  | .pand pd sa sb g => predWord 0 pd (pspecCode sa) (pspecCode sb) g
  | .por pd sa sb g => predWord 1 pd (pspecCode sa) (pspecCode sb) g
  | .pxor pd sa sb g => predWord 2 pd (pspecCode sa) (pspecCode sb) g
  | .pandn pd sa sb g => predWord 3 pd (pspecCode sa) (pspecCode sb) g
  | .pnot pd sa g => predWord 4 pd (pspecCode sa) 0 g
  | .sel d a b psel g => [packRR 0x0F d a b g (0#4 ++ psel)]
  | .ldb t a off g => [packRI 0x10 t a g off]
  | .ldh t a off g => [packRI 0x11 t a g off]
  | .ldw t a off g => [packRI 0x12 t a g off]
  | .ldd t a off g => [packRI 0x13 t a g off]
  | .ldbu t a off g => [packRI 0x14 t a g off]
  | .ldhu t a off g => [packRI 0x15 t a g off]
  | .ldwu t a off g => [packRI 0x16 t a g off]
  | .stb t a off g => [packRI 0x17 t a g off]
  | .sth t a off g => [packRI 0x18 t a g off]
  | .stw t a off g => [packRI 0x19 t a g off]
  | .std t a off g => [packRI 0x1A t a g off]
  | .lds a sc sz acq g => [packRR 0x1B 0 a 0 g (sysFn sc (sizeCode sz) acq false false)]
  | .sts a b sc sz rel g => [packRR 0x1B 0 a b g (sysFn sc (sizeCode sz) false rel true)]
  | .amoadd a b sc dw acq rel g => amoWord 0 a b sc dw acq rel g
  | .amoand a b sc dw acq rel g => amoWord 1 a b sc dw acq rel g
  | .amoor a b sc dw acq rel g => amoWord 2 a b sc dw acq rel g
  | .amoxor a b sc dw acq rel g => amoWord 3 a b sc dw acq rel g
  | .amomin a b sc dw acq rel g => amoWord 4 a b sc dw acq rel g
  | .amomax a b sc dw acq rel g => amoWord 5 a b sc dw acq rel g
  | .amominu a b sc dw acq rel g => amoWord 6 a b sc dw acq rel g
  | .amomaxu a b sc dw acq rel g => amoWord 7 a b sc dw acq rel g
  | .amoswap a b sc dw acq rel g => amoWord 8 a b sc dw acq rel g
  | .amocas a b sc dw acq rel g => amoWord 9 a (b ++ 0#1) sc dw acq rel g
  | .pushq a recv g => [packQ 0x1D 0 a recv g 0]
  | .popq d src g => [packQ 0x1D d 0 src g 1]
  | .fmt a g => [packQ 0x1D 0 a 0 g 2]
  | .toksig mask g => [packQ 0x1D 0 0 mask g 3]
  | .tokwait prod g => [packQ 0x1D 0 0 (0#5 ++ prod) g 4]
  | .fwait a m slot g => [packQ 0x1D 0 a (fmodeCode m ++ 0#2 ++ slot) g 5]
  | .fread a m slot g => [packQ 0x1D 0 a (fmodeCode m ++ 0#2 ++ slot) g 6]
  | .mfence mask g => [packQ 0x1E 0 0 (0#3 ++ mask) g 0]
  | .join g => [packQ 0x1E 0 0 0 g 1]
  | .fence sc g => [packQ 0x1E 0 0 (0#6 ++ scopeCode sc) g 2]
  | .bar grp g => [packQ 0x1E 0 0 grp g 3]
  | .bara grp g => [packQ 0x1E 0 0 grp g 4]
  | .barw grp g => [packQ 0x1E 0 0 grp g 5]
  | .phase g => [packQ 0x1E 0 0 0 g 6]
  | .acwait a n g => [packQ 0x1E 0 a n g 7]
  | .acany a n g => [packQ 0x1E 0 a n g 8]
  | .wquiet d a g => [packQ 0x1E d a 0 g 9]
  | .br off g => [packB 0x1F g off]
  | .call off g => [packB 0x20 g off]
  | .jr d a imm g => [packRI 0x21 d a g imm]
  | .loop off g => [packB 0x22 g off]
  | .loopr off g => [packB 0x23 g off]
  | .done g => [packB 0x24 g 0]
  | .enq q x p0 p1 g => [packE 0x25 (queueCode q) x p0 p1 g false]
  | .enqG x p0 p1 g => [packE 0x25 2 x p0 p1 g true]
  | .csrr d csr => [packS d 0 csr 0]
  | .csrw d a csr => [packS d a csr 1]
  | .csrs d a csr => [packS d a csr 2]
  | .csrc d a csr => [packS d a csr 3]
  | .trapMapPool => [packS 0 0 1 4]
  | .trapUnmap => [packS 0 0 2 4]
  | .trapYield => [packS 0 0 3 4]
  | .trapLog => [packS 0 0 4 4]
  | .trapExit => [packS 0 0 5 4]
  | .trap n => [packS 0 0 n 4]
  | .eret => [packS 0 0 0 5]
  | .wfe => [packS 0 0 0 6]
  | .brk => [packS 0 0 0 7]
  | .resume a => [packS 0 a 0 8]
  | .squash a => [packS 0 a 0 9]
  | .tlbinv a sel => [packS 0 a (0#10 ++ sel) 10]
  | .vadd vd va b h => binForm 0x00 vd va b h 0
  | .vsub vd va b h => binForm 0x01 vd va b h 0
  | .vmul vd va b h => binForm 0x02 vd va b h 0
  | .vfma vd va b h => binForm 0x03 vd va b h 0
  | .vdiv vd va b h => binForm 0x04 vd va b h 0
  | .vmin vd va b h => binForm 0x05 vd va b h 0
  | .vmax vd va b h => binForm 0x06 vd va b h 0
  | .vand vd va b h => binForm 0x07 vd va b h 0
  | .vor vd va b h => binForm 0x08 vd va b h 0
  | .vxor vd va b h => binForm 0x09 vd va b h 0
  | .vshl vd va b h => binForm 0x0A vd va b h 0
  | .vshr vd va b h => binForm 0x0B vd va b h 0
  | .vsar vd va b h => binForm 0x0C vd va b h 0
  | .vcmp vd va b cc h => binForm 0x0D vd va b h (vcondCode cc)
  | .vsel vd vm b h => binForm 0x0E vd vm b h 0
  | .vabs vd va h => unForm 0x10 vd va h 0
  | .vneg vd va h => unForm 0x11 vd va h 0
  | .vnot vd va h => unForm 0x12 vd va h 0
  | .vcvt vd va h => unForm 0x13 vd va h 0
  | .vquant vd va vb xc grp h => longForm 0x14 vd va vb xc h.g h.pl 0 (0#3 ++ grp ++ 0#1)
  | .vdeq vd va vb xc grp h => longForm 0x15 vd va vb xc h.g h.pl 0 (0#3 ++ grp ++ 0#1)
  | .vsf vd va fn h => unForm 0x16 vd va h (0#2 ++ fn)
  | .vmove vd va h => unForm 0x17 vd va h 0
  | .vfill vd xc h => longForm 0x18 vd 0 0 xc h.g h.pl 0 0
  | .viota vd xc step h => longForm 0x19 vd 0 0 xc h.g h.pl 0 step
  | .vclip vd va vb h => longForm 0x1A vd va vb 0 h.g h.pl 0 0
  | .vscan vd va op h => unForm 0x1B vd va h (scanCode op)
  | .vzcnt va h => unForm 0x1C 0 va h 0
  | .vperm vd va n g => longForm 0x1D vd va 0 0 g false (0#2 ++ n) 0
  | .vpset va n g => longForm 0x1E 0 va 0 0 g false (0#2 ++ n) 0
  | .vpred pd xc va g => longForm 0x1F 0 va 0 xc g false (0#2 ++ pd) 0
  | .vrsum va h => unForm 0x20 0 va h 0
  | .vrmax va h => unForm 0x21 0 va h 0
  | .vrmin va h => unForm 0x22 0 va h 0
  | .vskq vd va h => unForm 0x23 vd va h 0
  | .vskh vd va h => unForm 0x24 vd va h 0
  | .vskd vd va h => unForm 0x25 vd va h 0
  | .smerge vd va g => longForm 0x26 vd va 0 0 g false 0 0
  | .squeryQuant va xc g => longForm 0x27 0 va 0 xc g false 0 0
  | .squeryRank va xc g => longForm 0x27 0 va 0 xc g false 1 0
  | .squeryCount va xc g => longForm 0x27 0 va 0 xc g false 2 0
  | .squeryEntry va xc g => longForm 0x27 0 va 0 xc g false 3 0
  | .squeryEst va g => longForm 0x27 0 va 0 0 g false 4 0
  | .sinit vd xc g => longForm 0x28 vd 0 0 xc g false 0 0
  | .tload vb dir line first => lineForm 0x2C vb dir line first
  | .tstore vb dir line first => lineForm 0x2D vb dir line first
  | .vset f vd va xc g => longForm 0x30 vd va 0 xc g false (vfieldCode f) 0
  | .vget f xd va g => longForm 0x31 0 va 0 xd g false (vfieldCode f) 0
  | .vaddb vd va xc g => longForm 0x32 vd va 0 xc g false 0 0
  | .vcopy vd va g => longForm 0x33 vd va 0 0 g false 0 0
  | _ => []

/-- Decoding of an encoded instruction's words. -/
def decodeList : List (BitVec 32) → Option Instr
  | [w0] => match decodeWords w0 0 with | .ok i => if isLong w0 then none else some i | .error _ => none
  | [w0, w1] => match decodeWords w0 w1 with | .ok i => if isLong w0 then some i else none | .error _ => none
  | _ => none

/-! ### Records (R93) -/

/-- `n` bits of a 512-bit record from bit `lo` up. -/
def rfld (w : BitVec 512) (lo n : Nat) : BitVec n := w.extractLsb' lo n

/-- The fields of a 512-bit record (R93). -/
def decodeRecord (w : BitVec 512) : Record where
  opc := rfld w 0 8
  mod := rfld w 8 8
  order := rfld w 16 3
  null := w.getLsbD 19
  pub := w.getLsbD 20
  pslot := rfld w 21 4
  res25 := w.getLsbD 25
  pop0 := rfld w 26 4
  pop1 := rfld w 30 4
  pop2 := rfld w 34 4
  push := rfld w 38 8
  res46 := rfld w 46 2
  seq := rfld w 48 16
  t0 := rfld w 64 16
  t1 := rfld w 80 16
  t2 := rfld w 96 16
  t3 := rfld w 112 16
  dbase := rfld w 128 64
  ds0 := rfld w 192 24
  ds1 := rfld w 216 24
  ds2 := rfld w 240 24
  ds3 := rfld w 264 24
  sbase := rfld w 288 64
  ss0 := rfld w 352 24
  ss1 := rfld w 376 24
  ss2 := rfld w 400 24
  ss3 := rfld w 424 24
  aux := rfld w 448 64

/-- The 512 bits of a record (R93). -/
def encodeRecord (r : Record) : BitVec 512 :=
  r.aux ++ r.ss3 ++ r.ss2 ++ r.ss1 ++ r.ss0 ++ r.sbase ++ r.ds3 ++ r.ds2 ++ r.ds1 ++ r.ds0 ++ r.dbase ++ r.t3 ++ r.t2 ++ r.t1 ++ r.t0
    ++ r.seq ++ r.res46 ++ r.push ++ r.pop2 ++ r.pop1 ++ r.pop0 ++ bit r.res25 ++ r.pslot ++ bit r.pub ++ bit r.null ++ r.order ++ r.mod ++ r.opc

end Sys2Proof
end

