-- ==== Sys2Proof/Config.lean ====
section
/-! DEFINITION. What one implementation fixes and what the manual leaves open. Constants with a value are the manual's own figures;
an `opaque` constant has no body that a proof could see: it stands for a value that the manual leaves free. -/

namespace Sys2Proof.Config

/-- Bytes of HBM: 8 stacks of 48 GiB (00_scope, "The package at a glance"). -/
def hbmBytes : Nat := 8 * 48 * 2 ^ 30

/-- PRESUMED: the physical address at which HBM begins (log entry 5; safe for claims that do not name an address). -/
def hbmBase : Nat := 0

/-- First physical address of CXL memory (R419). -/
def cxlBase : Nat := 0x100000000000

/-- Most bytes of CXL memory (R419). -/
def cxlMax : Nat := 4 * 2 ^ 40

/-- First address of the on-chip map (R35). -/
def onchipBase : Nat := 0x7F0000000000

/-- Depths of LQ, SQ, MQ, VQ and KQ (02_core, "The engines around the control core"). -/
def queueDepth : Nat → Nat
  | 2 => 16
  | _ => 32

/-- Free value: an arbitrary word, one for each value of the state's counter of free values. DESIGN CHOICE of form (log entry 6). -/
opaque freeWord : Nat → Word

/-- Free value: which bytes the hub's random source draws (R356). -/
opaque randomByte : Nat → Byte

/-- Free value: the host domain's certificate chain and its digests (R422); the manual gives no contents. -/
opaque certificate : List Byte

/-- Free value: ML-DSA-44 verification of a firmware image by the key it carries (R420, FIPS 204). -/
opaque mldsaVerify : (key image signature : List Byte) → Bool

/-- Free value: the ML-DSA-44 signature of a message under the alias key that the running measurements give (R420, R422). -/
opaque aliasSign : (mr : List (BitVec 256)) → (message : List Byte) → List Byte

/-- Free value: the fused hash of Adever's key (R420). -/
opaque fusedKeyHash : BitVec 256

/-- Free value: the fused minimum version of each firmware image (R420). -/
opaque fusedMinVersion : Nat → Nat

/-- Free value: the boot ROM's identity and the fuse state, as MR0 measures them (R421). -/
opaque romIdentity : List Byte

/-- Free value: the bytes in which a trust-relevant change of configuration is measured into MR4 (R421), by the free counter. -/
opaque changeRecord : Nat → List Byte

/-- Free value: the capacity in bytes of the expander that a boot finds on a CXL port (R419), by the free counter and the port. -/
opaque cxlCapacity : Nat → Nat → Nat

/-- Free value: temperatures, power and clocks of the telemetry (R427), by the free counter. -/
opaque telemetry : Nat → List Nat

/-- Free value: the contents of SPDM answers whose bytes the manual does not give (R422). -/
opaque spdmAnswer : Nat → List Byte

/-- Free value: bytes read through a key slot other than the one under which they were written, or a zeroised one (R423). -/
opaque wrongKeyByte : Nat → Byte

/-- Free value: the stack whose controller is the home of a physical HBM address (R361), 0 to 7. -/
opaque homeStack : Nat → Fin 8

end Sys2Proof.Config
end

