-- ==== Sys2Proof/Machine/State.lean ====
section
/-! DEFINITION. The machine's state as plain data: the contexts and cores of 02_core to 16, the device of 17 to 22, the two ways a step can stop,
and the state after reset. Widths are those of INVENTORY.md; a field that the manual does not name is marked as the MODEL's own. -/

namespace Sys2Proof.Machine

/-- Why the machine stops. Raised by no meaning of this model: every behaviour that the manual gives a cause is a trap, a fault of a command or a
report, and those are next states. -/
inductive Fault where
  /-- Raised by nothing at present; kept so that the type is not empty. Safe: a stop proves nothing of the hardware. -/
  | stuck
  deriving DecidableEq, Repr

/-- Why an instruction has no meaning in the model. -/
inductive Refusal where
  /-- Raised by an arm of `exec` whose instruction has no meaning yet. Safe: nothing is claimed of it. -/
  | notModelled (mnemonic : String)
  deriving DecidableEq, Repr

/-- Bytes of the physical address space: HBM, CXL memory and the on-chip map of every core (R35, R361, R419), as pairs of address and byte with strictly
rising addresses and no zero byte listed; an unlisted address reads 0 (log entry 2). -/
abbrev Mem := List Host.Cell

/-! ### Commands -/

/-- The address space in which an operand lies (R40): virtual space, or the on-chip window of one core. -/
inductive Space where
  | virt
  | core (g : Nat)
  deriving DecidableEq, Repr

/-- A loop nest (R39, R41): base and element size in nibbles (R146), trip counts innermost first, strides in elements, order code. -/
structure Nest where
  space : Space
  base : Int
  esz : Nat
  trips : List Nat
  strides : List Int
  order : Nat
  deriving DecidableEq, Repr

/-- An operand of a command as the range checker holds it (R40, R46, R48): its nest and its footprint in bytes. `whole`: a complete-only source, an
ORDER 5 or indexed destination. -/
structure Operand where
  nest : Nest
  dst : Bool
  whole : Bool
  lo : Int
  hi : Int
  deriving DecidableEq, Repr

/-- A chase edge (R49): own operand number, the chased entry, its operand number and nest, and the phase it was enqueued in (R184). -/
structure Edge where
  own : Nat
  of : Nat
  op : Nat
  nest : Nest
  whole : Bool
  phase : Option Nat
  deriving DecidableEq, Repr

/-- An engine fault as `EFAULT` and `TVAL` report it (R13, R153). -/
structure EFault where
  q : Queue
  seq : BitVec 16
  pos : Nat
  sub : Nat
  tval : Word
  deriving DecidableEq, Repr

/-- What a command does: a completed record (R93), or a vector instruction with the values it resolved at issue (R275, R281): the region registers
vd, va, vb, the scalar, the element count and the RQ entry it fills. -/
inductive Work where
  | record (r : Record)
  | vec (i : Instr) (d a b : BitVec 128) (x : Word) (n : Nat) (rq : Option Nat)
  deriving DecidableEq, Repr

/-- A gang part's gang: identifier, job, issuing core, members, consumer mask (R183, R187). -/
structure Gang where
  id : Nat
  job : Option Nat
  issuer : Nat
  members : List Nat
  push : BitVec 8
  deriving DecidableEq, Repr

/-- An engine command in a queue or in a context's issue (R48, R131, R149-R152). -/
structure Cmd where
  /-- The MODEL's own identifier; ages order commands by it. -/
  uid : Nat
  seq : BitVec 16
  q : Queue
  work : Work
  /-- The enqueuing context; none for a handler record (R403). -/
  ctx : Option CtxId
  /-- The buffer phase; none for gang parts and handler records (R184, R403). -/
  phase : Option Nat
  /-- The phase that was current at its entry, against which a mismatch counts (R260). -/
  during : Nat
  /-- The format word bound to it (R211). -/
  fmtw : Option Word
  ops : List Operand
  edges : List Edge
  /-- Region-register values resolved at `enq`: index list, metadata, scales, zero points (R169, R213, R219), by use. -/
  regions : List (BitVec 128)
  /-- Members of the record's group, by member order (R166, R338). -/
  members : List Nat
  null : Bool
  /-- Compared by the Footstool, or in no need of it (R259). -/
  ready : Bool
  issued : Bool
  /-- Traversal index of the next element, N (R152). -/
  n : Nat
  total : Nat
  fault : Option EFault
  /-- It has faulted and been resumed, and has not retired (R152). -/
  resumed : Bool
  /-- Stopped for replay (R180). -/
  stopped : Bool
  gang : Option Gang
  /-- A gang part frozen by poison until these refetches have retired (R185), with the sector. -/
  refetchWait : Option (List Nat × Word)
  /-- A refetch of R186. -/
  refetch : Bool
  /-- Handler record of an active message (R403). -/
  handler : Bool
  /-- `tsend`: armed and fired (R391). -/
  fired : Bool
  /-- `gatherff`: the first failing iteration (R173). -/
  stopAt : Option Nat
  /-- Values read or running values kept with the position (R286). -/
  acc : List Word
  /-- Nibble addresses that it has written in poisoned units, and units that it has moved poison into (R174, R247). -/
  cover : List Nat
  moved : List Nat
  /-- Sectors it has read as zeros (R174), and scratchpad words that it has marked substituted (R315). -/
  subs : List Nat
  smarks : List Nat
  /-- Transfers refused by the hub and not yet reported, and transfers to be sent again after `resume` (R359): 2n for element n, 2n + 1 for the exponent byte
  of the block that starts at n; with the refused ones, the destination core. -/
  refused : List (Nat × Nat)
  again : List Nat
  /-- EXACT: blocks whose exponent byte has been sent (R382). -/
  pre : Nat
  /-- EXACT blocks: returned exponents by block (R382). -/
  exps : List (Nat × Int)
  /-- Core cycle at which the wait for a returned exponent began (R384), or at which an `rxpost` began to wait at issue (R374). -/
  since : Option Nat
  /-- Core cycle at which the time of that wait stopped counting (R360). -/
  paused : Option Nat
  /-- Core cycle of the enqueue. -/
  born : Nat
  deriving DecidableEq, Repr

/-- The operation of a system access (R113, R115). -/
inductive AccOp where
  | load
  | store
  | add
  | and
  | or
  | xor
  | min
  | max
  | minu
  | maxu
  | swap
  | cas
  | fence
  deriving DecidableEq, Repr

/-- How far a system access has come: held in the core or on its way; written by the CXL home agent or sequenced by the update sequencer and not yet
acknowledged (R364, R365). -/
inductive AccStage where
  | waiting
  | cxl
  | sequenced (pos : Nat)
  deriving DecidableEq, Repr

/-- A scalar system access in flight (R48, R54, R113-R115, R121). -/
structure Acc where
  uid : Nat
  ctx : CtxId
  op : AccOp
  va : Nat
  pa : Nat
  bytes : Nat
  scope : Scope
  acq : Bool
  rel : Bool
  et : Bool
  rep : Bool
  key : Nat
  b : Word
  c : Word
  rq : Option Nat
  edges : List Edge
  phase : Nat
  /-- Compared by the Footstool, or in no need of it (R259). -/
  ready : Bool
  /-- Accesses of other contexts that were visible to the context at the issue, for which a release or a fence waits too (R238, R243). -/
  after : List Nat
  stage : AccStage
  /-- Core cycle of the issue. -/
  born : Nat
  deriving DecidableEq, Repr

/-! ### Contexts -/

/-- A pending write (R25): destination, remaining count, value. -/
structure Pend where
  dest : Reg
  rem : Nat
  val : Word
  deriving DecidableEq, Repr

/-- A return-queue entry (R22, R116): the MODEL's identifier, the result when filled, and the sector address of a poison mark. -/
structure RqEntry where
  id : Nat
  val : Option Word
  poison : Option Word
  deriving DecidableEq, Repr

/-- A context held by the supervisor (R28, R31). -/
structure Held where
  cause : Nat
  tval : Word
  deriving DecidableEq, Repr

/-- What an instruction that is waiting in its slot has already fixed: an `enq` past its checks (R148), a gang's reservations (R231), a `wquiet` (R396). -/
inductive Wait where
  | enq (c : Cmd)
  | gang (c : Cmd) (group : Nat) (members : List Nat) (got : List Nat) (since : Nat)
  | quiet (lim : Nat) (from_ : Nat) (seen : Nat) (done : Option Word)
  deriving DecidableEq, Repr

/-- The state of one context (R19, R34). -/
structure Ctx where
  pc : Word
  regs : Vector Word 32
  /-- `p0`-`p7`; bit 0 is not read (R20). -/
  preds : BitVec 8
  kmask : BitVec 16
  pwb : List Pend
  savedPwb : List Pend
  pwbSel : BitVec 3
  rq : List RqEntry
  epc : Word
  cause : Word
  tval : Word
  tvec : Word
  scratch : Word
  inh : Bool
  done : Bool
  /-- Engine faults pending, in the order of detection (R30). -/
  efq : List EFault
  tick : Word
  rrb : BitVec 10
  lc : Word
  ec : BitVec 8
  plen : BitVec 16
  subcnt : Word
  efault : Word
  /-- Event latch (R138). -/
  latch : Bool
  /-- Markers (R122): queue, and the commands then in it. -/
  marks : List (Queue × List Nat)
  held : Option Held
  /-- Fetch held on an uncorrectable instruction-store word (R246): its offset. -/
  fetchHeld : Option Nat
  wait : Option Wait
  /-- Address of a `bar` that has made its arrival and has not returned (R124; log entry 9). -/
  barAt : Option Word
  /-- The MODEL's own: instructions issue for the device supervisor (R34, R141). -/
  sup : Bool
  deriving DecidableEq, Repr

/-! ### Cores -/

/-- A seat (R214): the record, the depth and what it holds of each column. -/
structure Seat where
  full : Bool
  record : BitVec 19
  kd : Nat
  cols : Nat
  sparse : Bool
  poisoned : Bool
  /-- Encodings by column, logical position innermost; 0 at the positions that a sparse tile leaves out (R202, R219). -/
  raw : List (List Nat)
  /-- Aligned integers I_B by column, logical position innermost. -/
  ints : List (List Int)
  /-- Block exponents Q_B by column, block innermost. -/
  exps : List (List Int)
  /-- Column sums Σb by column, group innermost. -/
  sums : List (List Int)
  /-- Scale encodings sB by column, group innermost. -/
  scales : List (List (BitVec 16))
  /-- Whether scales are E8M0 bytes (R213). -/
  e8m0 : Bool
  /-- Zero points zb by column, group innermost. -/
  zeros : List (List Nat)
  deriving DecidableEq, Repr

/-- A publish slot (R61, R62): what it shows of the bound command and the published nest. -/
structure Slot where
  seq : BitVec 16
  uid : Nat
  complete : Bool
  frozen : Bool
  f : Nat
  order : Nat
  nest : Option Nest
  deriving DecidableEq, Repr

/-- A posted receive window (R372-R377, R382). -/
structure Window where
  base : Nat
  tile : Nat
  tiles : Nat
  expect : Nat
  ac : Nat
  fmt : Nat
  op : Nat
  staging : Nat
  err : Bool
  /-- Elements applied per tile. -/
  counts : List Nat
  /-- Pre-pass bytes of EXACT blocks: (block, byte, sender core, sender command, the sender's block). -/
  pre : List (Nat × Nat × Nat × Nat × Nat)
  /-- Exponents decided for EXACT blocks. -/
  exps : List (Nat × Int)
  /-- Tiles whose finish is in progress. -/
  finishing : List Nat
  /-- Of commands that put into the window: bytes written in poisoned units, and units that poison was moved into (R247, R381). -/
  cover : List (Nat × Nat)
  moved : List (Nat × Nat)
  deriving DecidableEq, Repr

/-- A pending `acany` (R387). -/
structure AnyWait where
  ctx : CtxId
  first : Nat
  count : Nat
  rq : Nat
  deriving DecidableEq, Repr

/-- An `fread` whose word has not been sampled (R120): its RQ entry, the context, the mode and what it names. -/
structure FRead where
  rq : Nat
  ctx : CtxId
  mode : FMode
  core : Nat
  slot : Nat
  seq : BitVec 16
  deriving DecidableEq, Repr

/-- A translation-buffer entry (R155, R157, R158): the leaf, its address in the page tables, and its users: a command or access, and the operand. -/
structure TlbEntry where
  asid : Word
  va : Nat
  size : Nat
  pa : Nat
  leaf : Word
  leafAt : Nat
  users : List (Nat × Nat)
  usable : Bool
  deriving DecidableEq, Repr

/-- What writes become visible to, and what carries visibility, within a core (R238): contexts and commands; the tokens of a FIFO and the
entries of a ring, by their place in it. -/
inductive Viewer where
  | ctx (k : CtxId)
  | cmd (u : Nat)
  | token (p c i : Nat)
  | ring (f t : CtxId) (i : Nat)
  deriving DecidableEq, Repr

/-- A token pushed or popped by a command since the oldest checkpoint (R255): the command's phase, producer, consumer, and what a pushed token carries. -/
structure TokenMove where
  phase : Option Nat
  prod : Nat
  cons : Nat
  push : Bool
  carry : List Nat
  deriving DecidableEq, Repr

/-- A checkpoint of a phase (R251): the contexts, of which the state R251 lists is restored, and the core's listed state. -/
structure Ckpt where
  a : Ctx
  x : Ctx
  s : Ctx
  rings : List (CtxId × CtxId × List Word)
  fmts : List Word
  coin : Word
  tokens : List (Nat × Nat × Int)
  /-- What was visible to its contexts, and what its tokens and ring entries carry (R238). -/
  carried : List (Viewer × Nat)
  /-- Entries of the core's token record before it (R255). -/
  tokAt : Nat
  deriving DecidableEq, Repr

/-- A buffer phase that has not committed (R249-R256). -/
structure Phase where
  num : Nat
  ended : Bool
  irrevocable : Bool
  ckpt : Option Ckpt
  /-- Units whose consumption has already cancelled it (R256). -/
  units : List Nat
  mismatches : Nat
  /-- PAIRED: the signature, once computed, and whether it is resolved (R261, R262). -/
  sig : Option (BitVec 64)
  resolved : Bool
  /-- Core cycle at which the signatures were found to differ (R350). -/
  differAt : Option Nat
  /-- Its LQ commands that have retired (R186). -/
  lqDone : List Cmd
  deriving DecidableEq, Repr

/-- The states of a core under pre-emption (R355). -/
inductive Life where
  | idle
  | running
  | stopping
  | saving
  | saved
  | restoring
  deriving DecidableEq, Repr

/-- An active message at the interface (R403): slot, PD, PS. -/
structure Amsg where
  slot : Nat
  pd : Nat
  ps : Nat
  deriving DecidableEq, Repr

/-- The state of one core. Its scratchpad, TRF, region registers and instruction store are the bytes of its window of the on-chip map (R35). -/
structure Core where
  id : Nat
  a : Ctx
  x : Ctx
  s : Ctx
  /-- Bytes of the image in the instruction store (R37). -/
  imgLen : Nat
  /-- Six rings, each a sender, a receiver and its entries, oldest first (R21). -/
  rings : List (CtxId × CtxId × List Word)
  /-- Token FIFOs (producer, consumer, count); unlisted ones are empty (02, end). The sum of R255 can leave a count below zero. -/
  tokens : List (Nat × Nat × Int)
  /-- Tokens of squashed commands held by the device (R58): producer, consumer, the command's phase. -/
  heldTokens : List (Nat × Nat × Option Nat)
  lq : List Cmd
  sq : List Cmd
  mq : List Cmd
  vq : List Cmd
  kq : List Cmd
  /-- Entries reserved in MQ for gang parts (R231). -/
  reserved : Nat
  accs : List Acc
  /-- Stores and atomics in flight, of this core or of one that has enqueued a gang, that are visible to a viewer besides the context that issued them
  (R238). -/
  sees : List (Viewer × Nat)
  nextSeq : BitVec 16
  slots : List (Nat × Slot)
  fmts : List Word
  seat0 : Seat
  seat1 : Seat
  ovf : Bool
  /-- `pcw0`-`pcw7`, 352 bits each; 0 is the identity (R303). -/
  pcw : List (BitVec 352)
  /-- Arrival counters that are not zero. -/
  acs : List (Nat × Nat)
  claims : List Nat
  windows : List Window
  anys : List AnyWait
  freads : List FRead
  /-- ARR[g] (R124); unlisted ones are 0. -/
  arr : List (Nat × Nat)
  coin : Word
  /-- The last operation of the Cabinet: its cycle, and the sender's core for an arrival, 1024 for a command (R316). -/
  cabinetAt : Option (Nat × Nat)
  seed : Word
  job : Option Nat
  jobid : Word
  gmap : Word
  fixed : Bool
  checked : Bool
  paired : Bool
  conf : Bool
  budget : Word
  /-- Core cycle at which the iteration was dealt (R350). -/
  startAt : Nat
  /-- Core cycle since which `CYCLE` counts, and cycles counted before (R355). -/
  dealtAt : Nat
  counted : Nat
  /-- Cycles of those that `BUDGETUSED` leaves out: waits for tie-breaks (R350). -/
  excluded : Nat
  freeAt : Option Nat
  drainlim : Word
  gangwait : Word
  ptbase : Word
  asid : Word
  tlbctl : Word
  tlb : List TlbEntry
  phase : Nat
  phases : List Phase
  /-- Of phases that a cancellation of an earlier one has taken back: number, units that have cancelled it, mismatches (R256, R260). -/
  lapsed : List (Nat × List Nat × Nat)
  /-- The last cancellation: its core cycle, its phase, the commands and accesses that it squashed (R257). -/
  cancelled : Option (Nat × Nat × List Nat)
  /-- Records kept of the last commit (R186). -/
  kept : List Cmd
  /-- Token pushes and pops by commands since the oldest checkpoint (R255). -/
  tokLog : List TokenMove
  inj : Word
  con : Word
  lost : Word
  abandoned : Word
  /-- Handler records that wait at the interface for their queue (R403). -/
  amsgs : List Cmd
  life : Life
  /-- An iteration is dealt and has not finished. -/
  busy : Bool
  stopAt : Nat
  quarantined : Bool
  /-- Arcs of the wait graph with the cycle since which they have been blocked (R56, R57): waiter, target. -/
  arcs : List (Nat × Nat × Nat)
  /-- The spare core of a cluster while it runs a tied phase: the even core of the pair (R262). -/
  tie : Option Nat
  deriving DecidableEq, Repr

/-! ### The device -/

/-- A translation of an error-tolerant or replicated page that the home needs: replica pages by die (R365). -/
structure Replica where
  page : Nat
  size : Nat
  pages : List Nat
  deriving DecidableEq, Repr

/-- An update of the update order (R365): position, replicated page address, bytes, and the access or command that waits for it. -/
structure Update where
  pos : Nat
  pa : Nat
  data : List Byte
  /-- The key slot of its page. -/
  key : Nat
  core : Nat
  uid : Nat
  deriving DecidableEq, Repr

/-- A work queue (R334, R335): records in order of acceptance with the core cycle at which the head began to wait. -/
structure WorkQueue where
  num : Nat
  en : Bool
  domain : Option Nat
  prio : Nat
  depth : Nat
  done : Option Nat
  recs : List (List Byte)
  since : Nat
  level : Nat
  deriving DecidableEq, Repr

/-- A record of a job's log (R136, R433). -/
structure LogRec where
  value : Word
  tag : Word
  jobid : Word
  coreid : Word
  ctx : Nat
  tick : Word
  deriving DecidableEq, Repr

/-- What a message on the on-chip network or in the parking area is (R379-R385, R327, R402). `cls`: 0 put and `tsend`, 1 EXACT, 2 FAST. `whole`: the byte's
run fills one block of one receiver (R382). -/
inductive MsgKind where
  | elem (cls : Nat) (ac : Nat) (off : Nat) (fmt : Nat) (bits : BitVec 64) (poison : Bool)
  | expByte (ac : Nat) (off : Nat) (byte : Nat) (block : Nat) (whole : Bool)
  | expReturn (block : Nat) (e : Int)
  | merge (ac : Nat) (off : Nat) (data : List Byte)
  | amsg (m : Amsg)
  deriving DecidableEq, Repr

/-- A message in flight or parked: sender core and command, receiver, contents. -/
structure Msg where
  id : Nat
  job : Nat
  src : Nat
  cmd : Nat
  dst : Nat
  kind : MsgKind
  /-- The transfer that the sender's position names, as in `Cmd.refused`. -/
  n : Nat
  /-- Bytes of the payload, for the parking quota (R359). -/
  size : Nat
  /-- Refused by the hub, and on its way back to its sender (R359). -/
  refused : Bool
  /-- A merge: the core cycle at which its receiver's interface accepted it (R271, R327). -/
  arrived : Option Nat := none
  deriving DecidableEq, Repr

/-- The end of a job as it is decided (R352, R353). -/
structure Ending where
  status : Nat
  code : Word
  tval : Word
  core : Nat
  cause : Nat
  deriving DecidableEq, Repr

/-- The saved image of a core (R356): its state, the bytes of its window, its poison and substitution marks. -/
structure Saved where
  core : Core
  bytes : Mem
  poison : List Nat
  subst : List Nat
  deriving DecidableEq, Repr

/-- A live job (R339-R350, R433). -/
structure Job where
  id : Nat
  queue : Nat
  domain : Option Nat
  launch : List Byte
  level : Nat
  /-- Global cluster numbers by ordinal (R340). -/
  clusters : List Nat
  /-- Groups that are filled: number, members as job core indices. -/
  groups : List (Nat × List Nat)
  handlers : List Nat
  regv : List (Nat × BitVec 128)
  spad : List (Nat × List Byte)
  image : List Byte
  /-- Free pages of the elastic pool, and pages mapped: virtual address, page (R16, R342). -/
  pool : List Nat
  mapped : List (Nat × Nat)
  /-- Pages unmapped and still in use (R136). -/
  leaving : List (Nat × Nat)
  key : Option Nat
  saveKey : List Byte
  ptbase : Word
  /-- Next iteration of each nest walker (R347). -/
  next : List Nat
  gens : List (Nat × Nat)
  inj : Word
  con : Word
  lost : Word
  abandoned : Word
  parked : List Msg
  log : List LogRec
  ending : Option Ending
  admitted : Nat
  /-- Cores that the job has been dealt to. -/
  seen : List Nat
  /-- Clusters taken from it by pre-emption (R345). -/
  away : List Nat
  awaySince : Nat
  saved : List Saved
  /-- What the last wave of the job found (R412): whether one has gathered for it, Σ LOST, Σ ABANDONED, `QWAVE`. -/
  waved : Bool
  qlost : Word
  qabandon : Word
  qwave : Word
  deriving DecidableEq, Repr

/-- What a wave agent has returned for a job in a pass (R413). -/
structure AgentSums where
  device : Nat
  job : Nat
  pass : Nat
  inj : Word
  con : Word
  lost : Word
  abandoned : Word
  deriving DecidableEq, Repr

/-- A wave in progress (R406): its jobs, pass and sums; `agents` the sums that wave agents have returned. -/
structure Wave where
  jobs : List Nat
  pass : Nat
  began : Nat
  /-- First-pass sums: job, I, C, L, A. -/
  first : List (Nat × Word × Word × Word × Word)
  agents : List AgentSums
  deriving DecidableEq, Repr

/-- One record of the error log (R264). -/
structure ErrRec where
  time : Nat
  addr : Word
  auxv : Word
  phase : Nat
  core : Nat
  jobid : Nat
  kind : Nat
  deriving DecidableEq, Repr

/-- A frame of a port (R410, R414): message class, sequence number, replays so far and counted messages by job. -/
structure Frame where
  id : Nat
  cls : Nat
  seq : Nat
  replays : Nat
  counted : List (Nat × Nat)
  deriving DecidableEq, Repr

/-- A Nolham port (R414, R425, R400). -/
structure Port where
  num : Nat
  up : Bool
  epoch : BitVec 32
  seq : Nat
  /-- The replay buffer: frames sent and not acknowledged. -/
  frames : List Frame
  /-- Frames that wait for a credit of their class. -/
  waiting : List Frame
  /-- Credits per class. -/
  credits : List Nat
  /-- INJ and LOST by job (R410). -/
  inj : List (Nat × Word)
  lost : List (Nat × Word)
  deriving DecidableEq, Repr

/-- A key slot (R341, R424). -/
structure KeySlot where
  num : Nat
  domain : Nat
  key : Option (BitVec 512)
  job : Option Nat
  deriving DecidableEq, Repr

/-- An SPDM session (R422). -/
structure Session where
  id : Nat
  domain : Nat
  established : Bool
  deriving DecidableEq, Repr

/-- A firmware image (R420). -/
structure Firmware where
  image : Nat
  version : Nat
  key : List Byte
  body : List Byte
  signature : List Byte
  deriving DecidableEq, Repr

/-- A queue pair of the transport engine (R418). -/
structure QueuePair where
  num : Nat
  received : List (List Byte)
  slow : Bool
  deriving DecidableEq, Repr

/-- The algorithms that SPDM negotiation settles on (R422). -/
inductive Algorithm where
  | mlDsa44
  | sha3With256
  | secp384r1
  | aes256Gcm
  deriving DecidableEq, Repr

/-- Answers and reports that leave the device. `algorithms`: the extended asymmetric algorithm, base hash, measurement hash, key-exchange group and AEAD, and
the free bytes of the message. `telemetry`: readings of the moment, the count of corrected errors and the link states. -/
inductive Reply where
  | nolham (node : BitVec 16) (tag : BitVec 16) (status : Nat) (data : List Byte)
  | put (node : BitVec 16) (tag : BitVec 16) (status : Nat)
  | endRecord (addr : Nat) (data : List Byte)
  | spdm (code : Nat) (data : List Byte)
  | algorithms (asym base meas group aead : Algorithm) (data : List Byte)
  | refused (what : Nat)
  | telemetry (vals : List Nat) (corrected : Nat) (nolham cxl : List Bool)
  | errorLog (recs : List ErrRec) (overflow : Nat)
  | jobLog (recs : List LogRec)
  | roce (qp : Nat) (data : List Byte)
  | wave (dev : Nat) (sums : List Nat)
  | resend (port : Nat) (frame : Nat)
  | bootFailed
  | machineCheck (core : Nat)
  deriving DecidableEq, Repr

/-- A Nolham write or atomic to a replicated page that has its position in the update order and is not performed everywhere yet (R365, R368), with the answer
that is then due; `node`: its source, or 65536 and the number of the queue pair of an RDMA write (R418). -/
structure PendMem where
  pos : Nat
  node : Nat
  pa : Nat
  bytes : Nat
  acq : Bool
  reply : Option Reply
  deriving DecidableEq, Repr

/-- The MODEL's own: what comes next when it is not the machine's usual choice (log entry 4). -/
inductive Move where
  | slot
  | event (i : Instr)
  deriving DecidableEq, Repr

/-- Everything but memory: the cores and the device. -/
structure Dev where
  /-- Cores by ascending identifier; an unlisted core is as after reset. -/
  cores : List (Nat × Core)
  /-- Poisoned units (R246, R247): physical addresses of sectors of memory and scratchpads, of TRF words and of region registers. -/
  poison : List Nat
  /-- Substitution marks (R315): physical addresses of scratchpad words. -/
  subst : List Nat
  /-- Key under which a sector was last written, where it is not the supervisor's (R423). -/
  sectorKeys : List (Nat × Nat)
  poisonedTables : List Nat
  replicas : List Replica
  /-- The update order not yet applied everywhere (R365) and the position each replica has reached. -/
  updates : List Update
  nextUpdate : Nat
  applied : List Nat
  cxlBytes : Nat
  cxlPorts : List (Nat × Nat)
  cxlDown : List Nat
  queues : List WorkQueue
  lastServed : Nat
  /-- Launches and restorations that the scheduler has chosen and that still wait (R343, R345): queue, the job of a restoration, the core cycle of the choice. -/
  chosen : List (Nat × Option Nat × Nat)
  reservedClusters : List Nat
  jobs : List Job
  wave : Nat
  waving : Option Wave
  /-- Core cycle in which the last wave began. -/
  waveAt : Option Nat
  errlog : List ErrRec
  errOver : Nat
  corrected : Nat
  correctedAt : List (Nat × Nat)
  nodes : List (Nat × Nat)
  keys : List KeySlot
  ports : List Port
  /-- Quiet domains (R413): devices and their jobs, the lead first; device 0 is this one. -/
  quietDomains : List (List (Nat × Nat))
  /-- Jobs of this device whose domain another device leads, with the number of the lead's wave in progress (R413). -/
  ledWaves : List (Nat × Nat)
  mr : List (BitVec 256)
  firmware : List Firmware
  staged : List Firmware
  inRom : Bool
  sessions : List Session
  negotiated : Nat
  pairs : List QueuePair
  diesOn : Bool
  powerCap : Nat
  /-- `DRAINLIM` and `GANGWAIT` as the management session has set them (R427). -/
  drainlim : Word
  gangwait : Word
  net : List Msg
  /-- Nolham answers that wait until every replica has applied an update (R365, R368). -/
  pendingMem : List PendMem
  /-- Nolham transactions that may not be performed yet, in the order they were sent: source node, transaction (R364, R368, R417). -/
  deferred : List (Nat × Instr)
  /-- Free pages of memory that the supervisor may give to pools and tables (R342): those given back, and every page of HBM below `topPage`. -/
  freePages : List Nat
  topPage : Nat
  /-- Page-table roots that the supervisor has prepared, by work queue (R154; log entry 11). -/
  roots : List (Nat × Nat)
  now : Nat
  turn : CoreId
  agenda : List Move
  outbox : List Reply
  free : Nat
  uid : Nat
  deriving DecidableEq, Repr

/-- The machine: memory and everything else. -/
structure State where
  mem : Mem
  dev : Dev
  deriving DecidableEq, Repr

/-! ### Reset -/

/-- A context before its first dealing (log entry 1). -/
def Ctx.reset : Ctx where
  pc := 0
  regs := Vector.replicate 32 0
  preds := 1
  kmask := 0
  pwb := []
  savedPwb := []
  pwbSel := 0
  rq := []
  epc := 0
  cause := 0
  tval := 0
  tvec := 0
  scratch := 0
  inh := false
  done := false
  efq := []
  tick := 0
  rrb := 0
  lc := 0
  ec := 0
  plen := 0xFFFF
  subcnt := 0
  efault := 0
  latch := false
  marks := []
  held := none
  fetchHeld := none
  wait := none
  barAt := none
  sup := false

/-- An EMPTY seat (R214). -/
def Seat.empty : Seat where
  full := false
  record := 0
  kd := 0
  cols := 0
  sparse := false
  poisoned := false
  raw := []
  ints := []
  exps := []
  sums := []
  scales := []
  e8m0 := false
  zeros := []

/-- A core before its first dealing (log entry 1). -/
def Core.reset (id : Nat) : Core where
  id := id
  a := Ctx.reset
  x := Ctx.reset
  s := Ctx.reset
  imgLen := 0
  rings := []
  tokens := []
  heldTokens := []
  lq := []
  sq := []
  mq := []
  vq := []
  kq := []
  reserved := 0
  accs := []
  sees := []
  nextSeq := 0
  slots := []
  fmts := []
  seat0 := Seat.empty
  seat1 := Seat.empty
  ovf := false
  pcw := List.replicate 8 0
  acs := []
  claims := []
  windows := []
  anys := []
  freads := []
  arr := []
  coin := 0
  cabinetAt := none
  seed := 0
  job := none
  jobid := 0
  gmap := 0
  fixed := false
  checked := false
  paired := false
  conf := false
  budget := 0
  startAt := 0
  dealtAt := 0
  counted := 0
  excluded := 0
  freeAt := none
  drainlim := 0
  gangwait := 0
  ptbase := 0
  asid := 0
  tlbctl := 0
  tlb := []
  phase := 0
  phases := []
  lapsed := []
  cancelled := none
  kept := []
  tokLog := []
  inj := 0
  con := 0
  lost := 0
  abandoned := 0
  amsgs := []
  life := .idle
  busy := false
  stopAt := 0
  quarantined := false
  arcs := []
  tie := none

/-- The device after reset (R334, R406, R421, R423; log entries 1, 2, 4). -/
def Dev.reset : Dev where
  cores := []
  poison := []
  subst := []
  sectorKeys := []
  poisonedTables := []
  replicas := []
  updates := []
  nextUpdate := 0
  applied := [0, 0, 0, 0]
  cxlBytes := 0
  cxlPorts := []
  cxlDown := []
  queues := []
  lastServed := 65535
  chosen := []
  reservedClusters := []
  jobs := []
  wave := 0
  waving := none
  waveAt := none
  errlog := []
  errOver := 0
  corrected := 0
  correctedAt := []
  nodes := []
  keys := []
  ports := []
  quietDomains := []
  ledWaves := []
  mr := List.replicate 8 0
  firmware := []
  staged := []
  inRom := false
  sessions := []
  negotiated := 0
  pairs := []
  diesOn := true
  powerCap := 2400
  drainlim := 0
  gangwait := 0
  net := []
  pendingMem := []
  deferred := []
  freePages := []
  topPage := Config.hbmBase + Config.hbmBytes
  roots := []
  now := 0
  turn := 0
  agenda := []
  outbox := []
  free := 0
  uid := 0

/-- The machine right after reset: memory with nothing listed. -/
def State.reset : State where
  mem := []
  dev := Dev.reset

end Sys2Proof.Machine
end

