-- ==== Sys2Proof/Machine/Ops.lean ====
section
/-! DEFINITION. Named operations over memory, cores and contexts: bytes of the physical map, registers, predicates, pending writes, rings, tokens, the
return queue, taking a trap (R28) and returning from one (R29). A meaning is a function on `Mach`, a state with the bytes written so far in the step;
`lift` commits it, so that every byte that a step writes goes through `Mem.write`. -/

namespace Sys2Proof.Machine

/-! ### Bytes -/

/-- The byte at an address; an unlisted address reads 0. -/
def Mem.read : Mem → Nat → Byte
  | [], _ => 0
  | (k, v) :: m, a => if k = a then v else Mem.read m a

/-- Writes a byte, keeping addresses strictly rising and listing no zero. -/
def Mem.write : Mem → Nat → Byte → Mem
  | [], a, b => if b = 0 then [] else [(a, b)]
  | (k, v) :: m, a, b =>
    if a < k then (if b = 0 then (k, v) :: m else (a, b) :: (k, v) :: m)
    else if a = k then (if b = 0 then m else (a, b) :: m)
    else (k, v) :: Mem.write m a b

/-- Addresses strictly rise and no listed byte is zero: every key after `lo`. -/
def Mem.wfFrom : Option Nat → Mem → Bool
  | _, [] => true
  | lo, (k, v) :: m => (match lo with | none => true | some l => decide (l < k)) && v != 0 && Mem.wfFrom (some k) m

/-- The canonical form of memory (log entry 2). -/
def Mem.wf (m : Mem) : Bool := Mem.wfFrom none m

/-- Little-endian value of bytes (R1). -/
def leNat : List Byte → Nat
  | [] => 0
  | b :: bs => b.toNat + 256 * leNat bs

/-- The `n` low bytes of a value, lowest first (R1). -/
def leBytes : Nat → Nat → List Byte
  | 0, _ => []
  | n + 1, v => BitVec.ofNat 8 v :: leBytes n (v / 256)

/-- What a step does to memory: one byte written, or a range of addresses [lo, hi) zeroed. -/
inductive MemOp where
  | byte (a : Nat) (b : Byte)
  | zero (lo hi : Nat)
  deriving DecidableEq, Repr

/-- A state in the middle of a step: memory as the step found it, what has been done to it since (newest first), and the device. `held`: the step has met
bytes that the CXL home agent holds for an access that has not completed (R364). -/
structure Mach where
  base : Mem
  log : List MemOp
  dev : Dev
  held : Bool

/-- The byte that this step has left at an address, if it has written it. -/
def logFind : List MemOp → Nat → Option Byte
  | [], _ => none
  | .byte k v :: l, a => if k = a then some v else logFind l a
  | .zero lo hi :: l, a => if lo ≤ a ∧ a < hi then some 0 else logFind l a

/-- The byte at a physical address as the step sees it now. -/
def Mach.rd (m : Mach) (a : Nat) : Byte :=
  match logFind m.log a with
  | some b => b
  | none => m.base.read a

/-- Writes a byte. -/
def Mach.wr (m : Mach) (a : Nat) (b : Byte) : Mach := { m with log := .byte a b :: m.log }

/-- Zeroes the bytes [lo, hi). -/
def Mach.wipe (m : Mach) (lo hi : Nat) : Mach := { m with log := .zero lo hi :: m.log }

/-- The `n` bytes from an address up. -/
def Mach.bytes (m : Mach) (a : Nat) : Nat → List Byte
  | 0 => []
  | n + 1 => m.rd a :: m.bytes (a + 1) n

/-- The little-endian value of `n` bytes. -/
def Mach.le (m : Mach) (a n : Nat) : Nat := leNat (m.bytes a n)

/-- Writes bytes from an address up. -/
def Mach.wrBytes (m : Mach) (a : Nat) : List Byte → Mach
  | [] => m
  | b :: bs => (m.wr a b).wrBytes (a + 1) bs

/-- The cells outside [lo, hi). -/
def Mem.drop (m : Mem) (lo hi : Nat) : Mem := m.filter fun c => decide (c.1 < lo) || decide (hi ≤ c.1)

/-- Memory after one operation. -/
def MemOp.apply (m : Mem) : MemOp → Mem
  | .byte a b => m.write a b
  | .zero lo hi => m.drop lo hi

/-- Memory after the step's operations, oldest first. -/
def Mem.apply (base : Mem) (log : List MemOp) : Mem := log.foldr (fun o acc => o.apply acc) base

/-- The cells that are not zero in [lo, hi), as the step sees them now. -/
def Mach.cells (m : Mach) (lo hi : Nat) : Mem := (m.base.apply m.log).filter fun c => decide (lo ≤ c.1) && decide (c.1 < hi)

/-- The outcome type of every meaning. -/
abbrev Result := Host.Outcome State Fault Refusal

/-- Runs a meaning on a state and commits its writes. -/
def lift (f : Mach → Mach) (s : State) : Result :=
  let r := f ⟨s.mem, [], s.dev, false⟩
  .next { mem := s.mem.apply r.log, dev := r.dev }

/-- Runs a step of the hub that reads a job's memory; where the CXL home agent holds bytes that it needs, the step does not happen yet (R364). -/
def liftHub (f : Mach → Mach) (s : State) : Result := if (f ⟨s.mem, [], s.dev, false⟩).held then .next s else lift f s

/-! ### The on-chip map (R35) -/

/-- First address of core `g`'s window. -/
def window (g : Nat) : Nat := Config.onchipBase + g * 2 ^ 22

/-- The storages of local space (R35). -/
inductive Storage where
  | spad
  | trf
  | region
  | istore
  deriving DecidableEq, Repr

/-- The storage that holds a local offset, if any (R35). -/
def storageAt (o : Nat) : Option Storage :=
  if o < 0xC0000 then some .spad
  else if o < 0x100000 then none
  else if o < 0x140000 then some .trf
  else if o < 0x200000 then none
  else if o < 0x208000 then some .region
  else if o < 0x300000 then none
  else if o < 0x310000 then some .istore
  else none

/-- Every byte of [lo, hi) lies in one storage. -/
def oneStorage (lo hi : Nat) : Option Storage :=
  if hi ≤ lo then none
  else match storageAt lo with
    | none => none
    | some st => if storageAt (hi - 1) = some st then some st else none

/-- The bits of region register n (R273), at local offset 0x20_0000 + 16n (R35). -/
def Mach.regionBits (m : Mach) (g n : Nat) : BitVec 128 := BitVec.ofNat 128 (m.le (window g + 0x200000 + 16 * n) 16)

/-- Writes region register n of core g. -/
def Mach.setRegion (m : Mach) (g n : Nat) (v : BitVec 128) : Mach := m.wrBytes (window g + 0x200000 + 16 * n) (leBytes 16 v.toNat)

/-! ### Cores and contexts -/

/-- The state of core `c`; an unlisted core is as after reset. -/
def coreGet : List (Nat × Core) → Nat → Core
  | [], c => Core.reset c
  | (k, v) :: l, c => if k = c then v else coreGet l c

/-- Replaces core `c`, keeping identifiers rising. -/
def coreSet : List (Nat × Core) → Nat → Core → List (Nat × Core)
  | [], c, v => [(c, v)]
  | (k, w) :: l, c, v => if c < k then (c, v) :: (k, w) :: l else if k = c then (c, v) :: l else (k, w) :: coreSet l c v

def Mach.core (m : Mach) (c : Nat) : Core := coreGet m.dev.cores c

def Mach.onDev (m : Mach) (f : Dev → Dev) : Mach := { m with dev := f m.dev }

def Dev.setCore (d : Dev) (c : Nat) (v : Core) : Dev := { d with cores := coreSet d.cores c v }

def Mach.setCore (m : Mach) (c : Nat) (v : Core) : Mach := m.onDev (·.setCore c v)

/-- Changes one core. -/
def Mach.onCore (m : Mach) (c : Nat) (f : Core → Core) : Mach := m.setCore c (f (m.core c))

def Core.ctx (c : Core) : CtxId → Ctx
  | .a => c.a
  | .x => c.x
  | .s => c.s

def Core.setCtx (c : Core) (k : CtxId) (v : Ctx) : Core :=
  match k with
  | .a => { c with a := v }
  | .x => { c with x := v }
  | .s => { c with s := v }

def Core.onCtx (c : Core) (k : CtxId) (f : Ctx → Ctx) : Core := c.setCtx k (f (c.ctx k))

def Mach.onCtx (m : Mach) (c : Nat) (k : CtxId) (f : Ctx → Ctx) : Mach := m.onCore c (·.onCtx k f)

/-- The core whose slot it is. -/
def Mach.cid (m : Mach) : Nat := m.dev.turn.toNat

/-- The context of a core cycle: cycle mod 3 (R4). -/
def ctxOfCycle (n : Nat) : CtxId := if n % 3 = 0 then .a else if n % 3 = 1 then .x else .s

/-- The context whose slot it is. -/
def Mach.kid (m : Mach) : CtxId := ctxOfCycle m.dev.now

/-- The core whose slot it is. -/
def Mach.here (m : Mach) : Core := m.core m.cid

/-- The context whose slot it is. -/
def Mach.cur (m : Mach) : Ctx := m.here.ctx m.kid

/-- Changes the context whose slot it is. -/
def Mach.onCur (m : Mach) (f : Ctx → Ctx) : Mach := m.onCtx m.cid m.kid f

/-- Changes the core whose slot it is. -/
def Mach.onHere (m : Mach) (f : Core → Core) : Mach := m.onCore m.cid f

/-- The endpoint number of a context (R67): A 5, X 6, S 7. -/
def ctxEndpoint : CtxId → Nat
  | .a => 5
  | .x => 6
  | .s => 7

/-- The number of a context: `STATUS.CTX` (R31). -/
def ctxNum : CtxId → Nat
  | .a => 0
  | .x => 1
  | .s => 2

/-- The context of an endpoint 5-7. -/
def endpointCtx : Nat → Option CtxId
  | 5 => some .a
  | 6 => some .x
  | 7 => some .s
  | _ => none

/-- Every context of a core. -/
def allCtx : List CtxId := [.a, .x, .s]

/-- Every queue of a core, in order of its number. -/
def allQueues : List Queue := [.lq, .sq, .mq, .vq, .kq]

def queueNum (q : Queue) : Nat := (queueCode q).toNat

/-! ### Registers, predicates, guards -/

/-- A scalar register; `x0` reads zero (R9, R20). -/
def Ctx.reg (x : Ctx) (r : Reg) : Word := if r = 0 then 0 else x.regs[r.toNat]

/-- Writes a scalar register; `x0` discards (R20). -/
def Ctx.setReg (x : Ctx) (r : Reg) (v : Word) : Ctx := if r = 0 then x else { x with regs := x.regs.set r.toNat v }

/-- A predicate; `p0` reads true. -/
def Ctx.pred (x : Ctx) (p : BitVec 3) : Bool := if p = 0 then true else x.preds.getLsbD p.toNat

/-- Writes a predicate; `p0` discards (R20). -/
def Ctx.setPred (x : Ctx) (p : BitVec 3) (v : Bool) : Ctx :=
  if p = 0 then x
  else { x with preds := if v then x.preds ||| (1#8 <<< p.toNat) else x.preds &&& ~~~(1#8 <<< p.toNat) }

/-- A predicate specifier (R110). -/
def Ctx.pspec (x : Ctx) : PSpec → Bool
  | .p n => x.pred n
  | .k n => x.kmask.getLsbD n.toNat

/-- A guard holds: the predicate, negated when pn is set (R84). -/
def Ctx.guard (x : Ctx) (g : Guard) : Bool := x.pred g.p != g.n

/-- The guard of a long form (R87). -/
def Ctx.lguard (x : Ctx) : LGuard → Bool
  | .pred g => x.guard g
  | .stage j => x.kmask.getLsbD j.toNat

/-! ### Pending writes (R25-R27) -/

/-- Pending entries after one issue: the ones that stay, decremented. -/
def pendStay (l : List Pend) : List Pend := (l.filter (fun p => 1 < p.rem)).map (fun p => { p with rem := p.rem - 1 })

/-- The entries that land at this issue, oldest first; the latest-issued producer remains (R26). -/
def Ctx.landDue (x : Ctx) : Ctx := (x.pwb.filter (fun p => p.rem ≤ 1)).foldl (fun y p => y.setReg p.dest p.val) { x with pwb := pendStay x.pwb }

/-- Lands every pending entry in landing order: by remaining count, then by age (R29, R130). -/
def landAllFuel : Nat → Ctx → Ctx
  | 0, x => { x with pwb := [] }
  | n + 1, x => landAllFuel n x.landDue

/-- Lands every pending entry; no count exceeds 11 (R24). -/
def Ctx.landAll (x : Ctx) : Ctx := landAllFuel 16 x

/-- Schedules a write of latency `lat` (R24, R25): at the end of this issue, or as a pending entry. -/
def Ctx.put (x : Ctx) (d : Reg) (v : Word) (lat : Nat) : Ctx :=
  if d = 0 then x
  else if lat ≤ 1 then x.setReg d v
  else { x with pwb := x.pwb ++ [⟨d, lat - 1, v⟩] }

/-- An issue completes: pending entries count and land, the instruction's own effects on its context follow, `TICK` counts it (R25, R34). -/
def Ctx.retire (x : Ctx) (pc : Word) (eff : Ctx → Ctx) : Ctx :=
  let y := eff x.landDue
  { y with pc := pc, tick := y.tick + 1 }

/-- The instruction of latency `lat` would need a ninth entry (R27): eight stay after the landings of its own issue (log entry 8). -/
def Ctx.pwbFull (x : Ctx) (d : Reg) (lat : Nat) : Bool := d != 0 && decide (1 < lat) && decide (8 ≤ (pendStay x.pwb).length)

/-! ### Causes (R33) -/

namespace Cause
def illegal : Nat := 0x01
def reservedField : Nat := 0x02
def privilege : Nat := 0x03
def misalign : Nat := 0x04
def access : Nat := 0x05
def pageNotPresent : Nat := 0x06
def pagePermission : Nat := 0x07
def ptePoison : Nat := 0x08
def fqUnderflow : Nat := 0x09
def regionAlias : Nat := 0x0A
def chaseCycle : Nat := 0x0B
def engineFault : Nat := 0x0C
def gangTimeout : Nat := 0x0D
def parkFull : Nat := 0x0E
def oobIndex : Nat := 0x0F
def sparseMeta : Nat := 0x10
def uncorrectable : Nat := 0x11
def checkMismatch : Nat := 0x12
def resultUnresolved : Nat := 0x13
def collTimeout : Nat := 0x14
def msgLost : Nat := 0x15
def trap : Nat := 0x16
def brk : Nat := 0x17
def watchdog : Nat := 0x18
end Cause

/-- Causes that R33 delivers to the supervisor. -/
def toSupervisor (cause : Nat) : Bool := cause == Cause.resultUnresolved || cause == Cause.trap || cause == Cause.watchdog

/-- The `TVAL` of a resource limit (R23, R33). -/
def limitTval (code : Nat) : Word := 0x8000000000000000 + BitVec.ofNat 64 code

/-! ### Jobs -/

def jobFind : List Job → Nat → Option Job
  | [], _ => none
  | j :: l, n => if j.id = n then some j else jobFind l n

def Mach.job (m : Mach) (j : Nat) : Option Job := jobFind m.dev.jobs j

def Mach.onJob (m : Mach) (j : Nat) (f : Job → Job) : Mach :=
  m.onDev fun d => { d with jobs := d.jobs.map (fun b => if b.id = j then f b else b) }

/-- The job that a core runs. -/
def Mach.jobOf (m : Mach) (c : Nat) : Option Job := match (m.core c).job with | none => none | some j => m.job j

/-- Changes a member core of a job, as it was saved while it is pre-empted (R233, R356). -/
def Mach.onMember (m : Mach) (j : Option Nat) (g : Nat) (f : Core → Core) : Mach :=
  match j with
  | none => m.onCore g f
  | some n => match (m.job n).bind fun b => b.saved.find? fun s => s.core.id == g with
    | none => m.onCore g f
    | some _ => m.onJob n fun b => { b with saved := b.saved.map fun s => if s.core.id = g then { s with core := f s.core } else s }

/-- A gang's reservation on a member is released (R231). -/
def Mach.release (m : Mach) (j : Option Nat) (g : Nat) : Mach := m.onMember j g fun c => { c with reserved := c.reserved - 1 }

/-- Records the event that ends a job; the first one decides (R352). -/
def Mach.endJob (m : Mach) (j : Option Nat) (e : Ending) : Mach :=
  match j with
  | none => m
  | some n => m.onJob n fun b => if b.ending.isSome then b else { b with ending := some e }

/-! ### Traps (R28-R31) -/

/-- Entering the job's handler (R28). -/
def Ctx.enterHandler (x : Ctx) (cause : Nat) (tval epc : Word) : Ctx :=
  { x with savedPwb := x.pwb, pwb := [], epc := epc, cause := BitVec.ofNat 64 cause, tval := tval, inh := true, done := false, pc := x.tvec }

/-- A trap goes to the supervisor: in a handler, without a handler, or by its cause (R28, R30). -/
def Ctx.trapHeld (x : Ctx) (cause : Nat) : Bool := x.inh || x.tvec == 0 || toSupervisor cause

/-- Users of a command or an access release their translations (R158). -/
def Core.tlbRelease (c : Core) (uid : Nat) : Core :=
  { c with tlb := (c.tlb.map fun f => { f with users := f.users.filter fun u => u.1 != uid }).filter fun f => f.usable || !f.users.isEmpty }

/-- A format word that a waiting `enq` had bound returns to the head of the unbound words, and its translations are let go (R211, R148). -/
def Core.unbind (c : Core) (d : Cmd) : Core := ({ c with fmts := d.fmtw.toList ++ c.fmts }).tlbRelease d.uid

/-- The command that a waiting instruction has fixed (R148, R231). -/
def Wait.cmd : Wait → Option Cmd
  | .enq d => some d
  | .gang d _ _ _ _ => some d
  | .quiet .. => none

/-- What the contexts' waiting instructions have fixed, the latest first, with their contexts. -/
def Core.waiting (c : Core) : List (CtxId × Cmd) :=
  (allCtx.filterMap fun k => (c.ctx k).wait.bind Wait.cmd |>.map fun d => (k, d)).mergeSort fun p q => decide (q.2.uid ≤ p.2.uid)

/-- The format words that waiting instructions have bound, in the order of the bindings (R211). -/
def Core.boundWords (c : Core) : List Word := c.waiting.reverse.flatMap fun p => p.2.fmtw.toList

/-- Drops what a waiting instruction had fixed: a stalled instruction has not issued (R13, R211, R231). -/
def Mach.unwait (m : Mach) (c : Nat) (k : CtxId) : Mach :=
  match ((m.core c).ctx k).wait with
  | none => m
  | some w =>
    let m := match w with
      | .enq d => m.onCore c (·.unbind d)
      | .gang d _ _ got _ => got.foldl (fun m g => m.release (m.core c).job g) (m.onCore c (·.unbind d))
      | .quiet .. => m
    m.onCtx c k fun x => { x with wait := none }

/-- Every waiting instruction of a core is dropped, the latest first, so that the words they had bound stand in the order of their bindings (R211). -/
def Mach.unwaitAll (m : Mach) (c : Nat) : Mach := (((m.core c).waiting.map (·.1)) ++ allCtx).foldl (fun m k => m.unwait c k) m

/-- Taking an exception, the one operation for every cause: the handler is entered, or the context is held and the supervisor ends the job with the
cause (R28, R31, R352). The trapping instruction does not count as issued: pending entries keep their counts and `TICK` stands (log entry 59). -/
def Mach.trapEntry (m : Mach) (c : Nat) (k : CtxId) (cause : Nat) (tval epc : Word) : Mach :=
  let x := (m.core c).ctx k
  if x.trapHeld cause then
    ((m.unwait c k).onCtx c k fun y => { y with held := some ⟨cause, tval⟩ }).endJob (m.core c).job
      ⟨if cause = Cause.watchdog then 5 else if cause = Cause.resultUnresolved then 4 else 2, 0, tval, c, cause⟩
  else (m.unwait c k).onCtx c k fun y => y.enterHandler cause tval epc

/-- A precise trap of the instruction in the current slot. -/
def Mach.trap (m : Mach) (cause : Nat) (tval : Word) : Mach := m.trapEntry m.cid m.kid cause tval m.cur.pc

/-- Returning from the handler (R29). -/
def Ctx.leaveHandler (x : Ctx) : Ctx :=
  let y := x.landAll
  { y with pwb := y.savedPwb, savedPwb := [], inh := false, pc := y.epc, tick := y.tick + 1 }

/-! ### Completing a slot -/

/-- The address after a 32-bit instruction. -/
def Mach.pc4 (m : Mach) : Word := m.cur.pc + 4

/-- The issue completes at `pc` with effects on the context. -/
def Mach.fin (m : Mach) (pc : Word) (eff : Ctx → Ctx) : Mach := m.onCur (·.retire pc eff)

/-- The issue completes with the next address in order. -/
def Mach.fin4 (m : Mach) (eff : Ctx → Ctx) : Mach := m.fin m.pc4 eff

/-- The issue of a long form completes. -/
def Mach.fin8 (m : Mach) (eff : Ctx → Ctx) : Mach := m.fin (m.cur.pc + 8) eff

/-- The issue completes with a register write of latency `lat` (R24, R27). -/
def Mach.finWrite (m : Mach) (d : Reg) (v : Word) (lat : Nat) (pc : Word) (eff : Ctx → Ctx) : Mach :=
  if m.cur.pwbFull d lat then m.trap Cause.illegal (limitTval 0x09) else m.fin pc fun x => (eff x).put d v lat

/-- A guarded 32-bit instruction: with a false guard it only issues (R84, R104). -/
def Mach.guarded (m : Mach) (g : Guard) (body : Mach → Mach) : Mach := if m.cur.guard g then body m else m.fin4 id

/-- A register-to-register instruction: `d := f` of the context, with latency `lat`. -/
def Mach.regOp (m : Mach) (g : Guard) (d : Reg) (lat : Nat) (f : Ctx → Word) : Mach :=
  m.guarded g fun m => m.finWrite d (f m.cur) lat m.pc4 id

/-- An instruction that writes a predicate. -/
def Mach.predOp (m : Mach) (pd : BitVec 3) (f : Ctx → Bool) : Mach := m.fin4 fun x => x.setPred pd (f m.cur)

/-- A word of the current core's instruction store. -/
def Mach.imageWord (m : Mach) (pc : Nat) : BitVec 32 := BitVec.ofNat 32 (m.le (window m.cid + 0x300000 + pc) 4)

/-- The instruction word in the current slot, as `TVAL` reports it (R98). -/
def Mach.instrWord (m : Mach) : Word := (m.imageWord m.cur.pc.toNat).zeroExtend 64

/-- Both words of a long form, as `TVAL` reports them for `RESERVED_FIELD` (R98). -/
def Mach.instrWords (m : Mach) : Word := m.imageWord (m.cur.pc.toNat + 4) ++ m.imageWord m.cur.pc.toNat

/-- `ILLEGAL` on the current instruction, with its word. -/
def Mach.illegal (m : Mach) : Mach := m.trap Cause.illegal m.instrWord

/-! ### Association lists -/

/-- The value of a key; 0 when unlisted. -/
def natAt : List (Nat × Nat) → Nat → Nat
  | [], _ => 0
  | (k, v) :: l, a => if k = a then v else natAt l a

/-- Sets the value of a key, listing no zero and keeping keys rising. -/
def natSet : List (Nat × Nat) → Nat → Nat → List (Nat × Nat)
  | [], a, v => if v = 0 then [] else [(a, v)]
  | (k, w) :: l, a, v =>
    if a < k then (if v = 0 then (k, w) :: l else (a, v) :: (k, w) :: l)
    else if k = a then (if v = 0 then l else (a, v) :: l)
    else (k, w) :: natSet l a v

/-! ### Rings and the return queue (R21-R23) -/

def ringFind : List (CtxId × CtxId × List Word) → CtxId → CtxId → List Word
  | [], _, _ => []
  | (p, c, l) :: r, f, t => if p = f ∧ c = t then l else ringFind r f t

def ringSet : List (CtxId × CtxId × List Word) → CtxId → CtxId → List Word → List (CtxId × CtxId × List Word)
  | [], f, t, v => [(f, t, v)]
  | (p, c, l) :: r, f, t, v => if p = f ∧ c = t then (p, c, v) :: r else (p, c, l) :: ringSet r f t v

/-- The ring from one context to another. -/
def Core.ring (c : Core) (f t : CtxId) : List Word := ringFind c.rings f t

def Core.setRing (c : Core) (f t : CtxId) (v : List Word) : Core := { c with rings := ringSet c.rings f t v }

/-- Sets a context's event latch (R138). -/
def Core.latch (c : Core) (k : CtxId) : Core := c.onCtx k fun x => { x with latch := true }

/-- Sets the latches of all three contexts (R138: a frontier, a counter). -/
def Core.latchAll (c : Core) : Core := allCtx.foldl Core.latch c

/-- Sets the latches of every context of a cluster (R138: a publish slot). -/
def Mach.latchCluster (m : Mach) (g : Nat) : Mach :=
  m.onDev fun d => { d with cores := d.cores.map fun p => if p.1 / 32 = g / 32 then (p.1, p.2.latchAll) else p }

/-- A fresh number. -/
def Mach.fresh (m : Mach) : Nat := m.dev.uid

def Mach.bump (m : Mach) : Mach := m.onDev fun d => { d with uid := d.uid + 1 }

/-- The next free value, and the counter advanced (log entry 6). -/
def Mach.freeVal (m : Mach) : Word := Config.freeWord m.dev.free

def Mach.bumpFree (m : Mach) : Mach := m.onDev fun d => { d with free := d.free + 1 }

/-- Sixteen RQ entries are allocated (R23). -/
def Ctx.rqFull (x : Ctx) : Bool := decide (16 ≤ x.rq.length)

/-- Allocates an RQ entry (R22). -/
def Ctx.rqAlloc (x : Ctx) (id : Nat) : Ctx := { x with rq := x.rq ++ [⟨id, none, none⟩] }

/-- Fills an RQ entry of a context and sets its latch (R22, R138). -/
def Ctx.rqFill (x : Ctx) (id : Nat) (v : Word) (poison : Option Word) : Ctx :=
  { x with rq := x.rq.map (fun e => if e.id = id then { e with val := some v, poison := poison } else e), latch := true }

/-! ### Token FIFOs (02_core, end; R58, R117) -/

def tokFind : List (Nat × Nat × Int) → Nat → Nat → Int
  | [], _, _ => 0
  | (p, c, n) :: r, f, t => if p = f ∧ c = t then n else tokFind r f t

def tokSet : List (Nat × Nat × Int) → Nat → Nat → Int → List (Nat × Nat × Int)
  | [], f, t, v => [(f, t, v)]
  | (p, c, n) :: r, f, t, v => if p = f ∧ c = t then (p, c, v) :: r else (p, c, n) :: tokSet r f t v

/-- The count of the FIFO from producer `p` to consumer `c`. -/
def Core.tok (k : Core) (p c : Nat) : Int := tokFind k.tokens p c

def Core.setTok (k : Core) (p c : Nat) (n : Int) : Core := { k with tokens := tokSet k.tokens p c n }

/-- The FIFO takes a token now: fewer than 15, and none held ahead of it by a squash (R58). -/
def Core.tokRoom (k : Core) (p c : Nat) : Bool := decide (k.tok p c < 15) && !(k.heldTokens.any fun h => h.1 == p && h.2.1 == c)

/-- Pushes one token; a context that receives one has its latch set (R138). -/
def Core.tokPush (k : Core) (p c : Nat) : Core :=
  let k := k.setTok p c (k.tok p c + 1)
  match endpointCtx c with
  | some x => k.latch x
  | none => k

/-- Takes one token off the count. -/
def Core.tokPop (k : Core) (p c : Nat) : Core := k.setTok p c (k.tok p c - 1)

/-- The endpoints that a mask names. -/
def maskBits (mask : BitVec 8) : List Nat := (List.range 8).filter mask.getLsbD

/-! ### Queues -/

def Core.queue (c : Core) : Queue → List Cmd
  | .lq => c.lq
  | .sq => c.sq
  | .mq => c.mq
  | .vq => c.vq
  | .kq => c.kq

def Core.setQueue (c : Core) (q : Queue) (l : List Cmd) : Core :=
  match q with
  | .lq => { c with lq := l }
  | .sq => { c with sq := l }
  | .mq => { c with mq := l }
  | .vq => { c with vq := l }
  | .kq => { c with kq := l }

/-- Every command present on a core. -/
def Core.cmds (c : Core) : List Cmd := c.lq ++ c.sq ++ c.mq ++ c.vq ++ c.kq

def Core.cmd (c : Core) (u : Nat) : Option Cmd := c.cmds.find? (fun d => d.uid == u)

/-- Changes the command with an identifier. -/
def Core.onCmd (c : Core) (u : Nat) (f : Cmd → Cmd) : Core :=
  allQueues.foldl (fun c q => c.setQueue q ((c.queue q).map fun d => if d.uid = u then f d else d)) c

/-- Removes a command from its queue. -/
def Core.dropCmd (c : Core) (u : Nat) : Core :=
  allQueues.foldl (fun c q => c.setQueue q ((c.queue q).filter fun d => d.uid != u)) c

/-- Entries of a queue that are taken: commands and, in MQ, gang reservations (R231). Refetches take none (R186). -/
def Core.used (c : Core) (q : Queue) : Nat :=
  ((c.queue q).filter fun d => !d.refetch).length + (match q with | .mq => c.reserved | _ => 0)

def Core.queueFull (c : Core) (q : Queue) : Bool := decide (Config.queueDepth (queueNum q) ≤ c.used q)

/-- DRAINLIM has passed since the core entered STOPPING (R355). -/
def Core.drained (k : Core) (now : Nat) : Bool := k.life == .stopping && decide (k.drainlim.toNat ≤ now - k.stopAt)

/-- An answer to the outside. -/
def Mach.reply (m : Mach) (r : Reply) : Mach := m.onDev fun d => { d with outbox := d.outbox ++ [r] }

/-- A change that the management session asks of the supervisor; in the boot ROM no supervisor runs, and it is refused (R420, R427). -/
def Mach.managed (m : Mach) (f : Mach → Mach) : Mach := if m.dev.inRom then m.reply (.refused 0) else f m

/-! ### Nolham ports (R410, R414, R425) -/

/-- A port that has not come up. -/
def Port.unset (n : Nat) : Port where
  num := n
  up := false
  epoch := 0
  seq := 0
  frames := []
  waiting := []
  credits := List.replicate 6 0
  inj := []
  lost := []

def Dev.port (d : Dev) (n : Nat) : Port := (d.ports.find? fun p => p.num == n).getD (Port.unset n)

/-- Puts a port's state in place, keeping numbers rising. -/
def portSet : List Port → Port → List Port
  | [], p => [p]
  | q :: l, p => if p.num < q.num then p :: q :: l else if p.num = q.num then p :: l else q :: portSet l p

def Dev.onPort (d : Dev) (n : Nat) (f : Port → Port) : Dev := { d with ports := portSet d.ports (f (d.port n)) }

/-- A new epoch, and sequence numbers begin again (R425). -/
def Port.rekey (p : Port) : Port := { p with epoch := p.epoch + 1, seq := 0 }

/-- A frame goes out: it takes a credit of its class and the next sequence number, and stays in the replay buffer; the link is rekeyed before the number
reaches 2^48 (R414, R425). -/
def Port.send (p : Port) (f : Frame) : Port :=
  let p := { p with credits := p.credits.modify f.cls (· - 1), frames := p.frames ++ [{ f with seq := p.seq }], seq := p.seq + 1 }
  if 2 ^ 48 ≤ p.seq + 1 then p.rekey else p

/-- The frame that goes out next: of the waiting ones whose class has a credit the oldest, a WAVE frame ahead of every other class (R414). -/
def Port.next (p : Port) : Option Frame :=
  let ready := p.waiting.filter fun f => decide (0 < p.credits.getD f.cls 0)
  (ready.find? fun f => f.cls == 3).orElse fun _ => ready.head?

/-- Every waiting frame that may go out does. -/
def Port.flush (p : Port) : Nat → Port
  | 0 => p
  | n + 1 => match p.next with
    | none => p
    | some f => Port.flush ({ p with waiting := p.waiting.filter fun g => g.id != f.id }.send f) n

/-- An answer that leaves on the Nolham fabric in a frame of a class, on the lowest port that is up: the fabric's routes are not given (log entry 69). -/
def Mach.transmit (m : Mach) (cls : Nat) (r : Reply) : Mach :=
  let m := m.reply r
  match m.dev.ports.find? fun p => p.up with
  | none => m
  | some p =>
    let f : Frame := { id := m.fresh, cls := cls, seq := 0, replays := 0, counted := [] }
    (m.onDev fun d => d.onPort p.num fun p => { p with waiting := p.waiting ++ [f] }.flush (p.waiting.length + 1)).bump

/-- Nolham transactions that were held come up again, in the order they were sent (log entry 4). -/
def Mach.wake (m : Mach) : Mach := m.onDev fun d => { d with agenda := (d.deferred.map fun p => Move.event p.2) ++ d.agenda, deferred := [] }

/-- Adds a record to the error log; a full log loses its oldest (R264). -/
def Mach.logErr (m : Mach) (kind : Nat) (c : Nat) (addr auxv : Word) (phase : Nat) : Mach :=
  m.onDev fun d =>
    let r : ErrRec := ⟨d.now * 2 / 3, addr, auxv, phase % 65536, c, (coreGet d.cores c).job.getD 0, kind⟩
    if d.errlog.length < 4096 then { d with errlog := d.errlog ++ [r] }
    else { d with errlog := d.errlog.drop 1 ++ [r], errOver := d.errOver + 1 }

end Sys2Proof.Machine
end

