-- ==== Sys2Proof/Machine/Flags.lean ====
section
/-! DEFINITION. Flags that the storages carry: zero flags (R38), poison marks (R246, R247) and substitution marks (R315). -/

namespace Sys2Proof.Machine

/-- The unit of poison that holds a physical address: its base and size (R246, R247). -/
def unitOf (pa : Nat) : Nat × Nat :=
  if pa < Config.onchipBase then (pa / 32 * 32, 32)
  else match storageAt ((pa - Config.onchipBase) % 2 ^ 22) with
    | some .trf => (pa / 4 * 4, 4)
    | some .region => (pa / 16 * 16, 16)
    | some .istore => (pa / 4 * 4, 4)
    | _ => (pa / 32 * 32, 32)

/-- The first poisoned unit that a byte of [pa, pa + n) lies in. -/
def Dev.poisonIn (d : Dev) (pa n : Nat) : Option Nat := (List.range n).findSome? fun i =>
  let u := (unitOf (pa + i)).1
  if d.poison.contains u then some u else none

/-- Inserts a unit in a rising list without repeats. -/
def unitInsert : List Nat → Nat → List Nat
  | [], u => [u]
  | v :: l, u => if u < v then u :: v :: l else if u = v then v :: l else v :: unitInsert l u

/-- Marks a unit poisoned. -/
def Dev.poisonUnit (d : Dev) (u : Nat) : Dev := { d with poison := unitInsert d.poison u }

/-- Clears a unit's mark. -/
def Dev.cleanUnit (d : Dev) (u : Nat) : Dev := { d with poison := d.poison.filter (· != u) }

/-- The scratchpad word of a physical address carries a substitution mark (R315). -/
def Dev.substAt (d : Dev) (pa : Nat) : Bool := d.subst.contains (pa / 32 * 32)

/-- The zero flag of the word or sector of `size` bytes at a physical address: its bits are zero and it is not poisoned (R38; log entry 3). -/
def Mach.zeroFlag (m : Mach) (pa size : Nat) : Bool := ((m.bytes pa size).all (· == 0)) && !(m.dev.poison.contains pa)

/-- The scratchpad words, by physical address, that [pa, pa + n) touches. -/
def wordsOf (pa n : Nat) : List Nat := (List.range ((pa + n + 31) / 32 - pa / 32)).map fun i => pa / 32 * 32 + 32 * i

/-- A write to on-chip storage: the bytes, and the substitution marks of the words it touches cleared (R315). -/
def Mach.store (m : Mach) (pa : Nat) (bs : List Byte) : Mach :=
  let m := m.wrBytes pa bs
  if m.dev.subst.isEmpty then m
  else m.onDev fun d => { d with subst := d.subst.filter fun u => !(wordsOf pa bs.length).contains u }

/-- The local address of an on-chip physical address, and a memory address unchanged: what `TVAL` reports for a poisoned unit (R229; log entry 10). -/
def reportAddr (u : Nat) : Word := BitVec.ofNat 64 (if u < Config.onchipBase then u else (u - Config.onchipBase) % 2 ^ 22)

end Sys2Proof.Machine
end

