-- ==== Sys2Proof/Machine/Operands.lean ====
section
/-! DEFINITION. Operand forms: loop nests, traversal orders, footprints and their inverse (R39-R44), the resolution of a record's bases (R143-R146) and of
region registers (R273-R275), chase edges and their conditions (R45-R55). -/

namespace Sys2Proof.Machine

/-! ### Element formats (R95) -/

/-- Bits stored per element of a format code; none for an unassigned code. -/
def fmtBits : Nat → Option Nat
  | 0x00 | 0x01 | 0x09 => some 4
  | 0x02 | 0x03 | 0x0A | 0x0B | 0x0C | 0x0D | 0x11 => some 8
  | 0x04 | 0x05 | 0x0E | 0x0F => some 16
  | 0x06 | 0x07 | 0x10 => some 32
  | _ => none

/-- Nibbles stored per element; 0 for an unassigned code. -/
def fmtNibs (f : Nat) : Nat := (fmtBits f).getD 0 / 4

/-- Bytes that one element must be aligned to: its size, and 1 for a 4-bit format (R146). -/
def fmtAlign (f : Nat) : Nat := max 1 ((fmtBits f).getD 8 / 8)

/-- Formats of the matrix operands (R95). -/
def fmtMatrix (f : Nat) : Bool := (fmtBits f).isSome && !(f == 0x05 || f == 0x06 || f == 0x07 || f == 0x10 || f == 0x11)

/-- Integer formats (R190). -/
def fmtInt (f : Nat) : Bool := f ≤ 0x07

/-- Signed integer formats. -/
def fmtSigned (f : Nat) : Bool := f == 0x00 || f == 0x02 || f == 0x04 || f == 0x06

/-! ### Nests (R39-R44) -/

/-- Iterations of a nest. -/
def Nest.total (d : Nest) : Nat := d.trips.foldl (· * ·) 1

def Nest.trip (d : Nest) (l : Nat) : Nat := d.trips.getD l 1

def Nest.stride (d : Nest) (l : Nat) : Int := d.strides.getD l 0

/-- The tile size of an order code (R41). -/
def tileSize : Nat → Option Nat
  | 2 => some 8
  | 3 => some 32
  | _ => none

/-- The iteration whose traversal index is `n` (R41); ORDER 5 is walked as ROW (R151). -/
def Nest.iter (d : Nest) (n : Nat) : List Nat :=
  let t0 := d.trip 0
  let t1 := d.trip 1
  let r := n % (t0 * t1)
  let i2 := n / (t0 * t1) % d.trip 2
  let i3 := n / (t0 * t1) / d.trip 2
  match tileSize d.order with
  | some t =>
    let b := r / (t * t)
    let o := r % (t * t)
    [b % (t0 / t) * t + o % t, b / (t0 / t) * t + o / t, i2, i3]
  | none => if d.order = 4 then [t0 - 1 - r % t0, r / t0, i2, i3] else [r % t0, r / t0, i2, i3]

/-- The traversal index of an iteration (R41). -/
def Nest.index (d : Nest) (it : List Nat) : Nat :=
  let i0 := it.getD 0 0
  let i1 := it.getD 1 0
  let w := it.getD 2 0 + d.trip 2 * it.getD 3 0
  let u := d.trip 0 * d.trip 1 * w
  match tileSize d.order with
  | some t => t * t * (i0 / t + d.trip 0 / t * (i1 / t)) + i0 % t + t * (i1 % t) + u
  | none => (if d.order = 4 then d.trip 0 - 1 - i0 else i0) + d.trip 0 * (i1 + d.trip 1 * w)

/-- The nibble address of an iteration's element (R39, R146). -/
def Nest.addrOf (d : Nest) (it : List Nat) : Int :=
  d.base + d.esz * ((List.range 4).foldl (fun acc l => acc + (it.getD l 0 : Int) * d.stride l) 0)

/-- The nibble address of the element of traversal index `n`. -/
def Nest.addr (d : Nest) (n : Nat) : Int := d.addrOf (d.iter n)

/-- The bytes [lo, hi) that `n` nibbles from a nibble address share (R146). -/
def nibBytes (a : Int) (n : Nat) : Int × Int := (a.fdiv 2, (a + n + 1).fdiv 2)

/-- The bytes of the element of index `n`. -/
def Nest.elemBytes (d : Nest) (n : Nat) : Int × Int := nibBytes (d.addr n) d.esz

/-- The footprint in bytes (R40, R146). -/
def Nest.footprint (d : Nest) : Int × Int :=
  let span := (List.range 4).map fun l => d.stride l * ((d.trip l : Int) - 1)
  let lo := d.base + d.esz * (span.foldl (fun a s => a + min 0 s) 0)
  let hi := d.base + d.esz * (span.foldl (fun a s => a + max 0 s) 0 + 1)
  (lo.fdiv 2, (hi + 1).fdiv 2)

/-- The levels that take part: number, trip count, stride (R42). -/
def Nest.levels (d : Nest) : List (Nat × Nat × Int) :=
  ((List.range 4).map fun l => (l, d.trip l, d.stride l)).filter fun v => 1 < v.2.1

/-- The stride declaration of an order code (R41, R42). -/
def Nest.declared (d : Nest) : Bool :=
  let smallest (l : Nat) (except : List Nat) : Bool := (d.levels.filter fun v => v.1 = l).all fun v =>
    (d.levels.filter fun w => w.1 != l && !except.contains w.1).all fun w => decide (v.2.2.natAbs < w.2.2.natAbs)
  match d.order with
  | 0 => smallest 0 []
  | 1 => smallest 1 [] && smallest 0 [1]
  | 2 => smallest 0 [] && d.trip 0 % 8 == 0 && d.trip 1 % 8 == 0
  | 3 => smallest 0 [] && d.trip 0 % 32 == 0 && d.trip 1 % 32 == 0
  | 4 => smallest 0 []
  | _ => d.order == 5

/-- Inserts a level, largest stride first. -/
def levelInsert (v : Nat × Nat × Int) : List (Nat × Nat × Int) → List (Nat × Nat × Int)
  | [] => [v]
  | w :: l => if w.2.2 < v.2.2 then v :: w :: l else w :: levelInsert v l

/-- Participating levels, largest stride first (R43). -/
def Nest.sorted (d : Nest) : List (Nat × Nat × Int) := d.levels.foldl (fun acc v => levelInsert v acc) []

/-- The test of R43 on sorted levels. -/
def invertibleLevels : List (Nat × Nat × Int) → Bool
  | [] => true
  | v :: l => decide (0 < v.2.2) && decide ((l.foldl (fun acc w => acc + w.2.2 * ((w.2.1 : Int) - 1)) 0) < v.2.2) && invertibleLevels l

def Nest.invertible (d : Nest) : Bool := invertibleLevels d.sorted

/-- `locate` on sorted levels (R44): indices by level, none for OUTSIDE. -/
def locateLevels : List (Nat × Nat × Int) → Int → Option (List (Nat × Nat))
  | [], r => if r = 0 then some [] else none
  | (l, t, s) :: rest, r =>
    if s = 0 then none
    else
      let i := r / s
      if i < 0 ∨ (t : Int) ≤ i then none
      else (locateLevels rest (r - i * s)).map fun is => (l, i.toNat) :: is

/-- The index of the iteration that covers a nibble, for an invertible operand (R44). -/
def Nest.idxNib (d : Nest) (a : Int) : Option Nat :=
  if a < d.base ∨ d.esz = 0 then none
  else (locateLevels d.sorted ((a - d.base) / d.esz)).map fun is => d.index ((List.range 4).map fun l => natAt is l)

/-- The largest index of an element that shares a byte of [lo, hi) (R47). -/
def Nest.idxBytes (d : Nest) (lo hi : Int) : Option Nat :=
  (List.range (2 * (hi - lo).toNat)).foldl (fun acc (i : Nat) =>
    match d.idxNib (2 * lo + (i : Int)), acc with
    | none, b => b
    | some x, none => some x
    | some x, some b => some (max x b)) none

/-- Some element shares a byte of [lo, hi): for operands that are not invertible (R50). -/
def Nest.touches (d : Nest) (lo hi : Int) : Bool := (List.range d.total).any fun n =>
  let b := d.elemBytes n
  decide (b.1 < hi) && decide (lo < b.2)

/-- An operand over a nest. -/
def Operand.of (d : Nest) (dst : Bool) (whole : Bool) : Operand :=
  let f := d.footprint
  ⟨d, dst, whole || (!dst && !d.invertible) || (dst && d.order == 5), f.1, f.2⟩

/-- An operand held as an interval of bytes (R40, R170, R213). -/
def Operand.interval (sp : Space) (lo hi : Int) (dst : Bool) : Operand := ⟨⟨sp, 2 * lo, (2 * (hi - lo)).toNat, [1, 1, 1, 1], [0, 0, 0, 0], 5⟩, dst, true, lo, hi⟩

/-- Two operands share a byte of their footprints in one space (R40). -/
def Operand.overlaps (a b : Operand) : Bool := a.nest.space == b.nest.space && decide (a.lo < b.hi) && decide (b.lo < a.hi)

/-- Exactly in place (R55). An indexed operand is compared as the interval that bounds it: its low end and its length, with trips of 1 (log entry 80). -/
def Operand.inPlace (a b : Operand) : Bool :=
  a.nest.base == b.nest.base && a.nest.esz == b.nest.esz &&
  (List.range 4).all fun l => (a.nest.trip l ≤ 1 && b.nest.trip l ≤ 1) || (a.nest.trip l == b.nest.trip l && a.nest.stride l == b.nest.stride l)

/-- Some source overlaps the operand, a destination, without being exactly in place (R55). -/
def Operand.broken (d : Operand) (ops : List Operand) : Bool := d.dst && ops.any fun s => !s.dst && s.overlaps d && !s.inPlace d

/-- Some source overlaps some destination without being exactly in place (R55). -/
def aliasBroken (ops : List Operand) : Bool := ops.any fun d => d.broken ops

/-! ### Frontiers and edges (R45-R54) -/

/-- The opcode of a command's record. -/
def Cmd.opc (c : Cmd) : Nat := match c.work with | .record r => r.opc.toNat | _ => 0

/-- The order code of a command (R41): its record's; a vector instruction walks its elements in ROW order. -/
def Cmd.order (c : Cmd) : Nat := match c.work with | .record r => r.order.toNat | .vec .. => 0

/-- A `drain` whose format word asks for MX output (R204, R209). -/
def Cmd.mxDrain (c : Cmd) : Bool := c.opc == 0x23 && (match c.fmtw with | some w => w.getLsbD 46 | none => false)

/-- A `tload` or `tstore`, whose line may have a second part as operand 2 (R226). -/
def Cmd.lineTail (c : Cmd) : Bool := match c.work with | .vec (.tload ..) .. => true | .vec (.tstore ..) .. => true | _ => false

/-- The operand of a line's first part. -/
def Cmd.lineOp (c : Cmd) : Nat := match c.work with | .vec (.tstore ..) .. => 1 | _ => 0

/-- The command stands faulted on the index that it has just read (R171): a store to that index may pass, so that a handler can repair it (R178;
log entry 15). -/
def Cmd.indexRead (c : Cmd) : Bool := match c.fault with | some f => f.sub == Cause.oobIndex && f.pos == c.n | none => false

/-- The frontier of operand `op` of a command: F of a destination, G of a source (R45, R46, R219, R222). A nullified command and an ORDER 5 destination
show 0 until the end; that is held by `whole` in the edge. The A operand of an `mmul` counts the elements of whole rows (R220). -/
def Cmd.front (c : Cmd) (op : Nat) : Nat :=
  if c.lineTail && op == 2 then c.n - ((c.ops[c.lineOp]?.map (·.nest.total)).getD 0)
  else if c.opc == 0x22 && op == 1 then
    match c.ops with
    | d :: a :: _ => c.n / d.nest.trip 0 * a.nest.trip 0
    | _ => c.n
  else if c.mxDrain && op == 0 then c.n / 32 * 32
  else if c.mxDrain && op == 1 then c.n / 32
  else if c.opc == 0x21 && op == 1 then c.n / 2
  else if op == 2 && c.indexRead then c.n + 1
  else c.n

/-- A query of a summary (R321). -/
def Cmd.query? (c : Cmd) : Bool :=
  match c.work with
  | .vec (.squeryQuant ..) .. | .vec (.squeryRank ..) .. | .vec (.squeryCount ..) .. | .vec (.squeryEntry ..) .. | .vec (.squeryEst ..) .. => true
  | _ => false

/-- F as `PF`, `fread` and `fwait` show it (R45, R351): 0 until the end under ORDER 5, for a nullified command, and for a query of a summary
(R317). Under ORDER 5 the end is the retirement (log entry 64). A command without a destination shows 0 under ORDER 5 too, and under another order the
elements done (log entry 81). -/
def Cmd.shownF (c : Cmd) : Nat :=
  match c.ops.head? with
  | none => 0
  | some o => if c.null || c.order == 5 || (o.dst && o.nest.order == 5) || c.query? then 0 else c.front 0

/-- An earlier entry as the checker compares it: its identifier, the phase of a command (R184), and operands with their numbers. -/
def entryOps (c : Core) : List (Nat × Option Nat × Nat × Operand) :=
  (c.cmds.flatMap fun d => d.ops.mapIdx fun i o => (d.uid, d.phase, i, { o with whole := o.whole || d.null })) ++
  ((c.accs.filter fun a => a.op == .store).map fun a => (a.uid, none, 0, Operand.interval .virt a.va (a.va + a.bytes) true))

/-! ### Visibility within a core (R238) -/

/-- The access writes at its home. -/
def Acc.writes (a : Acc) : Bool := a.op != .load && a.op != .fence

/-- The stores and atomics in flight that are visible to a viewer; a context's own are visible to it (R236, R238). -/
def Core.visible (c : Core) (v : Viewer) : List Nat :=
  ((c.sees.filter fun p => p.1 == v).map (·.2)) ++
  (match v with | .ctx k => (c.accs.filter fun a => a.ctx == k && a.writes).map (·.uid) | _ => [])

/-- Every core of the device, and every saved image of one. -/
def Dev.everyCore (d : Dev) : List Core := d.cores.map (·.2) ++ d.jobs.flatMap fun j => j.saved.map (·.core)

/-- The accesses in flight of every core. -/
def Dev.flying (d : Dev) : List Acc := d.everyCore.flatMap (·.accs)

/-- None of some accesses is in flight. -/
def Dev.gone (d : Dev) (us : List Nat) : Bool := us.all fun u => d.flying.all fun a => a.uid != u

/-- Accesses become visible to `v`. -/
def Core.reveal (c : Core) (v : Viewer) (us : List Nat) : Core := { c with sees := c.sees ++ (us.filter fun u => !c.sees.contains (v, u)).map fun u => (v, u) }

/-- What is visible to `a` becomes visible to `b`: through a token, a ring entry or an enqueuing (R238, R239). -/
def Core.flow (c : Core) (a b : Viewer) : Core := c.reveal b (c.visible a)

/-- The tokens that a squash has left held for a FIFO (R58). -/
def Core.heldFor (c : Core) (p t : Nat) : List (Nat × Nat × Option Nat) := c.heldTokens.filter fun h => h.1 == p && h.2.1 == t

/-- The next token into a FIFO carries some accesses: its place is behind the tokens in the FIFO and those held for it. -/
def Core.carry (c : Core) (p t : Nat) (us : List Nat) : Core :=
  let i := c.tok p t + (c.heldFor p t).length
  if i < 0 then c else c.reveal (.token p t i.toNat) us

/-- A viewer as it stands after the oldest token of a FIFO, or the oldest entry of a ring, has left; none for what has left. -/
def Viewer.shift (first v : Viewer) : Option Viewer :=
  match first, v with
  | .token p t _, .token q u i => if q = p ∧ u = t then (if i = 0 then none else some (.token q u (i - 1))) else some v
  | .ring f k _, .ring g l i => if g = f ∧ l = k then (if i = 0 then none else some (.ring g l (i - 1))) else some v
  | _, _ => some v

/-- What the oldest token of a FIFO, or the oldest entry of a ring, carries leaves with it. -/
def Core.leave (c : Core) (first : Viewer) : Core := { c with sees := c.sees.filterMap fun e => (first.shift e.1).map fun v => (v, e.2) }

/-- Pops a token, which shows `v` what it carries (R238). -/
def Core.tokTake (c : Core) (p t : Nat) (v : Viewer) : Core := ((c.flow (.token p t 0) v).leave (.token p t 0)).tokPop p t

/-- The chase edges of a command's operands against every earlier entry (R49). -/
def buildEdges (c : Core) (ops : List Operand) : List Edge :=
  (ops.mapIdx fun i o => (i, o)).flatMap fun (i, o) =>
    ((entryOps c).filter fun e => (o.dst || e.2.2.2.dst) && o.overlaps e.2.2.2).map fun e =>
      ⟨i, e.1, e.2.2.1, e.2.2.2.nest, e.2.2.2.whole, e.2.1⟩

/-- An edge lets the chaser's element of bytes [lo, hi) through (R50): the chased entry is gone, shares no byte, or its frontier has passed. A `whole`
operand, such as an ORDER 5 destination, passes when its command has retired (R45; log entry 64). -/
def Core.edgeOk (c : Core) (e : Edge) (lo hi : Int) : Bool :=
  match c.cmd e.of with
  | some d =>
    if e.whole then !e.nest.touches lo hi
    else match e.nest.idxBytes lo hi with
      | none => true
      | some i => decide (i < d.front e.op)
  | none => !(c.accs.any fun a => a.uid == e.of) || !e.nest.touches lo hi

/-- Every edge of a command on its operand `own` lets [lo, hi) through. -/
def Core.edgesOk (c : Core) (edges : List Edge) (own : Nat) (lo hi : Int) : Bool := (edges.filter fun e => e.own == own).all fun e => c.edgeOk e lo hi

/-- The chased entries that hold back [lo, hi) of the operand `own` (R56). -/
def Core.blockers (c : Core) (edges : List Edge) (own : Nat) (lo hi : Int) : List Nat :=
  ((edges.filter fun e => e.own == own).filter fun e => !c.edgeOk e lo hi).map (·.of)

/-- A scalar access to [lo, hi) may proceed: as a reader it waits on destinations, as a writer on sources too (R52-R54). -/
def scalarEdges (c : Core) (sp : Space) (lo hi : Nat) (write : Bool) : List Edge :=
  buildEdges c [Operand.interval sp lo hi write]

/-! ### Space and base of a record's operand (R143-R146) -/

/-- Cores in a cluster, a die (00, "The package at a glance"). -/
def clusterOf (g : Nat) : Nat := g / 32
def dieOf (g : Nat) : Nat := g / 256

/-- The global core of a job core index (R329, R340). -/
def Job.coreOf (j : Job) (idx : Nat) : Option Nat := (j.clusters[idx / 32]?).map fun q => 32 * q + idx % 32

/-- A core belongs to the job's partition. -/
def Job.owns (j : Job) (g : Nat) : Bool := j.clusters.contains (clusterOf g)

/-- The job core index of a global core (R329). -/
def Job.indexOf (j : Job) (g : Nat) : Nat := 32 * (j.clusters.idxOf (clusterOf g)) + g % 32

/-- The members of a group as global cores, in member order (R338). -/
def Job.members (j : Job) (g : Nat) : Option (List Nat) :=
  match j.groups.find? fun p => p.1 == g with
  | none => none
  | some p => some (p.2.filterMap j.coreOf)

/-- A tag-2 sum: the core and the offset it names (R145). -/
def Mach.mapTarget (m : Mach) (c : Nat) (s : Nat) : Option (Nat × Nat) :=
  if 0x7F0000000000 ≤ s ∧ s ≤ 0x7F00FFFFFFFF then
    let g := (s - 0x7F0000000000) / 2 ^ 22
    match m.jobOf c with
    | some j => if j.owns g then some (g, s % 2 ^ 22) else none
    | none => if g = c then some (g, s % 2 ^ 22) else none
  else if 2 ^ 34 ≤ s then none
  else match m.jobOf c with
    | some j => match j.coreOf (s / 2 ^ 22) with | some g => some (g, s % 2 ^ 22) | none => none
    | none => if s / 2 ^ 22 = 0 then some (c, s) else none

/-- Physical register of a region-register name under an `RRB` (R274). -/
def physReg (n : Nat) (rrb : Nat) : Nat := if n < 1024 then n else 1024 + ((n - 1024 + rrb) % 1024)

namespace RegionReg
/-- BASE (R273). -/
def base (v : BitVec 128) : Nat := (v.extractLsb' 0 20).toNat
def peer (v : BitVec 128) : Nat := (v.extractLsb' 20 5).toNat
def remote (v : BitVec 128) : Bool := v.getLsbD 25
def count (v : BitVec 128) : Nat := (v.extractLsb' 27 16).toNat
def stride (v : BitVec 128) : Int := (v.extractLsb' 43 24).toInt
def fmt (v : BitVec 128) : Nat := (v.extractLsb' 67 5).toNat
/-- Reserved bits are zero (R273, R275). -/
def clean (v : BitVec 128) : Bool := v.extractLsb' 72 56 == 0 && !v.getLsbD 26
end RegionReg

/-- The core whose scratchpad a region lies in: the own core, or PEER of the cluster (R273). -/
def regionCore (g : Nat) (v : BitVec 128) : Nat := if RegionReg.remote v then clusterOf g * 32 + RegionReg.peer v else g

/-- The nest of the first `n` elements of a region (R273, R279, R280). -/
def regionNest (g : Nat) (v : BitVec 128) (n : Nat) : Nest :=
  ⟨.core (regionCore g v), 2 * RegionReg.base v, fmtNibs (RegionReg.fmt v), [n, 1, 1, 1], [RegionReg.stride v, 0, 0, 0], 0⟩

/-- A check that fails: the cause and the `TVAL`. -/
abbrev Check (α : Type) := Except (Nat × Word) α

/-- A failed check. -/
def fail {α : Type} (cause : Nat) (tval : Word) : Check α := .error (cause, tval)

/-- Requires a condition. -/
def need (b : Bool) (cause : Nat) (tval : Word) : Check Unit := if b then .ok () else .error (cause, tval)

/-- Resolves a region-register name (R274, R275); `iw` is what `TVAL` holds for a reserved bit. -/
def Mach.resolve (m : Mach) (g : Nat) (name rrb : Nat) (iw : Word) : Check (BitVec 128) :=
  let p := physReg name rrb
  let v := m.regionBits g p
  if m.dev.poison.contains (window g + 0x200000 + 16 * p) then fail Cause.uncorrectable (BitVec.ofNat 64 (0x200000 + 16 * p))
  else if RegionReg.clean v then .ok v else fail Cause.reservedField iw

/-- The addition to a base below its tag (R143). -/
def addBase (b x : Word) : Word := (b &&& 0xF000000000000000) ||| ((b + x) &&& 0x0FFFFFFFFFFFFFFF)

/-- The tag of a completed base. -/
def baseTag (b : Word) : Nat := b.toNat / 2 ^ 60

/-- The field of a completed base below its tag. -/
def baseLow (b : Word) : Nat := b.toNat % 2 ^ 60

/-- The base that `TVAL` reports for an operand whose checks fail (R144, R146): the completed sum below its tag, or the base that a region register gives
(log entry 14). -/
def baseVal (b : Word) (base : Nat) : Word := BitVec.ofNat 64 (if baseTag b = 3 then base else baseLow b)

/-- The step of R131 in which a check is made: the record's fields, the resolution of region registers, alignment and spaces (R144-R146), the storages that
an opcode asks for (R217), which belong to the same step. The first step that fails decides, and in it the lowest cause code (R6, R30). -/
inductive Stage where
  | fields
  | resolve
  | spaces
  | storage
  deriving DecidableEq, Repr

/-- A check with its step. -/
abbrev StagedCheck := Stage × Check Unit

/-- The failed check of lowest cause code, the first of equal ones (R30). -/
def lowest (cs : List (Check Unit)) : Option (Nat × Word) :=
  cs.foldl (fun acc c => match c, acc with
    | .error e, none => some e
    | .error e, some b => if e.1 < b.1 then some e else some b
    | .ok _, b => b) none

/-- The checks of some steps. -/
def ofStages (st : List Stage) (cs : List StagedCheck) : List (Check Unit) := (cs.filter fun c => st.contains c.1).map (·.2)

/-- The failed check that a record's `enq` reports (R131, R30). -/
def firstFailed (cs : List StagedCheck) : Option (Nat × Word) :=
  (lowest (ofStages [.fields] cs)).orElse fun _ => (lowest (ofStages [.resolve] cs)).orElse fun _ => lowest (ofStages [.spaces, .storage] cs)

/-- An operand's space and byte base after the addition, before its footprint is checked (R143-R145), or the check that fails with its step. `rrb` is that
of the enqueuing context, 0 for a handler record (R403). -/
def Mach.place (m : Mach) (g : Nat) (rrb : Nat) (b : Word) (dst : Bool) (iw : Word) : Except (Stage × Nat × Word) (Space × Nat) :=
  match baseTag b with
  | 0 => .ok (.virt, baseLow b)
  | 1 => .ok (.core g, baseLow b)
  | 2 => match m.mapTarget g (baseLow b) with
    | some (t, o) => .ok (.core t, o)
    | none => .error (.spaces, Cause.access, baseVal b 0)
  | 3 =>
    if 2048 ≤ baseLow b then .error (.resolve, Cause.illegal, iw)
    else match m.resolve g (baseLow b) rrb iw with
      | .error e => .error (.resolve, e)
      | .ok v => if dst && RegionReg.remote v then .error (.resolve, Cause.illegal, baseVal b (RegionReg.base v)) else .ok (.core (regionCore g v), RegionReg.base v)
  | _ => .error (.fields, Cause.illegal, iw)

/-- The checks of R144 and R145 on a footprint [lo, hi): inside its space, and in one storage. -/
def footprintOk (sp : Space) (b : Word) (base : Nat) (lo hi : Int) (dst : Bool) : Check Unit :=
  let v := baseVal b base
  match sp with
  | .virt => need (decide (base < 2 ^ 57) && decide (0 ≤ lo) && decide (hi ≤ 2 ^ 57)) Cause.access v
  | .core _ =>
    if lo < 0 ∨ 2 ^ 24 ≤ base then fail Cause.access v
    else match oneStorage lo.toNat hi.toNat with
      | none => fail Cause.access v
      | some st => need (!(dst && st == .istore)) Cause.access v

/-- Physical address of a local offset of a core. -/
def localPa (g o : Nat) : Nat := window g + o

end Sys2Proof.Machine
end

