-- ==== Sys2Proof/Machine/Translate.lean ====
section
/-! DEFINITION. Address translation (R154-R160), the kinds of memory (R113, R419), key slots (R156, R341, R423, R424), replicated pages (R365-R367) and
reads and writes of memory at their home (R361, R364). -/

namespace Sys2Proof.Machine

/-- The kinds of memory at a physical address: HBM, CXL memory with an expander behind it (R419), or neither. -/
inductive MemKind where
  | hbm
  | cxl
  deriving DecidableEq, Repr

/-- The memory that holds every byte of [pa, pa + n) (R113, R419). -/
def Dev.memKind (d : Dev) (pa n : Nat) : Option MemKind :=
  if Config.hbmBase ≤ pa ∧ pa + n ≤ Config.hbmBase + Config.hbmBytes then some .hbm
  else if Config.cxlBase ≤ pa ∧ pa + n ≤ Config.cxlBase + d.cxlBytes then some .cxl
  else none

/-! ### Reads and writes at the home (R361, R423) -/

/-- The CXL home agent holds an access to [pa, pa + n): it has not completed one that overlaps it (R364). -/
def Dev.cxlBusy (d : Dev) (pa n : Nat) : Bool :=
  d.cores.any fun p => p.2.accs.any fun b => b.stage == .cxl && decide (b.pa < pa + n) && decide (pa < b.pa + b.bytes)

/-- The key slot's record. -/
def Dev.keySlot (d : Dev) (k : Nat) : Option KeySlot := d.keys.find? fun s => s.num == k

/-- The key that a slot holds now, as a number; 0 is the supervisor's in slot 0 (R423). An empty slot has a number that no key has. -/
def Dev.keyId (d : Dev) (k : Nat) : Nat :=
  match d.keySlot k with
  | some s => match s.key with
    | some v => v.toNat + 1
    | none => 2 ^ 513 + k
  | none => if k = 0 then 0 else 2 ^ 513 + k

/-- The key under which a sector was last written. -/
def Dev.sectorKey (d : Dev) (pa : Nat) : Nat := natAt d.sectorKeys (pa / 32 * 32)

/-- Bytes read at the home through a key slot: the bytes written under its key; other bytes decrypt to free values (R423; log entry 6). -/
def Mach.homeRead (m : Mach) (pa n key : Nat) : List Byte :=
  let id := m.dev.keyId key
  (m.bytes pa n).mapIdx fun i b => if m.dev.sectorKey (pa + i) = id then b else Config.wrongKeyByte (m.dev.free * 2 ^ 64 + pa + i)

/-- A sector that was written under another key is read through this slot before a part of it is written (R423). -/
def Mach.rekey (m : Mach) (sector key : Nat) : Mach :=
  if m.dev.sectorKey sector = m.dev.keyId key then m
  else (m.wrBytes sector (m.homeRead sector 32 key)).onDev fun d => { d with sectorKeys := natSet d.sectorKeys sector (d.keyId key) }

/-- Bytes written at the home through a key slot. -/
def Mach.homeWrite (m : Mach) (pa : Nat) (data : List Byte) (key : Nat) : Mach :=
  if data.isEmpty then m
  else ((List.range ((pa + data.length + 31) / 32 - pa / 32)).foldl (fun m i => m.rekey (pa / 32 * 32 + 32 * i) key) m).wrBytes pa data

/-! ### Replicated pages (R365, R366) -/

/-- The replica of a page of the replica table that an agent on a die reads; the page itself when it is not registered. -/
def Dev.replicaPa (d : Dev) (die pa : Nat) : Nat :=
  match d.replicas.find? fun r => decide (r.page ≤ pa) && decide (pa < r.page + r.size) with
  | none => pa
  | some r => (r.pages.getD die r.page) + (pa - r.page)

/-- An address lies in a page of the replica table. -/
def Dev.replicated (d : Dev) (pa : Nat) : Bool := d.replicas.any fun r => decide (r.page ≤ pa) && decide (pa < r.page + r.size)

/-- Gives `dst` the bytes, keys and poison marks of `size` bytes from `src`. -/
def Mach.copyPage (m : Mach) (src dst size : Nat) : Mach :=
  let m' := ((m.cells src (src + size)).foldl (fun m c => m.wr (dst + (c.1 - src)) c.2) (m.wipe dst (dst + size)))
  let inside (a : Nat) : Bool := decide (src ≤ a) && decide (a < src + size)
  m'.onDev fun d => { d with
    sectorKeys := (d.sectorKeys.filter fun p => inside p.1).foldl (fun l p => natSet l (dst + (p.1 - src)) p.2) d.sectorKeys
    poison := (d.poison.filter inside).foldl (fun l u => unitInsert l (dst + (u - src))) d.poison }

/-- The supervisor registers a replicated page by the time it is first translated: three blocks that have never been given, taken from the top of HBM
down, that hold what the page holds (R365; log entry 68). -/
def Mach.register (m : Mach) (page size : Nat) : Mach :=
  if m.dev.replicated page then m
  else
    let ps := [1, 2, 3].map fun i => (m.dev.topPage / size - i) * size
    (ps.foldl (fun m p => m.copyPage page p size) m).onDev fun d =>
      { d with replicas := d.replicas ++ [⟨page, size, page :: ps⟩], topPage := (d.topPage / size - 3) * size }

/-- The bytes of an update as they read through a key slot. -/
def Dev.updateBytes (d : Dev) (u : Update) (key : Nat) : List Byte :=
  if d.keyId u.key = d.keyId key then u.data else u.data.mapIdx fun i _ => Config.wrongKeyByte (d.free * 2 ^ 64 + u.pa + i)

/-- Overlays the updates on bytes at a page address of replica 0. -/
def Dev.overlay (d : Dev) (us : List Update) (key pa : Nat) (bs : List Byte) : List Byte :=
  bs.mapIdx fun i b => us.foldl (fun acc u => if u.pa ≤ pa + i ∧ pa + i < u.pa + u.data.length then (d.updateBytes u key).getD (pa + i - u.pa) acc else acc) b

/-- The value that the update order gives now at a replicated address, through a key slot (R365, R423). -/
def Mach.orderValue (m : Mach) (pa n key : Nat) : List Byte :=
  m.dev.overlay (m.dev.updates.filter fun u => m.dev.applied.getD 0 0 ≤ u.pos) key pa (m.homeRead (m.dev.replicaPa 0 pa) n key)

/-- The sequencer places a write (R365). -/
def Mach.sequence (m : Mach) (c uid pa key : Nat) (data : List Byte) : Mach :=
  m.onDev fun d => { d with updates := d.updates ++ [⟨d.nextUpdate, pa, data, key, c, uid⟩], nextUpdate := d.nextUpdate + 1 }

/-- Updates that every replica has applied leave the order. -/
def Dev.trimUpdates (d : Dev) : Dev :=
  let low := d.applied.foldl min (d.applied.getD 0 0)
  { d with updates := d.updates.filter fun u => low ≤ u.pos }

/-- The replica of a die applies its next update (R365). -/
def Mach.applyNext (m : Mach) (die : Nat) : Mach :=
  let p := m.dev.applied.getD die 0
  match m.dev.updates.find? fun u => u.pos == p with
  | none => m
  | some u => (m.homeWrite (m.dev.replicaPa die u.pa) u.data u.key).onDev fun d => ({ d with applied := d.applied.set die (p + 1) }).trimUpdates

/-- The replica of a die applies every update placed so far. -/
def Mach.applyAll (m : Mach) (die : Nat) : Mach := (List.range m.dev.updates.length).foldl (fun m _ => m.applyNext die) m

/-- Every update that the replica of a die has applied has been applied by the others too (R243, R365). -/
def Dev.dieSettled (d : Dev) (die : Nat) : Bool := d.updates.all fun u => decide (d.applied.getD die 0 ≤ u.pos)

/-! ### Page-table entries (R155) -/

namespace Pte
def v (e : Word) : Bool := e.getLsbD 0
def w (e : Word) : Bool := e.getLsbD 1
def et (e : Word) : Bool := e.getLsbD 2
def rep (e : Word) : Bool := e.getLsbD 3
def a (e : Word) : Bool := e.getLsbD 5
def d (e : Word) : Bool := e.getLsbD 6
def l (e : Word) : Bool := e.getLsbD 7
def c (e : Word) : Bool := e.getLsbD 8
/-- Physical address of the page or the next table: PPN in place. -/
def pa (e : Word) : Nat := (e.extractLsb' 12 40).toNat * 4096
def key (e : Word) : Nat := (e.extractLsb' 52 12).toNat
def reserved (e : Word) : Bool := e.extractLsb' 9 3 != 0
/-- Sets A, and D for a write (R156). -/
def touch (e : Word) (write : Bool) : Word := e ||| 0x20 ||| (if write then 0x40 else 0)
end Pte

/-- A leaf's KEY is a slot that the job may use: of its queue's domain, loaded, and not bound to another job (R156, R341, R424). -/
def Dev.keyOk (d : Dev) (j : Option Job) (k : Nat) : Bool :=
  match j, d.keySlot k with
  | some j, some s => j.domain == some s.domain && s.key.isSome && (s.job.isNone || s.job == some j.id)
  | _, _ => false

/-- The size of the page that a leaf at a level maps (R155). -/
def pageSize (level : Nat) (e : Word) : Nat := if level = 1 then (if Pte.c e then 65536 else 4096) else 4096 * 512 ^ (level - 1)

/-- The 16 entries of a C run agree, but for PPN bits [15:12] and the A and D that the device sets itself (R155; log entry 12). -/
def Mach.runOk (m : Mach) (at_ : Nat) (e : Word) : Bool :=
  let base := at_ / 128 * 128
  let keep : Word := ~~~(0xF060 : Word)
  (List.range 16).all fun i =>
    let f : Word := BitVec.ofNat 64 (leNat (m.homeRead (base + 8 * i) 8 0))
    (f &&& keep) == (e &&& keep) && (f.extractLsb' 12 4).toNat == i

/-- A walk for a job from the table of a level (R154, R156, R160): the machine with what the walk changed, and the leaf entry or a cause. An entry with C = 1
at another level than 1 is not present (log entry 89). -/
def Mach.walkFrom (m : Mach) (j : Option Job) (asid : Word) (va : Nat) (write : Bool) : Nat → Nat → Mach × Except Nat TlbEntry
  | 0, _ => (m, .error Cause.pageNotPresent)
  | level + 1, table =>
    let lv := level + 1
    let at_ := table + 8 * (va / 2 ^ (12 + 9 * level) % 512)
    if m.dev.poisonedTables.contains (table / 4096 * 4096) then (m, .error Cause.ptePoison)
    else if (m.dev.poisonIn at_ 8).isSome then
      (m.onDev fun d => { d with poisonedTables := unitInsert d.poisonedTables (table / 4096 * 4096) }, .error Cause.ptePoison)
    else
      let e : Word := BitVec.ofNat 64 (leNat (m.homeRead at_ 8 0))
      let leaf := lv = 1 ∨ Pte.l e
      if !Pte.v e ∨ Pte.reserved e ∨ (Pte.l e ∧ 4 ≤ lv) ∨ (Pte.c e ∧ lv ≠ 1) then (m, .error Cause.pageNotPresent)
      else if ¬leaf then m.walkFrom j asid va write level (Pte.pa e)
      else
        let size := pageSize lv e
        let pa := if size = 65536 then Pte.pa e / 65536 * 65536 else Pte.pa e
        if (size = 65536 ∧ !m.runOk at_ e) ∨ pa % size ≠ 0 ∨ (Pte.rep e ∧ Config.cxlBase ≤ pa) then (m, .error Cause.pageNotPresent)
        else if (write ∧ !Pte.w e) ∨ !m.dev.keyOk j (Pte.key e) then (m, .error Cause.pagePermission)
        else
          let e' := Pte.touch e write
          let m := if e' = e then m else m.homeWrite at_ (leBytes 8 e'.toNat) 0
          (if Pte.rep e then m.register pa size else m, .ok ⟨asid, va / size * size, size, pa, e', at_, [], true⟩)

/-- A five-level walk from `PTBASE` (R154). -/
def Mach.walk (m : Mach) (c va : Nat) (write : Bool) : Mach × Except Nat TlbEntry := m.walkFrom (m.jobOf c) (m.core c).asid va write 5 (m.core c).ptbase.toNat

/-- A walk for an address would read an entry that the CXL home agent holds for a write that has not completed (R364). -/
def Mach.walkBusy (m : Mach) (va : Nat) : Nat → Nat → Bool
  | 0, _ => false
  | level + 1, table =>
    let at_ := table + 8 * (va / 2 ^ (12 + 9 * level) % 512)
    let e : Word := BitVec.ofNat 64 (leNat (m.homeRead at_ 8 0))
    m.dev.cxlBusy at_ 8 ||
    (Pte.v e && (if level = 0 then Pte.c e && m.dev.cxlBusy (at_ / 128 * 128) 128 else !Pte.l e && m.walkBusy va level (Pte.pa e)))

/-- The addresses in [lo, hi), below a table of a level that maps from `va` on, that map a physical byte, in any of its replicas. -/
def Mach.mapsOnto (m : Mach) (pa : Nat) (lo hi : Int) : Nat → Nat → Nat → List Nat
  | 0, _, _ => []
  | level + 1, table, va =>
    let size := 2 ^ (12 + 9 * level)
    (List.range 512).flatMap fun i =>
      let va := va + i * size
      if hi ≤ va ∨ (va + size : Nat) ≤ lo then []
      else
        let e : Word := BitVec.ofNat 64 (leNat (m.homeRead (table + 8 * i) 8 0))
        if !Pte.v e then []
        else if level = 0 ∨ Pte.l e then
          ((List.range (if Pte.rep e then 4 else 1)).map fun die => m.dev.replicaPa die (Pte.pa e)).filterMap fun p =>
            if p ≤ pa ∧ pa < p + size then some (va + (pa - p)) else none
        else m.mapsOnto pa lo hi level (Pte.pa e) va

/-- The entry maps an address under the core's ASID (R157). -/
def TlbEntry.maps (e : TlbEntry) (c : Core) (va : Nat) : Bool := e.asid == c.asid && decide (e.va ≤ va) && decide (va < e.va + e.size)

/-- The buffer entry that serves an address for a user: the one that the user holds, which may have become unusable for others, or a usable one (R157,
R158). -/
def Core.tlbHit (c : Core) (va : Nat) (user : Nat × Nat) : Option TlbEntry :=
  match c.tlb.find? fun e => e.maps c va && e.users.contains user with
  | some e => some e
  | none => c.tlb.find? fun e => e.maps c va && e.usable

/-- Two entries are one. -/
def TlbEntry.same (e f : TlbEntry) : Bool := f.usable == e.usable && f.asid == e.asid && f.va == e.va && f.size == e.size && f.pa == e.pa

/-- A user leaves every entry but the one it now uses (R158). -/
def Core.tlbUse (c : Core) (e : TlbEntry) (user : Nat × Nat) : Core :=
  { c with tlb := (c.tlb.map fun f =>
      let us := f.users.filter (· != user)
      { f with users := if e.same f then us ++ [user] else us }).filter fun f => f.usable || !f.users.isEmpty }

/-- Puts a leaf in the buffer, in place of an older usable entry of the same page (R157). -/
def Core.tlbFill (c : Core) (e : TlbEntry) : Core :=
  match c.tlb.find? fun f => f.usable && f.asid == e.asid && f.va == e.va && f.size == e.size with
  | some _ => { c with tlb := c.tlb.map fun f => if f.usable && f.asid == e.asid && f.va == e.va && f.size == e.size then { f with leaf := e.leaf, pa := e.pa, leafAt := e.leafAt } else f }
  | none => { c with tlb := c.tlb ++ [e] }

/-- The first write through a held translation sets D in its leaf, at the leaf's home (R155, R156). -/
def Mach.dirty (m : Mach) (c : Nat) (e : TlbEntry) : Mach :=
  if Pte.d e.leaf then m
  else
    let now : Word := BitVec.ofNat 64 (leNat (m.homeRead e.leafAt 8 0))
    (m.homeWrite e.leafAt (leBytes 8 (Pte.touch now true).toNat) 0).onCore c fun k =>
      { k with tlb := k.tlb.map fun f => if f.leafAt = e.leafAt then { f with leaf := Pte.touch f.leaf true } else f }

/-- A translation for a user would wait: its walk, or the first write's change of the leaf, meets bytes that the CXL home agent holds (R364). -/
def Mach.transBusy (m : Mach) (c va : Nat) (write : Bool) (user : Nat × Nat) : Bool :=
  match (m.core c).tlbHit va user with
  | some e => write && !Pte.d e.leaf && m.dev.cxlBusy e.leafAt 8
  | none => m.walkBusy va 5 (m.core c).ptbase.toNat

/-- Translates an address for a user (R102, R154, R157, R158): through an entry of the buffer, whose leaf must allow the write and name a key slot of the
job (R156, R341, R424), or else by a walk that fills the buffer. -/
def Mach.translate (m : Mach) (c va : Nat) (write : Bool) (user : Nat × Nat) : Mach × Except Nat (Nat × Word) :=
  match (m.core c).tlbHit va user with
  | some e =>
    if (write ∧ !Pte.w e.leaf) ∨ !m.dev.keyOk (m.jobOf c) (Pte.key e.leaf) then (m, .error Cause.pagePermission)
    else
      let m := if write then m.dirty c e else m
      (m.onCore c fun k => k.tlbUse e user, .ok (e.pa + (va - e.va), if write then Pte.touch e.leaf true else e.leaf))
  | none =>
    match m.walk c va write with
    | (m, .error x) => (m, .error x)
    | (m, .ok e) => (m.onCore c fun k => (k.tlbFill e).tlbUse e user, .ok (e.pa + (va - e.va), e.leaf))

/-! ### Reading through a job's own translation (R337) -/

/-- Bytes of one page of the job; none where the page does not translate, is no memory, or holds poison that an error-tolerant page would not hide. The step
is held where the CXL home agent holds an entry of the walk or a byte that is read (R364). -/
def Mach.readPage (m : Mach) (j : Job) (va n : Nat) : Mach × Option (List Byte) :=
  if 2 ^ 57 ≤ va then (m, none)
  else if m.walkBusy va 5 j.ptbase.toNat then ({ m with held := true }, none)
  else match m.walkFrom (some j) 0 va false 5 j.ptbase.toNat with
    | (m, .error _) => (m, none)
    | (m, .ok e) =>
      let pa := let p := e.pa + (va - e.va)
        if Pte.rep e.leaf then m.dev.replicaPa 0 p else p
      if (m.dev.memKind pa n).isNone then (m, none)
      else if m.dev.cxlBusy pa n then ({ m with held := true }, none)
      else if (m.dev.poisonIn pa n).isNone then (m, some (m.homeRead pa n (Pte.key e.leaf)))
      else if !Pte.et e.leaf then (m, none)
      else (m, some ((m.homeRead pa n (Pte.key e.leaf)).mapIdx fun i b => if (m.dev.poisonIn (pa + i) 1).isSome then 0 else b))

/-- `n` bytes from a virtual address, page by page; `fuel` bounds the pages. -/
def Mach.readVirt (m : Mach) (j : Job) : Nat → Nat → Nat → Mach × Option (List Byte)
  | 0, _, n => (m, if n = 0 then some [] else none)
  | fuel + 1, va, n =>
    if n = 0 then (m, some [])
    else
      let k := min n (4096 - va % 4096)
      match m.readPage j va k with
      | (m, none) => (m, none)
      | (m, some bs) => match m.readVirt j fuel (va + k) (n - k) with
        | (m, none) => (m, none)
        | (m, some rest) => (m, some (bs ++ rest))

/-- `n` bytes of the job from a virtual address. -/
def Mach.jobBytes (m : Mach) (j : Job) (va n : Nat) : Mach × Option (List Byte) := m.readVirt j (n / 4096 + 2) va n

/-- Fields of a launch record (R336): `n` bits from bit `lo`. -/
def launchField (r : List Byte) (lo n : Nat) : Nat := leNat r / 2 ^ lo % 2 ^ n

/-- The image of a job: what its pages hold now, or what admission read where they can no longer be read (R348, R355; log entry 73). -/
def Mach.jobImage (m : Mach) (j : Job) : Mach × List Byte :=
  match m.jobBytes j (launchField j.launch 64 64) (4 * launchField j.launch 48 16) with
  | (m, some bs) => (m, bs)
  | (m, none) => (m, j.image)

/-- `PAGE_WALK` (R154): a walk for an address that the buffer does not hold completes, and fills the buffer or leaves nothing there. -/
def execPageWalk (c : CoreId) (va : Word) (write : Bool) : State → Result :=
  lift fun m =>
    let a := va.toNat % 2 ^ 57
    if (m.core c.toNat).tlb.any fun e => e.maps (m.core c.toNat) a && e.usable then m
    else if m.walkBusy a 5 (m.core c.toNat).ptbase.toNat then m
    else match m.walk c.toNat a write with
      | (m, .error _) => m
      | (m, .ok e) => m.onCore c.toNat fun k => k.tlbFill e

end Sys2Proof.Machine
end

