-- ==== Sys2Proof/Machine/Phase.lean ====
section
/-! DEFINITION. Buffer phases and recovery (R186, R249-R260): checkpoints, irrevocability, cancellation, check mismatches and quarantine, the instruction
`phase`, and the events PHASE_COMMIT, INSTRUCTION_STORE_REWRITE, QUARANTINE_CLEAR. -/

namespace Sys2Proof.Machine

/-- A phase begins (R249, R250). -/
def Phase.fresh (n : Nat) (k : Option Ckpt) : Phase :=
  { num := n, ended := false, irrevocable := false, ckpt := k, units := [], mismatches := 0, sig := none, resolved := false, differAt := none, lqDone := [] }

/-- A phase is guarded in a CHECKED or PAIRED job, and from number 1 on (R249). -/
def Core.guarded (c : Core) (n : Nat) : Bool := c.checked || c.paired || decide (1 ≤ n)

def Core.phaseRec (c : Core) (n : Nat) : Option Phase := c.phases.find? fun p => p.num == n

/-- The phase has not committed: phases commit in the order of their numbers, so it is not before the oldest that has not (R252). -/
def Core.uncommitted (c : Core) (n : Nat) : Bool := match c.phases.head? with | some p => decide (p.num ≤ n) | none => false

def Core.onPhase (c : Core) (n : Nat) (f : Phase → Phase) : Core :=
  { c with phases := c.phases.map fun p => if p.num = n then f p else p }

/-- What is visible to contexts, and what ring entries carry. -/
def Viewer.ofContexts : Viewer → Bool
  | .ctx _ | .ring .. => true
  | _ => false

/-- What the tokens of FIFOs carry. -/
def Viewer.ofTokens : Viewer → Bool
  | .token .. => true
  | _ => false

/-- The checkpoint of R251, taken of the core as it stands. A context in a waiting `enq` is checkpointed at it, so that the word it has bound counts as
unbound (R211, R250). -/
def Core.checkpoint (c : Core) : Ckpt :=
  { a := c.a, x := c.x, s := c.s, rings := c.rings, fmts := c.boundWords ++ c.fmts, coin := c.coin, tokens := c.tokens, tokAt := c.tokLog.length
    carried := (c.sees.filter fun e => e.1.ofContexts || e.1.ofTokens) ++ allCtx.flatMap fun k => (c.visible (.ctx k)).map fun u => (Viewer.ctx k, u) }

/-- A phase begins, with what cancellations have left to it when it begins again (R256, R260). -/
def Core.freshPhase (c : Core) (n : Nat) (k : Option Ckpt) : Phase :=
  match c.lapsed.find? fun p => p.1 == n with
  | some p => { Phase.fresh n k with units := p.2.1, mismatches := p.2.2 }
  | none => Phase.fresh n k

/-- Ends the current phase and begins the next (R250). -/
def Core.nextPhase (c : Core) (keep : Bool) : Core :=
  let c := c.onPhase c.phase fun p => { p with ended := true }
  { c with phase := c.phase + 1, phases := c.phases ++ [c.freshPhase (c.phase + 1) (if keep then some c.checkpoint else none)],
           lapsed := c.lapsed.filter fun p => p.1 != c.phase + 1 }

/-- Ended phases that have not committed. -/
def Core.endedPhases (c : Core) : Nat := (c.phases.filter fun p => p.ended).length

/-- An event of R254: every guarded phase that is uncommitted becomes irrevocable. -/
def Core.irrevoke (c : Core) : Core :=
  { c with phases := c.phases.map fun p => if c.guarded p.num then { p with irrevocable := true } else p }

/-- Phase n and every later phase can be cancelled (R254, R255). -/
def Core.cancellable (c : Core) (n : Nat) : Bool :=
  (match c.phaseRec n with | some p => p.ckpt.isSome | none => false) &&
  (c.phases.filter fun p => n ≤ p.num).all fun p => c.guarded p.num && !p.irrevocable

/-- The state of a context that a checkpoint holds (R251). -/
def Ctx.restore (x k : Ctx) : Ctx :=
  { x with pc := k.pc, regs := k.regs, preds := k.preds, kmask := k.kmask, rrb := k.rrb, lc := k.lc, ec := k.ec, plen := k.plen, subcnt := k.subcnt, pwb := k.pwb, savedPwb := k.savedPwb, done := k.done, inh := k.inh, epc := k.epc, cause := k.cause, tval := k.tval, rq := k.rq, wait := none }

/-- A push or a pop since a checkpoint, made again on the FIFOs of the checkpoint (R255). -/
def Core.remake (c : Core) (e : TokenMove) : Core :=
  if e.push then (c.carry e.prod e.cons e.carry).setTok e.prod e.cons (c.tok e.prod e.cons + 1)
  else (c.leave (.token e.prod e.cons 0)).tokPop e.prod e.cons

/-- Token FIFOs after a cancellation of phase n (R255): those of the checkpoint, with the pushes and pops since by commands that are not squashed (log entry
13), and behind them the tokens that stay held; what is visible to contexts, and what tokens and ring entries carry, with them (R238). -/
def Core.restoreTokens (c : Core) (k : Ckpt) (n : Nat) : Core :=
  let late (ph : Option Nat) : Bool := match ph with | some x => decide (n ≤ x) | none => false
  -- a held token and what it carries: its place is behind the tokens of its FIFO
  let held := c.heldTokens.mapIdx fun i h =>
    (h, c.visible (.token h.1 h.2.1 (c.tok h.1 h.2.1 + ((c.heldTokens.take i).filter fun g => g.1 == h.1 && g.2.1 == h.2.1).length).toNat))
  let d := { c with tokens := k.tokens, heldTokens := [], sees := (c.sees.filter fun e => !e.1.ofContexts && !e.1.ofTokens) ++ k.carried }
  let d := ((c.tokLog.drop k.tokAt).filter fun e => !late e.phase).foldl Core.remake d
  (held.filter fun h => !late h.1.2.2).foldl (fun d h => { d.carry h.1.1 h.1.2.1 h.2 with heldTokens := d.heldTokens ++ [h.1] }) d

/-- A destination's footprint contains a unit: by its window, or through a page that the core's page tables map (R186). -/
def Mach.contains (m : Mach) (c : Nat) (o : Operand) (u : Nat) : Bool :=
  let un := unitOf u
  let within (a : Int) : Bool := decide (o.lo ≤ a) && decide (a + un.2 ≤ o.hi)
  o.dst && (match o.nest.space with
    | .core g => decide (window g ≤ u) && within ((u : Int) - window g)
    | .virt => decide (u < Config.onchipBase) && (m.mapsOnto u o.lo o.hi 5 (m.core c).ptbase.toNat 0).any fun a => within a)

/-- The kept records that R186 runs again: those whose destination footprint contains a poisoned sector. -/
def Mach.refetches (m : Mach) (c : Nat) : List Cmd :=
  (m.core c).kept.filter fun k => k.ops.any fun o => m.dev.poison.any fun u => m.contains c o u

/-- Puts a refetch ahead of every other LQ command that has not issued, behind the refetches before it (R186). -/
def insertRefetch (r : Cmd) : List Cmd → List Cmd
  | [] => [r]
  | d :: l => if d.issued || d.refetch then d :: insertRefetch r l else r :: d :: l

/-- Runs a kept record again (R186): no SEQ, no tokens, no publish slot, no edges. -/
def Mach.refetchOf (m : Mach) (c : Nat) (k : Cmd) : Mach :=
  let u := m.fresh
  let now := m.dev.now
  (m.onCore c fun d => { d with lq := insertRefetch { k with uid := u, edges := [], n := 0, issued := false, fault := none, resumed := false, stopAt := none, refetch := true, phase := none, cover := [], moved := [], subs := [], smarks := [], acc := [], ready := true, born := now } d.lq }).bump

/-- Starts the refetches of a cancellation (R186); what an earlier one of the same cycle has started runs once (R257). -/
def Mach.startRefetches (m : Mach) (c : Nat) : Mach :=
  ((m.refetches c).filter fun k => !((m.core c).lq.any fun d => d.refetch && d.seq == k.seq && d.born == m.dev.now)).foldl (fun m k => m.refetchOf c k) m

/-- Elements of a `tsend` not yet sent, which its squash takes off the injection count (R392). -/
def Cmd.unsent (d : Cmd) : Nat := if d.opc = 0x33 ∧ !d.null then d.total - d.n else 0

/-- The commands of the cancelled phases go: no token is pushed, no frontier jumps, and their format words go with them (R255). -/
def Core.discard (d : Core) (gone : List Cmd) : Core :=
  gone.foldl (fun d q => ({ d with inj := d.inj - BitVec.ofNat 64 q.unsent }.dropCmd q.uid).tlbRelease q.uid) d

/-- What later phases that a cancellation takes back leave for when they begin again (R256, R260). -/
def Core.lapse (d : Core) (n : Nat) : List (Nat × List Nat × Nat) :=
  let later := d.phases.filter fun q => decide (n < q.num) && (!q.units.isEmpty || q.mismatches != 0)
  (d.lapsed.filter fun p => !(later.any fun q => q.num == p.1)) ++ later.map fun q => (q.num, q.units, q.mismatches)

/-- The phase that the core has cancelled in this cycle, and what it squashed (R257). -/
def Mach.cancelling (m : Mach) (c : Nat) : Option (Nat × List Nat) :=
  match (m.core c).cancelled with
  | some (t, n, us) => if t = m.dev.now then some (n, us) else none
  | none => none

/-- The log's record of a cancellation (R264): one that takes in an earlier one of the same cycle keeps its record, from the phase that is now the first
(R257). -/
def Mach.logCancel (m : Mach) (c n : Nat) : Mach :=
  match m.cancelling c with
  | none => m.logErr 5 c 0 0 n
  | some _ =>
    let mine (r : ErrRec) : Bool := r.kind == 5 && r.core == c
    m.onDev fun d => { d with errlog := match d.errlog.reverse.findIdx? mine with
      | none => d.errlog
      | some i => d.errlog.modify (d.errlog.length - 1 - i) fun r => { r with phase := n % 65536 } }

/-- Cancels phases n and later (R255, R186, R257), because of a unit when there is one. -/
def Mach.cancel (m : Mach) (c n : Nat) (unit : Option Nat) : Mach :=
  match (m.core c).phaseRec n with
  | none => m
  | some p =>
    match p.ckpt with
    | none => m
    | some k =>
      let now := m.dev.now
      let before := match m.cancelling c with | some (_, us) => us | none => []
      let m := ((m.logCancel c n).unwaitAll c).onCore c fun d =>
        let late (ph : Option Nat) : Bool := match ph with | some x => decide (n ≤ x) | none => false
        let gone : List Cmd := d.cmds.filter fun q => late q.phase
        let faultGone (f : EFault) : Bool := gone.any fun q => q.q == f.q && q.seq == f.seq
        let back (x kx : Ctx) : Ctx := let y := x.restore kx
          { y with efq := y.efq.filter fun f => !faultGone f }
        let d := (d.discard gone).restoreTokens k n
        let d := { d with a := back d.a k.a, x := back d.x k.x, s := back d.s k.s, rings := k.rings, fmts := k.fmts, coin := k.coin, phase := n }
        { d with
          accs := d.accs.filter fun a => decide (a.phase < n)
          anys := d.anys.filter fun w => (d.ctx w.ctx).rq.any fun e => e.id == w.rq
          lapsed := d.lapse n
          cancelled := some (now, n, before ++ gone.map (·.uid) ++ (d.accs.filter fun a => decide (n ≤ a.phase)).map (·.uid))
          phases := (d.phases.filter fun q => q.num < n) ++ [{ Phase.fresh n (some k) with
            units := p.units ++ unit.toList, mismatches := p.mismatches }] }
      (m.startRefetches c).wake

/-- A consumption cancels phase n, unless a cancellation of this cycle from that phase or an earlier one serves it (R257). -/
def Mach.cancelFor (m : Mach) (c n unit : Nat) : Mach :=
  match m.cancelling c with
  | some (k, _) => if k ≤ n then m else m.cancel c n (some unit)
  | none => m.cancel c n (some unit)

/-- Poison that stands for a seat: its number is what `TVAL` and the log report (R229, R246). -/
def seatUnit (s : Nat) : Nat := 2 ^ 60 + s

/-- ADDR of a unit in the log (R264). -/
def unitAddr (u : Nat) : Word := BitVec.ofNat 64 (if 2 ^ 60 ≤ u then u - 2 ^ 60 else u)

/-- A consumption of a unit in phase n cancels it: it can be cancelled, and the unit has not cancelled it before (R254, R256). -/
def Core.absorbs (d : Core) (n unit : Nat) : Bool :=
  match d.phaseRec n with
  | none => false
  | some p => d.cancellable n && !p.units.contains unit

/-- A consumption of a poisoned unit by a command of phase n, or by a scalar while phase n is current (R248, R255, R256): absorbed by a cancellation, or
none where it raises `UNCORRECTABLE`. -/
def Mach.absorb (m : Mach) (c : Nat) (n : Option Nat) (unit : Nat) : Option Mach :=
  match n with
  | none => none
  | some n => if (m.core c).absorbs n unit then some ((m.logErr 3 c (unitAddr unit) 0 n).cancelFor c n unit) else none

/-- Quarantine (R260): the job ends with a machine check that names the core, which is not dealt again until it is cleared. -/
def Mach.quarantine (m : Mach) (c n : Nat) (count : Nat) : Mach :=
  ((m.logErr 7 c 0 (BitVec.ofNat 64 count) n).onCore c fun d => { d with quarantined := true }).endJob (m.core c).job ⟨3, 0, 0, c, 0⟩

/-- A check mismatch counted against phase n (R260): the first one cancels the phase, unless a cancellation of this cycle serves it (R257); a second one, or
one in an irrevocable phase, quarantines. -/
def Mach.mismatch (m : Mach) (c n : Nat) : Mach :=
  let d := m.core c
  let under := m.cancelling c
  let n := match under with | some (k, _) => k | none => n
  match d.phaseRec n with
  | none => m.quarantine c n 1
  | some p =>
    if p.mismatches = 0 && d.cancellable n then
      let m := (m.logErr 6 c 0 1 n).onCore c fun d => d.onPhase n fun p => { p with mismatches := p.mismatches + 1 }
      if under.isSome then m else m.cancel c n none
    else m.quarantine c n (p.mismatches + 1)

/-- Fills an RQ entry, in the context and in the checkpoints that hold it (R22, R251). -/
def Core.rqFill (c : Core) (k : CtxId) (id : Nat) (v : Word) (poison : Option Word) : Core :=
  let c := c.onCtx k fun x => x.rqFill id v poison
  { c with phases := c.phases.map fun p => { p with ckpt := p.ckpt.map fun q =>
      match k with
      | .a => { q with a := { (q.a.rqFill id v poison) with latch := q.a.latch } }
      | .x => { q with x := { (q.x.rqFill id v poison) with latch := q.x.latch } }
      | .s => { q with s := { (q.s.rqFill id v poison) with latch := q.s.latch } } } }

/-- Whether a record reads HBM or CXL memory, so that it is kept (R186). -/
def Cmd.fromMemory (k : Cmd) : Bool := k.ops.any fun o => !o.dst && o.nest.space == .virt

/-- The phase that may commit now (R252): the oldest uncommitted one, ended, its commands other than SQ retired, its signatures resolved. -/
def Core.committable (c : Core) : Option Nat :=
  match c.phases.head? with
  | none => none
  | some p =>
    if p.ended && (c.lq ++ c.mq ++ c.vq ++ c.kq).all (fun k => k.phase != some p.num) && (!c.paired || p.resolved) then some p.num else none

/-- Commits a phase (R252, R186). -/
def Core.commit (c : Core) (n : Nat) : Core :=
  let kept := match c.phaseRec n with | some p => p.lqDone.filter Cmd.fromMemory | none => []
  let ps := c.phases.filter fun p => p.num != n
  { c with phases := ps, kept := kept, lapsed := c.lapsed.filter fun p => p.1 != n, tokLog := if ps.all (fun p => p.ckpt.isNone) then [] else c.tokLog }

/-- `PHASE_COMMIT` (R252). -/
def execPhaseCommit (c : CoreId) : State → Result :=
  lift fun m => match (m.core c.toNat).committable with
    | none => m
    | some n => m.onCore c.toNat (·.commit n)

/-- `phase` (R250): one tick, never waits. -/
def execPhase (g : Guard) : State → Result :=
  lift fun m => m.guarded g fun m =>
    if 8 ≤ m.here.endedPhases then m.trap Cause.illegal (limitTval 0x08)
    else (m.fin4 id).onHere (·.nextPhase true)

/-- `INSTRUCTION_STORE_REWRITE` (R246): the supervisor rewrites the word from the job's image and releases the fetch. -/
def execInstructionStoreRewrite (c : CoreId) (k : CtxId) : State → Result :=
  liftHub fun m =>
    let x := (m.core c.toNat).ctx k
    match x.fetchHeld with
    | none => m
    | some o =>
      let r := match m.jobOf c.toNat with
        | some j => let r := m.jobImage j
          (r.1, (List.range 4).map fun i => r.2.getD (o + i) 0)
        | none => (m, m.bytes (localPa c.toNat (0x300000 + o)) 4)
      ((r.1.wrBytes (localPa c.toNat (0x300000 + o)) r.2).onDev fun d => d.cleanUnit (localPa c.toNat (0x300000 + o))).onCtx c.toNat k
        fun x => { x with fetchHeld := none }

/-- `QUARANTINE_CLEAR` (R260). -/
def execQuarantineClear (c : CoreId) : State → Result := lift fun m => m.onCore c.toNat fun d => { d with quarantined := false }

/-! ### CRC-64/ECMA-182 (R261) -/

/-- One bit of the CRC register. -/
def crcBit (r : BitVec 64) : BitVec 64 := if r.msb then (r <<< 1) ^^^ 0x42F0E1EBA9EA3693 else r <<< 1

/-- One byte: high bit first, no reflection. -/
def crcByte (r : BitVec 64) (b : Byte) : BitVec 64 := (List.range 8).foldl (fun r _ => crcBit r) (r ^^^ (b.zeroExtend 64 <<< 56))

/-- CRC-64/ECMA-182 of bytes, initial value 0, no final XOR. -/
def crc64 (bs : List Byte) : BitVec 64 := bs.foldl crcByte 0

end Sys2Proof.Machine
end

