-- ==== Sys2Proof/Machine/LoadStore.lean ====
section
/-! DEFINITION. Local loads and stores (R112, R52, R53): one operation for loads, one for stores. -/

namespace Sys2Proof.Machine

/-- The effective address (R112). -/
def localEa (x : Ctx) (a : Reg) (off : BitVec 12) (size : Nat) : Word := x.reg a + off.signExtend 64 * BitVec.ofNat 64 size

/-- The checks of R112 on an effective address: alignment, then an assigned offset, then the instruction store for a store (R36). -/
def localCheck (ea : Word) (size : Nat) (store : Bool) : Option Nat :=
  if ea.toNat % size ≠ 0 then some Cause.misalign
  else if 2 ^ 24 ≤ ea.toNat then some Cause.access
  else match oneStorage ea.toNat (ea.toNat + size) with
    | none => some Cause.access
    | some st => if store && st == .istore then some Cause.access else none

/-- The access may be performed now: every element it touches has been passed (R50, R52, R53). -/
def Core.scalarOk (c : Core) (lo hi : Nat) (write : Bool) : Bool :=
  c.edgesOk (scalarEdges c (.core c.id) lo hi write) 0 lo hi

/-- A local load of `size` bytes, extended by `ext`, latency 4 (R112). A waiting load leaves its slot empty (R19). The reserved bits of a region register
that has been written through local space read as they were stored (log entry 60). -/
def Mach.localLoad (m : Mach) (t a : Reg) (off : BitVec 12) (g : Guard) (size : Nat) (ext : Nat → Word) : Mach :=
  m.guarded g fun m =>
    let ea := localEa m.cur a off size
    match localCheck ea size false with
    | some cause => m.trap cause ea
    | none =>
      if !m.here.scalarOk ea.toNat (ea.toNat + size) false then m
      else match m.dev.poisonIn (localPa m.cid ea.toNat) size with
        | some u => match m.absorb m.cid (some m.here.phase) u with
          | some m' => m'
          | none => (m.logErr 4 m.cid (BitVec.ofNat 64 u) 0 m.here.phase).trap Cause.uncorrectable (reportAddr u)
        | none => m.finWrite t (ext (m.le (localPa m.cid ea.toNat) size)) 4 m.pc4 id

/-- A local store of the low `size` bytes, in its issue cycle (R112, R53). -/
def Mach.localStore (m : Mach) (t a : Reg) (off : BitVec 12) (g : Guard) (size : Nat) : Mach :=
  m.guarded g fun m =>
    let ea := localEa m.cur a off size
    match localCheck ea size true with
    | some cause => m.trap cause ea
    | none =>
      if !m.here.scalarOk ea.toNat (ea.toNat + size) true then m
      else (m.store (localPa m.cid ea.toNat) (leBytes size (m.cur.reg t).toNat)).fin4 id

/-- Sign extension from `n` bits (R112). -/
def sextNat (n : Nat) (v : Nat) : Word := (BitVec.ofNat n v).signExtend 64

/-- Zero extension. -/
def zextNat (v : Nat) : Word := BitVec.ofNat 64 v

/-- `ldb` (R112). -/
def execLdb (t a : Reg) (off : BitVec 12) (g : Guard) : State → Result := lift fun m => m.localLoad t a off g 1 (sextNat 8)

/-- `ldh` (R112). -/
def execLdh (t a : Reg) (off : BitVec 12) (g : Guard) : State → Result := lift fun m => m.localLoad t a off g 2 (sextNat 16)

/-- `ldw` (R112). -/
def execLdw (t a : Reg) (off : BitVec 12) (g : Guard) : State → Result := lift fun m => m.localLoad t a off g 4 (sextNat 32)

/-- `ldd` (R112). -/
def execLdd (t a : Reg) (off : BitVec 12) (g : Guard) : State → Result := lift fun m => m.localLoad t a off g 8 zextNat

/-- `ldbu` (R112). -/
def execLdbu (t a : Reg) (off : BitVec 12) (g : Guard) : State → Result := lift fun m => m.localLoad t a off g 1 zextNat

/-- `ldhu` (R112). -/
def execLdhu (t a : Reg) (off : BitVec 12) (g : Guard) : State → Result := lift fun m => m.localLoad t a off g 2 zextNat

/-- `ldwu` (R112). -/
def execLdwu (t a : Reg) (off : BitVec 12) (g : Guard) : State → Result := lift fun m => m.localLoad t a off g 4 zextNat

/-- `stb` (R112). -/
def execStb (t a : Reg) (off : BitVec 12) (g : Guard) : State → Result := lift fun m => m.localStore t a off g 1

/-- `sth` (R112). -/
def execSth (t a : Reg) (off : BitVec 12) (g : Guard) : State → Result := lift fun m => m.localStore t a off g 2

/-- `stw` (R112). -/
def execStw (t a : Reg) (off : BitVec 12) (g : Guard) : State → Result := lift fun m => m.localStore t a off g 4

/-- `std` (R112). -/
def execStd (t a : Reg) (off : BitVec 12) (g : Guard) : State → Result := lift fun m => m.localStore t a off g 8

end Sys2Proof.Machine
end

