-- ==== Sys2Proof/Machine/SysAccess.lean ====
section
/-! DEFINITION. System loads, stores, atomics and fences (R113-R115, R121), and the steps that perform them at their homes (R54, R234, R361-R367). -/

namespace Sys2Proof.Machine

/-! ### Issue -/

/-- Bytes of a size code (R91). -/
def sizeBytes : Size → Nat
  | .b => 1
  | .h => 2
  | .w => 4
  | .d => 8

/-- The checks and the translation of a system access (R113): the machine with the translation held for the access, and the physical address and leaf, or
a cause; `TVAL` is the address. -/
def Mach.sysCheck (m : Mach) (ea : Word) (size : Nat) (write : Bool) : Mach × Except Nat (Nat × Word) :=
  if ea.toNat % size ≠ 0 then (m, .error Cause.misalign)
  else if 2 ^ 57 ≤ ea.toNat then (m, .error Cause.access)
  else match m.translate m.cid ea.toNat write (m.fresh, 0) with
    | (m', .error x) => (m', .error x)
    | (m', .ok (pa, leaf)) => if (m'.dev.memKind pa size).isNone then (m, .error Cause.access) else (m', .ok (pa, leaf))

/-- The translation of a system access waits for the CXL home agent (R364); the instruction has not issued. -/
def Mach.sysBusy (m : Mach) (ea : Word) (size : Nat) (write : Bool) : Bool :=
  ea.toNat % size == 0 && decide (ea.toNat < 2 ^ 57) && m.transBusy m.cid ea.toNat write (m.fresh, 0)

/-- Issues a system access (R113, R115): allocates its RQ entry when it gives a result, and enters it among the accesses in flight with its chase
edges (R54). -/
def Mach.sysIssue (m : Mach) (op : AccOp) (ea : Word) (size : Nat) (scope : Scope) (acq rel : Bool) (b c : Word) : Mach :=
  let result := op != .store
  if m.sysBusy ea size (op != .load) then m
  else match m.sysCheck ea size (op != .load) with
  | (m', .error cause) => m'.trap cause ea
  | (m', .ok (pa, leaf)) =>
    if result && m.cur.rqFull then m.trap Cause.illegal (limitTval 0x11)
    else
      let u := m.fresh
      let k := m'.here
      let acc : Acc := { uid := u, ctx := m'.kid, op := op, va := ea.toNat, pa := pa, bytes := size, scope := scope, acq := acq, rel := rel,
                         et := Pte.et leaf, rep := Pte.rep leaf, key := Pte.key leaf, b := b, c := c, rq := if result then some u else none,
                         edges := scalarEdges k .virt ea.toNat (ea.toNat + size) (op != .load), phase := k.phase,
                         ready := !(k.checked && op != .load), after := k.visible (.ctx m'.kid), stage := .waiting, born := m'.dev.now }
      ((m'.onHere fun k => { k with accs := k.accs ++ [acc] }).fin4 fun x => if result then x.rqAlloc u else x).bump

/-- `lds` (R113, R114). -/
def execLds (a : Reg) (scope : Scope) (size : Size) (acq : Bool) (g : Guard) : State → Result :=
  lift fun m => m.guarded g fun m => m.sysIssue .load (m.cur.reg a) (sizeBytes size) scope acq false 0 0

/-- `sts` (R113, R114). -/
def execSts (a b : Reg) (scope : Scope) (size : Size) (rel : Bool) (g : Guard) : State → Result :=
  lift fun m => m.guarded g fun m => m.sysIssue .store (m.cur.reg a) (sizeBytes size) scope false rel (m.cur.reg b) 0

/-- An atomic with one operand register (R115). -/
def Mach.amo (m : Mach) (op : AccOp) (a b : Reg) (scope : Scope) (dw acq rel : Bool) (g : Guard) : Mach :=
  m.guarded g fun m => m.sysIssue op (m.cur.reg a) (if dw then 8 else 4) scope acq rel (m.cur.reg b) 0

/-- `amoadd` (R115). -/
def execAmoadd (a b : Reg) (scope : Scope) (dw acq rel : Bool) (g : Guard) : State → Result := lift fun m => m.amo .add a b scope dw acq rel g

/-- `amoand` (R115). -/
def execAmoand (a b : Reg) (scope : Scope) (dw acq rel : Bool) (g : Guard) : State → Result := lift fun m => m.amo .and a b scope dw acq rel g

/-- `amoor` (R115). -/
def execAmoor (a b : Reg) (scope : Scope) (dw acq rel : Bool) (g : Guard) : State → Result := lift fun m => m.amo .or a b scope dw acq rel g

/-- `amoxor` (R115). -/
def execAmoxor (a b : Reg) (scope : Scope) (dw acq rel : Bool) (g : Guard) : State → Result := lift fun m => m.amo .xor a b scope dw acq rel g

/-- `amomin` (R115). -/
def execAmomin (a b : Reg) (scope : Scope) (dw acq rel : Bool) (g : Guard) : State → Result := lift fun m => m.amo .min a b scope dw acq rel g

/-- `amomax` (R115). -/
def execAmomax (a b : Reg) (scope : Scope) (dw acq rel : Bool) (g : Guard) : State → Result := lift fun m => m.amo .max a b scope dw acq rel g

/-- `amominu` (R115). -/
def execAmominu (a b : Reg) (scope : Scope) (dw acq rel : Bool) (g : Guard) : State → Result := lift fun m => m.amo .minu a b scope dw acq rel g

/-- `amomaxu` (R115). -/
def execAmomaxu (a b : Reg) (scope : Scope) (dw acq rel : Bool) (g : Guard) : State → Result := lift fun m => m.amo .maxu a b scope dw acq rel g

/-- `amoswap` (R115). -/
def execAmoswap (a b : Reg) (scope : Scope) (dw acq rel : Bool) (g : Guard) : State → Result := lift fun m => m.amo .swap a b scope dw acq rel g

/-- `amocas` (R115, R91): compares with the even register and swaps in the next. -/
def execAmocas (a : Reg) (b : BitVec 4) (scope : Scope) (dw acq rel : Bool) (g : Guard) : State → Result :=
  lift fun m => m.guarded g fun m =>
    m.sysIssue .cas (m.cur.reg a) (if dw then 8 else 4) scope acq rel (m.cur.reg (b ++ 0#1)) (m.cur.reg (b ++ 1#1))

/-- `fence` (R121): later accesses of the context are held until every earlier one has been performed, every write that others have made visible to the
context, and, on the other dies' replicas, every update that its own die's replica has applied (R243). -/
def execFence (scope : Scope) (g : Guard) : State → Result :=
  lift fun m => m.guarded g fun m =>
    let u := m.fresh
    let k := m.kid
    ((m.onHere fun c =>
      if (c.accs.any fun a => a.ctx == k) || !m.dev.gone (c.visible (.ctx k)) || !m.dev.dieSettled (dieOf m.cid) then
        { c with accs := c.accs ++ [{ uid := u, ctx := k, op := .fence, va := 0, pa := 0, bytes := 0, scope := scope, acq := false, rel := false,
                                      et := false, rep := false, key := 0, b := 0, c := 0, rq := none, edges := [], phase := c.phase, ready := true,
                                      after := c.visible (.ctx k), stage := .waiting, born := 0 }] }
      else c).fin4 id).bump

/-! ### Order (R54, R114, R121, R237) -/

/-- The accesses issued before one. -/
def earlierAccs (l : List Acc) (u : Nat) : List Acc := l.takeWhile fun a => a.uid != u

/-- Two accesses share a byte. -/
def Acc.meets (a b : Acc) : Bool := decide (a.pa < b.pa + b.bytes) && decide (b.pa < a.pa + a.bytes) && a.op != .fence && b.op != .fence

/-- What others have made visible to the context of a fence or a release at its issue has been performed, and what the replica of the core's die has applied,
the others have too (R243). -/
def Dev.settledFor (d : Dev) (c : Nat) (a : Acc) : Bool := d.dieSettled (dieOf c) && d.gone a.after

/-- Fences that still wait: an access of their context precedes them, or what they wait for elsewhere is not settled. -/
def trimFences (settled : Acc → Bool) (l : List Acc) : List Acc :=
  l.filter fun f => f.op != .fence || !settled f || (earlierAccs l f.uid).any fun a => a.ctx == f.ctx && a.op != .fence

/-- The access may be performed, where `settled` says for which fences and releases what they wait for elsewhere is settled. A release waits for what its
context has issued and for what others have made visible to it (R114, R243). -/
def Core.accMay (k : Core) (settled : Acc → Bool) (a : Acc) : Bool :=
  let before := earlierAccs (trimFences settled k.accs) a.uid
  a.ready && a.op != .fence && (before.all fun b => !b.meets a) && (before.all fun b => !(b.ctx == a.ctx && (b.acq || b.op == .fence))) &&
  (!a.rel || (settled a && before.all fun b => b.ctx != a.ctx)) && k.edgesOk a.edges 0 a.va (a.va + a.bytes)

/-- The access of core c may be performed now. -/
def Dev.accMay (d : Dev) (c : Nat) (a : Acc) : Bool := (coreGet d.cores c).accMay (d.settledFor c) a

def Core.acc (c : Core) (u : Nat) : Option Acc := c.accs.find? fun a => a.uid == u

/-- The access of core c is on its way, or can be performed now or once replicas have caught up and other accesses that are themselves coming have been
performed; `fuel` bounds the chain of releases that wait for one another. -/
def Dev.accComes (d : Dev) : Nat → Nat → Acc → Bool
  | 0, _, _ => false
  | fuel + 1, c, a => a.stage != .waiting || (coreGet d.cores c).accMay (fun b => b.after.all fun u =>
      (d.jobs.all fun j => j.saved.all fun s => (s.core.acc u).isNone) &&
      d.cores.all fun p => match p.2.accs.find? fun x => x.uid == u with | some x => d.accComes fuel p.1 x | none => true) a

def Core.onAcc (c : Core) (u : Nat) (f : Acc → Acc) : Core := { c with accs := c.accs.map fun a => if a.uid = u then f a else a }

/-- The access is done with: it leaves the accesses in flight, what is visible of them, the range checker and its translation (R48, R158). -/
def Core.dropAcc (c : Core) (u : Nat) : Core := ({ c with accs := c.accs.filter fun a => a.uid != u, sees := c.sees.filter fun p => p.2 != u }).tlbRelease u

/-- Counts a zero substitution, saturating (R258). -/
def Ctx.substitute (x : Ctx) : Ctx := { x with subcnt := if x.subcnt = BitVec.allOnes 64 then x.subcnt else x.subcnt + 1 }

/-! ### Performing -/

/-- The new value of an atomic on `w` bits (R115). -/
def amoNew (op : AccOp) (w : Nat) (old b c : Nat) : Nat :=
  let o := BitVec.ofNat w old
  let y := BitVec.ofNat w b
  (match op with
    | .add => o + y
    | .and => o &&& y
    | .or => o ||| y
    | .xor => o ^^^ y
    | .min => if o.slt y then o else y
    | .max => if o.slt y then y else o
    | .minu => if o.ult y then o else y
    | .maxu => if o.ult y then y else o
    | .swap => y
    | .cas => if o = y then BitVec.ofNat w c else o
    | _ => o).toNat

/-- The result of an atomic: the old value, sign-extended from its width (R115). -/
def amoResult (bytes old : Nat) : Word := if bytes = 4 then sextNat 32 old else zextNat old

/-- Fills the access's RQ entry and drops the access, and the fences that waited for it. -/
def Mach.accDone (m : Mach) (c : Nat) (a : Acc) (v : Word) (poison : Option Word) : Mach :=
  let m := m.onCore c fun k => (match a.rq with | some r => k.rqFill a.ctx r v poison | none => k).dropAcc a.uid
  m.onCore c fun k => { k with accs := trimFences (m.dev.settledFor c) k.accs }

/-- A load takes its value at the home or the die's replica (R113, R361, R366). -/
def Mach.loadAtHome (m : Mach) (c : Nat) (a : Acc) : Mach :=
  let pa := if a.rep then m.dev.replicaPa (dieOf c) a.pa else a.pa
  match m.dev.poisonIn pa a.bytes with
  | some u =>
    if a.et then (m.accDone c a 0 none).onCtx c a.ctx Ctx.substitute
    else m.accDone c a (zextNat (leNat (m.homeRead pa a.bytes a.key))) (some (reportAddr u))
  | none => m.accDone c a (zextNat (leNat (m.homeRead pa a.bytes a.key))) none

/-- An atomic is performed at its home, in one step (R115, R254). -/
def Mach.atomicAtHome (m : Mach) (c : Nat) (a : Acc) : Mach :=
  let w := 8 * a.bytes
  let m := m.onCore c Core.irrevoke
  match m.dev.poisonIn a.pa a.bytes with
  | some u =>
    if a.et then
      ((m.homeWrite a.pa (leBytes a.bytes (amoNew a.op w 0 a.b.toNat a.c.toNat)) a.key).accDone c a 0 none).onCtx c a.ctx Ctx.substitute
    else m.accDone c a (amoResult a.bytes (leNat (m.homeRead a.pa a.bytes a.key))) (some (reportAddr u))
  | none =>
    let old := leNat (m.homeRead a.pa a.bytes a.key)
    (m.homeWrite a.pa (leBytes a.bytes (amoNew a.op w old a.b.toNat a.c.toNat)) a.key).accDone c a (amoResult a.bytes old) none

/-- A store is performed at its home and acknowledged (R113, R234, R254). -/
def Mach.storeAtHome (m : Mach) (c : Nat) (a : Acc) : Mach :=
  ((m.homeWrite a.pa (leBytes a.bytes a.b.toNat) a.key).onCore c Core.irrevoke).accDone c a 0 none

/-- The access `u` of core `c` when it may be performed and is of a kind. -/
def Mach.accReady (m : Mach) (c u : Nat) (kind : Acc → Bool) : Option Acc :=
  match (m.core c).acc u with
  | some a => if kind a && a.stage == .waiting && m.dev.accMay c a && !m.dev.cxlBusy a.pa a.bytes then some a else none
  | none => none

/-- The access is to CXL memory. -/
def Dev.accCxl (d : Dev) (a : Acc) : Bool := d.memKind a.pa a.bytes == some .cxl

/-- `SYSTEM_LOAD_PERFORM` (R113): at an HBM home or replica; towards CXL memory the home agent asks the expander (R364). -/
def execSystemLoadPerform (c : CoreId) (u : Nat) : State → Result :=
  lift fun m => match m.accReady c.toNat u (fun a => a.op == .load) with
    | none => m
    | some a => if m.dev.accCxl a then m.onCore c.toNat fun k => k.onAcc u fun a => { a with stage := .cxl } else m.loadAtHome c.toNat a

/-- `SYSTEM_STORE_PERFORM` (R113): at an HBM home; towards CXL memory the home agent sends it to the expander (R364). -/
def execSystemStorePerform (c : CoreId) (u : Nat) : State → Result :=
  lift fun m => match m.accReady c.toNat u (fun a => a.op == .store && !a.rep) with
    | none => m
    | some a => if m.dev.accCxl a then m.onCore c.toNat fun k => k.onAcc u fun a => { a with stage := .cxl } else m.storeAtHome c.toNat a

/-- `ATOMIC_PERFORM` (R115). -/
def execAtomicPerform (c : CoreId) (u : Nat) : State → Result :=
  lift fun m => match m.accReady c.toNat u (fun a => !(a.op == .load || a.op == .store || a.op == .fence) && !a.rep) with
    | none => m
    | some a => m.atomicAtHome c.toNat a

/-- `CXL_WRITE_COMPLETION` (R364): the expander's completion arrives and the home performs the write. -/
def execCxlWriteCompletion (c : CoreId) (u : Nat) : State → Result :=
  lift fun m => match (m.core c.toNat).acc u with
    | some a => if a.op == .store && a.stage == .cxl then (m.storeAtHome c.toNat a).wake else m
    | none => m

/-- A sector is poisoned by what its home has been told: marked, and logged (R246, R265). -/
def Mach.homePoison (m : Mach) (c pa : Nat) : Mach :=
  (m.logErr 2 c (BitVec.ofNat 64 (pa / 32 * 32)) 0 (m.core c).phase).onDev fun d => d.poisonUnit (pa / 32 * 32)

/-- `UPDATE_SEQUENCE` (R365): a store or an atomic on a replicated page takes its position; an atomic's old value is that of the order just before. -/
def execUpdateSequence (c : CoreId) (u : Nat) : State → Result :=
  lift fun m => match m.accReady c.toNat u (fun a => a.op != .load && a.op != .fence && a.rep) with
    | none => m
    | some a =>
      let w := 8 * a.bytes
      let stage := AccStage.sequenced m.dev.nextUpdate
      let old := leNat (m.orderValue a.pa a.bytes a.key)
      let m := m.onCore c.toNat Core.irrevoke
      if a.op == .store then
        (m.sequence c.toNat u a.pa a.key (leBytes a.bytes a.b.toNat)).onCore c.toNat fun k => k.onAcc u fun a => { a with stage := stage }
      else match m.dev.poisonIn (m.dev.replicaPa 0 a.pa) a.bytes with
        | some s =>
          if a.et then
            ((m.sequence c.toNat u a.pa a.key (leBytes a.bytes (amoNew a.op w 0 a.b.toNat a.c.toNat))).onCore c.toNat fun k =>
              k.onAcc u fun a => { a with stage := stage, b := 0 }).onCtx c.toNat a.ctx Ctx.substitute
          else m.accDone c.toNat a (amoResult a.bytes old) (some (reportAddr s))
        | none =>
          (m.sequence c.toNat u a.pa a.key (leBytes a.bytes (amoNew a.op w old a.b.toNat a.c.toNat))).onCore c.toNat fun k =>
            k.onAcc u fun a => { a with stage := stage, b := amoResult a.bytes old }

/-- The accesses of every core whose update has left the order are acknowledged (R365). -/
def Mach.ackSequenced (m : Mach) : Mach :=
  (m.dev.cores.flatMap fun p => (p.2.accs.filter fun a => match a.stage with
    | .sequenced q => !(m.dev.updates.any fun u => u.pos == q)
    | _ => false).map fun a => (p.1, a)).foldl (fun m x => m.accDone x.1 x.2 x.2.b none) m

/-- Nolham writes whose update has left the order are answered, where they have an answer, and what waited for them comes up again (R365, R368). -/
def Mach.answerPending (m : Mach) : Mach :=
  let done := m.dev.pendingMem.filter fun p => !(m.dev.updates.any fun u => u.pos == p.pos)
  if done.isEmpty then m
  else ((done.foldl (fun m p => match p.reply with | some r => m.transmit 0 r | none => m) m).onDev fun d => { d with pendingMem := d.pendingMem.filter fun p => d.updates.any fun u => u.pos == p.pos }).wake

/-- `REPLICA_APPLY` (R365): a die's replica applies the next update. -/
def execReplicaApply (die : BitVec 2) : State → Result := lift fun m => (m.applyNext die.toNat).ackSequenced.answerPending

end Sys2Proof.Machine
end

