-- ==== Sys2Proof/Machine/Retire.lean ====
section
/-! DEFINITION. How a command ends: retirement (R150, R187, R214, R284, R380, R404), squash (R58, R178, R392, R405), the tokens a squash leaves held (R58),
and publish slots (R61-R63). -/

namespace Sys2Proof.Machine

/-! ### Publish slots -/

/-- The slot's entry. -/
def Core.slot (c : Core) (k : Nat) : Option Slot := (c.slots.find? fun p => p.1 == k).map (·.2)

/-- What a slot shows now (R62): SEQ, frozen, complete, order, F. -/
def Core.slotShows (c : Core) (k : Nat) : Option Slot :=
  match c.slot k with
  | none => none
  | some s => match c.cmd s.uid with
    | some d => some { s with f := if s.complete then s.f else d.shownF, frozen := d.fault.isSome }
    | none => some s

/-- The core runs an iteration of a job (R119, R282); a pre-empted core keeps its iteration. -/
def Core.runs (c : Core) (j : Option Nat) : Bool := c.busy && c.job == j && c.life != .idle

/-- Core g as the agents of core c's job see it: as it was saved, while it is pre-empted (R182, R357). -/
def Mach.view (m : Mach) (c g : Nat) : Core :=
  match (m.jobOf c).bind fun j => j.saved.find? fun s => s.core.id == g with
  | some s => s.core
  | none => m.core g

/-- The operand whose nest a command publishes (R61): its destination, and of an `mcast` the copy in the publishing core (R166). -/
def Core.published (c : Core) (d : Cmd) : Option Operand :=
  ((d.ops.find? fun o => o.dst && d.opc == 0x17 && o.nest.space == .core c.id).orElse fun _ => d.ops.head?).bind fun o => if o.dst then some o else none

/-- Binds a slot to a command at its issue (R61). -/
def Core.bindSlot (c : Core) (k : Nat) (d : Cmd) : Core :=
  let nest := (c.published d).map (·.nest)
  let s : Slot := { seq := d.seq, uid := d.uid, complete := false, frozen := false, f := 0, order := d.order, nest := nest }
  { c with slots := (c.slots.filter fun p => p.1 != k) ++ [(k, s)] }

/-- A command has ended: its slot shows C = 1 and its total (R45, R62). -/
def Core.completeSlot (c : Core) (d : Cmd) : Core :=
  { c with slots := c.slots.map fun p => if p.2.uid = d.uid && !p.2.complete then (p.1, { p.2 with complete := true, frozen := false, f := d.total }) else p }

/-- b is later than a as 16-bit serial numbers (R64). -/
def seqLater (a b : BitVec 16) : Bool := let d := (b - a).toNat; decide (1 ≤ d) && decide (d ≤ 32767)

/-! ### Tokens of a command -/

/-- The consumers in a command's PUSH mask. -/
def Cmd.push (d : Cmd) : List Nat := match d.work with | .record r => maskBits r.push | _ => []

/-- The producers of a command's valid POP entries (R93). -/
def Cmd.pops (d : Cmd) : List Nat :=
  match d.work with
  | .record r => ([r.pop0, r.pop1, r.pop2].filter fun p => p.getLsbD 3).map fun p => (p.extractLsb' 0 3).toNat
  | _ => []

/-- Records pushes or pops of a command since the oldest checkpoint (R255). -/
def Core.tokNote (c : Core) (ph : Option Nat) (p t : Nat) (push : Bool) (us : List Nat) : Core :=
  if c.phases.any (fun q => q.ckpt.isSome) then { c with tokLog := c.tokLog ++ [⟨ph, p, t, push, us⟩] } else c

/-- A command pushes one token, carrying `us`, to each consumer; where a FIFO has no room the device holds the token (R58, R187, R238). -/
def Core.pushTokens (c : Core) (q : Nat) (cons : List Nat) (ph : Option Nat) (us : List Nat) : Core :=
  cons.foldl (fun c t =>
    if c.tokRoom q t then ((c.carry q t us).tokPush q t).tokNote ph q t true us
    else { c.carry q t us with heldTokens := c.heldTokens ++ [(q, t, ph)] }) c

/-- A command pushes its tokens, which carry what is visible to it (R150, R238). -/
def Core.pushFor (c : Core) (d : Cmd) : Core := c.pushTokens (queueNum d.q) d.push d.phase (c.visible (.cmd d.uid))

/-- The cluster's latches are set when a slot of the core shows the command (R138). -/
def Mach.latchShown (m : Mach) (c u : Nat) : Mach := if (m.core c).slots.any fun p => p.2.uid == u then m.latchCluster c else m

/-! ### Gangs and messages -/

/-- Some core, running or saved, still holds a part of the gang. -/
def Mach.gangOpen (m : Mach) (id : Nat) : Bool :=
  let has (c : Core) : Bool := c.mq.any fun d => match d.gang with | some g => g.id == id | none => false
  (m.dev.cores.any fun p => has p.2) || m.dev.jobs.any fun j => j.saved.any fun s => has s.core

/-- The gangs of which a core holds a part that has not retired (R233). -/
def Core.gangs (k : Core) : List Gang := k.mq.filterMap (·.gang)

/-- The core holds a part of a gang that has not retired. -/
def Core.hasPart (k : Core) (id : Nat) : Bool := k.gangs.any fun h => h.id == id

/-- A member of a gang is away with its part, so that the part on core `c` may not continue (R233): some member is saved, or, once core c runs again, some
member does not run. -/
def Mach.gangAway (m : Mach) (c : Nat) (g : Gang) : Bool :=
  (m.dev.jobs.any fun j => j.saved.any fun s => s.core.hasPart g.id) ||
  ((m.core c).life == .running && m.dev.cores.any fun p => p.2.life != .running && p.2.hasPart g.id)

/-- The last part has ended: a token for each named consumer of every member, pre-empted ones too (R187), which carries what was visible to the part (R238). -/
def Mach.gangDone (m : Mach) (g : Gang) (us : List Nat) : Mach :=
  if m.gangOpen g.id then m
  else g.members.foldl (fun m k => m.onMember g.job k fun c => c.pushTokens 2 (maskBits g.push) none us) m

/-- A merge that its receiver's interface has accepted and its Cabinet has not yet made (R271, R327). -/
def Msg.accepted (x : Msg) : Bool := x.arrived.isSome

/-- The receiver of a message is RUNNING the message's job (R355), or is stopping and its interface accepted the merge while it ran (R327). -/
def Mach.receives (m : Mach) (x : Msg) : Bool :=
  let k := m.core x.dst
  k.job == some x.job && (k.life == .running || (k.life == .stopping && x.accepted))

/-- Merges that a core accepted while it ran and that are still to be made. The Cabinet makes them before the core is saved (R327, R355). -/
def Mach.owesMerges (m : Mach) (c : Nat) : Bool := m.dev.net.any fun x => x.dst == c && x.accepted

/-- A message of the command is still on its way to its receiver's interface or the parking area (R327, R389). -/
def Mach.inFlight (m : Mach) (c u : Nat) : Bool := m.dev.net.any fun x => x.src == c && x.cmd == u && !x.accepted

/-- An active message ends abandoned (R405): counted consumed and abandoned at once. -/
def Core.abandon (c : Core) : Core := { c with con := c.con + 1, abandoned := c.abandoned + 1 }

/-! ### Squash (R58, R178, R179) -/

/-- A command is squashed: it writes nothing further, its frontiers jump to their totals, its tokens are pushed or held, and it leaves its queue and the
range checker. An RQ entry that it was to fill stays allocated and is never filled (log entry 85). -/
def Mach.squash (m : Mach) (c u : Nat) : Mach :=
  match (m.core c).cmd u with
  | none => m
  | some d =>
    let m := m.onCore c fun k =>
      let k := (((k.completeSlot d).dropCmd u).tlbRelease u)
      let k := { k with inj := k.inj - BitVec.ofNat 64 d.unsent, arcs := k.arcs.filter fun a => a.1 != 2 * u && a.2.1 != 2 * u }
      let k := if d.handler then k.abandon else k
      let k := if d.gang.isSome || d.refetch then k else k.pushFor d
      k.latchAll
    let us := (m.core c).visible (.cmd u)
    let m := m.latchShown c u
    match d.gang with
    | some g => m.gangDone g us
    | none => m

/-! ### Retirement -/

/-- Commands ahead of one in its queue. -/
def Core.ahead (c : Core) (d : Cmd) : List Cmd := (c.queue d.q).takeWhile fun e => e.uid != d.uid

/-- Every command ahead of `d` in its queue is gone, but for armed sends in KQ; a `tsend` itself retires out of order (R150, R380). -/
def Core.atHead (c : Core) (d : Cmd) : Bool :=
  d.opc == 0x33 || (c.ahead d).all fun e => e.opc == 0x33 && !e.null

/-- Every element is done, and the command may leave (R150). -/
def Cmd.finished (d : Cmd) : Bool :=
  d.issued && d.fault.isNone && !d.stopped && d.refused.isEmpty && d.again.isEmpty && (decide (d.total ≤ d.n) || d.stopAt.isSome)

/-- The command may retire now (R150, R187, R365, R389). -/
def Mach.mayRetire (m : Mach) (c : Nat) (d : Cmd) : Bool :=
  let k := m.core c
  d.finished && k.atHead d && !m.inFlight c d.uid && !(m.dev.updates.any fun u => u.core == c && u.uid == d.uid) &&
  (d.gang.isSome || d.refetch || d.push.all fun t => k.tokRoom (queueNum d.q) t)

/-- The least of a prefix length and a count (R173). -/
def plenMin (p : BitVec 16) (n : Nat) : BitVec 16 := if n < p.toNat then BitVec.ofNat 16 n else p

/-- A query, and a reduction of no elements, deliver to the RQ when they retire (R321, R305): the entry and the result. -/
def Cmd.query (d : Cmd) : Option (Nat × Word) :=
  match d.work, d.acc with
  | .vec i _ _ _ _ _ (some u), v :: _ => match i with
    | .squeryQuant .. | .squeryRank .. | .squeryCount .. | .squeryEntry .. | .squeryEst .. => some (u, v)
    | _ => if d.total = 0 then some (u, v) else none
  | _, _ => none

/-- What retirement changes on the core: slot, tokens, prefix length, seat, kept record, query result, consumed message. -/
def Core.retireCmd (c : Core) (d : Cmd) : Core :=
  let c := ((c.completeSlot d).dropCmd d.uid).tlbRelease d.uid
  let c := match d.query, d.ctx with
    | some (u, v), some k => c.rqFill k u v none
    | _, _ => c
  let c := if d.refetch then c else match d.phase with
    | some n => if d.q == .lq then c.onPhase n fun p => { p with lqDone := p.lqDone ++ [d] } else c
    | none => c
  let c := match d.opc, d.ctx with
    | 0x13, some k => if d.null then c else c.onCtx k fun x => { x with plen := plenMin x.plen (d.stopAt.getD d.total) }
    | _, _ => c
  let c := match d.opc, d.work with
    | 0x20, .record r | 0x21, .record r =>
      if d.null then c
      else if r.mod.getLsbD 0 then { c with seat1 := { c.seat1 with full := true } } else { c with seat0 := { c.seat0 with full := true } }
    | _, _ => c
  let c := if d.handler then { c with con := c.con + 1 } else c
  let c := if d.gang.isSome || d.refetch then c else c.pushFor d
  c.latchAll

/-- Retires a command of a core (R150, R187). -/
def Mach.retire (m : Mach) (c : Nat) (d : Cmd) : Mach :=
  let us := (m.core c).visible (.cmd d.uid)
  let m := (m.onCore c (·.retireCmd d)).latchShown c d.uid
  match d.gang with
  | some g => m.gangDone g us
  | none => m

/-- `COMMAND_RETIRE` (R150). -/
def execCommandRetire (c : CoreId) (u : Nat) : State → Result :=
  lift fun m => match (m.core c.toNat).cmd u with
    | none => m
    | some d => if m.mayRetire c.toNat d then m.retire c.toNat d else m

/-- `HELD_TOKEN_PUSH` (R58): a token that a squash left held enters its FIFO when it has room; it counts as a push of its command's phase (R255). -/
def execHeldTokenPush (c : CoreId) (prod cons : BitVec 3) : State → Result :=
  lift fun m => m.onCore c.toNat fun k =>
    let p := prod.toNat
    let t := cons.toNat
    match k.heldTokens.find? fun h => h.1 == p && h.2.1 == t with
    | some h =>
      if k.tok p t < 15 then
        -- the token keeps its place behind those in the FIFO
        let us := k.visible (.token p t (k.tok p t).toNat)
        (({ k with heldTokens := k.heldTokens.erase h }).tokPush p t).tokNote h.2.2 p t true us
      else k
    | none => k

end Sys2Proof.Machine
end

