-- ==== Sys2Proof/Machine/Control.lean ====
section
/-! DEFINITION. Branches and loops (R126-R130), rings, tokens, frontiers, markers and barriers (R116-R125), the event latch (R138), and the return from a
handler, `break`, `resume` and `squash` (R137-R140). -/

namespace Sys2Proof.Machine

/-! ### Branches and loops (R126-R130) -/

/-- A branch target: PC + sext(off22) * 4 (R126). -/
def branchTarget (pc : Word) (off : BitVec 22) : Word := pc + (off.signExtend 64 <<< 2)

/-- `br` (R126, R17). -/
def execBr (off : BitVec 22) (g : Guard) : State → Result :=
  lift fun m => m.guarded g fun m => m.fin (branchTarget m.cur.pc off) id

/-- `call` (R126): the link goes to `x1`, latency 1. -/
def execCall (off : BitVec 22) (g : Guard) : State → Result :=
  lift fun m => m.guarded g fun m => m.finWrite 1 m.pc4 1 (branchTarget m.cur.pc off) id

/-- `jr` (R127). -/
def execJr (d a : Reg) (imm : BitVec 12) (g : Guard) : State → Result :=
  lift fun m => m.guarded g fun m =>
    let target := m.cur.reg a + (imm.signExtend 64 <<< 2)
    if target.toNat % 4 ≠ 0 then m.trap Cause.misalign target else m.finWrite d m.pc4 1 target id

/-- `loop` (R128). -/
def execLoop (off : BitVec 22) (g : Guard) : State → Result :=
  lift fun m => m.guarded g fun m =>
    if m.cur.lc ≠ 0 then m.fin (branchTarget m.cur.pc off) fun x => { x with lc := x.lc - 1 } else m.fin4 id

/-- What `loopr` does to a context's loop state (R129), and whether the branch is taken. -/
def Ctx.rotate (x : Ctx) : Bool × Ctx :=
  let shift (lc : Word) (ec : BitVec 8) (b : BitVec 16) : Ctx :=
    { x with lc := lc, ec := ec, kmask := (x.kmask <<< 1) ||| b, rrb := x.rrb + 1023 }
  if x.lc ≠ 0 then (true, shift (x.lc - 1) x.ec 1)
  else if 1 < x.ec.toNat then (true, shift x.lc (x.ec - 1) 0)
  else (false, shift x.lc 0 0)

/-- `loopr` (R129). -/
def execLoopr (off : BitVec 22) (g : Guard) : State → Result :=
  lift fun m => m.guarded g fun m =>
    let r := m.cur.rotate
    m.fin (if r.1 then branchTarget m.cur.pc off else m.pc4) fun x => { x with lc := r.2.lc, ec := r.2.ec, kmask := r.2.kmask, rrb := r.2.rrb }

/-- The effect of `done` on a context: every pending write lands, DONE is set, the PC stays at the `done` (R130, R14). -/
def Ctx.finish (x : Ctx) : Ctx := let y := x.landAll
  { y with done := true, tick := y.tick + 1 }

/-- All three contexts have executed `done`. -/
def Core.allDone (c : Core) : Bool := c.a.done && c.x.done && c.s.done

/-- `done` (R130): the third one ends the core's current phase (R250). -/
def execDone (g : Guard) : State → Result :=
  lift fun m => m.guarded g fun m =>
    (m.onCur Ctx.finish).onHere fun c => if c.allDone then c.nextPhase false else c

/-! ### Rings and the return queue (R116) -/

/-- `pushq` (R116). -/
def execPushq (a : Reg) (recv : BitVec 8) (g : Guard) : State → Result :=
  lift fun m => m.guarded g fun m =>
    match endpointCtx recv.toNat with
    | none => m.illegal
    | some t =>
      if t = m.kid then m.illegal
      else if 16 ≤ (m.here.ring m.kid t).length then m
      else
        let v := m.cur.reg a
        let k := m.kid
        (m.onHere fun c => ((c.flow (.ctx k) (.ring k t (c.ring k t).length)).setRing k t (c.ring k t ++ [v])).latch t).fin4 id

/-- `popq` (R116, R22, R23, R248): from the return queue or a ring. -/
def execPopq (d : Reg) (src : BitVec 8) (g : Guard) : State → Result :=
  lift fun m => m.guarded g fun m =>
    if src = 0 then
      match m.cur.rq with
      | [] => m.trap Cause.illegal (limitTval 0x10)
      | e :: rest => match e.val with
        | none => m
        | some v => match e.poison with
          | none => m.finWrite d v 1 m.pc4 fun x => { x with rq := rest }
          | some p =>
            match m.absorb m.cid (some m.here.phase) p.toNat with
            | some m' => m'
            | none => ((m.logErr 4 m.cid p 0 m.here.phase).onCur fun x => { x with rq := rest }).trap Cause.uncorrectable p
    else match endpointCtx src.toNat with
      | none => m.illegal
      | some f =>
        if f = m.kid then m.illegal
        else match m.here.ring f m.kid with
          | [] => m
          | v :: rest =>
            let k := m.kid
            (m.onHere fun c => ((c.flow (.ring f k 0) (.ctx k)).leave (.ring f k 0)).setRing f k rest).finWrite d v 1 m.pc4 id

/-! ### Tokens (R117, R118) -/

/-- `toksig` (R117). -/
def execToksig (mask : BitVec 8) (g : Guard) : State → Result :=
  lift fun m => m.guarded g fun m =>
    let own := ctxEndpoint m.kid
    if mask = 0 ∨ mask.getLsbD own then m.illegal
    else if (maskBits mask).any fun t => decide (15 ≤ m.here.tok own t) then m.trap Cause.illegal (limitTval 0x0F)
    else
      let k := m.kid
      (m.onHere fun c => (maskBits mask).foldl (fun c t => (c.carry own t (c.visible (.ctx k))).tokPush own t) c).fin4 id

/-- `tokwait` (R118). -/
def execTokwait (prod : BitVec 3) (g : Guard) : State → Result :=
  lift fun m => m.guarded g fun m =>
    let own := ctxEndpoint m.kid
    if prod.toNat = own then m.illegal
    else if m.here.tok prod.toNat own ≤ 0 then m
    else
      let k := m.kid
      (m.onHere fun c => c.tokTake prod.toNat own (.ctx k)).fin4 id

/-! ### Frontiers (R119, R120) -/

namespace Desc
/-- Fields of the descriptor in xa (R119). -/
def core (x : Word) : Nat := (x.extractLsb' 56 5).toNat
def seq (x : Word) : BitVec 16 := x.extractLsb' 40 16
def n (x : Word) : Nat := (x.extractLsb' 0 40).toNat
end Desc

/-- The core that a mode names (R119), or none where it runs no iteration of the same job. -/
def Mach.descCore (m : Mach) (mode : FMode) (x : Word) : Option Nat :=
  match mode with
  | .cslot =>
    let g := clusterOf m.cid * 32 + Desc.core x
    if (m.view m.cid g).runs m.here.job then some g else none
  | _ => some m.cid

/-- A present command of a core by SEQ (R120). -/
def Core.cmdSeq (c : Core) (q : BitVec 16) : Option Cmd := c.cmds.find? fun d => d.seq == q && !d.refetch

/-- `fwait`'s target is satisfied (R120). -/
def Mach.fwaitOk (m : Mach) (c : Nat) (mode : FMode) (g : Nat) (slot : Nat) (x : Word) : Bool :=
  match mode with
  | .seq => match (m.core g).cmdSeq (Desc.seq x) with
    | none => true
    | some d => decide (Desc.n x ≤ d.shownF)
  | _ => match (m.view c g).slotShows slot with
    | none => false
    | some s => seqLater (Desc.seq x) s.seq || (s.seq == Desc.seq x && (s.complete || decide (Desc.n x ≤ s.f)))

/-- The layout of `PF`k (R62). -/
def pfWord (s : Option Slot) : Word :=
  match s with
  | none => 0
  | some s => BitVec.ofNat 64 (s.seq.toNat * 2 ^ 48 + 2 ^ 47 + (if s.frozen then 2 ^ 46 else 0) + (if s.complete then 2 ^ 45 else 0)
      + s.order % 8 * 2 ^ 42 + s.f % 2 ^ 40)

/-- What `fread` delivers (R120). -/
def Mach.freadWord (m : Mach) (c : Nat) (mode : FMode) (g slot : Nat) (q : BitVec 16) : Word :=
  match mode with
  | .seq => match (m.core g).cmdSeq q with
    | none => BitVec.ofNat 64 (q.toNat * 2 ^ 48 + 2 ^ 45)
    | some d => pfWord (some { seq := q, uid := d.uid, complete := false, frozen := d.fault.isSome, f := d.shownF, order := d.order, nest := none })
  | _ => pfWord ((m.view c g).slotShows slot)

/-- The base of a core's on-chip map window, as `TVAL` reports it. -/
def windowWord (g : Nat) : Word := BitVec.ofNat 64 (window g)

/-- `fwait` (R119, R120). -/
def execFwait (a : Reg) (mode : FMode) (slot : BitVec 4) (g : Guard) : State → Result :=
  lift fun m => m.guarded g fun m =>
    let x := m.cur.reg a
    match m.descCore mode x with
    | none => m.trap Cause.access (windowWord (clusterOf m.cid * 32 + Desc.core x))
    | some k => if m.fwaitOk m.cid mode k slot.toNat x then m.fin4 id else m

/-- `fread` (R119, R120): allocates an RQ entry, which FREAD_FILL fills. A core that runs no iteration of the job is found before a full return queue
(log entry 83). -/
def execFread (a : Reg) (mode : FMode) (slot : BitVec 4) (g : Guard) : State → Result :=
  lift fun m => m.guarded g fun m =>
    let x := m.cur.reg a
    match m.descCore mode x with
    | none => m.trap Cause.access (windowWord (clusterOf m.cid * 32 + Desc.core x))
    | some k =>
      if m.cur.rqFull then m.trap Cause.illegal (limitTval 0x11)
      else
        let u := m.fresh
        let t := m.kid
        ((m.onHere fun c => { c with freads := c.freads ++ [⟨u, t, mode, k, slot.toNat, Desc.seq x⟩] }).fin4 fun x => x.rqAlloc u).bump

/-- `FREAD_FILL` (R120): the word is sampled and fills the entry. -/
def execFreadFill (c : CoreId) (u : Nat) : State → Result :=
  lift fun m => match (m.core c.toNat).freads.find? fun f => f.rq == u with
    | none => m
    | some f =>
      let w := m.freadWord c.toNat f.mode f.core f.slot f.seq
      m.onCore c.toNat fun k => ({ k with freads := k.freads.filter fun f => f.rq != u }).rqFill f.ctx u w none

/-! ### Markers (R122, R123) -/

/-- The queues that a mask names. -/
def maskQueues (mask : BitVec 5) : List Queue := allQueues.filter fun q => mask.getLsbD (queueNum q)

/-- `mfence` (R122): a marker stands behind every command now in the queue. -/
def execMfence (mask : BitVec 5) (g : Guard) : State → Result :=
  lift fun m => m.guarded g fun m =>
    if mask = 0 then m.illegal
    else
      let new : List (Queue × List Nat) := (maskQueues mask).map fun q => (q, (m.here.queue q).map (·.uid))
      m.fin4 fun x => { x with marks := (x.marks.filter fun p => !(maskQueues mask).contains p.1) ++ new }

/-- A marker has reached its queue's head: none of the commands that it stands behind is left (R122). -/
def Core.markAtHead (c : Core) (p : Queue × List Nat) : Bool := (c.queue p.1).all fun d => !p.2.contains d.uid

/-- `join` (R123). -/
def execJoin (g : Guard) : State → Result :=
  lift fun m => m.guarded g fun m =>
    if m.cur.marks.all m.here.markAtHead then m.fin4 fun x => { x with marks := [] } else m

/-! ### Barriers (R124, R125) -/

/-- The core is a member of group `g` by its `GMAP` (R124, R349). -/
def Core.inGroup (c : Core) (g : Nat) : Bool := (List.range 4).any fun k => c.gmap.getLsbD (32 + k) && (c.gmap.extractLsb' (8 * k) 8).toNat == g

/-- ARR[g] of a core, running or saved (R124, R125). -/
def Mach.arrivals (m : Mach) (j : Job) (c g : Nat) : Nat :=
  match j.saved.find? fun s => s.core.id == c with
  | some s => natAt s.core.arr g
  | none => if (m.core c).job = some j.id then natAt (m.core c).arr g else 0

/-- GEN[g] of the core's job. -/
def Mach.gen (m : Mach) (c g : Nat) : Nat := match m.jobOf c with | some j => natAt j.gens g | none => 0

/-- GEN[g] rises as soon as every member has arrived (R124). -/
def Mach.barrierGeneration (m : Mach) (c g : Nat) : Mach :=
  match m.jobOf c with
  | none => m
  | some j => match j.members g with
    | none => m
    | some ms =>
      if ms.all fun k => decide (natAt j.gens g + 1 ≤ m.arrivals j k g) then m.onJob j.id fun b => { b with gens := natSet b.gens g (natAt b.gens g + 1) } else m

/-- `bara` may arrive: no arrival of the core is outstanding, every system access of the core is performed, and those of other cores that are visible to the
context (R243), and what its die's replicas have applied the others have too (R124, R365). -/
def Mach.mayArrive (m : Mach) (g : Nat) : Bool :=
  decide (natAt m.here.arr g ≤ m.gen m.cid g) && (m.here.accs.all fun a => a.op == .fence) && m.dev.gone (m.here.visible (.ctx m.kid)) &&
  m.dev.dieSettled (dieOf m.cid)

/-- The arrival: a release, which makes uncommitted phases irrevocable (R124, R254). -/
def Mach.arrive (m : Mach) (g : Nat) : Mach :=
  (m.onHere fun c => ({ c with arr := natSet c.arr g (natAt c.arr g + 1) }).irrevoke).barrierGeneration m.cid g

/-- Every arrival of the core at the group has been met (R124). -/
def Mach.barrierMet (m : Mach) (g : Nat) : Bool := decide (natAt m.here.arr g ≤ m.gen m.cid g)

/-- `bara` (R124). -/
def execBara (grp : BitVec 8) (g : Guard) : State → Result :=
  lift fun m => m.guarded g fun m =>
    if !m.here.inGroup grp.toNat then m.illegal
    else if m.mayArrive grp.toNat then (m.arrive grp.toNat).fin4 id else m

/-- `barw` (R124). -/
def execBarw (grp : BitVec 8) (g : Guard) : State → Result :=
  lift fun m => m.guarded g fun m =>
    if !m.here.inGroup grp.toNat then m.illegal
    else if m.barrierMet grp.toNat then m.fin4 id else m

/-- `bar` (R124): `bara`, then `barw`; its arrival is made once (log entry 9). -/
def execBar (grp : BitVec 8) (g : Guard) : State → Result :=
  lift fun m => m.guarded g fun m =>
    if !m.here.inGroup grp.toNat then m.illegal
    else
      let pc := m.cur.pc
      let wait (m : Mach) : Mach := if m.barrierMet grp.toNat then m.fin4 fun x => { x with barAt := none } else m.onCur fun x => { x with barAt := some pc }
      if m.cur.barAt = some pc then wait m
      else if m.mayArrive grp.toNat then wait (m.arrive grp.toNat) else m

/-! ### Handlers, events, faulted commands (R137-R140) -/

/-- `eret` (R29, R137). -/
def execEret : State → Result := lift fun m => if m.cur.inh then m.onCur Ctx.leaveHandler else m.illegal

/-- `wfe` (R138). -/
def execWfe : State → Result := lift fun m => if m.cur.latch then m.fin4 fun x => { x with latch := false } else m

/-- `break` (R139): `EPC` holds PC + 4. It does not count as issued: pending entries keep their counts and `TICK` stands, as at any trap (log entry 59). -/
def execBrk : State → Result := lift fun m => m.trapEntry m.cid m.kid Cause.brk 0 m.pc4

/-- The faulted command that an `EFAULT` value names (R140). -/
def Core.faulted (c : Core) (v : Word) : Option Cmd :=
  match allQueues[(v.extractLsb' 0 3).toNat]? with
  | none => none
  | some q => (c.queue q).find? fun d => d.fault.isSome && d.seq == v.extractLsb' 48 16

/-- A faulted command restarts from its position (R178); refused transfers are to be sent again (R359), and a wait for an exponent begins anew (R384). -/
def Cmd.resume (d : Cmd) : Cmd :=
  { d with fault := none, resumed := true, refused := [], again := (d.refused.map (·.1)).foldl unitInsert d.again, since := none, paused := none }

/-- `resume` (R140, R178, R138): the command restarts from its position, with its translations let go and made again, and a slot that shows it is no longer
frozen. An engine fault of the command that is still pending for its owner stays pending (log entry 86). -/
def execResume (a : Reg) : State → Result :=
  lift fun m =>
    let v := m.cur.reg a
    if 4 < (v.extractLsb' 0 3).toNat then m.illegal
    else (match m.here.faulted v with
      | none => m
      | some d => (m.onHere fun c => (c.onCmd d.uid Cmd.resume).tlbRelease d.uid).latchShown m.cid d.uid).fin4 id

/-- `squash` (R140, R58). An engine fault of the command that is still pending for its owner stays pending (log entry 86). -/
def execSquash (a : Reg) : State → Result :=
  lift fun m =>
    let v := m.cur.reg a
    if 4 < (v.extractLsb' 0 3).toNat then m.illegal
    else (match m.here.faulted v with
      | none => m
      | some d => m.squash m.cid d.uid).fin4 id

/-- The layout of `EFAULT` (R153). -/
def efaultWord (f : EFault) : Word := BitVec.ofNat 64 (f.seq.toNat * 2 ^ 48 + f.pos % 2 ^ 40 * 2 ^ 8 + f.sub % 32 * 8 + queueNum f.q)

/-- `ENGINE_FAULT` (R13, R14, R30): the oldest pending engine fault of a context is taken, before any instruction issues. -/
def execEngineFault (c : CoreId) (k : CtxId) : State → Result :=
  lift fun m =>
    let x := (m.core c.toNat).ctx k
    match x.efq with
    | [] => m
    | f :: rest =>
      if x.inh || x.held.isSome then m
      else (m.onCtx c.toNat k fun x => { x with efq := rest, efault := efaultWord f }).trapEntry c.toNat k Cause.engineFault f.tval x.pc

/-- `ILLEGAL_ENCODING` (R96, R97, R99): a word that is no defined instruction raises its cause. -/
def execIllegalEncoding (cause : BitVec 8) (tval : Word) : State → Result := lift fun m => m.trap cause.toNat tval

end Sys2Proof.Machine
end

