-- ==== Sys2Proof/Machine/Csr.lean ====
section
/-! DEFINITION. Control registers (R31-R34, R62, R134, R135, R152, R349, R412), the supervisor's services (R15, R16, R136, R433) and `tlbinv` (R141,
R158, R160). -/

namespace Sys2Proof.Machine

/-! ### Reading -/

/-- The pending writes that `PWB`k and `PWBN` show: `SAVED_PWB` inside a handler, else the live buffer (R31). -/
def Ctx.shownPwb (x : Ctx) : List Pend := if x.inh then x.savedPwb else x.pwb

/-- `STATUS` (R31). -/
def statusWord (c : Core) (k : CtxId) : Word :=
  let x := c.ctx k
  let b (v : Bool) (n : Nat) : Nat := if v then 2 ^ n else 0
  BitVec.ofNat 64 (b (x.inh && !x.efq.isEmpty) 11 + ctxNum k * 2 ^ 9 + b c.conf 8 + b c.paired 7 + b c.checked 6 + b c.fixed 5 + b x.done 1 + b x.inh 0)

/-- `PWBN` (R31). -/
def pwbnWord (x : Ctx) : Word :=
  let l := x.shownPwb
  let e := l[x.pwbSel.toNat]?
  let rem := match e with | some p => p.rem | none => 0
  let dest := match e with | some p => p.dest.toNat | none => 0
  BitVec.ofNat 64 (l.length * 2 ^ 16 + rem % 16 * 2 ^ 12 + dest * 2 ^ 3 + x.pwbSel.toNat)

/-- The command that `EPOS` shows: the faulted one, else a gang part frozen by poison (R185), else the oldest (R152). -/
def shownCmd (l : List Cmd) : Option Cmd :=
  ((l.find? fun d => d.fault.isSome).orElse fun _ => l.find? fun d => d.refetchWait.isSome).orElse fun _ => l.find? fun d => !d.refetch

/-- The position of a command: of its fault, of the first transfer to be sent again, or its next element (R152, R359). -/
def Cmd.position (d : Cmd) : Nat :=
  match d.fault, d.again with
  | some f, _ => f.pos
  | none, i :: _ => i / 2
  | none, [] => d.n

/-- `EPOS` of a queue (R152). -/
def eposWord (l : List Cmd) : Word :=
  match shownCmd l with
  | none => BitVec.ofNat 64 (0xFF * 2 ^ 40)
  | some d => BitVec.ofNat 64 (d.seq.toNat * 2 ^ 48 + d.position % 2 ^ 40)

/-- Core cycles that a core has been RUNNING since its iteration was dealt (R355). -/
def Core.cycles (c : Core) (now : Nat) : Nat := if c.life == .running then c.counted + (now - c.dealtAt) else c.counted

/-- Cycles of the tie-break that the core waits for (R350). -/
def Core.tieWait (c : Core) (now : Nat) : Nat :=
  match c.phases.head?.bind (·.differAt) with
  | some t => now - t
  | none => 0

/-- `BUDGETUSED` (R350): the cycles from dealing until the core is free, in whatever state of pre-emption, without the waits for tie-breaks; cycles in which
a free core runs a handler record count too (R403). -/
def Core.budgetUsed (c : Core) (now : Nat) : Nat :=
  (match c.freeAt with | some t => min t now | none => now) - c.startAt - c.excluded - c.tieWait now

/-- The values a control register can have for a context, by number (R34); none for an unlisted number. -/
def Mach.csrRead (m : Mach) (c : Nat) (k : CtxId) (num : Nat) : Option Word :=
  let d := m.core c
  let x := d.ctx k
  let j := m.jobOf c
  let wave (f : Job → Word) : Word := match j with | some j => if j.waved then f j else 0 | none => 0
  match num with
  | 0x000 => some (statusWord d k)
  | 0x001 => some x.epc
  | 0x002 => some x.cause
  | 0x003 => some x.tval
  | 0x004 => some x.tvec
  | 0x005 => some x.scratch
  | 0x010 => some x.tick
  | 0x011 => some (BitVec.ofNat 64 (d.cycles m.dev.now))
  | 0x020 => some (x.rrb.zeroExtend 64)
  | 0x021 => some x.lc
  | 0x022 => some (x.ec.zeroExtend 64)
  | 0x023 => some (x.kmask.zeroExtend 64)
  | 0x024 => some (x.plen.zeroExtend 64)
  | 0x030 => some d.jobid
  | 0x031 => some (BitVec.ofNat 64 d.id)
  | 0x032 => some d.gmap
  | 0x033 => some d.seed
  | 0x034 => some d.coin
  | 0x035 => some x.subcnt
  | 0x048 => some (pwbnWord x)
  | 0x058 => some x.efault
  | 0x060 => some d.drainlim
  | 0x061 => some d.gangwait
  | 0x070 => some d.budget
  | 0x071 => some (BitVec.ofNat 64 (d.budgetUsed m.dev.now))
  | 0x0A0 => some (wave fun _ => d.inj)
  | 0x0A1 => some (wave fun _ => d.con)
  | 0x0A2 => some (wave (·.qlost))
  | 0x0A3 => some (wave (·.qabandon))
  | 0x0A4 => some (wave (·.qwave))
  | 0x100 => some d.ptbase
  | 0x101 => some d.asid
  | 0x102 => some d.tlbctl
  | n =>
    if 0x040 ≤ n ∧ n ≤ 0x047 then some (match x.shownPwb[n - 0x040]? with | some p => p.val | none => 0)
    else if 0x050 ≤ n ∧ n ≤ 0x054 then some (eposWord (d.queue (queueOf (BitVec.ofNat 3 (n - 0x050)))))
    else if 0x080 ≤ n ∧ n ≤ 0x08F then some (pfWord (d.slotShows (n - 0x080)))
    else none

/-- Supervisor registers (R34). -/
def csrSupervisor (num : Nat) : Bool := decide (0x100 ≤ num) && decide (num ≤ 0x102)

/-- Registers that a job may write (R34, R135). -/
def csrWritable (num : Nat) : Bool := [0x001, 0x002, 0x003, 0x004, 0x005, 0x020, 0x021, 0x022, 0x023, 0x024, 0x034, 0x035, 0x048].contains num

/-- Replaces entry `i` of the shown pending writes (R32: by the supervisor). -/
def Ctx.setShown (x : Ctx) (f : List Pend → List Pend) : Ctx := if x.inh then { x with savedPwb := f x.savedPwb } else { x with pwb := f x.pwb }

/-- `PWBN` as the supervisor writes it (R32): the number of entries, and REM and DEST of entry SEL. -/
def Ctx.supPwbn (x : Ctx) (v : Word) : Ctx :=
  let n := (v.extractLsb' 16 4).toNat
  let sel : BitVec 3 := v.extractLsb' 0 3
  let x := x.setShown fun l => (l ++ List.replicate 8 (Pend.mk 1 1 0)).take (min n 8)
  ({ x with pwbSel := sel }).setShown fun l => l.modify sel.toNat fun p => { p with rem := (v.extractLsb' 12 4).toNat, dest := v.extractLsb' 3 5 }

/-- A write of a context-scope register, with the bits that R135 keeps. -/
def Ctx.csrWrite (x : Ctx) (num : Nat) (v : Word) : Ctx :=
  match num with
  | 0x001 => { x with epc := v &&& ~~~3 }
  | 0x002 => { x with cause := v }
  | 0x003 => { x with tval := v }
  | 0x004 => { x with tvec := v &&& ~~~3 }
  | 0x005 => { x with scratch := v }
  | 0x020 => { x with rrb := v.truncate 10 }
  | 0x021 => { x with lc := v }
  | 0x022 => { x with ec := v.truncate 8 }
  | 0x023 => { x with kmask := v.truncate 16 }
  | 0x024 => { x with plen := v.truncate 16 }
  | 0x035 => { x with subcnt := v }
  | 0x048 => if x.sup then x.supPwbn v else { x with pwbSel := v.truncate 3 }
  | n => if x.sup ∧ 0x040 ≤ n ∧ n ≤ 0x047 then x.setShown fun l => l.modify (n - 0x040) fun p => { p with val := v } else x

/-- A command of the Cabinet that draws coins: an absorb or a merge. -/
def Cmd.coins (d : Cmd) : Bool :=
  match d.work with | .vec (.vskq ..) .. | .vec (.vskh ..) .. | .vec (.vskd ..) .. | .vec (.smerge ..) .. => true | _ => false

/-- The command has coins to draw. -/
def Cmd.drawsCoins (d : Cmd) : Bool := d.coins && decide (d.n < d.total)

/-- A write of `COIN`: commands that have issued to VQ draw on from the old value, in their order (R135, R310). Each keeps it, with the number of the oldest of
those that share it. -/
def Core.setCoin (c : Core) (v : Word) : Core :=
  let old (d : Cmd) : Bool := d.drawsCoins && d.acc.isEmpty
  match c.vq.find? old with
  | none => { c with coin := v }
  | some o => { c with coin := v, vq := c.vq.map fun d => if old d then { d with acc := [c.coin, BitVec.ofNat 64 o.uid] } else d }

/-- The coins that a command has drawn leave `COIN`, or the value that it shares with the commands of the same write of `COIN`, as they do (R310). -/
def Core.drawn (c : Core) (d : Cmd) (v : Word) : Core :=
  if d.acc.isEmpty then { c with coin := v }
  else { c with vq := c.vq.map fun e => if e.coins && !e.acc.isEmpty && e.acc.tail == d.acc.tail then { e with acc := v :: e.acc.tail } else e }

/-- A write of a core-scope register. -/
def Core.csrWrite (c : Core) (num : Nat) (v : Word) : Core :=
  match num with
  | 0x034 => c.setCoin v
  | 0x100 => { c with ptbase := v }
  | 0x101 => { c with asid := v }
  | 0x102 => { c with tlbctl := v }
  | _ => c

/-- The cause of an access that R34 and R32 refuse, with its `TVAL`; none for one that they allow. -/
def Mach.csrRefuses (m : Mach) (num : Nat) (write : Bool) : Option (Nat × Word) :=
  if (m.csrRead m.cid m.kid num).isNone then some (Cause.illegal, m.instrWord)
  else if m.cur.sup && (csrSupervisor num || (decide (0x040 ≤ num) && decide (num ≤ 0x047))) then none
  else if csrSupervisor num then some (Cause.privilege, BitVec.ofNat 64 num)
  else if !write then none
  else if 0x040 ≤ num ∧ num ≤ 0x047 then some (Cause.privilege, BitVec.ofNat 64 num)
  else if csrWritable num then none
  else some (Cause.illegal, m.instrWord)

/-- `csrr` (R134): latency 2. -/
def execCsrr (d : Reg) (csr : BitVec 12) : State → Result :=
  lift fun m => match m.csrRefuses csr.toNat false with
    | some (cause, tval) => m.trap cause tval
    | none => m.finWrite d ((m.csrRead m.cid m.kid csr.toNat).getD 0) 2 m.pc4 id

/-- `csrw`, `csrs`, `csrc` (R134, R135): the new value at the end of the issue, the old one to xd with latency 2. -/
def Mach.csrModify (m : Mach) (d : Reg) (num : Nat) (new : Word → Word) : Mach :=
  match m.csrRefuses num true with
  | some (cause, tval) => m.trap cause tval
  | none =>
    if m.cur.pwbFull d 2 then m.trap Cause.illegal (limitTval 0x09)
    else
      let old := (m.csrRead m.cid m.kid num).getD 0
      (m.onHere fun c => c.csrWrite num (new old)).finWrite d old 2 m.pc4 fun x => x.csrWrite num (new old)

/-- `csrw` (R134). -/
def execCsrw (d a : Reg) (csr : BitVec 12) : State → Result := lift fun m => m.csrModify d csr.toNat fun _ => m.cur.reg a

/-- `csrs` (R134). -/
def execCsrs (d a : Reg) (csr : BitVec 12) : State → Result := lift fun m => m.csrModify d csr.toNat fun old => old ||| m.cur.reg a

/-- `csrc` (R134). -/
def execCsrc (d a : Reg) (csr : BitVec 12) : State → Result := lift fun m => m.csrModify d csr.toNat fun old => old &&& ~~~(m.cur.reg a)

/-- Marks buffer entries unusable: no new user takes them, and they stay for the users they have (R158). -/
def Core.invalidate (c : Core) (p : TlbEntry → Bool) : Core :=
  { c with tlb := (c.tlb.map fun e => if p e then { e with usable := false } else e).filter fun e => e.usable || !e.users.isEmpty }

/-! ### Service calls (R15, R136) -/

/-- A service returns a result in `x10` for the next instruction (R15). -/
def Mach.serviceDone (m : Mach) (v : Word) : Mach := m.fin4 fun x => x.setReg 10 v

/-- The job of the current context. -/
def Mach.curJob (m : Mach) : Option Job := m.jobOf m.cid

/-- An address lies in the job's elastic range (R342). -/
def Job.elastic (j : Job) (va : Nat) : Bool :=
  let pool := launchField j.launch 448 64
  decide (pool ≤ va) && decide (va < pool + 4096 * launchField j.launch 512 32)

/-- Some translation buffer of the job's cores still uses a page (R158). -/
def Mach.pageUsed (m : Mach) (j : Job) (page : Nat) : Bool :=
  m.dev.cores.any fun p => p.2.job == some j.id && p.2.tlb.any fun e => decide (e.pa ≤ page) && decide (page < e.pa + e.size) && !e.users.isEmpty

/-- Unmapped pages that nothing uses any more return to the pool (R136). -/
def Mach.reclaim (m : Mach) (j : Job) : Mach :=
  m.onJob j.id fun b =>
    let free := b.leaving.filter fun p => !m.pageUsed b p.2
    { b with pool := b.pool ++ free.map (·.2), leaving := b.leaving.filter fun p => m.pageUsed b p.2 }

/-- Zeros a page of 4 KiB under a key slot; its sectors lose their poison marks, since the page is to read as zeros (log entry 61). -/
def Mach.zeroPage (m : Mach) (page key : Nat) : Mach :=
  (m.homeWrite page (List.replicate 4096 0) key).onDev fun d => { d with poison := d.poison.filter fun u => u < page || page + 4096 ≤ u }

/-- A free page of the supervisor's: one that was given back, else the next below those given (R342; log entry 68). -/
def Mach.takePage (m : Mach) : Option (Nat × Mach) :=
  match m.dev.freePages with
  | p :: rest => some (p, m.onDev fun d => { d with freePages := rest })
  | [] =>
    let p := m.dev.topPage / 4096 * 4096 - 4096
    if Config.hbmBase + 4096 ≤ m.dev.topPage then some (p, m.onDev fun d => { d with topPage := p }) else none

/-- Makes a level-1 leaf for an address, with the tables it needs from the supervisor's free pages (R16); none where no page is left for a table, which
MAP_POOL answers as an exhausted pool (log entry 62). -/
def Mach.mapFrom (m : Mach) (va : Nat) (leaf : Word) : Nat → Nat → Option Mach
  | 0, _ => none
  | level + 1, table =>
    let at_ := table + 8 * (va / 2 ^ (12 + 9 * level) % 512)
    if level = 0 then some (m.homeWrite at_ (leBytes 8 leaf.toNat) 0)
    else
      let e : Word := BitVec.ofNat 64 (leNat (m.homeRead at_ 8 0))
      if Pte.v e then m.mapFrom va leaf level (Pte.pa e)
      else match m.takePage with
        | none => none
        | some (p, m) => ((m.zeroPage p 0).homeWrite at_ (leBytes 8 (p + 1)) 0).mapFrom va leaf level p

/-- The leaf that the tables hold for an address, whatever its key slot holds now. -/
def Mach.leafOf (m : Mach) (va : Nat) : Nat → Nat → Option Word
  | 0, _ => none
  | level + 1, table =>
    let e : Word := BitVec.ofNat 64 (leNat (m.homeRead (table + 8 * (va / 2 ^ (12 + 9 * level) % 512)) 8 0))
    if !Pte.v e then none else if level = 0 ∨ Pte.l e then some e else m.leafOf va level (Pte.pa e)

/-- The key slot of pages that MAP_POOL maps: the job's, or that of the leaf of its IMAGE (R16). -/
def Mach.poolKey (m : Mach) (j : Job) : Nat :=
  match j.key with
  | some k => k
  | none => ((m.leafOf (launchField j.launch 64 64) 5 m.here.ptbase.toNat).map Pte.key).getD 0

/-- The page of an address is present (R16): a walk finds more than `PAGE_NOT_PRESENT`; one that ends in `PTE_POISON` counts as finding it (log entry 62). -/
def Mach.present (m : Mach) (va : Nat) : Bool :=
  match (m.walk m.cid va false).2 with
  | .error c => c != Cause.pageNotPresent
  | .ok _ => true

/-- The supervisor's service waits for entries and pages that the CXL home agent holds (R364). -/
def Mach.poolBusy (m : Mach) (j : Job) (va : Nat) : Bool :=
  let root := m.here.ptbase.toNat
  m.walkBusy va 5 root || m.walkBusy (launchField j.launch 64 64) 5 root || j.pool.any fun p => m.dev.cxlBusy p 4096

/-- `trap 0x01`, MAP_POOL (R16, R136). -/
def execTrapMapPool : State → Result :=
  lift fun m =>
    let va := (m.cur.reg 10).toNat
    match m.curJob with
    | none => m.serviceDone 2
    | some j =>
      if !j.elastic va then m.serviceDone 2
      else if m.poolBusy j va then m
      else if m.present va then m.serviceDone 3
      else
        let m := m.reclaim j
        match (m.curJob.map (·.pool)).getD [] with
        | [] => m.serviceDone 1
        | p :: rest =>
          let key := m.poolKey j
          match (m.zeroPage p key).mapFrom va (BitVec.ofNat 64 (key * 2 ^ 52 + p + 3)) 5 m.here.ptbase.toNat with
          | none => m.serviceDone 1
          | some m' => (m'.onJob j.id fun b => { b with pool := rest, mapped := b.mapped ++ [(va / 4096 * 4096, p)] }).serviceDone 0

/-- The level-1 entry of an address, when every table above it is present. -/
def Mach.leafAddr (m : Mach) (va : Nat) : Nat → Nat → Option Nat
  | 0, _ => none
  | level + 1, table =>
    let at_ := table + 8 * (va / 2 ^ (12 + 9 * level) % 512)
    if level = 0 then some at_
    else
      let e : Word := BitVec.ofNat 64 (leNat (m.homeRead at_ 8 0))
      if Pte.v e then m.leafAddr va level (Pte.pa e) else none

/-- `trap 0x02`, UNMAP (R136): the leaf is invalidated, translations held keep working until their users release them. -/
def execTrapUnmap : State → Result :=
  lift fun m =>
    let va := (m.cur.reg 10).toNat
    match m.curJob with
    | none => m.serviceDone 2
    | some j =>
      if !j.elastic va then m.serviceDone 2
      else match j.mapped.find? fun p => p.1 == va / 4096 * 4096 with
        | none => m.serviceDone 4
        | some p =>
          if m.walkBusy va 5 m.here.ptbase.toNat then m else
          let m := match m.leafAddr va 5 m.here.ptbase.toNat with
            | some at_ => m.homeWrite at_ (leBytes 8 0) 0
            | none => m
          let hit (e : TlbEntry) : Bool := decide (e.va ≤ va) && decide (va < e.va + e.size)
          let m := m.onDev fun d => { d with cores := d.cores.map fun q => if q.2.job = some j.id then (q.1, q.2.invalidate hit) else q }
          ((m.onJob j.id fun b => { b with mapped := b.mapped.filter (·.1 != p.1), leaving := b.leaving ++ [p] }).reclaim j).serviceDone 0

/-- `trap 0x03`, YIELD (R136): returns 0 once the core runs again; a pre-emption is a step of its own. -/
def execTrapYield : State → Result := lift fun m => m.serviceDone 0

/-- Appends a record to a job's log unless it is full (R136, R433). -/
def Job.append (j : Job) (r : LogRec) : Job := if j.log.length < 65536 then { j with log := j.log ++ [r] } else j

/-- `trap 0x04`, LOG (R136, R433). -/
def execTrapLog : State → Result :=
  lift fun m => match m.curJob with
    | none => m.serviceDone 1
    | some j =>
      if 65536 ≤ j.log.length then m.serviceDone 1
      else
        let r : LogRec := ⟨m.cur.reg 10, m.cur.reg 11, m.here.jobid, BitVec.ofNat 64 m.cid, ctxNum m.kid, m.cur.tick⟩
        (m.onJob j.id (·.append r)).serviceDone 0

/-- The supervisor keeps the context: the call does not return (R136). -/
def Mach.noReturn (m : Mach) (tval : Word) : Mach := m.onCur fun x => { x with held := some ⟨Cause.trap, tval⟩ }

/-- `trap 0x05`, EXIT (R136, R352): the job ends with the code in `x10`. -/
def execTrapExit : State → Result := lift fun m => (m.endJob m.here.job ⟨1, m.cur.reg 10, 0, m.cid, 0⟩).noReturn 5

/-- `trap n` with another number (R91): the job ends with cause `TRAP`. The number stands in the end record; the log takes no record of it (log entry 82). -/
def execTrap (n : BitVec 12) : State → Result :=
  lift fun m => (m.endJob m.here.job ⟨2, 0, n.zeroExtend 64, m.cid, Cause.trap⟩).noReturn (n.zeroExtend 64)

/-! ### `tlbinv` (R141, R158, R160) -/

/-- The entries that `tlbinv` selects. Selector 0 takes those of the current ASID (log entry 84). -/
def TlbEntry.selected (e : TlbEntry) (sel : Nat) (asid va : Word) : Bool :=
  match sel with
  | 0 => e.asid == asid && decide (e.va ≤ va.toNat) && decide (va.toNat < e.va + e.size)
  | 1 => e.asid == asid
  | _ => true

/-- Poisoned tables whose every poisoned sector has been rewritten leave the list (R160). -/
def Dev.trimTables (d : Dev) : Dev :=
  { d with poisonedTables := d.poisonedTables.filter fun t => d.poison.any fun u => decide (t ≤ u) && decide (u < t + 4096) }

/-- `tlbinv` (R141): `PRIVILEGE` in a job context; for the supervisor it invalidates, and completes when no invalidated entry is in use. -/
def execTlbinv (a : Reg) (sel : BitVec 2) : State → Result :=
  lift fun m =>
    if sel = 3 then m.illegal
    else if !m.cur.sup then m.trap Cause.privilege m.instrWord
    else
      let va := m.cur.reg a
      let pick (c : Core) (e : TlbEntry) : Bool := e.selected sel.toNat c.asid va
      let m := (m.onHere fun c => c.invalidate (pick c)).onDev Dev.trimTables
      if m.here.tlb.any (fun e => pick m.here e && !e.usable) then m else m.fin4 id

end Sys2Proof.Machine
end

