-- ==== Sys2Proof/Machine/Num.lean ====
section
/-! DEFINITION. Numbers (09_numbers): exact reals, the element formats and their special encodings (R188-R192), the one conversion (R193), IEEE 754
operations on exact values (R207, R290), alignment of a K-block (R194), the K-step window (R201-R203), MX blocks (R204), quantisation (R205, R206). -/

namespace Sys2Proof.Machine

/-! ### Exact reals -/

/-- The exact real n / d × 2^e, with d ≠ 0. -/
structure Ex where
  n : Int
  d : Nat
  e : Int
  deriving DecidableEq, Repr

namespace Ex

/-- An integer. -/
def ofInt (n : Int) : Ex := ⟨n, 1, 0⟩

/-- n × 2^e. -/
def dyadic (n : Int) (e : Int) : Ex := ⟨n, 1, e⟩

/-- 2^k as an integer, for k ≥ 0; 1 below. -/
def pow2 (k : Int) : Nat := 2 ^ k.toNat

def isZero (x : Ex) : Bool := x.n == 0

def isNeg (x : Ex) : Bool := decide (x.n < 0)

def neg (x : Ex) : Ex := { x with n := -x.n }

def abs (x : Ex) : Ex := { x with n := x.n.natAbs }

def add (x y : Ex) : Ex :=
  let e := min x.e y.e
  ⟨x.n * (y.d * pow2 (x.e - e) : Nat) + y.n * (x.d * pow2 (y.e - e) : Nat), x.d * y.d, e⟩

def sub (x y : Ex) : Ex := x.add y.neg

def mul (x y : Ex) : Ex := ⟨x.n * y.n, x.d * y.d, x.e + y.e⟩

/-- x / y for y ≠ 0. -/
def div (x y : Ex) : Ex := ⟨x.n * y.d * y.n.sign, x.d * y.n.natAbs, x.e - y.e⟩

/-- x × 2^k. -/
def scale (x : Ex) (k : Int) : Ex := { x with e := x.e + k }

def lt (x y : Ex) : Bool := (x.sub y).isNeg

def eq (x y : Ex) : Bool := (x.sub y).isZero

/-- floor(log2 |x|) for x ≠ 0. -/
def log2 (x : Ex) : Int :=
  let a := x.n.natAbs
  let l : Int := (Nat.log2 a : Int) - Nat.log2 x.d
  (if pow2 l * x.d ≤ a * pow2 (-l) then l else l - 1) + x.e

/-- |x| / 2^q as a quotient of naturals. -/
def over2 (x : Ex) (q : Int) : Nat × Nat := (x.n.natAbs * pow2 (x.e - q), x.d * pow2 (q - x.e))

/-- |x| / 2^q truncated. -/
def magTrunc (x : Ex) (q : Int) : Nat := let p := x.over2 q
  p.1 / p.2

/-- x / 2^q truncated toward zero. -/
def truncAt (x : Ex) (q : Int) : Int := x.n.sign * x.magTrunc q

/-- x is a multiple of 2^q. -/
def multiple (x : Ex) (q : Int) : Bool := let p := x.over2 q
  p.1 % p.2 == 0

/-- |x| / 2^q rounded to nearest, ties to even. -/
def magRne (x : Ex) (q : Int) : Nat :=
  let p := x.over2 q
  let k := p.1 / p.2
  let r := 2 * (p.1 % p.2)
  if p.2 < r ∨ (r = p.2 ∧ k % 2 = 1) then k + 1 else k

/-- x rounded to the nearest integer, ties to even. -/
def rneInt (x : Ex) : Int := x.n.sign * x.magRne 0

end Ex

/-! ### Numbers with signed zeros, infinities and NaN -/

/-- What an encoding stands for, or what an operation gives: a finite real (with the sign that a zero carries), an infinity, NaN (R192, R193). -/
inductive Num where
  | fin (neg : Bool) (v : Ex)
  | inf (neg : Bool)
  | nan
  deriving DecidableEq, Repr

namespace Num

/-- A finite value whose zero is +0. -/
def real (v : Ex) : Num := .fin v.isNeg v

def ofInt (n : Int) : Num := real (Ex.ofInt n)

/-- +0. -/
def zero : Num := .fin false (Ex.ofInt 0)

/-- The sign; a NaN has none. -/
def sign : Num → Bool
  | .fin s v => if v.isZero then s else v.isNeg
  | .inf s => s
  | .nan => false

def isZero : Num → Bool
  | .fin _ v => v.isZero
  | _ => false

def isNan : Num → Bool
  | .nan => true
  | _ => false

def isInf : Num → Bool
  | .inf _ => true
  | _ => false

/-- The real value of a finite number; 0 for the others. -/
def ex : Num → Ex
  | .fin _ v => v
  | _ => Ex.ofInt 0

def neg : Num → Num
  | .fin s v => .fin (!s) v.neg
  | .inf s => .inf (!s)
  | .nan => .nan

def abs : Num → Num
  | .fin _ v => .fin false v.abs
  | .inf _ => .inf false
  | .nan => .nan

/-- IEEE 754 addition of exact values: zeros of like sign keep it, an exact cancellation is +0. -/
def add : Num → Num → Num
  | .nan, _ => .nan
  | _, .nan => .nan
  | .inf s, .inf t => if s = t then .inf s else .nan
  | .inf s, _ => .inf s
  | _, .inf t => .inf t
  | .fin s x, .fin t y => if x.isZero && y.isZero then .fin (s && t) (Ex.ofInt 0) else real (x.add y)

def sub (a b : Num) : Num := a.add b.neg

def mul (a b : Num) : Num :=
  let s := a.sign != b.sign
  match a, b with
  | .nan, _ => .nan
  | _, .nan => .nan
  | .inf _, b => if b.isZero then .nan else .inf s
  | a, .inf _ => if a.isZero then .nan else .inf s
  | .fin _ x, .fin _ y => .fin s (x.mul y)

def div (a b : Num) : Num :=
  let s := a.sign != b.sign
  match a, b with
  | .nan, _ => .nan
  | _, .nan => .nan
  | .inf _, .inf _ => .nan
  | .inf _, _ => .inf s
  | _, .inf _ => .fin s (Ex.ofInt 0)
  | .fin _ x, .fin _ y => if y.isZero then (if x.isZero then .nan else .inf s) else .fin s (x.div y)

/-- a < b for numbers that are not NaN, with −0 = +0. -/
def lt : Num → Num → Bool
  | .nan, _ => false
  | _, .nan => false
  | .inf s, .inf t => s && !t
  | .inf s, _ => s
  | _, .inf t => !t
  | .fin _ x, .fin _ y => x.lt y

def eq : Num → Num → Bool
  | .nan, _ => false
  | _, .nan => false
  | .inf s, .inf t => s == t
  | .inf _, _ => false
  | _, .inf _ => false
  | .fin _ x, .fin _ y => x.eq y

/-- a < b in the order that puts −0 below +0 (R172, R291). -/
def below (a b : Num) : Bool := a.lt b || (a.isZero && b.isZero && a.sign && !b.sign)

/-- The smaller (R291). -/
def min (a b : Num) : Num := if a.isNan || b.isNan then .nan else if b.below a then b else a

/-- The larger (R291). -/
def max (a b : Num) : Num := if a.isNan || b.isNan then .nan else if a.below b then b else a

end Num

/-! ### Formats (R188-R192) -/

/-- A floating-point format (R188): widths, bias, largest finite magnitude as an encoding, and whether larger values saturate or give an infinity. -/
structure FloatFmt where
  ebits : Nat
  mbits : Nat
  bias : Nat
  maxMag : Nat
  saturates : Bool
  /-- The all-ones exponent holds infinity and NaN (R192). -/
  ieee : Bool
  deriving DecidableEq, Repr

/-- The floating-point formats with a sign (R188). -/
def floatFmt : Nat → Option FloatFmt
  | 0x09 => some ⟨2, 1, 1, 0x7, true, false⟩
  | 0x0A => some ⟨2, 3, 1, 0x1F, true, false⟩
  | 0x0B => some ⟨3, 2, 3, 0x1F, true, false⟩
  | 0x0C => some ⟨4, 3, 7, 0x7E, true, false⟩
  | 0x0D => some ⟨5, 2, 15, 0x7B, false, true⟩
  | 0x0E => some ⟨5, 10, 15, 0x7BFF, false, true⟩
  | 0x0F => some ⟨8, 7, 127, 0x7F7F, false, true⟩
  | 0x10 => some ⟨8, 23, 127, 0x7F7FFFFF, false, true⟩
  | _ => none

namespace FloatFmt

/-- The sign's place. -/
def width (f : FloatFmt) : Nat := f.ebits + f.mbits

/-- Infinity's magnitude. -/
def infMag (f : FloatFmt) : Nat := (2 ^ f.ebits - 1) * 2 ^ f.mbits

def eMin (f : FloatFmt) : Int := 1 - (f.bias : Int)

def signOf (f : FloatFmt) (b : Nat) : Bool := b.testBit f.width

def expOf (f : FloatFmt) (b : Nat) : Nat := b / 2 ^ f.mbits % 2 ^ f.ebits

def manOf (f : FloatFmt) (b : Nat) : Nat := b % 2 ^ f.mbits

/-- The magnitude is a NaN (R192). -/
def nanMag (f : FloatFmt) (code mag : Nat) : Bool := if f.ieee then decide (f.infMag < mag) else code == 0x0C && mag == 0x7F

/-- The default NaN (R192). -/
def defaultNan (f : FloatFmt) : Nat := if f.ieee then f.infMag + 2 ^ (f.mbits - 1) else 0x7F

end FloatFmt

/-- Width of an element in bits as its value uses it: E2M3 and E3M2 use six (R190, R191). -/
def fmtValueBits (f : Nat) : Nat := if f = 0x0A ∨ f = 0x0B then 6 else (fmtBits f).getD 0

/-- The two's complement or unsigned value of an integer format's encoding (R190). -/
def intValue (f b : Nat) : Int :=
  let w := (fmtBits f).getD 8
  let v := b % 2 ^ w
  if fmtSigned f ∧ 2 ^ (w - 1) ≤ v then (v : Int) - 2 ^ w else v

/-- What an encoding stands for (R188-R192). -/
def decodeNum (f b : Nat) : Num :=
  if fmtInt f then Num.ofInt (intValue f b)
  else if f = 0x11 then (if b % 256 = 255 then .nan else Num.real (Ex.dyadic 1 ((b % 256 : Nat) - 127 : Int)))
  else match floatFmt f with
    | none => .nan
    | some t =>
      let mag := b % 2 ^ t.width
      let s := t.signOf b
      if t.nanMag f mag then .nan
      else if t.ieee && mag == t.infMag then .inf s
      else
        let e := t.expOf b
        let m := t.manOf b
        let k : Int := if e = 0 then m else 2 ^ t.mbits + m
        let v := Ex.dyadic (if s then -k else k) ((if e = 0 then t.eMin else (e : Int) - t.bias) - t.mbits)
        .fin s v

/-! ### Conversion (R193) -/

/-- The magnitude of a finite nonzero value in a floating-point format, rounded to nearest even with the exponent range unbounded above: the encoding
without its sign. -/
def roundMag (t : FloatFmt) (v : Ex) : Nat :=
  let q := max v.log2 t.eMin - t.mbits
  (q - (t.eMin - t.mbits)).toNat * 2 ^ t.mbits + v.magRne q

/-- Converts to a floating-point format; `sat` saturates where R193 or R204 says so. -/
def convertFloat (t : FloatFmt) (sat : Bool) (nan : Nat) (v : Num) : Nat :=
  let signed (s : Bool) (mag : Nat) : Nat := if s then mag + 2 ^ t.width else mag
  match v with
  | .nan => nan
  | .inf s => signed s (if sat then t.maxMag else t.infMag)
  | .fin s x =>
    if x.isZero then signed s 0
    else
      let mag := roundMag t x
      signed x.isNeg (if mag ≤ t.maxMag then mag else if sat then t.maxMag else t.infMag)

/-- The range of an integer format (R190). -/
def intRange (f : Nat) : Int × Int :=
  let w := (fmtBits f).getD 8
  if fmtSigned f then (-(2 ^ (w - 1)), 2 ^ (w - 1) - 1) else (0, 2 ^ w - 1)

/-- Saturates an integer to a format's range. -/
def saturate (f : Nat) (v : Int) : Int := max (intRange f).1 (min (intRange f).2 v)

/-- The encoding of an integer in a format of `w` bits. -/
def intBits (w : Nat) (v : Int) : Nat := (v % 2 ^ w).toNat

/-- Conversion of a value to a format (R193). -/
def convert (f : Nat) (v : Num) : Nat :=
  if fmtInt f then
    let w := (fmtBits f).getD 8
    match v with
    | .nan => 0
    | .inf s => intBits w (if s then (intRange f).1 else (intRange f).2)
    | .fin _ x => intBits w (saturate f x.rneInt)
  else if f = 0x11 then
    match v with
    | .fin _ x => if x.isZero || x.isNeg then 0xFF else (max 0 (min 254 (x.log2 + 127))).toNat
    | _ => 0xFF
  else match floatFmt f with
    | none => 0
    | some t => convertFloat t t.saturates (if t.ieee || f == 0x0C then t.defaultNan else 0) v

/-- Rounding to FP32. -/
def rne32 (v : Num) : Nat := convert 0x10 v

/-- A value rounded to FP32 and read again. -/
def round32 (v : Num) : Num := decodeNum 0x10 (rne32 v)

/-- The 32-bit type to which `copyt` and a scalar operand widen a format (R164, R281): FP32, INT32 or UINT32. -/
def wideFmt (f : Nat) : Nat := if fmtInt f then (if fmtSigned f then 0x06 else 0x07) else 0x10

/-- `copyt`'s exact conversion to a 32-bit word (R164). -/
def widen (f b : Nat) : Nat := convert (wideFmt f) (decodeNum f b)

/-! ### Operands as integers (R194) -/

/-- Cell bits c of a matrix operand format (R95). -/
def cellBits : Nat → Nat
  | 0x00 | 0x01 => 4
  | 0x02 | 0x03 => 8
  | 0x04 => 16
  | 0x09 => 6
  | 0x0A | 0x0B => 8
  | 0x0C | 0x0D => 12
  | 0x0E | 0x0F => 16
  | _ => 0

/-- K positions that a seat holds per column, by B's format (R215). -/
def seatDepth : Nat → Nat
  | 0x00 | 0x01 => 384
  | 0x02 | 0x03 | 0x0A | 0x0B => 192
  | 0x04 | 0x0E | 0x0F => 96
  | 0x09 => 256
  | 0x0C | 0x0D => 128
  | _ => 0

/-- The exponent and significand of one element in `align` (R194). -/
def alignElem (t : FloatFmt) (f b : Nat) : Int × Nat :=
  let e := t.expOf b
  match decodeNum f b with
  | .fin _ _ => if e = 0 then (t.eMin, t.manOf b) else ((e : Int) - t.bias, 2 ^ t.mbits + t.manOf b)
  | _ => (t.eMin, 0)

/-- `align` of a block (R194): its integers and its block exponent. -/
def align (f : Nat) (xs : List Nat) : List Int × Int :=
  match floatFmt f with
  | none => (xs.map (intValue f), 0)
  | some t =>
    let es := xs.map (alignElem t f)
    let eMax := es.foldl (fun acc p => max acc p.1) t.eMin
    let q := eMax - ((cellBits f : Int) - 2)
    (xs.map fun b => (if t.signOf b then -1 else 1) * (Ex.dyadic (alignElem t f b).2 ((alignElem t f b).1 - t.mbits)).magTrunc q, q)

/-! ### K-steps (R200-R203) -/

/-- The window of R201: the FP32 encoding of the sum of exact terms. -/
def kstep (terms : List Ex) : Nat :=
  match (terms.filter fun t => !t.isZero).map Ex.log2 with
  | [] => 0
  | l :: ls =>
    let w := ls.foldl max l - 88
    let s : Int := terms.foldl (fun acc t => acc + t.truncAt w) 0
    let sticky := terms.any fun t => !t.multiple w
    if s = 0 then 0
    else rne32 (Num.real (if sticky then Ex.dyadic (2 * s + s.sign) (w - 1) else Ex.dyadic s w))

/-- Saturates a sum to INT32; whether it saturated (R203). -/
def satInt32 (v : Int) : Nat × Bool := (intBits 32 (saturate 0x06 v), saturate 0x06 v != v)

/-! ### MX blocks (R204) -/

/-- `emax` of an MX element type. -/
def mxEmax : Nat → Option Int
  | 0x0C => some 8
  | 0x0D => some 15
  | 0x0A => some 2
  | 0x0B => some 4
  | 0x09 => some 2
  | 0x02 => some 0
  | _ => none

/-- An element of an MX block: v × 2^(−k), saturating. -/
def mxElem (f : Nat) (k : Int) (v : Num) : Nat :=
  match floatFmt f, v with
  | some t, .fin s x => convertFloat t true 0 (.fin s (x.scale (-k)))
  | none, .fin s x => convert f (.fin s (x.scale (6 - k)))
  | _, _ => 0

/-- `mx_block` (R204): the scale byte and the elements. -/
def mxBlock (f : Nat) (vs : List Num) : Nat × List Nat :=
  if vs.any fun v => v.isNan || v.isInf then (0xFF, vs.map fun _ => 0)
  else
    let amax := vs.foldl (fun acc v => if acc.lt v.ex.abs then v.ex.abs else acc) (Ex.ofInt 0)
    let k0 : Int := if amax.isZero then -127 else amax.log2 - (mxEmax f).getD 0
    let k := min (max k0 (-127)) 127
    ((k + 127).toNat, vs.map (mxElem f k))

/-! ### Quantisation (R205, R206) -/

/-- `quant` (R205). -/
def quant (f : Nat) (x s : Num) (z : Int) : Nat :=
  let w := (fmtBits f).getD 8
  let inf (neg : Bool) : Nat := intBits w (if neg then (intRange f).1 else (intRange f).2)
  if x.isNan || s.isNan || (x.isZero && s.isZero) || (x.isInf && s.isInf) then intBits w (saturate f z)
  else if s.isZero || x.isInf then inf (x.sign != s.sign)
  else if s.isInf then intBits w (saturate f z)
  else intBits w (saturate f ((x.ex.div s.ex).rneInt + z))

/-- `vdeq`'s value: (q − z) × s (R206). -/
def dequant (q : Int) (z : Int) (s : Num) : Num := (Num.ofInt (q - z)).mul s

end Sys2Proof.Machine
end

