-- ==== Sys2Proof/Machine/Enq.lean ====
section
/-! DEFINITION. From template to queue: the checks of a record (R93-R96, R131, R143-R148, R161-R173, R211-R224, R266, R326, R372-R378, R390, R402), the
format queue (R209-R213), `enq`, `enq.g` and the gang's reservations (R183, R230-R233). -/

namespace Sys2Proof.Machine

/-! ### The format word (R209) -/

namespace Fw
def field (w : Word) (lo n : Nat) : Nat := (w.extractLsb' lo n).toNat
def afmt (w : Word) : Nat := field w 0 5
def bfmt (w : Word) : Nat := field w 5 5
def ofmt (w : Word) : Nat := field w 10 5
/-- GROUP, and the group size G it stands for; 0 for none (R196). -/
def group (w : Word) : Nat := field w 15 2
def size (w : Word) : Nat := if group w = 0 then 0 else 16 * 2 ^ group w
def zpa (w : Word) : Bool := w.getLsbD 17
def zpb (w : Word) : Bool := w.getLsbD 18
def scsel (w : Word) : Nat := field w 19 3
def screg (w : Word) : Nat := field w 22 11
def zpreg (w : Word) : Nat := field w 33 11
def mx (w : Word) : Bool := w.getLsbD 46
/-- The record that a seat keeps and an `mmul` must match (R214, R220). -/
def record (w : Word) : BitVec 19 := w.truncate 19
/-- R198. -/
def zpOk (w : Word) : Bool :=
  (!zpa w || afmt w == 0x01 || afmt w == 0x03) && (!zpb w || bfmt w == 0x01 || bfmt w == 0x03) &&
  (!(zpa w || zpb w) || (fmtInt (afmt w) && fmtInt (bfmt w) && group w != 0))
end Fw

/-- `fmt` (R210). -/
def execFmt (a : Reg) (g : Guard) : State → Result :=
  lift fun m => m.guarded g fun m =>
    let v := m.cur.reg a
    if v.extractLsb' 44 2 ≠ 0 ∨ (fmtBits (Fw.afmt v)).isNone ∨ (fmtBits (Fw.bfmt v)).isNone ∨ (fmtBits (Fw.ofmt v)).isNone then m.illegal
    else if 16 ≤ m.here.fmts.length then m.trap Cause.illegal (limitTval 0x16)
    else if v.extractLsb' 47 17 ≠ 0 then m.trap Cause.reservedField m.instrWord
    else (m.onHere fun c => { c with fmts := c.fmts ++ [v] }).fin4 id

/-! ### What the checks of a record give -/

/-- The checks of a record, each with its step (R131), and what it resolves to. -/
structure Built where
  conds : List StagedCheck
  ops : List Operand
  regions : List (BitVec 128)
  members : List Nat
  /-- Operands that are walked in order, by number: in virtual space they have a lead page (R147). -/
  walked : List Nat
  /-- What `TVAL` reports for each destination, in order (R55; log entry 14). -/
  dests : List Word
  total : Nat

/-- Nothing checked and nothing resolved. -/
def Built.empty : Built := ⟨[], [], [], [], [], [], 1⟩

/-- The lead pages: operand, address of its first element, whether it is written (R147). -/
def Built.leads (b : Built) : List (Nat × Nat × Bool) :=
  b.walked.filterMap fun i => b.ops[i]?.bind fun o => if o.nest.space = .virt then some (i, (o.nest.elemBytes 0).1.toNat, o.dst) else none

/-- `TVAL` of `REGION_ALIAS`: the base of the first destination that breaks R55. -/
def Built.aliasVal (b : Built) : Word :=
  let ds := b.ops.filter (·.dst)
  b.dests.getD (ds.findIdx fun o => o.broken b.ops) (b.dests.headD 0)

/-- What a record's checks refer to: the core that resolves it, the `RRB`, the template and the completed record, the bound format word, and `TVAL`. -/
structure Site where
  g : Nat
  rrb : Nat
  q : Queue
  t : Record
  r : Record
  fw : Option Word
  gang : Bool
  iw : Word

namespace Site

/-- `ILLEGAL` unless the condition on the record's fields holds. -/
def legal (s : Site) (b : Bool) : StagedCheck := (.fields, need b Cause.illegal s.iw)

/-- `RESERVED_FIELD` unless the condition on the record's fields holds. -/
def zero (s : Site) (b : Bool) : StagedCheck := (.fields, need b Cause.reservedField s.iw)

/-- `ILLEGAL` unless the condition on the format word holds; with no word outstanding it cannot be tested (log entry 58). -/
def word (s : Site) (b : Bool) : StagedCheck := s.legal (s.fw.isNone || b)

def aux (s : Site) (lo n : Nat) : Nat := (s.r.aux.extractLsb' lo n).toNat

def auxInt (s : Site) (lo n : Nat) : Int := (s.r.aux.extractLsb' lo n).toInt

def trips (s : Site) : List Nat := [s.r.t0.toNat, s.r.t1.toNat, s.r.t2.toNat, s.r.t3.toNat]

def dstrides (s : Site) : List Int := [s.r.ds0.toInt, s.r.ds1.toInt, s.r.ds2.toInt, s.r.ds3.toInt]

def sstrides (s : Site) : List Int := [s.r.ss0.toInt, s.r.ss1.toInt, s.r.ss2.toInt, s.r.ss3.toInt]

def order (s : Site) : Nat := s.r.order.toNat

def total (s : Site) : Nat := s.trips.foldl (· * ·) 1

def noDstrides (s : Site) : Bool := s.dstrides.all (· == 0)

def noSstrides (s : Site) : Bool := s.sstrides.all (· == 0)

end Site

/-- An operand and the byte base that its place has. -/
abbrev Placed := Operand × Nat

/-- Places one operand (R143-R146): its checks, and the operand when it has a place. `mk` gives it over a space and a byte base. -/
def Mach.operandAt (m : Mach) (s : Site) (b : Word) (dst : Bool) (align : Nat) (mk : Space → Nat → Operand) : List StagedCheck × List Placed :=
  match m.place s.g s.rrb b dst s.iw with
  | .error (st, e) => ([(st, .error e)], [])
  | .ok (sp, base) =>
    let o := mk sp base
    ([(.spaces, need (base % align == 0) Cause.misalign (baseVal b base)), (.spaces, footprintOk sp b base o.lo o.hi dst)], [(o, base)])

/-- Places one operand over a nest. -/
def Mach.operand (m : Mach) (s : Site) (b : Word) (dst whole : Bool) (align : Nat) (mk : Space → Nat → Nest) : List StagedCheck × List Placed :=
  m.operandAt s b dst align fun sp base => Operand.of (mk sp base) dst whole

/-- The operands of what has been placed. -/
def opsOf (p : List Placed) : List Operand := p.map (·.1)

/-- What `TVAL` reports for a base that has been placed. -/
def placedVal (b : Word) (p : List Placed) : List Word := p.map fun x => baseVal b x.2

/-- The nest of a record's operand. -/
def Site.nest (s : Site) (nibs : Nat) (trips : List Nat) (strides : List Int) (order : Nat) (sp : Space) (base : Nat) : Nest :=
  ⟨sp, 2 * base, nibs, trips, strides, order⟩

/-- The destination by DBASE, walked in the record's ORDER. -/
def Mach.dest (m : Mach) (s : Site) (f : Nat) : List StagedCheck × List Placed :=
  m.operand s s.r.dbase true false (fmtAlign f) (s.nest (fmtNibs f) s.trips s.dstrides s.order)

/-- The source by SBASE, walked by the destination's iterations. -/
def Mach.source (m : Mach) (s : Site) (f : Nat) : List StagedCheck × List Placed :=
  m.operand s s.r.sbase false false (fmtAlign f) (s.nest (fmtNibs f) s.trips s.sstrides s.order)

/-- The operand lies in a storage of some core, of this kind; else `ACCESS` with its base (R217). -/
def inStorage (p : List Placed) (st : Storage) (own : Option Nat) (b : Word) : StagedCheck :=
  (.storage, need (p.all fun x => match x.1.nest.space with
    | .virt => false
    | .core g => (match own with | some c => g == c | none => true) && (x.1.lo < 0 || storageAt x.1.lo.toNat == some st)) Cause.access ((placedVal b p).headD 0))

/-- A virtual operand, or one in a scratchpad (R217). -/
def inSpadOrMem (p : List Placed) (b : Word) : StagedCheck :=
  (.storage, need (p.all fun x => match x.1.nest.space with
    | .virt => true
    | .core _ => x.1.lo < 0 || storageAt x.1.lo.toNat == some .spad) Cause.access ((placedVal b p).headD 0))

/-! ### The fields common to every record (R39, R42, R43, R61, R93, R94, R96) -/

/-- The queue that accepts an opcode (R94). -/
def opcAccepted (q : Queue) (opc : Nat) : Bool :=
  match q with
  | .lq | .sq => decide (0x10 ≤ opc) && decide (opc ≤ 0x17)
  | .mq => decide (0x20 ≤ opc) && decide (opc ≤ 0x25)
  | .vq => false
  | .kq => decide (0x30 ≤ opc) && decide (opc ≤ 0x35)

/-- Opcodes that pop a format word (R211). -/
def popsFormat (opc : Nat) : Bool := decide (0x20 ≤ opc) && decide (opc ≤ 0x23)

/-- Conditions that every record meets. -/
def Site.common (s : Site) : List StagedCheck :=
  let names (p : BitVec 4) : Bool := p.getLsbD 3 && (p.extractLsb' 0 3).toNat == queueNum s.q
  -- an entry of POP that is not valid, and PSLOT without PUB, name nothing (R93, R96)
  let idle (p : BitVec 4) : Bool := p.getLsbD 3 || p == 0
  [s.legal (opcAccepted s.q s.r.opc.toNat), s.legal (s.order ≤ 5), s.legal (s.trips.all (· != 0)),
   s.legal (!(names s.r.pop0 || names s.r.pop1 || names s.r.pop2 || s.r.push.getLsbD (queueNum s.q))),
   s.legal (!(s.r.pub && decide (2 ^ 40 ≤ s.total))),
   s.zero (!s.t.null && !s.t.res25 && s.t.res46 == 0),
   s.zero (idle s.r.pop0 && idle s.r.pop1 && idle s.r.pop2 && (s.r.pub || s.r.pslot == 0))]

/-- The declarations of a destination's ORDER (R42, R43). -/
def Site.ordered (s : Site) : StagedCheck :=
  let d : Nest := ⟨.virt, 0, 1, s.trips, s.dstrides, s.order⟩
  s.legal (d.declared && (s.order == 5 || d.invertible))

/-! ### Copy-engine records (R161-R173) -/

/-- `copy`, `copyt`, `fill`, `mcast`. -/
def Mach.planOrdered (m : Mach) (s : Site) (opc : Nat) : Built :=
  let f := s.aux 0 5
  let sf := s.aux 5 5
  let rcv := s.r.aux.getLsbD 21
  let known (x : Nat) : Bool := (fmtBits x).isSome
  let grp := s.aux 22 8
  let ms := ((m.jobOf s.g).bind (·.members grp)).getD []
  let d := if opc = 0x11 then m.operand s s.r.dbase true false 4 (s.nest 8 s.trips s.dstrides s.order) else m.dest s f
  let src := if opc = 0x16 then ([], []) else m.source s sf
  let dsts := if opc = 0x17 then (opsOf d.2).flatMap fun o => ms.map fun g => { o with nest := { o.nest with space := .core g } } else opsOf d.2
  { conds := [s.legal (if opc = 0x11 then known sf else known f), s.legal (!(opc == 0x10 || opc == 0x17) || f == sf),
              s.legal (opc != 0x17 || (baseTag s.r.dbase == 1 && !ms.isEmpty)), s.ordered,
              s.zero (s.r.mod == 0 && s.aux 10 2 == 0 && s.aux 30 2 == 0 && (opc == 0x17 || grp == 0)),
              s.zero (if opc = 0x16 then !rcv && s.aux 12 9 == 0 && sf == 0 && s.t.sbase == 0 && s.noSstrides && s.aux 32 32 / 2 ^ (fmtBits f).getD 32 == 0
                      else s.aux 48 16 == 0 && (rcv || (s.aux 12 9 == 0 && s.aux 32 16 == 0))),
              s.zero (opc != 0x11 || f == 0)] ++ d.1 ++ src.1 ++
              (if opc = 0x11 then [inStorage d.2 .trf none s.r.dbase] else [])
    ops := dsts ++ opsOf src.2, regions := [], members := ms, walked := List.range (dsts.length + 1), dests := (placedVal s.r.dbase d.2).flatMap fun v => dsts.map fun _ => v
    total := s.total }

/-- A scratchpad region that a record reads besides its operands: its conditions and its operand [BASE, hi) (R169, R213). -/
def Mach.sideRegion (m : Mach) (s : Site) (name : Nat) (ok : BitVec 128 → Bool) (align : Nat) (ext : BitVec 128 → Operand) :
    List StagedCheck × List Operand × List (BitVec 128) :=
  match m.resolve s.g name s.rrb s.iw with
  | .error e => ([(.resolve, .error e)], [], [])
  | .ok v =>
    let o := ext v
    let b := BitVec.ofNat 64 (RegionReg.base v)
    ([(.resolve, need (ok v) Cause.illegal s.iw), (.spaces, need (RegionReg.base v % align == 0) Cause.misalign b),
      (.spaces, need (0 ≤ o.lo && o.hi ≤ 0xC0000) Cause.access b)], [o], [v])

/-- Formats that `scattera` accepts (R172). -/
def scatteraFmt (f : Nat) : Bool := f == 0x06 || f == 0x07 || f == 0x10 || f == 0x0E || f == 0x0F

/-- `gather`, `gatherff`, `scatter`, `scattera`. -/
def Mach.planIndexed (m : Mach) (s : Site) (opc : Nat) : Built :=
  let f := s.aux 11 5
  let lo := s.auxInt 18 23
  let hi := s.auxInt 41 23
  let gathers := opc = 0x12 ∨ opc = 0x13
  let stride : Int := if gathers then s.r.ss0.toInt else s.r.ds0.toInt
  let others := if gathers then s.sstrides.drop 1 else s.dstrides.drop 1
  -- the byte base of the indexed operand is kept behind the list's region
  let bound (sp : Space) (base : Nat) : Operand :=
    let a : Int := 2 * base + fmtNibs f * min (lo * stride) (hi * stride)
    let b : Int := 2 * base + fmtNibs f * (max (lo * stride) (hi * stride) + 1)
    Operand.interval sp (a.fdiv 2) ((b + 1).fdiv 2) (!gathers)
  let ib := if gathers then s.r.sbase else s.r.dbase
  let indexed := m.operandAt s ib (!gathers) (fmtAlign f) bound
  let walked := if gathers then m.dest s f else m.operand s s.r.sbase false false (fmtAlign f) (s.nest (fmtNibs f) s.trips s.sstrides s.order)
  let list := m.sideRegion s (s.aux 0 11)
    (fun v => RegionReg.fmt v == 0x06 && !RegionReg.remote v && decide (s.total ≤ RegionReg.count v)) 4
    (fun v => Operand.of ⟨.core s.g, 2 * RegionReg.base v, 8, [s.total, 1, 1, 1], [RegionReg.stride v, 0, 0, 0], 0⟩ false false)
  { conds := [s.legal (fmtBits f).isSome, s.legal (lo ≤ hi), s.legal (opc != 0x15 || (scatteraFmt f && decide (s.r.mod.toNat % 8 ≤ 4))),
              (if gathers then s.ordered else s.legal (s.order == 5)),
              s.zero (if opc = 0x15 then s.r.mod.toNat / 8 == 0 else s.r.mod == 0), s.zero (!s.r.aux.getLsbD 17), s.zero (others.all (· == 0))]
             ++ indexed.1 ++ walked.1 ++ list.1
    ops := (if gathers then opsOf walked.2 ++ opsOf indexed.2 else opsOf indexed.2 ++ opsOf walked.2) ++ list.2.1
    regions := list.2.2 ++ [BitVec.ofNat 128 ((indexed.2.map (·.2)).headD 0)], members := [], walked := [if gathers then 0 else 1]
    dests := if gathers then placedVal s.r.dbase walked.2 else placedVal s.r.dbase indexed.2, total := s.total }

/-! ### Matrix records (R198, R203, R204, R212-R224, R230) -/

/-- MOD and AUX fields that a matrix opcode does not use are zero, and the gang's conditions (R216, R230). -/
def Mach.matrixFields (m : Mach) (s : Site) (opc : Nat) (mx : Bool) : List StagedCheck :=
  let seat := opc = 0x20 ∨ opc = 0x21 ∨ opc = 0x22
  [s.zero (s.r.mod.toNat / 8 == 0 && (opc == 0x24 || !s.r.mod.getLsbD 2) && (opc == 0x22 || !s.r.mod.getLsbD 1) && (decide seat || !s.r.mod.getLsbD 0)),
   s.zero (s.aux 27 29 == 0),
   s.zero (if opc = 0x21 then s.aux 0 16 == 0 else if opc = 0x22 then s.aux 25 2 == 0 && s.aux 0 16 == 0
           else s.aux 16 11 == 0 && (if opc = 0x23 ∧ mx then true else s.aux 0 16 == 0)),
   s.legal (s.r.t2 == 1 && s.r.t3 == 1)] ++
  (if s.gang then [s.legal (((m.jobOf s.g).bind (·.members (s.aux 56 8))).isSome), s.legal (!(s.r.pop0.getLsbD 3 || s.r.pop1.getLsbD 3 || s.r.pop2.getLsbD 3)),
                   s.legal (!s.r.pub)]
   else [s.zero (s.aux 56 8 == 0)])

/-- The regions of scales and zero points (R213): `ng` groups, each region a complete-only source. -/
def Mach.scaleRegions (m : Mach) (s : Site) (w : Word) (ng : Nat) (zp : Bool) : List StagedCheck × List Operand × List (BitVec 128) :=
  let ext (v : BitVec 128) : Operand := Operand.interval (.core s.g) (RegionReg.base v) (RegionReg.base v + 2048 * ng) false
  let sc := if Fw.group w ≠ 0 ∧ Fw.screg w ≠ 0 then
      m.sideRegion s (Fw.screg w) (fun v => !RegionReg.remote v && (RegionReg.fmt v == 0x11 || (RegionReg.fmt v == 0x0E && Fw.scsel w % 2 == 0))) 1 ext
    else ([], [], [])
  let z := if zp then m.sideRegion s (Fw.zpreg w) (fun v => !RegionReg.remote v && RegionReg.fmt v == 0x03) 1 ext else ([], [], [])
  (sc.1 ++ z.1, sc.2.1 ++ z.2.1, (if sc.2.2.isEmpty then [0] else sc.2.2) ++ z.2.2)

/-- `seat` and `seats`. Regions: metadata (`seats` only), scales or 0, zero points. -/
def Mach.planSeat (m : Mach) (s : Site) (sparse : Bool) (w : Word) : Built :=
  let t0 := s.r.t0.toNat
  let t1 := s.r.t1.toNat
  let kb := seatDepth (Fw.bfmt w)
  let depth := if sparse then 2 * t0 else t0
  let src := m.operand s s.r.sbase false false (fmtAlign (Fw.bfmt w)) (s.nest (fmtNibs (Fw.bfmt w)) s.trips s.sstrides 5)
  let meta_ := if sparse then
      m.sideRegion s (s.aux 16 11) (fun v => RegionReg.fmt v == 0x01 && RegionReg.stride v == 1 && !RegionReg.remote v && decide (t0 * t1 ≤ 2 * RegionReg.count v)) 1
        (fun v => Operand.of ⟨.core s.g, 2 * RegionReg.base v, 1, [t0 * t1 / 2, 1, 1, 1], [1, 0, 0, 0], 0⟩ false false)
    else ([], [], [])
  let g := Fw.size w
  let sides := m.scaleRegions s w (if g = 0 then 0 else (depth + g - 1) / g) (Fw.zpb w)
  { conds := [s.legal (s.order == 5), s.word (fmtMatrix (Fw.afmt w) && fmtMatrix (Fw.bfmt w) && !Fw.mx w && Fw.zpOk w),
              s.legal (decide (1 ≤ t1) && decide (t1 ≤ 256) && (if sparse then t0 % 16 == 0 && decide (16 ≤ t0) && decide (t0 ≤ kb) && decide (2 * t0 ≤ 384) && !Fw.zpb w
                       else t0 % 32 == 0 && decide (32 ≤ t0) && decide (t0 ≤ kb))),
              s.zero (s.t.dbase == 0 && s.noDstrides), inStorage src.2 .spad none s.r.sbase] ++ src.1 ++ meta_.1 ++ sides.1
    ops := opsOf src.2 ++ meta_.2.1 ++ sides.2.1, regions := meta_.2.2 ++ sides.2.2, members := [], walked := [], dests := [], total := t0 * t1 }

/-- `mmul` (R220). Regions: scales or 0, zero points. The elements of the A operand are those of its rows. With T0 > 1 its nest, of stride 0 at level 0, is not
invertible, so that it is a complete-only source (R43, R46; log entry 65). -/
def Mach.planMmul (m : Mach) (s : Site) (w : Word) : Built :=
  let t0 := s.r.t0.toNat
  let t1 := s.r.t1.toNat
  let kd := s.aux 16 9
  let g := Fw.size w
  let d := m.operand s s.r.dbase true false 4 (s.nest 8 s.trips s.dstrides s.order)
  let a := m.operand s s.r.sbase false (1 < t0) (fmtAlign (Fw.afmt w))
    (s.nest (fmtNibs (Fw.afmt w)) [kd, t1, 1, 1] [1, s.r.ss1.toInt, 0, 0] 0)
  let sides := m.scaleRegions s w (if g = 0 then 0 else kd / g) (Fw.zpa w)
  let ints := fmtInt (Fw.afmt w) && fmtInt (Fw.bfmt w)
  { conds := [s.legal (s.order ≤ 1), s.ordered, s.word (fmtMatrix (Fw.afmt w) && fmtMatrix (Fw.bfmt w) && !Fw.mx w && Fw.zpOk w),
              s.legal (s.r.ss0 == 0 && decide (1 ≤ t0) && decide (t0 ≤ 256) && decide (1 ≤ t1) && decide (t1 ≤ 256)),
              s.legal (kd % 32 == 0 && decide (32 ≤ kd) && decide (kd ≤ 384) && (g == 0 || kd % g == 0)),
              s.word (Fw.ofmt w == 0x10 || (Fw.ofmt w == 0x06 && ints && g == 0)),
              inStorage d.2 .trf (some s.g) s.r.dbase, inStorage a.2 .spad none s.r.sbase] ++ d.1 ++ a.1 ++ sides.1
    ops := opsOf d.2 ++ opsOf a.2 ++ sides.2.1, regions := sides.2.2, members := [], walked := [], dests := placedVal s.r.dbase d.2, total := t0 * t1 }

/-- Output formats of a plain `drain`, of one with groups, and of an MX one (R221). -/
def drainOut (w : Word) : Bool :=
  let f := Fw.ofmt w
  if Fw.mx w then Fw.group w == 0 && (mxEmax f).isSome
  else if Fw.group w ≠ 0 then decide (f ≤ 5)
  else (fmtBits f).isSome && f != 0x11

/-- `drain` (R221, R222). Regions: scales or 0. -/
def Mach.planDrain (m : Mach) (s : Site) (w : Word) : Built :=
  let t0 := s.r.t0.toNat
  let t1 := s.r.t1.toNat
  let g := Fw.size w
  let mx := Fw.mx w
  let row := s.aux 0 8
  let col := s.aux 8 8
  let d := m.dest s (Fw.ofmt w)
  let scl := if mx then m.operand s s.r.sbase true false 1 (s.nest 2 [t0 * t1 / 32, 1, 1, 1] [1, 0, 0, 0] 0) else ([], [])
  let at_ := 0x100000 + 4 * (256 * row + col)
  let src := if mx then ([], [(Operand.of (s.nest 8 s.trips [1, 256, 0, 0] s.order (.core s.g) at_) false false, at_)])
    else if s.fw.isNone then m.operand s s.r.sbase false false 1 (s.nest 1 [1, 1, 1, 1] [0, 0, 0, 0] 5)
    else m.operand s s.r.sbase false false 4 (s.nest 8 s.trips s.sstrides s.order)
  let sides := m.scaleRegions s w (if g = 0 then 0 else t0 / g) false
  { conds := [s.legal (s.order ≤ 4), s.ordered, s.word ((Fw.afmt w == 0 || Fw.afmt w == 0x10 || Fw.afmt w == 0x06) && Fw.bfmt w == 0 && !Fw.zpa w && !Fw.zpb w),
              s.word (drainOut w), s.legal (g == 0 || t0 % g == 0),
              s.legal (!mx || (t0 * t1 % 32 == 0 && s.noSstrides && decide (row + t1 ≤ 256) && decide (col + t0 ≤ 256))),
              inSpadOrMem d.2 s.r.dbase, inSpadOrMem scl.2 s.r.sbase] ++ (if mx || s.fw.isNone then [] else [inStorage src.2 .trf (some s.g) s.r.sbase])
             ++ d.1 ++ scl.1 ++ src.1 ++ sides.1
    ops := opsOf d.2 ++ opsOf scl.2 ++ opsOf src.2 ++ sides.2.1, regions := sides.2.2, members := [], walked := if mx then [0, 1] else [0]
    dests := placedVal s.r.dbase d.2 ++ placedVal s.r.sbase scl.2, total := t0 * t1 }

/-- `tzero` (R223). -/
def Mach.planTzero (m : Mach) (s : Site) : Built :=
  let stat := s.r.mod.getLsbD 2
  let d := m.operand s s.r.dbase true false 4 (s.nest 8 s.trips s.dstrides s.order)
  { conds := [s.legal (if stat then s.order == 5 && s.r.t0 == 1 && s.r.t1 == 1 else s.order ≤ 4), s.ordered,
              s.zero (s.t.sbase == 0 && s.noSstrides),
              (if stat then (.storage, need (d.2.all fun p => p.1.nest.space == .core s.g && 0 ≤ p.1.lo && (storageAt p.1.lo.toNat == some .spad || storageAt p.1.lo.toNat == some .trf)) Cause.illegal s.iw)
               else inStorage d.2 .trf none s.r.dbase)] ++ d.1
    ops := opsOf d.2, regions := [], members := [], walked := [], dests := placedVal s.r.dbase d.2, total := s.total }

/-- `tcopy` (R224). -/
def Mach.planTcopy (m : Mach) (s : Site) : Built :=
  let d := m.operand s s.r.dbase true false 4 (s.nest 8 s.trips s.dstrides s.order)
  let a := m.operand s s.r.sbase false false 4 (s.nest 8 s.trips s.sstrides s.order)
  { conds := [s.legal (s.order ≤ 4), s.ordered, inStorage d.2 .trf none s.r.dbase, inStorage a.2 .trf (some s.g) s.r.sbase] ++ d.1 ++ a.1
    ops := opsOf d.2 ++ opsOf a.2, regions := [], members := [], walked := [], dests := placedVal s.r.dbase d.2, total := s.total }

/-! ### Collective and message records (R326, R372, R373, R378, R390, R402) -/

/-- A region register fit for a summary (R266). -/
def summaryRegion (v : BitVec 128) (remoteToo : Bool) : Bool :=
  (RegionReg.fmt v == 0x03 || RegionReg.fmt v == 0x07) && RegionReg.stride v == 1 && (remoteToo || !RegionReg.remote v)

/-- Bytes of a summary's region (R266, R317). -/
def summaryExtent (v : BitVec 128) : Nat := RegionReg.count v * (fmtNibs (RegionReg.fmt v) / 2)

/-- OP and FMT of a window pair (R373). -/
def windowOp (op f e : Nat) : Bool :=
  match op with
  | 0 => (fmtBits f).isSome && fmtBits f != some 4
  | 1 => f == 0x10
  | 2 | 3 => f == 0x10 || f == 0x06 || f == 0x07
  | 4 | 5 => f == 0x06 || f == 0x07
  | 6 => f == 0x10 && e % 32 == 0
  | _ => f == 0x10

/-- `rxpost` (R372, R373). -/
def Mach.planRxpost (m : Mach) (s : Site) : Built :=
  let tile := s.aux 44 20
  let tiles := s.aux 35 9
  let expect := s.aux 24 11
  let ac := s.aux 16 8
  let f := s.aux 11 5
  let op := s.aux 8 3
  let esz := fmtNibs f / 2
  let e := tile / max 1 esz
  let staged := decide (6 ≤ op)
  let db := baseLow s.r.dbase
  let sb := baseLow s.r.sbase
  let stage := Operand.interval (.core s.g) sb (sb + 8 * e * tiles) true
  { conds := [s.zero (s.trips.all (· == 1) && s.noDstrides && s.noSstrides && s.r.mod == 0 && !s.r.pub && s.aux 0 8 == 0),
              s.zero (staged || op == 0 || s.t.sbase == 0), s.legal (op != 0 || s.t.sbase == 0),
              s.legal (baseTag s.r.dbase == 1 && (!staged || baseTag s.r.sbase == 1)),
              s.legal (decide (1 ≤ tile) && decide (tile ≤ 786432) && decide (1 ≤ tiles) && decide (tiles ≤ 256) && decide (1 ≤ expect) && decide (expect ≤ 1024)),
              s.legal (decide (ac + tiles ≤ 256)), s.legal (windowOp op f e), s.legal (decide (0 < esz) && tile % max 1 esz == 0),
              (.spaces, need (db + tile * tiles ≤ 0xC0000) Cause.access (baseVal s.r.dbase 0)), (.spaces, need (db % max 1 esz == 0) Cause.misalign (baseVal s.r.dbase 0)),
              (.spaces, need (!staged || sb % 8 == 0) Cause.misalign (baseVal s.r.sbase 0)),
              (.spaces, need (!staged || sb + 8 * e * tiles ≤ 0xC0000) Cause.access (baseVal s.r.sbase 0))]
    ops := if staged then [stage] else [], regions := [], members := [], walked := [], dests := [baseVal s.r.sbase 0], total := 1 }

/-- `cput` and `cred` (R378). -/
def Mach.planSend (m : Mach) (s : Site) (cred : Bool) : Built :=
  let f := s.r.mod.toNat / 8
  let cls := s.r.mod.toNat % 8
  let ms := ((m.jobOf s.g).bind (·.members (s.aux 56 8))).getD []
  let src := m.source s f
  { conds := [s.legal (s.order == 5), s.legal (!ms.isEmpty), s.legal (baseTag s.r.dbase == 1), s.legal (baseTag s.r.sbase != 2), s.legal (fmtBits f).isSome,
              (if cred then s.legal ((f == 0x10 || f == 0x0E || f == 0x0F) && decide (cls ≤ 1) && s.r.ds0 == 1 && (cls != 0 || s.r.t0.toNat % 32 == 0))
               else s.legal (fmtBits f != some 4)),
              s.zero (cred || cls == 0)] ++ src.1
    ops := opsOf src.2, regions := [], members := ms, walked := [0], dests := [], total := s.total }

/-- `tsend` (R390): the receiver is among `members`; the destination's footprint lies in its scratchpad. -/
def Mach.planTsend (m : Mach) (s : Site) : Built :=
  let f := s.aux 11 5
  let src := m.source s f
  let d := m.operand s s.r.dbase true true (fmtAlign f) (s.nest (fmtNibs f) s.trips s.dstrides 5)
  { conds := [s.legal (s.order == 5), s.legal (baseTag s.r.dbase == 2), s.legal (baseTag s.r.sbase != 2), s.legal ((fmtBits f).isSome && fmtBits f != some 4),
              s.zero (s.r.mod == 0 && !s.r.pub), s.zero (s.aux 0 11 == 0), inStorage d.2 .spad none s.r.dbase] ++ d.1 ++ src.1
    ops := opsOf src.2, regions := []
    members := d.2.filterMap fun p => match p.1.nest.space with | .core g => some g | .virt => none
    walked := [0], dests := [], total := s.total }

/-- `smrg` (R326). -/
def Mach.planSmrg (m : Mach) (s : Site) : Built :=
  let ms := ((m.jobOf s.g).bind (·.members (s.aux 56 8))).getD []
  let src : List StagedCheck × List Operand × List (BitVec 128) := if baseTag s.r.sbase = 3 then
      if 2048 ≤ baseLow s.r.sbase then ([(.resolve, fail Cause.illegal s.iw)], [], []) else
      m.sideRegion s (baseLow s.r.sbase) (summaryRegion · false) 64
        (fun v => Operand.interval (.core s.g) (RegionReg.base v) (RegionReg.base v + summaryExtent v) false)
    else ([s.legal false], [], [])
  let ext := (src.2.2.map summaryExtent).foldl max 0
  { conds := [s.legal (s.order == 5), s.zero (s.r.mod == 0 && s.noDstrides && s.noSstrides), s.legal (!ms.isEmpty), s.legal (baseTag s.r.dbase == 1),
              (.spaces, need (baseLow s.r.dbase % 64 == 0) Cause.misalign (baseVal s.r.dbase 0)),
              (.spaces, need (baseLow s.r.dbase + ext ≤ 0xC0000) Cause.access (baseVal s.r.dbase 0))] ++ src.1
    ops := src.2.1, regions := src.2.2, members := ms, walked := [], dests := [], total := s.total }

/-- `amsg` (R402). -/
def Mach.planAmsg (m : Mach) (s : Site) : Built :=
  let dst := m.mapTarget s.g (baseLow s.r.dbase)
  { conds := [s.legal (s.order == 5), s.legal (s.trips.all (· == 1)), s.zero (s.r.mod == 0 && !s.r.pub && s.noDstrides && s.noSstrides && s.aux 0 59 == 0),
              s.legal (baseTag s.r.dbase == 2), s.legal (baseTag s.r.sbase == 0), (.spaces, need dst.isSome Cause.access (baseVal s.r.dbase 0))]
    ops := [], regions := [], members := (dst.map (·.1)).toList, walked := [], dests := [], total := 1 }

/-! ### One record -/

/-- Every check of a record and what it resolves to, by its opcode (R131, R144-R146). -/
def Mach.plan (m : Mach) (s : Site) : Built :=
  let opc := s.r.opc.toNat
  -- with no word outstanding, the checks that need none are made, with elements of 4 bits (log entry 58)
  let withWord (f : Word → Built) : Built := f (s.fw.getD 0)
  let mx := match s.fw with | some w => Fw.mx w | none => true
  let b : Built := match opc with
    | 0x10 | 0x11 | 0x16 | 0x17 => m.planOrdered s opc
    | 0x12 | 0x13 | 0x14 | 0x15 => m.planIndexed s opc
    | 0x20 => withWord (m.planSeat s false)
    | 0x21 => withWord (m.planSeat s true)
    | 0x22 => withWord (m.planMmul s)
    | 0x23 => withWord (m.planDrain s)
    | 0x24 => m.planTzero s
    | 0x25 => m.planTcopy s
    | 0x30 => m.planSend s false
    | 0x31 => m.planSend s true
    | 0x32 => m.planRxpost s
    | 0x33 => m.planTsend s
    | 0x34 => m.planAmsg s
    | 0x35 => m.planSmrg s
    | _ => Built.empty
  { b with conds := s.common ++ (if s.q = .mq then m.matrixFields s opc mx else []) ++ b.conds }

/-- The lead pages are translated for the command `u`, each for its operand (R147): the machine, and the lowest cause that failed. -/
def Mach.leadPages (m : Mach) (c u : Nat) (leads : List (Nat × Nat × Bool)) : Mach × Option (Nat × Word) :=
  leads.foldl (fun acc l =>
    match acc.1.translate c l.2.1 l.2.2 (u, l.1) with
    | (m, .ok _) => (m, acc.2)
    | (m, .error x) => (m, match acc.2 with | some b => if x < b.1 then some (x, BitVec.ofNat 64 l.2.1) else some b | none => some (x, BitVec.ofNat 64 l.2.1)))
    (m, none)

/-- A destination of a vector instruction that breaks R55, by its base. -/
def aliasBase (ops : List Operand) : Word := match ops.find? (·.broken ops) with | some o => BitVec.ofInt 64 (o.nest.base / 2) | none => 0

/-- The command that a record becomes (R131). -/
def mkCmd (m : Mach) (u : Nat) (q : Queue) (r : Record) (ctx : Option CtxId) (fw : Option Word) (b : Built) (null : Bool) : Cmd where
  uid := u
  seq := 0
  q := q
  work := .record { r with null := null }
  ctx := ctx
  phase := none
  during := 0
  fmtw := fw
  ops := b.ops
  edges := []
  regions := b.regions
  members := b.members
  null := null
  ready := true
  issued := false
  n := 0
  total := b.total
  fault := none
  resumed := false
  stopped := false
  gang := none
  refetchWait := none
  refetch := false
  handler := false
  fired := false
  stopAt := none
  acc := []
  cover := []
  moved := []
  subs := []
  smarks := []
  refused := []
  again := []
  pre := 0
  exps := []
  since := none
  paused := none
  born := m.dev.now

/-- The command takes its SEQ, enters the range checker with its edges and joins its queue (R131, R132, R48, R49); what is visible to its enqueuing context is
visible to it (R238). A `tsend` counts its elements (R392). -/
def Core.append (c : Core) (d : Cmd) (phase : Option Nat) (now : Nat) : Core :=
  let c := match d.ctx with | some k => if d.gang.isSome then c else c.flow (.ctx k) (.cmd d.uid) | none => c
  let d := { d with seq := c.nextSeq, phase := phase, during := c.phase, edges := buildEdges c d.ops, ready := !c.checked, born := now }
  let c := { c with nextSeq := c.nextSeq + 1, inj := if d.opc = 0x33 ∧ !d.null then c.inj + BitVec.ofNat 64 d.total else c.inj }
  c.setQueue d.q (c.queue d.q ++ [d])

/-- The 64-byte template at an offset of the image of core `g` (R131). -/
def Mach.template (m : Mach) (g off : Nat) : Record := decodeRecord (BitVec.ofNat 512 (m.le (localPa g (0x300000 + off)) 64))

/-- The base addition of R143. -/
def completeRecord (r : Record) (x y : Word) : Record := { r with dbase := addBase r.dbase x, sbase := addBase r.sbase y }

/-- A core that runs an iteration of a job, as a gang sees its members (R231). -/
def Mach.gangLive (m : Mach) (j : Option Nat) (g : Nat) : Bool := (m.core g).life == .running && (m.core g).runs j

/-- The waiting `enq.g`s that want a reservation of a member: the cycle in which each began to wait, its core and context (R231). -/
def Mach.gangWants (m : Mach) (g : Nat) : List (Nat × Nat × Nat) :=
  m.dev.cores.flatMap fun p => allCtx.filterMap fun k => match (p.2.ctx k).wait with
    | some (.gang _ _ ms got since) => if ms.contains g && !got.contains g && m.gangLive p.2.job g then some (since, p.1, ctxNum k) else none
    | _ => none

/-- No entry of the queue is free for the core's own `enq`: taken, or wanted by gangs that wait, which go first (R148, R231). -/
def Mach.noEntry (m : Mach) (q : Queue) : Bool :=
  m.here.queueFull q || (q == .mq && decide (Config.queueDepth 2 ≤ m.here.used .mq + (m.gangWants m.cid).length))

/-- The waiting `enq` enters its command when its queue has room, and completes (R148). -/
def Mach.enqEnter (m : Mach) (d : Cmd) : Mach :=
  if m.noEntry d.q then m
  else
    let now := m.dev.now
    ((m.onHere fun c => c.append d (some c.phase) now).fin4 fun x => { x with wait := none })

/-! ### Gangs (R183, R231) -/

/-- The core may take a gang reservation now: it runs an iteration of the job and has a free MQ entry (R231). -/
def Mach.gangFree (m : Mach) (j : Option Nat) (g : Nat) : Bool := m.gangLive j g && !(m.core g).queueFull .mq

/-- A member's part (R183): the completed record's operands resolved and checked on the member by R144-R146, with the RRB of the member's context of the same
endpoint; its fields were checked on the issuing core. -/
def Mach.gangPart (m : Mach) (d : Cmd) (k : CtxId) (g : Nat) (iw : Word) : Check Built :=
  match d.work with
  | .record r =>
    let b := m.plan ⟨g, ((m.core g).ctx k).rrb.toNat, .mq, r, r, d.fmtw, true, iw⟩
    match firstFailed (b.conds.filter fun c => c.1 == .resolve || c.1 == .spaces) with
    | some e => .error e
    | none => .ok b
  | .vec .. => .ok Built.empty

/-- The first member, by job core index, whose part fails a check (R231). -/
def Mach.gangFails (m : Mach) (d : Cmd) (k : CtxId) (ms : List Nat) (iw : Word) : Option (Nat × Word) :=
  let idx (g : Nat) : Nat := match m.jobOf m.cid with | some j => j.indexOf g | none => 0
  let bad := ms.filterMap fun g => match m.gangPart d k g iw with | .error e => some (idx g, e) | .ok _ => none
  bad.foldl (fun acc x => match acc with | none => some x | some y => if x.1 < y.1 then some x else some y) none |>.map (·.2)

/-- The translations held for one user are held for another (R147). -/
def Core.tlbMove (c : Core) (u v : Nat) : Core :=
  { c with tlb := c.tlb.map fun f => { f with users := f.users.map fun x => if x.1 = u then (v, x.2) else x } }

/-- Every part enters its member's MQ (R183), each with a number of its own, and sees what is visible to the issuing context (R238). The lead page that `enq`
has translated is held for the issuing core's own part (R147). -/
def Mach.gangEnter (m : Mach) (d : Cmd) (k : CtxId) (ms : List Nat) (iw : Word) : Mach :=
  let push : BitVec 8 := match d.work with | .record r => r.push | .vec .. => 0
  let gang : Gang := ⟨d.uid, m.here.job, m.cid, ms, push⟩
  let us := m.here.visible (.ctx k)
  (ms.foldl (fun m g => match m.gangPart d k g iw with
    | .error _ => m
    | .ok b =>
      let u := m.fresh
      let part := { d with uid := u, ops := b.ops, regions := b.regions, total := b.total, gang := some gang }
      let now := m.dev.now
      let m := if g = m.cid then m.onHere (·.tlbMove d.uid u) else m
      ((m.release gang.job g).onCore g fun c => (c.append part none now).reveal (.cmd u) us).bump) m).onHere (·.tlbRelease d.uid)

/-- `enq.g` in its slot while it waits: when every member holds a reservation and runs, the parts enter, or a member's check fails (R231, R233). -/
def Mach.gangTry (m : Mach) (d : Cmd) (ms got : List Nat) : Mach :=
  if ms.all fun g => got.contains g && m.gangLive m.here.job g then
    match m.gangFails d m.kid ms m.instrWord with
    | some (cause, tval) => m.trap cause tval
    | none => (m.gangEnter d m.kid ms m.instrWord).fin4 fun x => { x with wait := none }
  else m

/-- A request for a member's entry comes first: it began to wait first, then by core, then by context (R231). -/
def wantsFirst (l : List (Nat × Nat × Nat)) (c k : Nat) : Bool :=
  match l.find? fun w => w.2 == (c, k) with
  | none => false
  | some w => l.all fun v => decide (w.1 < v.1) || (w.1 == v.1 && (decide (w.2.1 < v.2.1) || (w.2.1 == v.2.1 && decide (w.2.2 ≤ v.2.2))))

/-- `GANG_RESERVE` (R231): a member reserves a free MQ entry for the waiting `enq.g` that comes first. -/
def execGangReserve (c : CoreId) (k : CtxId) (g : CoreId) : State → Result :=
  lift fun m =>
    let x := (m.core c.toNat).ctx k
    match x.wait with
    | some (.gang d grp ms got since) =>
      if ms.contains g.toNat && !got.contains g.toNat && m.gangFree (m.core c.toNat).job g.toNat && wantsFirst (m.gangWants g.toNat) c.toNat (ctxNum k) then
        (m.onCore g.toNat fun y => { y with reserved := y.reserved + 1 }).onCtx c.toNat k fun x => { x with wait := some (.gang d grp ms (got ++ [g.toNat]) since) }
      else m
    | _ => m

/-- `GANG_TIMEOUT` (R231): GANGWAIT cycles have passed without every reservation held. -/
def execGangTimeout (c : CoreId) (k : CtxId) : State → Result :=
  lift fun m =>
    let x := (m.core c.toNat).ctx k
    match x.wait with
    | some (.gang _ grp ms got since) =>
      if (m.core c.toNat).gangwait.toNat ≤ m.dev.now - since ∧ !(ms.all got.contains) then
        m.trapEntry c.toNat k Cause.gangTimeout (BitVec.ofNat 64 grp) x.pc
      else m
    | _ => m

/-! ### enq (R131) -/

/-- The checks of R131 have passed: the instruction fixes what it enqueues, with its format word bound, and enters or waits. -/
def Mach.enqFixed (m : Mach) (q : Queue) (gang : Bool) (d : Cmd) (grp : Nat) : Mach :=
  let m := if d.fmtw.isSome then m.onHere fun c => { c with fmts := c.fmts.drop 1 } else m
  if gang then
    let now := m.dev.now
    (m.onCur fun x => { x with wait := some (.gang d grp d.members [] now) }).bump
  else if m.noEntry q then (m.onCur fun x => { x with wait := some (.enq d) }).bump
  else (m.enqEnter d).bump

/-- `enq` past its guard, from the template on (R131); a lead page whose translation the CXL home agent holds up is waited for (R364). -/
def Mach.enqRecord (m : Mach) (q : Queue) (xrec xp0 xp1 : Reg) (gang null : Bool) : Mach :=
  let x := m.cur
  let off := x.reg xrec
  let iw := m.instrWord
  if off.toNat % 64 ≠ 0 then m.trap Cause.misalign off
  else if m.here.imgLen < off.toNat + 64 then m.trap Cause.access off
  else
    let t := m.template m.cid off.toNat
    let r := completeRecord t (x.reg xp0) (x.reg xp1)
    let fw := if popsFormat r.opc.toNat then m.here.fmts.head? else none
    let b := m.plan ⟨m.cid, x.rrb.toNat, q, t, r, fw, gang, iw⟩
    let u := m.fresh
    match firstFailed b.conds with
    | some (cause, tval) => m.trap cause tval
    | none =>
      let leads := if null then [] else b.leads
      if leads.any fun l => m.transBusy m.cid l.2.1 l.2.2 (u, l.1) then m
      else match m.leadPages m.cid u leads with
      | (m', some (cause, tval)) => (m'.onHere (·.tlbRelease u)).trap cause tval
      | (m', none) =>
        if popsFormat r.opc.toNat && fw.isNone then (m'.onHere (·.tlbRelease u)).trap Cause.fqUnderflow 0
        else if !null && aliasBroken b.ops then (m'.onHere (·.tlbRelease u)).trap Cause.regionAlias b.aliasVal
        else
          let grp := (r.aux.extractLsb' 56 8).toNat
          let ms := if gang then ((m.jobOf m.cid).bind (·.members grp)).getD [] else b.members
          m'.enqFixed q gang { mkCmd m u q r (some m.kid) fw b null with members := ms } grp

/-- `enq` and `enq.g` in a slot (R131, R133, R148). -/
def Mach.enq (m : Mach) (q : Queue) (xrec xp0 xp1 : Reg) (g : Guard) (gang : Bool) : Mach :=
  let live := m.cur.guard g
  if !live && !m.here.fixed then m.fin4 id
  else match m.cur.wait with
    | some (.enq d) => m.enqEnter d
    | some (.gang d _ ms got _) => m.gangTry d ms got
    | _ => m.enqRecord q xrec xp0 xp1 gang (!live)

/-- `enq` (R131). -/
def execEnq (q : Queue) (xrec xp0 xp1 : Reg) (g : Guard) : State → Result := lift fun m => m.enq q xrec xp0 xp1 g false

/-- `enq.g` (R183, R231). -/
def execEnqG (xrec xp0 xp1 : Reg) (g : Guard) : State → Result := lift fun m => m.enq .mq xrec xp0 xp1 g true

end Sys2Proof.Machine
end

