-- ==== Sys2Proof/Machine/Element.lean ====
section
/-! DEFINITION. One element of an engine command: chasing (R50, R51, R64, R184), reads and writes with translation (R159, R167), the movement and the
coverage of poison (R174, R247), substitution (R174, R258, R315), faults and absorption (R10, R152, R185, R248, R405), and the step of an engine. -/

namespace Sys2Proof.Machine

/-- Why an element does not complete now: it waits, at a chase point of an operand on entries of the range checker or otherwise; it faults (sub-cause, `TVAL`),
or an earlier position does; or it has read a poisoned unit that its command consumes. -/
inductive Stop where
  | hold
  | chase (op : Nat) (of : List Nat)
  | fault (sub : Nat) (tval : Word)
  | faultOn (pos sub : Nat) (tval : Word)
  | poison (u : Nat)
  deriving DecidableEq, Repr

/-- The work on one element; a stop keeps the translations made so far. -/
abbrev El (α : Type) := ExceptT Stop (StateM Mach) α

/-- The machine now. -/
def El.now : El Mach := get

/-- Changes the machine. -/
def El.change (f : Mach → Mach) : El Unit := modify f

/-- Stops unless a condition holds. -/
def El.require (b : Bool) (s : Stop) : El Unit := if b then pure () else throw s

/-! ### Chasing -/

/-- The published slot lets [lo, hi) of a space through; only the window of the publishing core is chased (R64). -/
def Mach.remoteOk (m : Mach) (c g slot : Nat) (seq : BitVec 16) (sp : Space) (lo hi : Int) : Bool :=
  sp != .core g ||
  match (m.view c g).slotShows slot with
  | none => false
  | some s =>
    if s.seq = seq then
      s.complete || (match s.nest with
        | none => true
        | some d => d.space != .core g ||
          (if d.order = 5 then !d.touches lo hi else match d.idxBytes lo hi with | none => true | some i => decide (i < s.f)))
    else seqLater seq s.seq

/-- The remote chase that a record carries (R161, R162): core, slot and expected SEQ. -/
def Cmd.remote (d : Cmd) (c : Nat) : Option (Nat × Nat × BitVec 16) :=
  match d.work with
  | .record r =>
    if (r.opc == 0x10 || r.opc == 0x11 || r.opc == 0x17) && r.aux.getLsbD 21 then
      some (clusterOf c * 32 + (r.aux.extractLsb' 16 5).toNat, (r.aux.extractLsb' 12 4).toNat, r.aux.extractLsb' 32 16)
    else none
  | _ => none

/-- The command's own operand `op` may touch [lo, hi) now (R50, R64, R184). -/
def Mach.mayTouch (m : Mach) (c : Nat) (d : Cmd) (op : Nat) (sp : Space) (lo hi : Int) : Bool :=
  (m.core c).edgesOk d.edges op lo hi &&
  (d.gang.isNone || d.edges.all fun e => match e.phase with | some p => !(m.core c).uncommitted p | none => true) &&
  (match d.remote c with | none => true | some (g, k, q) => m.remoteOk c g k q sp lo hi)

/-- Waits until the command's operand may touch [lo, hi). -/
def El.chase (c : Nat) (d : Cmd) (op : Nat) (sp : Space) (lo hi : Int) : El Unit := do
  let m ← El.now
  let l := (m.core c).blockers d.edges op lo hi
  El.require l.isEmpty (.chase op l)
  El.require (m.mayTouch c d op sp lo hi) .hold

/-- Waits for element `n` of an operand. -/
def El.chaseElem (c : Nat) (d : Cmd) (op n : Nat) : El Unit :=
  match d.ops[op]? with
  | none => pure ()
  | some o => let b := if o.whole && o.nest.trips.all (· == 1) then (o.lo, o.hi) else o.nest.elemBytes n
    El.chase c d op o.nest.space b.1 b.2

/-! ### Reading and writing -/

/-- What an element read gives: its bits, a poisoned unit, and whether zeros were substituted. -/
structure Got where
  bits : Nat
  poison : Option Nat
  sub : Bool

/-- Another core's storage can be reached: it is not pre-empted (R167). -/
def Mach.reachable (m : Mach) (c g : Nat) : Bool :=
  g == c || (!((m.jobOf c).any fun j => j.saved.any fun s => s.core.id == g) && !((m.core g).life == .saving || (m.core g).life == .saved || (m.core g).life == .restoring))

/-- The half of a byte that a 4-bit element takes: nibble 0 is the low half (R146). -/
def nibbleOf (a : Int) (byte : Nat) : Nat := if a % 2 = 0 then byte % 16 else byte / 16

/-- A byte with one of its nibbles replaced. -/
def nibbleSet (a : Int) (byte v : Nat) : Nat := if a % 2 = 0 then byte / 16 * 16 + v % 16 else v % 16 * 16 + byte % 16

/-- The element's access to memory goes on: no store or atomic in flight to its bytes is visible to the command (R238), and the CXL home agent holds none that
has not completed (R364). A write waits for such a store or atomic as a read does (log entry 90). -/
def El.homeFree (c : Nat) (d : Cmd) (pa nb : Nat) : El Unit := do
  let m ← El.now
  let seen := (m.core c).visible (.cmd d.uid)
  El.require (!(m.dev.flying.any fun a => seen.contains a.uid && decide (a.pa < pa + nb) && decide (pa < a.pa + a.bytes))) .hold
  El.require (!m.dev.cxlBusy pa nb) .hold

/-- The physical address and the leaf of a virtual access of an element, for a user of the translation (R153, R159). -/
def El.page (c : Nat) (d : Cmd) (op va nb : Nat) (write : Bool) : El (Nat × Word) := do
  El.require (!(← El.now).transBusy c va write (d.uid, op)) .hold
  match (← El.now).translate c va write (d.uid, op) with
  | (m, .error x) => set m; throw (.fault x (BitVec.ofNat 64 va))
  | (m, .ok (pa, leaf)) =>
    set m
    El.require (m.dev.memKind pa nb).isSome (.fault Cause.access (BitVec.ofNat 64 va))
    El.homeFree c d pa nb
    pure (pa, leaf)

/-- The context whose `SUBCNT` counts a command's substitutions: A for a handler record (R403). -/
def Cmd.subCtx (d : Cmd) : CtxId := d.ctx.getD .a

/-- The command has read a sector as zeros: its context counts the sector once (R174, R258). -/
def El.noteSub (c : Nat) (d : Cmd) (u : Nat) : El Unit := do
  let seen := match ((← El.now).core c).cmd d.uid with | some e => e.subs.contains u | none => true
  if seen then pure ()
  else El.change fun m => (m.onCore c fun k => k.onCmd d.uid fun e => { e with subs := e.subs ++ [u] }).onCtx c d.subCtx Ctx.substitute

/-- Reads the element of `nibs` nibbles at a nibble address. -/
def El.read (c : Nat) (d : Cmd) (op : Nat) (sp : Space) (a : Int) (nibs : Nat) : El Got := do
  let byte := (a / 2).toNat
  let nb := (nibs + 1) / 2
  let cut (v : Nat) : Nat := if nibs = 1 then nibbleOf a v else v
  match sp with
  | .core g =>
    let m ← El.now
    El.require (m.reachable c g) .hold
    let pa := localPa g byte
    pure ⟨cut (m.le pa nb), m.dev.poisonIn pa nb, m.dev.substAt pa⟩
  | .virt =>
    let (pa, leaf) ← El.page c d op byte nb false
    let m ← El.now
    let pa := if Pte.rep leaf then m.dev.replicaPa (dieOf c) pa else pa
    let bits := cut (leNat (m.homeRead pa nb (Pte.key leaf)))
    match m.dev.poisonIn pa nb with
    | none => pure ⟨bits, none, false⟩
    | some u =>
      if Pte.et leaf then
        (do El.noteSub c d u
            pure ⟨0, none, true⟩)
      else pure ⟨bits, some u, false⟩

/-- Poison at the `n` nibbles written from a nibble address on (R174, R247): a moved mark poisons the unit; a unit that the command covers whole is clean. -/
def Mach.markWrite (m : Mach) (c u lo n : Nat) (poison : Bool) : Mach :=
  let un := unitOf (lo / 2)
  if poison then
    (m.onDev fun d => d.poisonUnit un.1).onCore c fun k => k.onCmd u fun e => { e with moved := unitInsert e.moved un.1 }
  else if m.dev.poison.contains un.1 then
    match (m.core c).cmd u with
    | none => if 2 * un.2 ≤ n then m.onDev fun d => d.cleanUnit un.1 else m
    | some e =>
      if e.moved.contains un.1 then m
      else
        let cover := ((List.range n).map (lo + ·)).foldl unitInsert e.cover
        if (List.range (2 * un.2)).all fun i => cover.contains (2 * un.1 + i) then
          (m.onDev fun d => d.cleanUnit un.1).onCore c fun k => k.onCmd u fun e => { e with cover := cover.filter fun b => b < 2 * un.1 || 2 * (un.1 + un.2) ≤ b }
        else m.onCore c fun k => k.onCmd u fun e => { e with cover := cover }
  else m

/-- Substitution marks at a written scratchpad word (R315). -/
def Mach.markSubst (m : Mach) (c u pa : Nat) (sub : Bool) : Mach :=
  let w := pa / 32 * 32
  let spad := storageAt ((pa - Config.onchipBase) % 2 ^ 22) == some .spad
  let own := match (m.core c).cmd u with | some e => e.smarks.contains w | none => false
  if spad && (sub || own) then
    (m.onDev fun d => { d with subst := unitInsert d.subst w }).onCore c fun k => k.onCmd u fun e => { e with smarks := unitInsert e.smarks w }
  else m

/-- A write outside the core's own local space makes its phases irrevocable (R254). -/
def Mach.outside (m : Mach) (c : Nat) (d : Cmd) (sp : Space) : Mach := if d.phase.isSome && sp != .core c then m.onCore c Core.irrevoke else m

/-- The place of an element write, translated and reachable: its physical address and leaf (R177). -/
def El.target (c : Nat) (d : Cmd) (op : Nat) (sp : Space) (a : Int) (nibs : Nat) : El (Nat × Option Word) := do
  let byte := (a / 2).toNat
  match sp with
  | .core g =>
    El.require ((← El.now).reachable c g) .hold
    pure (localPa g byte, none)
  | .virt =>
    let (pa, leaf) ← El.page c d op byte ((nibs + 1) / 2) true
    pure (pa, some leaf)

/-- A fault of this work is one of position `pos`. -/
def El.atPos {α : Type} (pos : Nat) (e : El α) : El α := fun m =>
  match e m with
  | (.error (.fault sub tval), m) => (.error (.faultOn pos sub tval), m)
  | r => r

/-- Writes the element at a place that `target` gave. -/
def Mach.put (m : Mach) (c : Nat) (d : Cmd) (sp : Space) (t : Nat × Option Word) (a : Int) (nibs bits : Nat) (poison sub : Bool) : Mach :=
  let nb := (nibs + 1) / 2
  let mark (m : Mach) (pa : Nat) : Mach := m.markWrite c d.uid (2 * pa + if nibs = 1 then (a % 2).toNat else 0) nibs poison
  let m := m.outside c d sp
  match t.2 with
  | none =>
    let v := if nibs = 1 then nibbleSet a (m.le t.1 1) bits else bits
    mark ((m.store t.1 (leBytes nb v)).markSubst c d.uid t.1 sub) t.1
  | some leaf =>
    if Pte.rep leaf then
      let v := if nibs = 1 then nibbleSet a (leNat (m.orderValue t.1 1 (Pte.key leaf))) bits else bits
      let pas := (List.range 4).map fun die => m.dev.replicaPa die t.1
      pas.dedup.foldl mark ((m.sequence c d.uid t.1 (Pte.key leaf) (leBytes nb v)).applyAll (dieOf c))
    else
      let v := if nibs = 1 then nibbleSet a (leNat (m.homeRead t.1 1 (Pte.key leaf))) bits else bits
      mark (m.homeWrite t.1 (leBytes nb v) (Pte.key leaf)) t.1

/-- Writes an element (R151). -/
def El.write (c : Nat) (d : Cmd) (op : Nat) (sp : Space) (a : Int) (nibs bits : Nat) (poison sub : Bool) : El Unit := do
  let t ← El.target c d op sp a nibs
  El.change fun m => m.put c d sp t a nibs bits poison sub

/-- Element `n` of operand `op`, read after its chase. -/
def El.readElem (c : Nat) (d : Cmd) (op n : Nat) : El Got :=
  match d.ops[op]? with
  | none => pure ⟨0, none, false⟩
  | some o => El.read c d op o.nest.space (o.nest.addr n) o.nest.esz

/-- Element `n` of operand `op`, read by a unit that consumes poison (R248). -/
def El.take (c : Nat) (d : Cmd) (op n : Nat) : El Nat := do
  let g ← El.readElem c d op n
  match g.poison with
  | some u => throw (.poison u)
  | none => pure g.bits

/-- Element `n` of operand `op`, written. -/
def El.putElem (c : Nat) (d : Cmd) (op n bits : Nat) (poison sub : Bool) : El Unit :=
  match d.ops[op]? with
  | none => pure ()
  | some o => El.write c d op o.nest.space (o.nest.addr n) o.nest.esz bits poison sub

/-- Changes the command. -/
def El.cmd (c : Nat) (d : Cmd) (f : Cmd → Cmd) : El Unit := El.change fun m => m.onCore c fun k => k.onCmd d.uid f

/-- A frontier of a command has advanced: the core's event latches are set, and those of its cluster when a slot shows the command (R138). -/
def Mach.advanced (m : Mach) (c : Nat) (d : Cmd) : Mach :=
  if d.null then m
  else
    (m.onCore c Core.latchAll).latchShown c d.uid

/-- The element is done: the position advances by `k`. -/
def El.advance (c : Nat) (d : Cmd) (k : Nat) : El Unit := do
  El.cmd c d fun e => { e with n := e.n + k }
  El.change fun m => m.advanced c d

/-- The element is done, and the command keeps these values with its position (R286). -/
def El.advanceWith (c : Nat) (d : Cmd) (acc : List Word) : El Unit := do
  El.cmd c d fun e => { e with acc := acc }
  El.advance c d 1

/-! ### Faults and consumption -/

/-- Another command of the queue is faulted, or an earlier one has been resumed and has not retired: this one waits at its fault point (R152). -/
def Core.queueFaulted (c : Core) (d : Cmd) : Bool :=
  ((c.queue d.q).any fun e => e.uid != d.uid && e.fault.isSome) || (c.ahead d).any (·.resumed)

/-- An engine fault at a position (R10, R13): delivered to the command's context; a handler record is squashed and its message abandoned (R405). -/
def Mach.faultAt (m : Mach) (c : Nat) (d : Cmd) (pos sub : Nat) (tval : Word) : Mach :=
  if d.handler then m.squash c d.uid
  else if (m.core c).queueFaulted d then m
  else
    let f : EFault := ⟨d.q, d.seq, pos, sub, tval⟩
    let m := (m.onCore c fun k => k.onCmd d.uid fun e => { e with fault := some f }).latchShown c d.uid
    match d.ctx with
    | none => m
    | some x => m.onCtx c x fun y => { y with efq := y.efq ++ [f], latch := true }

/-- An engine fault at the command's position (R10, R152): its next element, or the first transfer that it sends again (R359). -/
def Mach.faultCmd (m : Mach) (c : Nat) (d : Cmd) (sub : Nat) (tval : Word) : Mach := m.faultAt c d d.position sub tval

/-- Kept records whose refetch would cover a unit (R185, R186). -/
def Mach.refetchCovers (m : Mach) (c u : Nat) : Bool := (m.refetches c).any fun k => k.ops.any fun o => m.contains c o u

/-- The refetches now in the queue. -/
def Core.refetchIds (c : Core) : List Nat := (c.lq.filter fun d => d.refetch).map (·.uid)

/-- A gang part consumes poison (R185): its member's current phase is cancelled where it can be (R255), and the part waits for the refetches; with none that
covers the unit it faults. -/
def Mach.gangPoison (m : Mach) (c : Nat) (d : Cmd) (u : Nat) (tval : Word) : Mach :=
  let ph := (m.core c).phase
  let deliver (m : Mach) : Mach := if (m.core c).queueFaulted d then m else (m.logErr 4 c (unitAddr u) 0 ph).faultCmd c d Cause.uncorrectable tval
  if !(m.core c).absorbs ph u then deliver m
  else if m.refetchCovers c u then
    ((m.logErr 3 c (unitAddr u) 0 ph).cancelFor c ph u).onCore c fun k => k.onCmd d.uid fun e => { e with refetchWait := some (k.refetchIds, tval) }
  else deliver (m.cancelFor c ph u)

/-- A command consumes a poisoned unit (R248): absorbed by a cancellation, or the engine fault `UNCORRECTABLE`. -/
def Mach.consume (m : Mach) (c : Nat) (d : Cmd) (u : Nat) (tval : Word) : Mach :=
  if d.gang.isSome then m.gangPoison c d u tval
  else match m.absorb c d.phase u with
    | some m => m
    | none =>
      if !d.handler && (m.core c).queueFaulted d then m
      else (m.logErr 4 c (unitAddr u) 0 (d.phase.getD 0)).faultCmd c d Cause.uncorrectable tval

/-- `TVAL` of a consumed unit. -/
def poisonTval (u : Nat) : Word := if 2 ^ 60 ≤ u then unitAddr u else reportAddr u

/-! ### The step of an engine -/

/-- The command is in progress and has an element to do (R149, R185, R391), or a refused transfer to send again (R359). -/
def Cmd.working (d : Cmd) : Bool :=
  d.issued && d.fault.isNone && !d.stopped && d.refetchWait.isNone && d.refused.isEmpty && d.stopAt.isNone &&
  (decide (d.n < d.total) || !d.again.isEmpty) && (d.opc != 0x33 || d.null || d.fired)

/-- The last element of an operand that iteration `n` of a command needs. -/
def Cmd.needs (d : Cmd) (o : Operand) (n : Nat) : Nat := ((n + 1) * o.nest.total + d.total - 1) / d.total - 1

/-- An element of a nullified command: it waits at its chase points and does nothing else (R351). -/
def El.nullElement (c : Nat) (d : Cmd) : El Unit := do
  let _ ← (d.ops.mapIdx fun i o => (i, o)).mapM fun p => El.chaseElem c d p.1 (d.needs p.2 d.n)
  El.advance c d 1

/-- Applies what stopped an element. -/
def Mach.stopped (m : Mach) (c : Nat) (d : Cmd) : Stop → Mach
  | .hold => m
  | .chase .. => m
  | .fault sub tval => m.faultCmd c d sub tval
  | .faultOn pos sub tval => m.faultAt c d pos sub tval
  | .poison u => m.consume c d u (poisonTval u)

/-- Does the next element of command `u` of core `c`, when the command is in progress and of the kind. -/
def Mach.engineStep (m : Mach) (c u : Nat) (kind : Cmd → Bool) (f : Nat → Cmd → El Unit) : Mach :=
  match (m.core c).cmd u with
  | none => m
  | some d =>
    if !d.working || !kind d then m
    else match (if d.null then El.nullElement c d else f c d).run.run m with
      | (.ok _, m) => m
      | (.error s, m) => m.stopped c d s

/-- A command of a record opcode. -/
def Cmd.isOpc (o : Nat) (d : Cmd) : Bool := (match d.work with | .record _ => true | .vec .. => false) && d.opc == o

end Sys2Proof.Machine
end

