-- ==== Sys2Proof/Machine/Copy.lean ====
section
/-! DEFINITION. The copy engine (R161-R174): `copy`, `copyt`, `fill`, `mcast`, `gather`, `gatherff`, `scatter`, `scattera`, element by element. -/

namespace Sys2Proof.Machine

/-- The record of a command; a vector instruction has none. -/
def Cmd.record? (d : Cmd) : Option Record := match d.work with | .record r => some r | .vec .. => none

/-- A field of a command's AUX. -/
def Cmd.aux (d : Cmd) (lo n : Nat) : Nat := match d.work with | .record r => (r.aux.extractLsb' lo n).toNat | .vec .. => 0

/-- A signed field of a command's AUX. -/
def Cmd.auxInt (d : Cmd) (lo n : Nat) : Int := match d.work with | .record r => (r.aux.extractLsb' lo n).toInt | .vec .. => 0

/-- Destinations of a command: one, or one for each member of an `mcast`. -/
def Cmd.dsts (d : Cmd) : Nat := (d.ops.takeWhile (·.dst)).length

/-- An element as a unit other than `copy` writes it: bits [7:6] of an E2M3 or E3M2 byte are zero (R191). -/
def cleanBits (f bits : Nat) : Nat := if f = 0x0A ∨ f = 0x0B then bits % 64 else bits

/-- One element of `copy`, `copyt`, `fill` or `mcast`: the source is read, every destination's place is found, then each is written (R163-R166, R177). -/
def elOrdered (c : Nat) (d : Cmd) : El Unit := do
  let k := d.dsts
  let src := d.opc != 0x16
  let _ ← (List.range (d.ops.length)).mapM fun i => El.chaseElem c d i d.n
  let got ← if src then El.readElem c d k d.n else pure ⟨d.aux 32 32, none, false⟩
  let bits := if d.opc = 0x11 then widen (d.aux 5 5) got.bits else if d.opc = 0x10 then got.bits else cleanBits (d.aux 0 5) got.bits
  let places ← (List.range k).mapM fun i => match d.ops[i]? with
    | none => throw Stop.hold
    | some o => do
      let t ← El.target c d i o.nest.space (o.nest.addr d.n) o.nest.esz
      pure (o, t)
  El.change fun m => places.foldl (fun m p => m.put c d p.1.nest.space p.2 (p.1.nest.addr d.n) p.1.nest.esz bits got.poison.isSome got.sub) m
  El.advance c d 1

/-! ### Indexed commands -/

/-- Iteration n's index, read from the list, once the ordered operand `op` may be touched too: a chase wait comes before every check (R177). A poisoned list
element is consumed (R169, R171, R174). -/
def El.index (c : Nat) (d : Cmd) (op : Nat) : El Int := do
  El.chaseElem c d op d.n
  El.chaseElem c d 2 d.n
  let v ← El.take c d 2 d.n
  pure (BitVec.ofNat 32 v).toInt

/-- The index is within [LO, HI] (R168). -/
def Cmd.inBounds (d : Cmd) (i : Int) : Bool := decide (d.auxInt 18 23 ≤ i) && decide (i ≤ d.auxInt 41 23)

/-- ZOOB (R168). -/
def Cmd.zoob (d : Cmd) : Bool := d.aux 16 1 == 1

/-- The nibble address of the element of an index (R170). -/
def Cmd.indexedAddr (d : Cmd) (i : Int) (gathers : Bool) : Int :=
  let base : Nat := match d.regions.getLast? with | some b => b.toNat | none => 0
  let stride : Int := match d.work with | .record r => if gathers then r.ss0.toInt else r.ds0.toInt | .vec .. => 0
  2 * base + fmtNibs (d.aux 11 5) * (i * stride)

/-- The space of an operand. -/
def Cmd.space (d : Cmd) (op : Nat) : Space := match d.ops[op]? with | some o => o.nest.space | none => .virt

/-- `gatherff` ends at its current iteration (R173). -/
def El.endFirstFault (c : Nat) (d : Cmd) : El Unit := El.cmd c d fun e => { e with stopAt := some d.n }

/-- Runs a read of the gathered element; for `gatherff`, none where the element's access fails, or meets poison that no error-tolerant page hides, in memory
(R173) or in on-chip storage (log entry 88). -/
def El.attempt (ff : Bool) (e : El Got) : El (Option Got) := fun m =>
  match e m with
  | (.error .hold, m) => (.error .hold, m)
  | (.error (.chase o l), m) => (.error (.chase o l), m)
  | (.error s, m) => if ff then (.ok none, m) else (.error s, m)
  | (.ok g, m) => (.ok (if ff && g.poison.isSome then none else some g), m)

/-- One element of `gather` or `gatherff` (R171, R173). -/
def elGather (ff : Bool) (c : Nat) (d : Cmd) : El Unit := do
  let i ← El.index c d 0
  if d.inBounds i then
    let f := fmtNibs (d.aux 11 5)
    let a := d.indexedAddr i true
    let b := nibBytes a f
    El.chase c d 1 (d.space 1) b.1 b.2
    match ← El.attempt ff (El.read c d 1 (d.space 1) a f) with
    | none => El.endFirstFault c d
    | some g =>
      El.putElem c d 0 d.n (cleanBits (d.aux 11 5) g.bits) g.poison.isSome g.sub
      El.advance c d 1
  else if d.zoob then
    El.putElem c d 0 d.n 0 false false
    El.change fun m => m.onCtx c d.subCtx Ctx.substitute
    El.advance c d 1
  else if ff then El.endFirstFault c d
  else throw (.fault Cause.oobIndex (BitVec.ofInt 64 i))

/-- What an out-of-bounds index does to a `scatter` or `scattera` (R171). -/
def El.scatterOob (c : Nat) (d : Cmd) (i : Int) : El Unit := do
  El.require d.zoob (.fault Cause.oobIndex (BitVec.ofInt 64 i))
  El.change fun m => m.onCtx c d.subCtx Ctx.substitute
  El.advance c d 1

/-- One element of `scatter` (R171). -/
def elScatter (c : Nat) (d : Cmd) : El Unit := do
  let i ← El.index c d 1
  if d.inBounds i then
    let f := fmtNibs (d.aux 11 5)
    let a := d.indexedAddr i false
    let b := nibBytes a f
    El.chase c d 0 (d.space 0) b.1 b.2
    let g ← El.readElem c d 1 d.n
    El.write c d 0 (d.space 0) a f (cleanBits (d.aux 11 5) g.bits) g.poison.isSome g.sub
    El.advance c d 1
  else El.scatterOob c d i

/-- The operation of `scattera` (R172): `a` in place, `b` from the source. -/
def scatteraNew (op f a b : Nat) : Nat :=
  let va := decodeNum f a
  let vb := decodeNum f b
  match op with
  | 0 => if fmtInt f then (a + b) % 2 ^ 32 else convert f (va.add vb)
  | 1 => if fmtInt f then (if intValue f a < intValue f b then b else a) else convert f (va.max vb)
  | 2 => if fmtInt f then (if intValue f b < intValue f a then b else a) else convert f (va.min vb)
  | 3 => a ||| b
  | _ => a &&& b

/-- The element in place at a target, read by a unit that consumes poison; zeros from a poisoned sector of an ET page (R174). -/
def El.inPlace (c : Nat) (d : Cmd) (t : Nat × Option Word) (nb : Nat) : El Nat := do
  let m ← El.now
  match t.2 with
  | none => match m.dev.poisonIn t.1 nb with
    | some u => throw (.poison u)
    | none => pure (m.le t.1 nb)
  | some leaf =>
    let home := if Pte.rep leaf then m.dev.replicaPa 0 t.1 else t.1
    let bits := if Pte.rep leaf then leNat (m.orderValue t.1 nb (Pte.key leaf)) else leNat (m.homeRead t.1 nb (Pte.key leaf))
    match m.dev.poisonIn home nb with
    | none => pure bits
    | some u =>
      if Pte.et leaf then
        (do El.noteSub c d u
            pure 0)
      else throw (.poison u)

/-- One element of `scattera` (R171, R172, R181). -/
def elScattera (c : Nat) (d : Cmd) : El Unit := do
  let i ← El.index c d 1
  if d.inBounds i then
    let f := d.aux 11 5
    let a := d.indexedAddr i false
    let b := nibBytes a (fmtNibs f)
    El.chase c d 0 (d.space 0) b.1 b.2
    let x ← El.take c d 1 d.n
    let t ← El.target c d 0 (d.space 0) a (fmtNibs f)
    let old ← El.inPlace c d t (fmtNibs f / 2)
    let op := match d.work with | .record r => r.mod.toNat % 8 | .vec .. => 0
    El.change fun m => m.put c d (d.space 0) t a (fmtNibs f) (scatteraNew op f old x) false false
    El.advance c d 1
  else El.scatterOob c d i

/-- A `scattera` of an operation. -/
def Cmd.isScattera (op : Nat) (d : Cmd) : Bool := d.isOpc 0x15 && (match d.work with | .record r => r.mod.toNat % 8 == op | .vec .. => false)

/-- `copy` (R163). -/
def execCopy (c : CoreId) (u : Nat) : State → Result := lift fun m => m.engineStep c.toNat u (Cmd.isOpc 0x10) elOrdered

/-- `copyt` (R164). -/
def execCopyt (c : CoreId) (u : Nat) : State → Result := lift fun m => m.engineStep c.toNat u (Cmd.isOpc 0x11) elOrdered

/-- `fill` (R165). -/
def execFill (c : CoreId) (u : Nat) : State → Result := lift fun m => m.engineStep c.toNat u (Cmd.isOpc 0x16) elOrdered

/-- `mcast` (R166). -/
def execMcast (c : CoreId) (u : Nat) : State → Result := lift fun m => m.engineStep c.toNat u (Cmd.isOpc 0x17) elOrdered

/-- `gather` (R171). -/
def execGather (c : CoreId) (u : Nat) : State → Result := lift fun m => m.engineStep c.toNat u (Cmd.isOpc 0x12) (elGather false)

/-- `gatherff` (R173). -/
def execGatherff (c : CoreId) (u : Nat) : State → Result := lift fun m => m.engineStep c.toNat u (Cmd.isOpc 0x13) (elGather true)

/-- `scatter` (R171). -/
def execScatter (c : CoreId) (u : Nat) : State → Result := lift fun m => m.engineStep c.toNat u (Cmd.isOpc 0x14) elScatter

/-- `scattera` ADD (R172). -/
def execScatteraAdd (c : CoreId) (u : Nat) : State → Result := lift fun m => m.engineStep c.toNat u (Cmd.isScattera 0) elScattera

/-- `scattera` MAX (R172). -/
def execScatteraMax (c : CoreId) (u : Nat) : State → Result := lift fun m => m.engineStep c.toNat u (Cmd.isScattera 1) elScattera

/-- `scattera` MIN (R172). -/
def execScatteraMin (c : CoreId) (u : Nat) : State → Result := lift fun m => m.engineStep c.toNat u (Cmd.isScattera 2) elScattera

/-- `scattera` BOR (R172). -/
def execScatteraBor (c : CoreId) (u : Nat) : State → Result := lift fun m => m.engineStep c.toNat u (Cmd.isScattera 3) elScattera

/-- `scattera` BAND (R172). -/
def execScatteraBand (c : CoreId) (u : Nat) : State → Result := lift fun m => m.engineStep c.toNat u (Cmd.isScattera 4) elScattera

end Sys2Proof.Machine
end

