-- ==== Sys2Proof/Machine/Matrix.lean ====
section
/-! DEFINITION. The matrix engine (R194-R204, R209-R224, R229): `seat`, `seats`, `mmul`, `drain`, `tzero`, `tcopy`. -/

namespace Sys2Proof.Machine

/-! ### Helpers -/

/-- Cuts a list into runs of `k`; `n` bounds their number. -/
def chunks {α : Type} (k : Nat) : Nat → List α → List (List α)
  | 0, _ => []
  | _ + 1, [] => []
  | n + 1, x :: xs => (x :: xs).take k :: chunks k n ((x :: xs).drop k)

/-- Runs of `k` of a whole list. -/
def chunked {α : Type} (k : Nat) (l : List α) : List (List α) := chunks k l.length l

/-- The bound format word of a command. -/
def Cmd.fw (d : Cmd) : Word := d.fmtw.getD 0

/-- MOD of a command's record. -/
def Cmd.mod (d : Cmd) : Nat := match d.work with | .record r => r.mod.toNat | .vec .. => 0

/-- The seat that a command names (R216). -/
def Cmd.seatNo (d : Cmd) : Nat := d.mod % 2

def Core.seatOf (c : Core) (s : Nat) : Seat := if s = 0 then c.seat0 else c.seat1

def Core.setSeat (c : Core) (s : Nat) (v : Seat) : Core := if s = 0 then { c with seat0 := v } else { c with seat1 := v }

/-- Bytes of the own scratchpad, read by a consumer. -/
def El.local_ (c : Nat) (d : Cmd) (a nb : Nat) : El Nat := do
  let g ← El.read c d 0 (.core c) (2 * a) (2 * nb)
  match g.poison with
  | some u => throw (.poison u)
  | none => pure g.bits

/-- The byte of entry (g, j) of a scale or zero-point map (R213). -/
def mapByte (v : BitVec 128) (w : Word) (g j : Nat) : Nat := RegionReg.base v + 128 * (16 * g + j / 16) + 8 * (j % 16) + Fw.scsel w

/-- The scale of (group g, index j): its encoding (R213). -/
def El.scale (c : Nat) (d : Cmd) (v : BitVec 128) (g j : Nat) : El Nat := El.local_ c d (mapByte v d.fw g j) (if RegionReg.fmt v = 0x11 then 1 else 2)

/-- The zero point of (group g, index j); of a UINT4 operand the low nibble (R213). -/
def El.zeroPoint (c : Nat) (d : Cmd) (v : BitVec 128) (f g j : Nat) : El Nat := do
  let b ← El.local_ c d (mapByte v d.fw g j) 1
  pure (if f = 0x01 then b % 16 else b)

/-- Waits for every side region of a command from operand `i` on. -/
def El.chaseSides (c : Nat) (d : Cmd) (i : Nat) : El Unit := do
  let _ ← ((List.range d.ops.length).drop i).mapM fun k => match d.ops[k]? with
    | none => pure ()
    | some o => El.chase c d k o.nest.space o.lo o.hi
  pure ()

/-! ### seat and seats (R218, R219) -/

/-- One 4-position group of a sparse column from two stored values with their positions (R219). -/
def spread (l : List (Nat × Nat)) : List Nat := (List.range 4).map fun p => match l.find? fun e => e.1 % 4 == p with | some e => e.2 | none => 0

/-- The column's encodings by logical position, from its stored values: each a position and its bits. -/
def column (sparse : Bool) (l : List (Nat × Nat)) : List Nat := if sparse then (chunked 2 l).flatMap spread else l.map (·.2)

/-- The seat that a tile gives (R218): `scales` and `zeros` by column. -/
def buildSeat (w : Word) (sparse : Bool) (depth : Nat) (cols : List (List Nat)) (scales : List (List (BitVec 16))) (e8m0 : Bool) (zeros : List (List Nat)) : Seat :=
  let blocks := cols.map fun col => (chunked 32 col).map (align (Fw.bfmt w))
  let ints := blocks.map fun bs => bs.flatMap (·.1)
  let g := Fw.size w
  { full := false, record := Fw.record w, kd := depth, cols := cols.length, sparse := sparse, poisoned := false, raw := cols, ints := ints,
    exps := blocks.map fun bs => bs.map (·.2),
    sums := if g = 0 then [] else ints.map fun l => (chunked g l).map fun x => x.foldl (· + ·) 0,
    scales := scales, e8m0 := e8m0, zeros := zeros }

/-- The tile is read, and the side regions may be: scales and zero points follow and the seat is loaded (R218). -/
def El.loadSeat (c : Nat) (d : Cmd) (sparse : Bool) (stored : List (Nat × Nat)) : El Unit := do
  let w := d.fw
  let t0 := (d.ops[0]?.map (·.nest.trip 0)).getD 1
  let t1 := (d.ops[0]?.map (·.nest.trip 1)).getD 1
  let depth := if sparse then 2 * t0 else t0
  let g := Fw.size w
  let ng := if g = 0 then 0 else (depth + g - 1) / g
  let regs := if sparse then d.regions.drop 1 else d.regions
  let sc := regs.headD 0
  let scales ← if sc = 0 then pure [] else (List.range t1).mapM fun j => (List.range ng).mapM fun i => do
    pure (BitVec.ofNat 16 (← El.scale c d sc i j))
  let zeros ← match regs[1]? with
    | none => pure []
    | some z => (List.range t1).mapM fun j => (List.range ng).mapM fun i => El.zeroPoint c d z (Fw.bfmt w) i j
  let seat := buildSeat w sparse depth ((chunked t0 stored).map (column sparse)) scales (RegionReg.fmt sc == 0x11) zeros
  El.change fun m => m.onCore c fun k => k.setSeat d.seatNo seat

/-- The two positions of a metadata nibble (R219). -/
def El.sparsePair (c : Nat) (d : Cmd) : El (Nat × Nat) := do
  El.chaseElem c d 1 (d.n / 2)
  let b ← El.take c d 1 (d.n / 2)
  let p0 := b % 4
  let p1 := b / 4
  let addr := match d.ops[1]? with | some o => (o.nest.addr (d.n / 2) / 2).toNat / 32 * 32 | none => 0
  El.require (p0 < p1) (.fault Cause.sparseMeta (BitVec.ofNat 64 addr))
  pure (p0, p1)

/-- One stored value of `seat` or `seats`. -/
def elSeat (sparse : Bool) (c : Nat) (d : Cmd) : El Unit := do
  if d.n = 0 then El.change fun m => m.onCore c fun k => k.setSeat d.seatNo Seat.empty
  El.chaseElem c d 0 d.n
  if d.n + 1 = d.total then El.chaseSides c d (if sparse then 2 else 1)
  let pos ← if sparse then (do
      let p ← El.sparsePair c d
      pure (if d.n % 2 = 0 then p.1 else p.2)) else pure 0
  let b ← El.take c d 0 d.n
  let acc := d.acc ++ [BitVec.ofNat 64 (pos * 2 ^ 32 + b)]
  if d.n + 1 = d.total then El.loadSeat c d sparse (acc.map fun v => (v.toNat / 2 ^ 32, v.toNat % 2 ^ 32))
  El.advanceWith c d acc

/-! ### mmul (R200-R203, R220) -/

/-- One K position of a product: A's and B's values and the scale product of its group (R202). -/
structure Meet where
  a : Num
  b : Num
  s : Ex

/-- A K-step of FP32: no special value, an infinity, or NaN (R202). -/
inductive Special where
  | none
  | inf (neg : Bool)
  | nan
  deriving DecidableEq, Repr

/-- Two specials together. -/
def Special.join : Special → Special → Special
  | .none, b => b
  | a, .none => a
  | .nan, _ => .nan
  | _, .nan => .nan
  | .inf s, .inf t => if s = t then .inf s else .nan

/-- What one position gives. -/
def Meet.special (p : Meet) : Special :=
  if p.a.isNan || p.b.isNan then .nan
  else if p.a.isInf || p.b.isInf then
    (if p.a.isZero || p.b.isZero || p.s.isZero then .nan else .inf ((p.a.sign != p.b.sign) != p.s.isNeg))
  else .none

/-- The accumulator's part (R202). -/
def accSpecial : Num → Special
  | .nan => .nan
  | .inf s => .inf s
  | .fin _ _ => .none

/-- One operand's side of a K-step: encodings, aligned integers by position, block exponents, and per group the scale, the zero point, the sum. -/
structure Side where
  fmt : Nat
  raw : List Nat
  ints : List Int
  exps : List Int
  scales : List Num
  zeros : List Nat
  sums : List Int

/-- Positions of a group; the whole K-step without groups (R196). -/
def groupSize (w : Word) (kd : Nat) : Nat := if Fw.size w = 0 then kd else Fw.size w

/-- sA·sB of a group; 1 where a scale is absent (R199). -/
def scaleProduct (a b : Side) (g : Nat) : Ex := ((a.scales[g]?.map Num.ex).getD (Ex.ofInt 1)).mul ((b.scales[g]?.map Num.ex).getD (Ex.ofInt 1))

def dot (a b : List Int) : Int := (a.zip b).foldl (fun acc p => acc + p.1 * p.2) 0

/-- Σab of group g, with zero points: Z (R198). -/
def groupInt (w : Word) (kd : Nat) (a b : Side) (g : Nat) : Int :=
  let n := groupSize w kd
  let part (l : List Int) : List Int := (l.drop (g * n)).take n
  let ab := dot (part a.ints) (part b.ints)
  if Fw.zpa w || Fw.zpb w then
    let za : Int := (a.zeros.getD g 0 : Nat)
    let zb : Int := (b.zeros.getD g 0 : Nat)
    ab - zb * a.sums.getD g 0 - za * b.sums.getD g 0 + n * za * zb
  else ab

/-- The terms of a K-step but for the accumulator (R200). -/
def productTerms (w : Word) (kd : Nat) (a b : Side) : List Ex :=
  let n := groupSize w kd
  if fmtInt a.fmt && fmtInt b.fmt then
    (List.range (kd / n)).map fun g => (scaleProduct a b g).mul (Ex.ofInt (groupInt w kd a b g))
  else
    (List.range (kd / 32)).map fun k =>
      let part (l : List Int) : List Int := (l.drop (32 * k)).take 32
      (scaleProduct a b (32 * k / n)).mul (Ex.dyadic (dot (part a.ints) (part b.ints)) (a.exps.getD k 0 + b.exps.getD k 0))

/-- Special values of a K-step (R202). -/
def productSpecial (w : Word) (kd : Nat) (a b : Side) : Special :=
  if (a.scales ++ b.scales).any fun s => s.isNan || s.isInf then .nan
  else if fmtInt a.fmt && fmtInt b.fmt then .none
  else
    let n := groupSize w kd
    (List.range kd).foldl (fun acc k =>
      acc.join (Meet.special ⟨decodeNum a.fmt (a.raw.getD k 0), decodeNum b.fmt (b.raw.getD k 0), scaleProduct a b (k / n)⟩)) .none

/-- One output of an FP32 K-step (R200-R202). -/
def outFp32 (w : Word) (kd : Nat) (a b : Side) (acc : Num) : Nat :=
  match (productSpecial w kd a b).join (accSpecial acc) with
  | .nan => 0x7FC00000
  | .inf s => if s then 0xFF800000 else 0x7F800000
  | .none => kstep (acc.ex :: productTerms w kd a b)

/-- One output of an INT32 K-step, and whether it saturated (R203). -/
def outInt32 (w : Word) (kd : Nat) (a b : Side) (acc : Int) : Nat × Bool := satInt32 (acc + groupInt w kd a b 0)

/-- Groups of a K-step; 0 without groups (R196). -/
def groupCount (w : Word) (kd : Nat) : Nat := if Fw.size w = 0 then 0 else kd / Fw.size w

/-- A seat's column as a side of a K-step of depth `kd`: its first positions, blocks and groups; zeros beyond its columns. -/
def Seat.side (s : Seat) (w : Word) (kd j : Nat) : Side where
  fmt := Fw.bfmt w
  raw := (s.raw.getD j []).take kd
  ints := ((s.ints.getD j (List.replicate kd 0)).take kd)
  exps := (s.exps.getD j []).take (kd / 32)
  scales := ((s.scales.getD j []).take (groupCount w kd)).map fun b => decodeNum (if s.e8m0 then 0x11 else 0x0E) b.toNat
  zeros := (s.zeros.getD j []).take (groupCount w kd)
  sums := (s.sums.getD j []).take (groupCount w kd)

/-- The A row of a K-step: its blocks aligned, with its scales and zero points (R194, R198). -/
def rowSide (w : Word) (kd : Nat) (raw : List Nat) (scales : List Num) (zeros : List Nat) : Side :=
  let bs := (chunked 32 raw).map (align (Fw.afmt w))
  let ints := bs.flatMap (·.1)
  { fmt := Fw.afmt w, raw := raw, ints := ints, exps := bs.map (·.2), scales := scales, zeros := zeros,
    sums := (chunked (groupSize w kd) ints).map fun x => x.foldl (· + ·) 0 }

/-- The seat suits an `mmul` at its start (R220). -/
def Seat.suits (s : Seat) (d : Cmd) (kd : Nat) : Bool := s.full && s.record == Fw.record d.fw && decide (kd ≤ s.kd)

/-- One A row of an `mmul`: its T0 outputs together (R220). -/
def elMmul (c : Nat) (d : Cmd) : El Unit := do
  let w := d.fw
  let t0 := (d.ops[0]?.map (·.nest.trip 0)).getD 1
  let kd := d.aux 16 9
  let row := d.n / t0
  let seat := ((← El.now).core c).seatOf d.seatNo
  El.require (d.n != 0 || seat.suits d kd) (.fault Cause.illegal (BitVec.ofNat 64 d.seatNo))
  let _ ← (List.range t0).mapM fun i => El.chaseElem c d 0 (d.n + i)
  let _ ← (List.range kd).mapM fun i => El.chaseElem c d 1 (row * kd + i)
  El.chaseSides c d 2
  El.require (!seat.poisoned) (.poison (seatUnit d.seatNo))
  let raw ← (List.range kd).mapM fun i => El.take c d 1 (row * kd + i)
  let ng := groupCount w kd
  let sc := d.regions.headD 0
  let scales ← if sc = 0 then pure [] else (List.range ng).mapM fun g => do
    pure (decodeNum (RegionReg.fmt sc) (← El.scale c d sc g row))
  let zeros ← match d.regions[1]? with
    | none => pure []
    | some z => (List.range ng).mapM fun g => El.zeroPoint c d z (Fw.afmt w) g row
  let old ← (List.range t0).mapM fun i => if d.mod / 2 % 2 = 1 then El.take c d 0 (d.n + i) else pure 0
  let a := rowSide w kd raw scales zeros
  let outs := (List.range t0).map fun j =>
    let b := seat.side w kd j
    if Fw.ofmt w = 0x06 then outInt32 w kd a b (BitVec.ofNat 32 (old.getD j 0)).toInt
    else (outFp32 w kd a b (decodeNum 0x10 (old.getD j 0)), false)
  let _ ← (outs.mapIdx fun j o => (j, o)).mapM fun p => El.putElem c d 0 (d.n + p.1) p.2.1 false false
  El.change fun m => m.onCore c fun k => if outs.any (·.2) then { k with ovf := true } else k
  El.advance c d t0

/-! ### drain (R221, R222) -/

/-- The value of a TRF word that a `drain` reads: FP32, or an exact integer (R222). -/
def drainValue (w : Word) (b : Nat) : Num := if Fw.afmt w = 0x06 then Num.ofInt (BitVec.ofNat 32 b).toInt else decodeNum 0x10 b

/-- The translation that a command holds for one operand is held for another number too. -/
def Core.tlbAlso (c : Core) (u op also : Nat) : Core :=
  { c with tlb := c.tlb.map fun f => if f.users.contains (u, op) then { f with users := f.users ++ [(u, also)] } else f }

/-- The translations that a command holds for the numbers from `op` on are let go. -/
def Core.tlbDrop (c : Core) (u op : Nat) : Core :=
  { c with tlb := (c.tlb.map fun f => { f with users := f.users.filter fun x => x.1 != u || decide (x.2 < op) }).filter fun f => f.usable || !f.users.isEmpty }

/-- The place of element `n` of a destination of a drain, translated for a user's number (R177). -/
def El.placeOf (c : Nat) (d : Cmd) (op n user : Nat) : El (Operand × (Nat × Option Word) × Nat) :=
  match d.ops[op]? with
  | none => throw Stop.hold
  | some o => do
    let t ← El.target c d user o.nest.space (o.nest.addr n) o.nest.esz
    pure (o, t, n)

/-- The number for which the translation of an MX block's element is held until the block is written. -/
def mxUser (n : Nat) : Nat := 64 + n % 32

/-- A whole MX block is converted and written, elements first and then its scale byte (R204, R222). A translation that fails again now is a fault of its own
element (R10), and one of the scale byte a fault of the block's last element (log entry 91). -/
def El.mxOut (c : Nat) (d : Cmd) (vals : List Nat) : El Unit := do
  let blk := d.n / 32
  let r := mxBlock (Fw.ofmt d.fw) (vals.map (drainValue d.fw))
  let es ← (List.range 32).mapM fun i => El.atPos (32 * blk + i) (El.placeOf c d 0 (32 * blk + i) (mxUser i))
  let s ← El.placeOf c d 1 blk 1
  El.change fun m => (((es.zip r.2) ++ [(s, r.1)]).foldl (fun m p =>
    m.put c d p.1.1.nest.space p.1.2.1 (p.1.1.nest.addr p.1.2.2) p.1.1.nest.esz p.2 false false) m).onCore c fun k => k.tlbDrop d.uid 64

/-- One element of a `drain` with MX = 1: its destination's page is translated at the element (R10, R159) and held until its block is written. -/
def elDrainMx (c : Nat) (d : Cmd) : El Unit := do
  El.chaseElem c d 2 d.n
  El.chaseElem c d 0 d.n
  if d.n % 32 = 31 then El.chaseElem c d 1 (d.n / 32)
  let v ← El.take c d 2 d.n
  let _ ← El.placeOf c d 0 d.n 0
  El.change fun m => m.onCore c fun k => k.tlbAlso d.uid 0 (mxUser d.n)
  let acc := d.acc ++ [BitVec.ofNat 64 v]
  if d.n % 32 = 31 then
    El.mxOut c d (acc.map (·.toNat))
    El.advanceWith c d []
  else El.advanceWith c d acc

/-- One element of a `drain` with MX = 0. -/
def elDrainPlain (c : Nat) (d : Cmd) : El Unit := do
  let w := d.fw
  El.chaseElem c d 1 d.n
  El.chaseElem c d 0 d.n
  El.chaseSides c d 2
  let v := drainValue w (← El.take c d 1 d.n)
  let it := (d.ops[0]?.map (·.nest.iter d.n)).getD []
  let sc := d.regions.headD 0
  let out ← if Fw.group w = 0 then pure (convert (Fw.ofmt w) v)
    else if sc = 0 then pure (quant (Fw.ofmt w) v (Num.ofInt 1) 0)
    else do
      let s ← El.scale c d sc (it.getD 0 0 / Fw.size w) (it.getD 1 0)
      pure (quant (Fw.ofmt w) v (decodeNum (RegionReg.fmt sc) s) 0)
  El.putElem c d 0 d.n out false false
  El.advance c d 1

/-- One element of a `drain`. -/
def elDrain (c : Nat) (d : Cmd) : El Unit := if d.mxDrain then elDrainMx c d else elDrainPlain c d

/-! ### tzero and tcopy (R223, R224) -/

/-- One element of `tzero` with STAT = 0 (R223). -/
def elTzero (c : Nat) (d : Cmd) : El Unit := do
  El.chaseElem c d 0 d.n
  El.putElem c d 0 d.n 0 false false
  El.advance c d 1

/-- `tzero` with STAT = 1: the status word, and OVF cleared (R223). -/
def elTzeroStat (c : Nat) (d : Cmd) : El Unit := do
  El.chaseElem c d 0 d.n
  let ovf := ((← El.now).core c).ovf
  El.putElem c d 0 d.n (if ovf then 1 else 0) false false
  El.change fun m => m.onCore c fun k => { k with ovf := false }
  El.advance c d 1

/-- One element of `tcopy`: the word moves with its poison mark (R224). -/
def elTcopy (c : Nat) (d : Cmd) : El Unit := do
  El.chaseElem c d 0 d.n
  El.chaseElem c d 1 d.n
  let g ← El.readElem c d 1 d.n
  El.putElem c d 0 d.n g.bits g.poison.isSome false
  El.advance c d 1

/-- STAT of a `tzero` record (R216). -/
def Cmd.stat (d : Cmd) : Bool := d.mod / 4 % 2 == 1

/-- `seat` (R218). -/
def execSeat (c : CoreId) (u : Nat) : State → Result := lift fun m => m.engineStep c.toNat u (Cmd.isOpc 0x20) (elSeat false)

/-- `seats` (R219). -/
def execSeats (c : CoreId) (u : Nat) : State → Result := lift fun m => m.engineStep c.toNat u (Cmd.isOpc 0x21) (elSeat true)

/-- `mmul` (R220). -/
def execMmul (c : CoreId) (u : Nat) : State → Result := lift fun m => m.engineStep c.toNat u (Cmd.isOpc 0x22) elMmul

/-- `drain` (R221, R222). -/
def execDrain (c : CoreId) (u : Nat) : State → Result := lift fun m => m.engineStep c.toNat u (Cmd.isOpc 0x23) elDrain

/-- `tzero` with STAT = 0 (R223). -/
def execTzero (c : CoreId) (u : Nat) : State → Result := lift fun m => m.engineStep c.toNat u (fun d => d.isOpc 0x24 && !d.stat) elTzero

/-- `tzero` with STAT = 1 (R223). -/
def execTzeroStat (c : CoreId) (u : Nat) : State → Result := lift fun m => m.engineStep c.toNat u (fun d => d.isOpc 0x24 && d.stat) elTzeroStat

/-- `tcopy` (R224). -/
def execTcopy (c : CoreId) (u : Nat) : State → Result := lift fun m => m.engineStep c.toNat u (Cmd.isOpc 0x25) elTcopy

end Sys2Proof.Machine
end

