-- ==== Sys2Proof/Machine/Sf.lean ====
section
/-! DEFINITION. The special functions of `vsf` (R208): the exact value rounded once to FP32. Roots and reciprocals are rounded from integer roots with a
sticky bit; the others from rational bounds on the exact value, refined until both bounds round alike. -/

namespace Sys2Proof.Machine.Sf

/-! ### Integer square root -/

/-- One bit of the square root of n: keeps the trial root when its square fits. -/
def isqrtBits (n : Nat) : Nat → Nat → Nat
  | 0, r => r
  | b + 1, r => isqrtBits n b (if (r + 2 ^ b) * (r + 2 ^ b) ≤ n then r + 2 ^ b else r)

/-- floor(√n). -/
def isqrt (n : Nat) : Nat := isqrtBits n (Nat.log2 n / 2 + 1) 0

/-- s, with a last half bit set unless the value is exact: rounds like the value that s truncates. -/
def sticky (s : Nat) (exact : Bool) (e : Int) : Num := Num.real (Ex.dyadic (2 * s + (if exact then 0 else 1)) (e - 1))

/-- x = m × 2^e with an even exponent. -/
def evenParts (x : Ex) : Nat × Int := if x.e % 2 = 0 then (x.n.natAbs, x.e) else (2 * x.n.natAbs, x.e - 1)

/-- √x for x > 0, before its one rounding. -/
def sqrtNum (x : Ex) : Num :=
  let p := evenParts x
  let n := p.1 * 2 ^ 128
  let s := isqrt n
  sticky s (s * s == n) (p.2 / 2 - 64)

/-- 1/√x for x > 0, before its one rounding. -/
def rsqrtNum (x : Ex) : Num :=
  let p := evenParts x
  let s := isqrt (2 ^ 320 / p.1)
  sticky s (s * s * p.1 == 2 ^ 320) (-(p.2 / 2) - 160)

/-! ### Bounds -/

/-- A real between two multiples of 2^−p, for a p that is clear from the context. -/
structure Ival where
  lo : Int
  hi : Int

/-- Rounded down to a multiple of 2^−p. -/
def fixDown (x : Ex) (p : Nat) : Int := (x.n * Ex.pow2 (x.e + p)).fdiv (x.d * Ex.pow2 (-(x.e + p)) : Nat)

/-- Bounds of an exact real. -/
def Ival.of (x : Ex) (p : Nat) : Ival := let l := fixDown x p
  ⟨l, if (Ex.dyadic l (-p)).eq x then l else l + 1⟩

/-- floor and ceiling of a product of nonnegative values. -/
def Ival.mul (a b : Ival) (p : Nat) : Ival := ⟨a.lo * b.lo / 2 ^ p, a.hi * b.hi / 2 ^ p + 1⟩

/-- a / b for nonnegative a and positive b. -/
def Ival.div (a b : Ival) (p : Nat) : Ival := ⟨a.lo * 2 ^ p / b.hi, a.hi * 2 ^ p / max 1 b.lo + 1⟩

/-- Terms of the exponential series from term k on: partial sums below and above. -/
def expTerms (r : Ival) (p : Nat) : Nat → Nat → Ival → Ival → Ival
  | 0, _, t, s => ⟨s.lo, s.hi + 2 * t.hi⟩
  | n + 1, k, t, s =>
    let t' : Ival := ⟨(Ival.mul t r p).lo / k, (Ival.mul t r p).hi / k + 1⟩
    expTerms r p n (k + 1) t' ⟨s.lo + t'.lo, s.hi + t'.hi⟩

/-- e^r for 0 ≤ r ≤ 1. -/
def exp01 (r : Ival) (p : Nat) : Ival := expTerms r p (p / 4 + 20) 1 ⟨2 ^ p, 2 ^ p⟩ ⟨2 ^ p, 2 ^ p⟩

def squareTimes (p : Nat) : Nat → Ival → Ival
  | 0, a => a
  | n + 1, a => squareTimes p n (Ival.mul a a p)

/-- e^x for 0 ≤ x ≤ 256. -/
def expPos (x : Ex) (p : Nat) : Ival := squareTimes p 8 (exp01 (Ival.of (x.scale (-8)) p) p)

/-- Terms of the series of atanh: `pw` is z^(2k+1). -/
def atanhTerms (zz : Ival) (p : Nat) : Nat → Nat → Ival → Ival → Ival
  | 0, _, pw, s => ⟨s.lo, s.hi + 2 * pw.hi⟩
  | n + 1, k, pw, s =>
    let pw' := Ival.mul pw zz p
    atanhTerms zz p n (k + 1) pw' ⟨s.lo + pw'.lo / (2 * k + 1), s.hi + pw'.hi / (2 * k + 1) + 1⟩

/-- atanh z for 0 ≤ z ≤ 1/3. -/
def atanh (z : Ex) (p : Nat) : Ival := let i := Ival.of z p
  atanhTerms (Ival.mul i i p) p (p / 3 + 10) 1 i i

/-- ln 2 = 2 atanh(1/3). -/
def ln2 (p : Nat) : Ival := let a := atanh ⟨1, 3, 0⟩ p
  ⟨2 * a.lo, 2 * a.hi⟩

/-- The arctangent series of 1/n, alternating: `pw` is n^−(2k+1) rounded down. -/
def atanInvTerms (n : Nat) (p : Nat) : Nat → Nat → Int → Int → Int
  | 0, _, _, s => s
  | f + 1, k, pw, s =>
    let pw' := pw / (n * n)
    atanInvTerms n p f (k + 1) pw' (if k % 2 = 1 then s - pw' / (2 * k + 1) else s + pw' / (2 * k + 1))

/-- Bounds of atan(1/n). -/
def atanInv (n p : Nat) : Ival :=
  let s := atanInvTerms n p (p / 2 + 10) 1 (2 ^ p / n : Nat) (2 ^ p / n : Nat)
  ⟨s - 4 * p - 60, s + 4 * p + 60⟩

/-- π by Machin's formula. -/
def pi (p : Nat) : Ival := let a := atanInv 5 p
  let b := atanInv 239 p
  ⟨16 * a.lo - 4 * b.hi, 16 * a.hi - 4 * b.lo⟩

/-- Terms of Σ 2^n x^(2n+1) / (2n+1)!! from term n on. -/
def erfTerms (xx : Ival) (p : Nat) : Nat → Nat → Ival → Ival → Ival
  | 0, _, t, s => ⟨s.lo, s.hi + 2 * t.hi⟩
  | f + 1, n, t, s =>
    let t' : Ival := ⟨2 * (Ival.mul t xx p).lo / (2 * n + 1), 2 * (Ival.mul t xx p).hi / (2 * n + 1) + 1⟩
    erfTerms xx p f (n + 1) t' ⟨s.lo + t'.lo, s.hi + t'.hi⟩

/-- erf x for 0 < x < 4: 2/√π × e^(−x²) × Σ 2^n x^(2n+1) / (2n+1)!!. -/
def erfPos (x : Ex) (p : Nat) : Ival :=
  let i := Ival.of x p
  let s := erfTerms (Ival.mul i i p) p (p + 60) 1 i i
  let q := pi p
  let root : Ival := ⟨isqrt (q.lo.toNat * 2 ^ p), isqrt (q.hi.toNat * 2 ^ p) + 1⟩
  Ival.div (Ival.div ⟨2 * s.lo, 2 * s.hi⟩ (expPos (x.mul x) p) p) root p

/-! ### Rounding from bounds -/

/-- The FP32 encoding on which both bounds agree, or at the last precision that of the lower bound. -/
def settle (f : Nat → Ival) (neg : Bool) (extra : Int) (small : Nat) : List Nat → Nat
  | [] => 0
  | p :: ps =>
    let i := f (p + small)
    let r (v : Int) : Nat := rne32 (Num.real (Ex.dyadic (if neg then -v else v) (extra - (p + small : Nat))))
    if r i.lo = r i.hi ∨ ps = [] then r i.lo else settle f neg extra small ps

/-- The precisions tried. -/
def ladder : List Nat := [80, 160, 320, 640]

/-- Extra bits for a small argument. -/
def smallBits (x : Ex) : Nat := 2 * (-x.log2).toNat

/-- The integer part. -/
def floorEx (x : Ex) : Int := fixDown x 0

/-- 2^x for a finite x that is no integer, −152 < x < 129. -/
def exp2Bits (x : Ex) : Nat :=
  let n := floorEx x
  let f := x.sub (Ex.ofInt n)
  settle (fun p => exp01 (Ival.mul (Ival.of f p) (ln2 p) p) p) false n 0 ladder

/-- log2 of x > 0, no power of two. -/
def log2Bits (x : Ex) : Nat :=
  let e := x.log2
  let m := x.scale (-e)
  let z := (m.sub (Ex.ofInt 1)).div (m.add (Ex.ofInt 1))
  let bounds (p : Nat) : Ival := let l := Ival.div (let a := atanh z p; ⟨2 * a.lo, 2 * a.hi⟩) (ln2 p) p
    ⟨e * 2 ^ p + l.lo, e * 2 ^ p + l.hi⟩
  settle bounds false 0 0 ladder

/-- tanh |x| for 0 < |x| < 16, with the sign. -/
def tanhBits (neg : Bool) (x : Ex) : Nat :=
  let bounds (p : Nat) : Ival := let t := expPos (x.scale 1) p
    Ival.div ⟨t.lo - 2 ^ p, t.hi - 2 ^ p⟩ ⟨t.lo + 2 ^ p, t.hi + 2 ^ p⟩ p
  settle bounds neg 0 (smallBits x) ladder

/-- 1 / (1 + e^−x) for 0 < |x| < 128. -/
def sigmoidBits (neg : Bool) (x : Ex) : Nat :=
  let bounds (p : Nat) : Ival := let t := expPos x p
    Ival.div (if neg then ⟨2 ^ p, 2 ^ p⟩ else t) ⟨t.lo + 2 ^ p, t.hi + 2 ^ p⟩ p
  settle bounds false 0 (if neg then 192 else 0) ladder

/-- erf |x| for 0 < |x| < 4, with the sign. -/
def erfBits (neg : Bool) (x : Ex) : Nat := settle (erfPos x) neg 0 (smallBits x) ladder

/-! ### The functions (R208) -/

/-- x is an integer. -/
def isInt (x : Ex) : Bool := x.multiple 0

/-- |x| is a power of two. -/
def isPow2 (x : Ex) : Bool := x.abs.eq (Ex.dyadic 1 x.log2)

/-- ±1.0. -/
def one (neg : Bool) : Nat := if neg then 0xBF800000 else 0x3F800000

/-- |x| < 2^k. -/
def less2 (x : Ex) (k : Int) : Bool := x.isZero || decide (x.log2 < k)

/-- `vsf` of an FP32 value, by its function code: an FP32 encoding. -/
def apply (fn : Nat) (v : Num) : Nat :=
  match v with
  | .nan => 0x7FC00000
  | .inf s =>
    (match fn with
      | 0 => if s then 0 else 0x7F800000
      | 1 => if s then 0x7FC00000 else 0x7F800000
      | 2 => if s then 0x80000000 else 0
      | 3 => if s then 0x7FC00000 else 0
      | 4 => if s then 0x7FC00000 else 0x7F800000
      | 5 => one s
      | 6 => if s then 0 else one false
      | _ => one s)
  | .fin s x =>
    let sgn := (Num.fin s x).sign
    if x.isZero then
      (match fn with
        | 0 => one false
        | 1 => 0xFF800000
        | 2 | 3 => if sgn then 0xFF800000 else 0x7F800000
        | 6 => 0x3F000000
        | _ => if sgn then 0x80000000 else 0)
    else
      (match fn with
        | 0 =>
          if isInt x && less2 x 9 then rne32 (Num.real (Ex.dyadic 1 x.rneInt))
          else if !less2 x 8 || x.lt (Ex.ofInt (-152)) || !x.lt (Ex.ofInt 129) then (if sgn then 0 else 0x7F800000)
          else exp2Bits x
        | 1 => if sgn then 0x7FC00000 else if isPow2 x then rne32 (Num.ofInt x.log2) else log2Bits x
        | 2 => rne32 (Num.real ((Ex.ofInt 1).div x))
        | 3 => if sgn then 0x7FC00000 else rne32 (rsqrtNum x)
        | 4 => if sgn then 0x7FC00000 else rne32 (sqrtNum x)
        | 5 => if less2 x 4 then tanhBits sgn x.abs else one sgn
        | 6 => if less2 x 7 then sigmoidBits sgn x.abs else (if sgn then 0 else one false)
        | _ => if less2 x 2 then erfBits sgn x.abs else one sgn)

end Sys2Proof.Machine.Sf
end

