-- ==== Sys2Proof/Machine/Vector.lean ====
section
/-! DEFINITION. The vector engine (14_vector_isa; R225-R227): region-register instructions, the issue of VQ instructions with their checks (R279-R285), and
their elements (R288-R306). -/

namespace Sys2Proof.Machine

/-! ### Region registers written and read by the control core (R276-R278, R289) -/

/-- The value of the region register a name reaches for the current context (R274, R275). -/
def Mach.regionOf (m : Mach) (v : VReg) : Check (BitVec 128) := m.resolve m.cid v.toNat m.cur.rrb.toNat m.instrWord

/-- Writes a region register whole, which clears its mark (R247, R278). -/
def Mach.writeRegion (m : Mach) (v : VReg) (x : BitVec 128) : Mach :=
  let p := physReg v.toNat m.cur.rrb.toNat
  (m.setRegion m.cid p x).onDev fun d => d.cleanUnit (localPa m.cid (0x200000 + 16 * p))

/-- A guarded long form: with a false guard it only issues (R87, R104). -/
def Mach.guarded8 (m : Mach) (g : LGuard) (body : Mach → Mach) : Mach := if m.cur.lguard g then body m else m.fin8 id

/-- A checked value, or the trap. -/
def Mach.checked {α : Type} (m : Mach) (c : Check α) (f : α → Mach) : Mach :=
  match c with
  | .error e => m.trap e.1 e.2
  | .ok v => f v

/-- Replaces `n` bits from bit `lo`. -/
def setField (v : BitVec 128) (lo n : Nat) (x : Nat) : BitVec 128 :=
  (v &&& ~~~((BitVec.ofNat 128 (2 ^ n - 1)) <<< lo)) ||| (BitVec.ofNat 128 (x % 2 ^ n) <<< lo)

/-- `vset`'s new value; none out of the range of R277. -/
def fieldSet (f : VField) (v : BitVec 128) (x : Word) : Option (BitVec 128) :=
  match f with
  | .base => if x.toNat < 2 ^ 20 then some (setField v 0 20 x.toNat) else none
  | .peer => if x.toNat < 64 then some (setField v 20 6 x.toNat) else none
  | .count => if x.toNat < 2 ^ 16 then some (setField v 27 16 x.toNat) else none
  | .stride => if -(2 ^ 23) ≤ x.toInt ∧ x.toInt < 2 ^ 23 then some (setField v 43 24 x.toNat) else none
  | .fmt => if x.toNat < 32 ∧ (fmtBits x.toNat).isSome then some (setField v 67 5 x.toNat) else none

/-- `vget`'s value (R277, R278). -/
def fieldGet (f : VField) (v : BitVec 128) : Word :=
  match f with
  | .base => BitVec.ofNat 64 (RegionReg.base v)
  | .peer => (v.extractLsb' 20 6).zeroExtend 64
  | .count => BitVec.ofNat 64 (RegionReg.count v)
  | .stride => BitVec.ofInt 64 (RegionReg.stride v)
  | .fmt => BitVec.ofNat 64 (RegionReg.fmt v)

/-- `vset` (R278). -/
def execVset (f : VField) (vd va : VReg) (xc : Reg) (g : LGuard) : State → Result :=
  lift fun m => m.guarded8 g fun m => m.checked (m.regionOf va) fun v =>
    match fieldSet f v (m.cur.reg xc) with
    | none => m.illegal
    | some w => (m.writeRegion vd w).fin8 id

/-- `vget` (R278): latency 1. -/
def execVget (f : VField) (xd : Reg) (va : VReg) (g : LGuard) : State → Result :=
  lift fun m => m.guarded8 g fun m => m.checked (m.regionOf va) fun v => m.finWrite xd (fieldGet f v) 1 (m.cur.pc + 8) id

/-- `vaddb` (R278). -/
def execVaddb (vd va : VReg) (xc : Reg) (g : LGuard) : State → Result :=
  lift fun m => m.guarded8 g fun m => m.checked (m.regionOf va) fun v =>
    let b : Int := RegionReg.base v + (m.cur.reg xc).toInt
    if b < 0 ∨ 2 ^ 20 ≤ b then m.illegal else (m.writeRegion vd (setField v 0 20 b.toNat)).fin8 id

/-- `vcopy` (R278). -/
def execVcopy (vd va : VReg) (g : LGuard) : State → Result :=
  lift fun m => m.guarded8 g fun m => m.checked (m.regionOf va) fun v => (m.writeRegion vd v).fin8 id

/-- `vpred` (R289). -/
def execVpred (pd : BitVec 3) (xc : Reg) (va : VReg) (g : LGuard) : State → Result :=
  lift fun m => m.guarded8 g fun m => m.checked (m.regionOf va) fun v =>
    let n := min (m.cur.reg xc).toNat (RegionReg.count v)
    m.fin8 fun x => { x.setPred pd (decide (n < RegionReg.count v)) with plen := BitVec.ofNat 16 n }

/-! ### What a VQ instruction names (R290) -/

/-- How the second region of an instruction is walked (R280, R297, R299). -/
inductive Second where
  | absent
  | elementwise
  | bounds
  | groups (g : Nat)
  deriving DecidableEq, Repr

/-- The registers of a VQ instruction: destination, first source, second source, scalar. -/
structure Roles where
  d : Option VReg
  a : Option VReg
  b : Option VReg
  second : Second
  x : Option Reg
  pl : Bool
  g : LGuard

/-- Roles of an instruction with a second operand that is a region or a scalar (R281). -/
def Roles.binary (vd va : VReg) (b : VOperand) (h : VHead) : Roles :=
  match b with
  | .reg v => ⟨some vd, some va, some v, .elementwise, none, h.pl, h.g⟩
  | .scalar xc => ⟨some vd, some va, none, .absent, some xc, h.pl, h.g⟩

def Roles.unary (vd va : VReg) (h : VHead) : Roles := ⟨some vd, some va, none, .absent, none, h.pl, h.g⟩

def Roles.reduce (va : VReg) (h : VHead) : Roles := ⟨none, some va, none, .absent, none, h.pl, h.g⟩

def Roles.scaled (vd va vb : VReg) (xc : Reg) (grp : BitVec 2) (h : VHead) : Roles :=
  ⟨some vd, some va, some vb, if grp = 0 then .elementwise else .groups (16 * 2 ^ grp.toNat), some xc, h.pl, h.g⟩

/-- The roles of an instruction of this chapter that walks regions. -/
def rolesOf : Instr → Option Roles
  | .vadd vd va b h | .vsub vd va b h | .vmul vd va b h | .vfma vd va b h | .vdiv vd va b h | .vmin vd va b h | .vmax vd va b h
  | .vand vd va b h | .vor vd va b h | .vxor vd va b h | .vshl vd va b h | .vshr vd va b h | .vsar vd va b h | .vcmp vd va b _ h
  | .vsel vd va b h => some (.binary vd va b h)
  | .vabs vd va h | .vneg vd va h | .vnot vd va h | .vcvt vd va h | .vsf vd va _ h | .vmove vd va h | .vscan vd va _ h => some (.unary vd va h)
  | .vquant vd va vb xc grp h | .vdeq vd va vb xc grp h => some (.scaled vd va vb xc grp h)
  | .vfill vd xc h => some ⟨some vd, none, none, .absent, some xc, h.pl, h.g⟩
  | .viota vd xc _ h => some ⟨some vd, none, none, .absent, some xc, h.pl, h.g⟩
  | .vclip vd va vb h => some ⟨some vd, some va, some vb, .bounds, none, h.pl, h.g⟩
  | .vzcnt va h | .vrsum va h | .vrmax va h | .vrmin va h => some (.reduce va h)
  | .vperm vd va _ g => some ⟨some vd, some va, none, .absent, none, false, g⟩
  | .vpset va _ g => some ⟨none, some va, none, .absent, none, false, g⟩
  | _ => none

/-- The instruction delivers to the RQ (R22). -/
def toRq : Instr → Bool
  | .vzcnt .. | .vrsum .. | .vrmax .. | .vrmin .. => true
  | .squeryQuant .. | .squeryRank .. | .squeryCount .. | .squeryEntry .. | .squeryEst .. => true
  | _ => false

/-- The formats that an instruction accepts (R292, R293, R296-R298, R303, R304), given those of vd, va and vb. -/
def formatsOk (i : Instr) (fd fa : Nat) (fb : Option Nat) : Bool :=
  match i with
  | .vand .. | .vor .. | .vxor .. => fa == fd && (fb.all (· == fd))
  | .vshl .. | .vshr .. | .vsar .. => fmtInt fd && fa == fd && fb.all fmtInt
  | .vnot .. | .vmove .. | .vperm .. => fa == fd
  | .vquant .. => decide (fd ≤ 5)
  | .vdeq .. => decide (fa ≤ 5)
  | .vsf .. => fa != 0x06 && fa != 0x07
  | .vpset .. => fa == 0x03
  | _ => true

/-- What a VQ instruction's issue resolves to. -/
structure VBuilt where
  conds : List (Check Unit)
  ops : List Operand
  d : BitVec 128
  a : BitVec 128
  b : BitVec 128
  e : Nat

/-- A region operand of `n` elements with the checks of R282. -/
def Mach.vop (m : Mach) (v : BitVec 128) (n : Nat) (bcast dst whole : Bool) (align : Nat) : List (Check Unit) × List Operand :=
  let iw := m.instrWord
  let base := BitVec.ofNat 64 (RegionReg.base v)
  let d0 := regionNest m.cid v n
  let d := if bcast then { d0 with strides := [0, 0, 0, 0] } else d0
  let o := Operand.of d dst whole
  let peer := regionCore m.cid v
  ([need ((fmtBits (RegionReg.fmt v)).isSome) Cause.illegal iw,
    need (!dst || (!RegionReg.remote v && (decide (n ≤ 1) || decide (0 < RegionReg.stride v)))) Cause.illegal iw,
    need (RegionReg.base v % max align (fmtAlign (RegionReg.fmt v)) == 0) Cause.misalign base,
    need (n == 0 || (decide (0 ≤ o.lo) && decide (o.hi ≤ 0xC0000))) Cause.access base,
    need (peer == m.cid || (m.view m.cid peer).runs m.here.job) Cause.access (windowWord peer)], if n = 0 then [] else [o])

/-- The conditions and operands of an instruction, once its region registers are resolved (R279-R282, R297, R299, R303, R304). -/
def Mach.vbuild (m : Mach) (i : Instr) (r : Roles) (d a b : Option (BitVec 128)) : VBuilt :=
  let iw := m.instrWord
  let lead := (d.orElse fun _ => a).getD 0
  let count := RegionReg.count lead
  let perm := match i with | .vperm .. => true | _ => false
  let pset := match i with | .vpset .. => true | _ => false
  let e := if pset then 64 else if r.pl then min count m.cur.plen.toNat else count
  let fmtOf (v : Option (BitVec 128)) : Nat := (v.map RegionReg.fmt).getD 0x10
  let align := if perm then 128 else if pset then 64 else 1
  let srcOk (v : BitVec 128) : Check Unit := need (RegionReg.count v == count || RegionReg.count v == 1) Cause.illegal iw
  let src (v : BitVec 128) : List (Check Unit) × List Operand :=
    let o := m.vop v e (RegionReg.count v == 1 && count != 1) false false align
    (srcOk v :: o.1, o.2)
  let od := match d with | none => ([], []) | some v => m.vop v e false true false align
  let oa := match a with
    | none => ([], [])
    | some v => if pset then (let o := m.vop v 64 false false false align
                              (need (decide (64 ≤ RegionReg.count v) && RegionReg.stride v == 1) Cause.illegal iw :: o.1, o.2))
      else src v
  let ob := match b with
    | none => ([], [])
    | some v => match r.second with
      | .absent => ([], [])
      | .elementwise => src v
      | .bounds => let o := m.vop v (if e = 0 then 0 else 2) false false true 1
        (need (RegionReg.count v == 2) Cause.illegal iw :: o.1, o.2)
      | .groups g => let o := m.vop v ((e + g - 1) / g) false false true 1
        (need (decide ((count + g - 1) / g ≤ RegionReg.count v)) Cause.illegal iw :: o.1, o.2)
  let chunkOk (v : Option (BitVec 128)) : Bool := match v with
    | none => true
    | some v => RegionReg.stride v == 1 && RegionReg.count v * fmtNibs (RegionReg.fmt v) % 256 == 0
  { conds := [need (formatsOk i (fmtOf d) (fmtOf a) (b.map RegionReg.fmt)) Cause.illegal iw, need (!perm || (chunkOk d && chunkOk a)) Cause.illegal iw]
             ++ od.1 ++ oa.1 ++ ob.1
    ops := od.2 ++ oa.2 ++ ob.2, d := d.getD 0, a := a.getD 0, b := b.getD 0, e := e }

/-- One level of the tree of `vrsum` (R306); `n` bounds the length. -/
def sumPairs : List Num → List Num
  | a :: b :: l => round32 (a.add b) :: sumPairs l
  | l => l

/-- The tree of R306: at most `n` levels. -/
def sumTree : Nat → List Num → Num
  | 0, l => l.headD Num.zero
  | n + 1, l => if l.length ≤ 1 then l.headD Num.zero else sumTree n (sumPairs l)

/-- The result of a reduction over the values kept (R301, R305): encodings of va's elements in `acc`, or word flags for `vzcnt`. -/
def reduceResult (i : Instr) (fa : Nat) (acc : List Word) : Word :=
  let nums := acc.map fun v => decodeNum fa v.toNat
  let ints := acc.map fun v => intValue fa v.toNat
  let nan := nums.any Num.isNan
  match i with
  | .vzcnt .. => BitVec.ofNat 64 (acc.length * 2 ^ 32 + (acc.filter fun v => v.getLsbD 0).length)
  | .vrsum .. =>
    if fmtInt fa then BitVec.ofInt 64 (ints.foldl (· + ·) 0)
    else if nan then 0x7FC00000 else BitVec.ofNat 64 (rne32 (sumTree 17 (nums.map round32)))
  | .vrmax .. =>
    if fmtInt fa then (match ints with
      | [] => if fmtSigned fa then 0x8000000000000000 else 0
      | v :: l => BitVec.ofInt 64 (l.foldl max v))
    else if nan then 0x7FC00000 else BitVec.ofNat 64 (rne32 (nums.foldl Num.max (.inf true)))
  | _ =>
    if fmtInt fa then (match ints with
      | [] => if fmtSigned fa then 0x7FFFFFFFFFFFFFFF else 0xFFFFFFFFFFFFFFFF
      | v :: l => BitVec.ofInt 64 (l.foldl min v))
    else if nan then 0x7FC00000 else BitVec.ofNat 64 (rne32 (nums.foldl Num.min (.inf false)))

/-- The command of a VQ instruction; a reduction of no elements has its result already (R305). -/
def vecCmd (m : Mach) (i : Instr) (b : VBuilt) (x : Word) (rq null : Bool) : Cmd :=
  let u := m.fresh
  { (mkCmd m u .vq (decodeRecord 0) (some m.kid) none { Built.empty with ops := b.ops, total := b.e } null) with
    work := .vec i b.d b.a b.b x b.e (if rq then some u else none)
    acc := if rq && b.e == 0 then [reduceResult i (RegionReg.fmt b.a) []] else [] }

/-- The entry that a command fills. -/
def Cmd.rq? (d : Cmd) : Option Nat := match d.work with | .vec _ _ _ _ _ _ rq => rq | .record _ => none

/-- A VQ command enters VQ when there is room, and its instruction completes with its RQ entry allocated (R282, R22). -/
def Mach.vecEnter (m : Mach) (d : Cmd) : Mach :=
  if m.here.queueFull .vq then m.onCur fun x => { x with wait := some (.enq d) }
  else
    let now := m.dev.now
    (m.onHere fun c => c.append d (some c.phase) now).fin8 fun x =>
      let x := { x with wait := none }
      match d.rq? with | some u => x.rqAlloc u | none => x

/-- The checks have been made: the lowest failed cause, or the command enters (R282, R285). The checks of formats, counts, bases, footprints and peers are one
step; the limit of the return queue and then `REGION_ALIAS` come after it (log entry 79). -/
def Mach.vecChecked (m : Mach) (i : Instr) (b : VBuilt) (x : Word) (null : Bool) : Mach :=
  let rq := toRq i && !null
  match lowest b.conds with
  | some (cause, tval) => m.trap cause tval
  | none =>
    if rq && m.cur.rqFull then m.trap Cause.illegal (limitTval 0x11)
    else if !null && aliasBroken b.ops then m.trap Cause.regionAlias (aliasBase b.ops)
    else (m.vecEnter (vecCmd m i b x rq null)).bump

/-- A register that an instruction names, resolved (R275); none where it names none. -/
def Mach.named (m : Mach) (v : Option VReg) : Check (Option (BitVec 128)) :=
  match v with
  | none => .ok none
  | some v => match m.regionOf v with | .ok w => .ok (some w) | .error e => .error e

/-- A failed resolution as a condition. -/
def Check.unit {α : Type} (c : Check α) : Check Unit := match c with | .ok _ => .ok () | .error e => .error e

/-- The issue of a VQ instruction (R282, R285). -/
def Mach.vecIssue (m : Mach) (i : Instr) : Mach :=
  match rolesOf i with
  | none => m
  | some r =>
    let live := m.cur.lguard r.g
    if !live && !m.here.fixed then m.fin8 id
    else match m.cur.wait with
      | some (.enq d) => m.vecEnter d
      | _ =>
        let d := m.named r.d
        let a := m.named r.a
        let b := m.named r.b
        match d, a, b with
        | .ok d, .ok a, .ok b =>
          let x := match r.x with | some x => m.cur.reg x | none => 0
          m.vecChecked i (m.vbuild i r d a b) x (!live)
        | d, a, b => match lowest [Check.unit d, Check.unit a, Check.unit b] with
          | some e => m.trap e.1 e.2
          | none => m

/-! ### TRF lines (R226, R227) -/

/-- The word offset in the TRF of position p of a line (R226). -/
def lineWord (dir : LineDir) (n p : Nat) : Nat :=
  match dir with
  | .row => 256 * n + p
  | .col => 256 * p + n
  | .dia => 256 * p + (p + n) % 256
  | .adi => 256 * p + (n + 256 - p) % 256

/-- Positions of a run that come before the line wraps. -/
def lineSplit (dir : LineDir) (n first count : Nat) : Nat :=
  match dir with
  | .row | .col => count
  | .dia => min count (256 - n - first)
  | .adi => min count (n + 1 - first)

/-- A part of a line as a nest over the TRF of a core. -/
def linePart (g : Nat) (dir : LineDir) (n first count : Nat) : Nest :=
  let stride : Int := match dir with | .row => 1 | .col => 256 | .dia => 257 | .adi => 255
  ⟨.core g, 2 * (0x100000 + 4 * lineWord dir n first), 8, [count, 1, 1, 1], [stride, 0, 0, 0], 0⟩

/-- The parts of a line: one, or two where the run wraps. -/
def lineParts (g : Nat) (dir : LineDir) (n first count : Nat) (dst : Bool) : List Operand :=
  let k := lineSplit dir n first count
  if k = 0 ∨ k = count then [Operand.of (linePart g dir n first count) dst false]
  else [Operand.of (linePart g dir n first k) dst false, Operand.of (linePart g dir n (first + k) (count - k)) dst false]

/-- `tload` and `tstore` in a slot (R227): they have no guard. -/
def Mach.lineIssue (m : Mach) (i : Instr) (vb : VReg) (dir : LineDir) (line first : Nat) (store : Bool) : Mach :=
  match m.cur.wait with
  | some (.enq d) => m.vecEnter d
  | _ => m.checked (m.regionOf vb) fun v =>
    let iw := m.instrWord
    let n := RegionReg.count v
    let o := m.vop v n false store false 1
    let parts := lineParts m.cid dir line first n (!store)
    let conds := [need (first + n ≤ 256 && n != 0) Cause.illegal iw, need (!(store && RegionReg.remote v)) Cause.illegal iw] ++ o.1
    m.vecChecked i ⟨conds, if store then o.2 ++ parts else parts.take 1 ++ o.2 ++ parts.drop 1, v, 0, 0, n⟩ 0 false

/-- `tload` (R227). -/
def execTload (vb : VReg) (dir : LineDir) (line first : BitVec 8) : State → Result :=
  lift fun m => m.lineIssue (.tload vb dir line first) vb dir line.toNat first.toNat false

/-- `tstore` (R227). -/
def execTstore (vb : VReg) (dir : LineDir) (line first : BitVec 8) : State → Result :=
  lift fun m => m.lineIssue (.tstore vb dir line first) vb dir line.toNat first.toNat true

/-- Operand and index in it of the line word of iteration k: `op` is the line's first part, the second part is operand 2. -/
def Cmd.lineElem (d : Cmd) (op k : Nat) : Nat × Nat :=
  let n := (d.ops[op]?.map (·.nest.total)).getD 0
  if k < n then (op, k) else (2, k - n)

/-- The core whose storage a VQ command reads is its own, away, or runs an iteration of the job (R286). -/
def El.peer (c g : Nat) : El Unit := do
  let m ← El.now
  El.require (g == c || !m.reachable c g || (m.view c g).runs (m.core c).job) (.fault Cause.access (windowWord g))

/-- The same of an operand. -/
def El.peerOf (c : Nat) (d : Cmd) (op : Nat) : El Unit :=
  match (d.ops[op]?.map fun o => o.nest.space : Option Space) with
  | some (.core g) => El.peer c g
  | _ => pure ()

/-- One word of `tload` or `tstore` (R227): poison moves as for `copyt`. -/
def elLine (store : Bool) (c : Nat) (d : Cmd) : El Unit := do
  let f := match d.work with | .vec _ v _ _ _ _ _ => RegionReg.fmt v | .record _ => 0x10
  let t := d.lineElem (if store then 1 else 0) d.n
  let r := if store then 0 else 1
  El.chaseElem c d t.1 t.2
  El.chaseElem c d r d.n
  if store then
    let g ← El.readElem c d t.1 t.2
    El.putElem c d r d.n (convert f (decodeNum (wideFmt f) g.bits)) g.poison.isSome false
  else
    El.peerOf c d r
    let g ← El.readElem c d r d.n
    El.putElem c d t.1 t.2 (widen f g.bits) g.poison.isSome false
  El.advance c d 1

/-! ### Elementwise results (R291-R300) -/

/-- A scalar second operand (R281), by va's format. -/
def scalarNum (fa : Nat) (x : Word) : Num := decodeNum (wideFmt fa) (x.toNat % 2 ^ 32)

/-- The encoding in a format that a scalar register holds (R191, R292, R295, R296). -/
def scalarBits (f : Nat) (x : Word) : Nat := x.toNat % 2 ^ fmtValueBits f

/-- The shifted pattern (R293): `left`, or right with copies of the top bit when `arith`. -/
def shiftBits (left arith : Bool) (w : Nat) (v : Nat) (n : Int) : Nat :=
  let p := v % 2 ^ w
  let top := arith && decide (2 ^ (w - 1) ≤ p)
  if n < 0 ∨ (w : Int) ≤ n then (if top then 2 ^ w - 1 else 0)
  else if left then p * 2 ^ n.toNat % 2 ^ w
  else p / 2 ^ n.toNat + (if top then (2 ^ n.toNat - 1) * 2 ^ (w - n.toNat) else 0)

/-- A comparison of `vcmp` (R294). -/
def vcompare (cc : VCond) (a b : Num) : Bool :=
  let un := a.isNan || b.isNan
  match cc with
  | .eq => a.eq b
  | .ne => un || !a.eq b
  | .lt => a.lt b
  | .le => !un && !b.lt a
  | .gt => b.lt a
  | .ge => !un && !a.lt b
  | .un => un

/-- The negation of `vneg`: an integer zero stays +0 (R296). -/
def vnegate (fa : Nat) (a : Num) : Num := if fmtInt fa && a.isZero then Num.zero else a.neg

/-- `vclip` (R299): a value equal to a bound is kept. -/
def vclipped (a lo hi : Num) : Num :=
  if a.isNan || lo.isNan || hi.isNan then .nan
  else if hi.lt lo || hi.lt a then hi
  else if a.lt lo then lo
  else a

/-- The result of an elementwise instruction at element `k`: `a`, `b`, `c` are the encodings of va, vb and vd there, `s` the scalar when there is no vb.
None: the element is left unchanged. -/
def vresult (i : Instr) (fd fa fb : Nat) (x : Word) (sc : Bool) (k : Nat) (a b c : Nat) : Option Nat :=
  let va := decodeNum fa a
  let vb := if sc then scalarNum fa x else decodeNum fb b
  let w := fmtValueBits fd
  let bb := if sc then scalarBits fd x else b % 2 ^ w
  let count : Int := if sc then x.toInt else intValue fb b
  match i with
  | .vadd .. => some (convert fd (va.add vb))
  | .vsub .. => some (convert fd (va.sub vb))
  | .vmul .. => some (convert fd (va.mul vb))
  | .vfma .. => some (convert fd ((va.mul vb).add (decodeNum fd c)))
  | .vdiv .. => some (convert fd (va.div vb))
  | .vmin .. => some (convert fd (va.min vb))
  | .vmax .. => some (convert fd (va.max vb))
  | .vand .. => some (a % 2 ^ w &&& bb)
  | .vor .. => some (a % 2 ^ w ||| bb)
  | .vxor .. => some (a % 2 ^ w ^^^ bb)
  | .vshl .. => some (shiftBits true false w a count)
  | .vshr .. => some (shiftBits false false w a count)
  | .vsar .. => some (shiftBits false true w a count)
  | .vcmp _ _ _ cc _ => some (convert fd (Num.ofInt (if vcompare cc va vb then 1 else 0)))
  | .vsel .. => if va.isZero then none else some (if sc then bb else convert fd (decodeNum fb b))
  | .vabs .. => some (convert fd va.abs)
  | .vneg .. => some (convert fd (vnegate fa va))
  | .vnot .. => some (2 ^ w - 1 - a % 2 ^ w)
  | .vcvt .. => some (convert fd va)
  | .vquant .. => some (quant fd va (decodeNum fb b) x.toInt)
  | .vdeq .. => some (convert fd (dequant (intValue fa a) x.toInt (decodeNum fb b)))
  | .vsf _ _ fn _ => some (convert fd (decodeNum 0x10 (Sf.apply fn.toNat (decodeNum 0x10 (convert 0x10 va)))))
  | .vmove .. => some (a % 2 ^ w)
  | .vfill .. => some (scalarBits fd x)
  | .viota _ _ step _ => some (convert fd (Num.ofInt (x.toInt + k * step.toInt)))
  | _ => none

/-- Reads an element of an operand for the vector engine: a remote peer must still run the job (R286). -/
def El.vtake (c : Nat) (d : Cmd) (op n : Nat) : El Nat := do
  El.peerOf c d op
  El.take c d op n

/-- The element of the second operand that iteration k reads (R297). -/
def secondIndex (s : Second) (k : Nat) : Nat := match s with | .groups g => k / g | _ => k

/-- One element of an elementwise instruction: destination operand 0, then the sources. -/
def elElementwise (i : Instr) (r : Roles) (vd va vb : BitVec 128) (x : Word) (c : Nat) (d : Cmd) : El Unit := do
  let k := d.n
  let j := secondIndex r.second k
  let opB := if r.a.isSome then 2 else 1
  El.chaseElem c d 0 k
  if r.a.isSome then El.chaseElem c d 1 k
  if r.b.isSome then El.chaseElem c d opB j
  let a ← if r.a.isSome then El.vtake c d 1 k else pure 0
  let b ← if r.b.isSome then El.vtake c d opB j else pure 0
  let old ← match i with | .vfma .. => El.vtake c d 0 k | _ => pure 0
  match vresult i (RegionReg.fmt vd) (RegionReg.fmt va) (RegionReg.fmt vb) x (r.b.isNone) k a b old with
  | none => pure ()
  | some v => El.putElem c d 0 k v false false
  El.advance c d 1

/-- One element of `vclip`: both bounds are read (R299). -/
def elClip (vd va vb : BitVec 128) (c : Nat) (d : Cmd) : El Unit := do
  El.chaseElem c d 0 d.n
  El.chaseElem c d 1 d.n
  El.chaseElem c d 2 0
  El.chaseElem c d 2 1
  let a ← El.vtake c d 1 d.n
  let lo ← El.vtake c d 2 0
  let hi ← El.vtake c d 2 1
  let f := RegionReg.fmt vb
  El.putElem c d 0 d.n (convert (RegionReg.fmt vd) (vclipped (decodeNum (RegionReg.fmt va) a) (decodeNum f lo) (decodeNum f hi))) false false
  El.advance c d 1

/-- The running value of `vscan` after one more element: an FP32 encoding, or an integer (R300). -/
def scanNext (op : ScanOp) (fa : Nat) (s : Option Word) (a : Nat) : Word :=
  let v := decodeNum fa a
  if fmtInt fa then
    let x := intValue fa a
    match s with
    | none => BitVec.ofInt 64 x
    | some s => BitVec.ofInt 64 (match op with | .add => s.toInt + x | .max => max s.toInt x | .min => min s.toInt x)
  else
    let n := match s with
      | none => v
      | some s => let p := decodeNum 0x10 s.toNat
        (match op with | .add => p.add v | .max => p.max v | .min => p.min v)
    BitVec.ofNat 64 (rne32 n)

/-- One element of `vscan` (R300). -/
def elScan (op : ScanOp) (vd va : BitVec 128) (c : Nat) (d : Cmd) : El Unit := do
  El.chaseElem c d 0 d.n
  El.chaseElem c d 1 d.n
  let fa := RegionReg.fmt va
  let s := scanNext op fa d.acc.head? (← El.vtake c d 1 d.n)
  El.putElem c d 0 d.n (convert (RegionReg.fmt vd) (if fmtInt fa then Num.ofInt s.toInt else decodeNum 0x10 s.toNat)) false false
  El.advanceWith c d [s]

/-! ### Permutation (R302-R304) -/

/-- One switch: lanes lo and hi exchange when its control bit is set (R302). -/
def benesSwitch (w : BitVec 352) (s j : Nat) (l : List Nat) : List Nat :=
  let b := if s ≤ 5 then 5 - s else s - 5
  let lo := j / 2 ^ b * 2 ^ (b + 1) + j % 2 ^ b
  let hi := lo + 2 ^ b
  if w.getLsbD (32 * s + j) then (l.set lo (l.getD hi 0)).set hi (l.getD lo 0) else l

/-- The network on 64 lanes (R302). -/
def benes (w : BitVec 352) (l : List Nat) : List Nat :=
  (List.range 11).foldl (fun l s => (List.range 32).foldl (fun l j => benesSwitch w s j l) l) l

/-- A chunk of elements as 64 lanes of 16 bits, and back: `w` bits per element, 1,024 bits in all (R304). -/
def lanes (w : Nat) (es : List Nat) : List Nat :=
  let v := (es.mapIdx fun i e => e * 2 ^ (w * i)).foldl (· + ·) 0
  (List.range 64).map fun l => v / 2 ^ (16 * l) % 2 ^ 16

def unlanes (w : Nat) (ls : List Nat) : List Nat :=
  let v := (ls.mapIdx fun i e => e * 2 ^ (16 * i)).foldl (· + ·) 0
  (List.range (1024 / w)).map fun k => v / 2 ^ (w * k) % 2 ^ w

/-- One 128-byte chunk of `vperm`. -/
def elPerm (n : Nat) (va : BitVec 128) (c : Nat) (d : Cmd) : El Unit := do
  let w := 4 * fmtNibs (RegionReg.fmt va)
  let k := 1024 / w
  let idx := (List.range k).map (d.n + ·)
  let _ ← idx.mapM fun i => El.chaseElem c d 0 i
  let _ ← idx.mapM fun i => El.chaseElem c d 1 i
  let es ← idx.mapM fun i => El.vtake c d 1 i
  let pcw := (((← El.now).core c).pcw[n]?).getD 0
  let out := unlanes w (benes pcw (lanes w es))
  let _ ← (idx.zip out).mapM fun p => El.putElem c d 0 p.1 (cleanBits (RegionReg.fmt va) p.2) false false
  El.advance c d k

/-- One byte of the image of `vpset` (R303). -/
def elPset (n : Nat) (c : Nat) (d : Cmd) : El Unit := do
  El.chaseElem c d 0 d.n
  let acc := d.acc ++ [BitVec.ofNat 64 (← El.vtake c d 0 d.n)]
  if d.n + 1 = d.total then
    let v := (acc.mapIdx fun i b => b.toNat * 2 ^ (8 * i)).foldl (· + ·) 0
    El.change fun m => m.onCore c fun k => { k with pcw := k.pcw.set n (BitVec.ofNat 352 v) }
  El.advanceWith c d acc

/-! ### Results for the return queue (R301, R305, R306) -/

/-- The words of an element that `vzcnt` has not counted yet, each as 2 × address, plus 1 when its zero flag is set (R301). -/
def Mach.censusWords (m : Mach) (seen : List Word) (lo hi : Nat) : List Word :=
  ((wordsOf lo (hi - lo)).filter fun w => !(seen.any fun v => v.toNat / 2 == w)).map fun w =>
    BitVec.ofNat 64 (2 * w + (if m.zeroFlag w 32 then 1 else 0))

/-- Fills the command's RQ entry (R22, R284). -/
def El.deliver (c : Nat) (d : Cmd) (v : Word) : El Unit :=
  match d.rq?, d.ctx with
  | some u, some k => El.change fun m => m.onCore c fun x => x.rqFill k u v none
  | _, _ => pure ()

/-- One element of `vzcnt`, `vrsum`, `vrmax` or `vrmin`; the last one delivers. -/
def elReduce (i : Instr) (va : BitVec 128) (c : Nat) (d : Cmd) : El Unit := do
  El.chaseElem c d 0 d.n
  let acc ← match i with
    | .vzcnt .. => do
      let m ← El.now
      match d.ops[0]? with
      | none => pure d.acc
      | some o => match o.nest.space with
        | .core g =>
          El.peer c g
          El.require (m.reachable c g) .hold
          let b := o.nest.elemBytes d.n
          pure (d.acc ++ m.censusWords d.acc (localPa g b.1.toNat) (localPa g b.2.toNat))
        | .virt => pure d.acc
    | _ => do
      let v ← El.vtake c d 0 d.n
      pure (d.acc ++ [BitVec.ofNat 64 v])
  if d.n + 1 = d.total then El.deliver c d (reduceResult i (RegionReg.fmt va) acc)
  El.advanceWith c d acc

/-! ### One element of any VQ instruction of this chapter -/

/-- The next element of a VQ command of 14 and of R227. -/
def elVector (c : Nat) (d : Cmd) : El Unit :=
  match d.work with
  | .record _ => pure ()
  | .vec i vd va vb x _ _ =>
    match i with
    | .tload .. => elLine false c d
    | .tstore .. => elLine true c d
    | .vclip .. => elClip vd va vb c d
    | .vscan _ _ op _ => elScan op vd va c d
    | .vperm _ _ n _ => elPerm n.toNat va c d
    | .vpset _ n _ => elPset n.toNat c d
    | .vzcnt .. | .vrsum .. | .vrmax .. | .vrmin .. => elReduce i va c d
    | i => match rolesOf i with
      | some r => elElementwise i r vd va vb x c d
      | none => pure ()

/-! ### The instructions -/

/-- `vadd` (R291). -/
def execVadd (vd va : VReg) (b : VOperand) (h : VHead) : State → Result := lift fun m => m.vecIssue (.vadd vd va b h)

/-- `vsub` (R291). -/
def execVsub (vd va : VReg) (b : VOperand) (h : VHead) : State → Result := lift fun m => m.vecIssue (.vsub vd va b h)

/-- `vmul` (R291). -/
def execVmul (vd va : VReg) (b : VOperand) (h : VHead) : State → Result := lift fun m => m.vecIssue (.vmul vd va b h)

/-- `vfma` (R291). -/
def execVfma (vd va : VReg) (b : VOperand) (h : VHead) : State → Result := lift fun m => m.vecIssue (.vfma vd va b h)

/-- `vdiv` (R291). -/
def execVdiv (vd va : VReg) (b : VOperand) (h : VHead) : State → Result := lift fun m => m.vecIssue (.vdiv vd va b h)

/-- `vmin` (R291). -/
def execVmin (vd va : VReg) (b : VOperand) (h : VHead) : State → Result := lift fun m => m.vecIssue (.vmin vd va b h)

/-- `vmax` (R291). -/
def execVmax (vd va : VReg) (b : VOperand) (h : VHead) : State → Result := lift fun m => m.vecIssue (.vmax vd va b h)

/-- `vand` (R292). -/
def execVand (vd va : VReg) (b : VOperand) (h : VHead) : State → Result := lift fun m => m.vecIssue (.vand vd va b h)

/-- `vor` (R292). -/
def execVor (vd va : VReg) (b : VOperand) (h : VHead) : State → Result := lift fun m => m.vecIssue (.vor vd va b h)

/-- `vxor` (R292). -/
def execVxor (vd va : VReg) (b : VOperand) (h : VHead) : State → Result := lift fun m => m.vecIssue (.vxor vd va b h)

/-- `vshl` (R293). -/
def execVshl (vd va : VReg) (b : VOperand) (h : VHead) : State → Result := lift fun m => m.vecIssue (.vshl vd va b h)

/-- `vshr` (R293). -/
def execVshr (vd va : VReg) (b : VOperand) (h : VHead) : State → Result := lift fun m => m.vecIssue (.vshr vd va b h)

/-- `vsar` (R293). -/
def execVsar (vd va : VReg) (b : VOperand) (h : VHead) : State → Result := lift fun m => m.vecIssue (.vsar vd va b h)

/-- `vcmp` (R294). -/
def execVcmp (vd va : VReg) (b : VOperand) (cc : VCond) (h : VHead) : State → Result := lift fun m => m.vecIssue (.vcmp vd va b cc h)

/-- `vsel` (R295). -/
def execVsel (vd vm : VReg) (b : VOperand) (h : VHead) : State → Result := lift fun m => m.vecIssue (.vsel vd vm b h)

/-- `vabs` (R296). -/
def execVabs (vd va : VReg) (h : VHead) : State → Result := lift fun m => m.vecIssue (.vabs vd va h)

/-- `vneg` (R296). -/
def execVneg (vd va : VReg) (h : VHead) : State → Result := lift fun m => m.vecIssue (.vneg vd va h)

/-- `vnot` (R292). -/
def execVnot (vd va : VReg) (h : VHead) : State → Result := lift fun m => m.vecIssue (.vnot vd va h)

/-- `vcvt` (R296). -/
def execVcvt (vd va : VReg) (h : VHead) : State → Result := lift fun m => m.vecIssue (.vcvt vd va h)

/-- `vquant` (R297). -/
def execVquant (vd va vb : VReg) (xc : Reg) (grp : BitVec 2) (h : VHead) : State → Result := lift fun m => m.vecIssue (.vquant vd va vb xc grp h)

/-- `vdeq` (R297). -/
def execVdeq (vd va vb : VReg) (xc : Reg) (grp : BitVec 2) (h : VHead) : State → Result := lift fun m => m.vecIssue (.vdeq vd va vb xc grp h)

/-- `vsf` (R298). -/
def execVsf (vd va : VReg) (fn : BitVec 3) (h : VHead) : State → Result := lift fun m => m.vecIssue (.vsf vd va fn h)

/-- `vmove` (R296). -/
def execVmove (vd va : VReg) (h : VHead) : State → Result := lift fun m => m.vecIssue (.vmove vd va h)

/-- `vfill` (R296). -/
def execVfill (vd : VReg) (xc : Reg) (h : VHead) : State → Result := lift fun m => m.vecIssue (.vfill vd xc h)

/-- `viota` (R296). -/
def execViota (vd : VReg) (xc : Reg) (step : BitVec 6) (h : VHead) : State → Result := lift fun m => m.vecIssue (.viota vd xc step h)

/-- `vclip` (R299). -/
def execVclip (vd va vb : VReg) (h : VHead) : State → Result := lift fun m => m.vecIssue (.vclip vd va vb h)

/-- `vscan` (R300). -/
def execVscan (vd va : VReg) (op : ScanOp) (h : VHead) : State → Result := lift fun m => m.vecIssue (.vscan vd va op h)

/-- `vzcnt` (R301). -/
def execVzcnt (va : VReg) (h : VHead) : State → Result := lift fun m => m.vecIssue (.vzcnt va h)

/-- `vperm` (R304). -/
def execVperm (vd va : VReg) (n : BitVec 3) (g : LGuard) : State → Result := lift fun m => m.vecIssue (.vperm vd va n g)

/-- `vpset` (R303). -/
def execVpset (va : VReg) (n : BitVec 3) (g : LGuard) : State → Result := lift fun m => m.vecIssue (.vpset va n g)

/-- `vrsum` (R305, R306). -/
def execVrsum (va : VReg) (h : VHead) : State → Result := lift fun m => m.vecIssue (.vrsum va h)

/-- `vrmax` (R305). -/
def execVrmax (va : VReg) (h : VHead) : State → Result := lift fun m => m.vecIssue (.vrmax va h)

/-- `vrmin` (R305). -/
def execVrmin (va : VReg) (h : VHead) : State → Result := lift fun m => m.vecIssue (.vrmin va h)

end Sys2Proof.Machine
end

