-- ==== Sys2Proof/Machine/Cabinet.lean ====
section
/-! DEFINITION. The Cabinet (15_summary_isa; R266-R272): summaries as data, absorbing, merging and querying, the issue of summary instructions, their
elements, and the merge of an arrival. -/

namespace Sys2Proof.Machine

/-! ### Summaries -/

/-- A summary (R307, R308): the header's fields and, by its kind, the levels of a QSK (COMPS, items), the entries of an HHL (KEY, COUNT, ERR) or the
registers of a DCR. -/
structure Summary where
  kind : Nat
  vfmt : Nat
  param : Nat
  flags : Nat
  n : Nat
  mn : Nat
  mx : Nat
  coins : Nat
  levels : List (Nat × List Nat)
  entries : List (Nat × Nat × Nat)
  regs : List Nat
  deriving DecidableEq, Repr

/-- Bytes of a summary (R266). -/
def summarySize (kind param : Nat) : Nat :=
  match kind with
  | 1 => 64 + 24 * (4 + 4 * 2 ^ param)
  | 2 => 64 + 12 * 2 ^ param
  | _ => 64 + 2 ^ param

/-- KIND, PARAM, VFMT and FLAGS that R308 accepts. -/
def summaryKindOk (kind vfmt param flags : Nat) : Bool :=
  decide (flags < 4) && (fmtBits vfmt).isSome &&
  (match kind with
    | 1 => decide (4 ≤ param) && decide (param ≤ 10) && vfmt != 0x06 && vfmt != 0x07
    | 2 => decide (2 ≤ param) && decide (param ≤ 10)
    | 3 => decide (4 ≤ param) && decide (param ≤ 16)
    | _ => false)

/-- A byte of a list as a number. -/
def byteOf (bs : List Byte) (i : Nat) : Nat := (bs.getD i 0).toNat

/-- The little-endian value of `n` bytes from byte i. -/
def bytesAt (bs : List Byte) (i n : Nat) : Nat := leNat ((bs.drop i).take n)

/-- The size that a header of 64 bytes gives; none where it is invalid (R308; log entry 20). -/
def headerSize (bs : List Byte) : Option Nat :=
  if summaryKindOk (byteOf bs 0) (byteOf bs 1) (byteOf bs 2) (byteOf bs 3) && bytesAt bs 32 32 == 0 then some (summarySize (byteOf bs 0) (byteOf bs 2)) else none

/-- A QSK level's bytes (R267): COMPS, the items, and whether FILL and the empty slots are valid. -/
def readLevel (k : Nat) (bs : List Byte) : (Nat × List Nat) × Bool :=
  let fill := bytesAt bs 0 2
  ((bytesAt bs 2 2, (List.range fill).map fun i => bytesAt bs (4 + 4 * i) 4), decide (fill < k) && (bs.drop (4 + 4 * fill)).all (· == 0))

/-- An HHL entry's bytes, and whether a free one is all zero (R308). -/
def readEntry (bs : List Byte) : (Nat × Nat × Nat) × Bool :=
  ((bytesAt bs 0 4, bytesAt bs 4 4, bytesAt bs 8 4), bytesAt bs 4 4 != 0 || bs.all (· == 0))

/-- The summary in whole bytes; none where it is invalid (R308). -/
def readSummary (bs : List Byte) : Option Summary :=
  match headerSize bs with
  | none => none
  | some size =>
    let kind := byteOf bs 0
    let param := byteOf bs 2
    let body := (bs.drop 64).take (size - 64)
    let levels := if kind = 1 then (chunked (4 + 4 * 2 ^ param) body).map (readLevel (2 ^ param)) else []
    let entries := if kind = 2 then (chunked 12 body).map readEntry else []
    let regs := if kind = 3 then body.map BitVec.toNat else []
    if levels.all (·.2) && entries.all (·.2) && regs.all (· ≤ 65 - param) then
      some { kind := kind, vfmt := byteOf bs 1, param := param, flags := byteOf bs 3, n := bytesAt bs 8 8, mn := bytesAt bs 16 4, mx := bytesAt bs 20 4
             coins := bytesAt bs 24 8, levels := levels.map (·.1), entries := entries.map (·.1), regs := regs }
    else none

/-- 1 + the highest level that is not empty, or 0 (R267). -/
def topLevel (levels : List (Nat × List Nat)) : Nat := (levels.mapIdx fun i l => if l.2.isEmpty then 0 else i + 1).foldl max 0

/-- Occupied entries (R308). -/
def Summary.occupied (s : Summary) : Nat := (s.entries.filter fun e => e.2.1 != 0).length

/-- LEVELS (R307). -/
def Summary.levelsField (s : Summary) : Nat :=
  match s.kind with
  | 1 => topLevel s.levels
  | 2 => s.occupied
  | _ => 0

/-- Bytes of one QSK level, with zero slots beyond FILL (R267). -/
def writeLevel (k : Nat) (l : Nat × List Nat) : List Byte :=
  leBytes 2 l.2.length ++ leBytes 2 l.1 ++ l.2.flatMap (leBytes 4) ++ leBytes (4 * (k - l.2.length)) 0

/-- Bytes of a summary (R307, R308). -/
def Summary.bytes (s : Summary) : List Byte :=
  leBytes 1 s.kind ++ leBytes 1 s.vfmt ++ leBytes 1 s.param ++ leBytes 1 s.flags ++ leBytes 4 s.levelsField ++ leBytes 8 s.n ++ leBytes 4 s.mn ++
  leBytes 4 s.mx ++ leBytes 8 s.coins ++ leBytes 32 0 ++
  s.levels.flatMap (writeLevel (2 ^ s.param)) ++ (s.entries.flatMap fun e => leBytes 4 e.1 ++ leBytes 4 e.2.1 ++ leBytes 4 e.2.2) ++ s.regs.flatMap (leBytes 1)

/-- A fresh summary: the Reset column of R307 and an empty payload (R318). -/
def Summary.fresh (kind vfmt param flags : Nat) : Summary where
  kind := kind
  vfmt := vfmt
  param := param
  flags := flags
  n := 0
  mn := 0x7F800000
  mx := 0xFF800000
  coins := 0
  levels := if kind = 1 then List.replicate 24 (0, []) else []
  entries := if kind = 2 then List.replicate (2 ^ param) (0, 0, 0) else []
  regs := if kind = 3 then List.replicate (2 ^ param) 0 else []

/-! ### Order, coins, hash (R309, R310) -/

/-- The place of an FP32 encoding in the order of values of R309: every NaN above +Inf, −0 equal to +0. -/
def orderKey (b : Nat) : Int :=
  let mag : Nat := b % 2 ^ 31
  if 0x7F800000 < mag then 2 ^ 32 else if b / 2 ^ 31 = 0 then (mag : Int) else -(mag : Int)

/-- a comes before b in the order of R309. -/
def valueBefore (a b : Nat) : Bool := decide (orderKey a < orderKey b) || (orderKey a == orderKey b && decide (a < b))

def valueMin (a b : Nat) : Nat := if valueBefore b a then b else a

def valueMax (a b : Nat) : Nat := if valueBefore a b then b else a

/-- Inserts in a list sorted by a strict order, after the elements that are not above. -/
def sortInsert {α : Type} (lt : α → α → Bool) (x : α) : List α → List α
  | [] => [x]
  | y :: l => if lt x y then x :: y :: l else y :: sortInsert lt x l

/-- Sorts by a strict order. -/
def sortBy {α : Type} (lt : α → α → Bool) (l : List α) : List α := l.foldl (fun acc x => sortInsert lt x acc) []

/-- The mixing function (R310). -/
def mix (z : Word) : Word :=
  let z := (z ^^^ (z >>> 30)) * 0xBF58476D1CE4E5B9
  let z := (z ^^^ (z >>> 27)) * 0x94D049BB133111EB
  z ^^^ (z >>> 31)

/-- The increment of `COIN` and of the hash (R310). -/
def golden : Word := 0x9E3779B97F4A7C15

/-- The hash of R270. -/
def h64 (x : Word) : Word := mix (x + golden)

/-- Elements of a list at positions c, c + 2, c + 4, …; c is 0 or 1. -/
def everyOther {α : Type} (c : Nat) (l : List α) : List α := (l.mapIdx fun i x => (i, x)).filterMap fun p => if p.1 % 2 = c then some p.2 else none

/-- Saturating sum of counts of N (R307). -/
def satN (a b : Nat) : Nat := min (a + b) (2 ^ 64 - 1)

/-- Saturating sum of entry counts (R311, R312). -/
def sat32 (a b : Nat) : Nat := min (a + b) (2 ^ 32 - 1)

/-! ### Compaction (R268, R269, R272) -/

/-- Compacts level h: `COIN` and the summary before and after (R268, R269, R310). -/
def compact (h : Nat) (p : Word × Summary) : Word × Summary :=
  let s := p.2
  let l := s.levels.getD h (0, [])
  let coin' := if s.flags % 2 = 1 then p.1 else p.1 + golden
  let c := if s.flags % 2 = 1 then l.1 % 2 else (mix coin').toNat / 2 ^ 63
  let kept := everyOther c (sortBy valueBefore l.2)
  let levels := s.levels.set h ((l.1 + 1) % 2 ^ 16, if h = 23 then kept else [])
  let levels := if h = 23 then levels else
    let u := levels.getD (h + 1) (0, [])
    levels.set (h + 1) (u.1, u.2 ++ kept)
  (coin', { s with levels := levels, coins := (s.coins + 1) % 2 ^ 64 })

/-- Compacts level h if it has reached k. -/
def settleLevel (h : Nat) (p : Word × Summary) : Word × Summary :=
  if 2 ^ p.2.param ≤ (p.2.levels.getD h (0, [])).2.length then compact h p else p

/-- Compacts every level that has reached k, from level 0 upwards (R269, R272). Level 23 keeps half of its items in place, so after a merge it is compacted
until its FILL is below k, as R267 has it between operations: at most 4k - 3 items have come together there, and three times are enough (log entry 63). -/
def settleLevels (p : Word × Summary) : Word × Summary := (List.range 24 ++ [23, 23]).foldl (fun p h => settleLevel h p) p

/-! ### Absorbing (R269, R270, R311) -/

/-- The least COUNT among entries, and the lowest index that has it. -/
def leastEntry (l : List (Nat × Nat × Nat)) : Nat × Nat :=
  (l.mapIdx fun i e => (e.2.1, i)).foldl (fun acc x => if x.1 < acc.1 then x else acc) ((l.headD (0, 0, 0)).2.1, 0)

/-- `vskh`'s step on the entries (R311). -/
def absorbKey (l : List (Nat × Nat × Nat)) (key : Nat) : List (Nat × Nat × Nat) :=
  if l.any fun e => e.2.1 != 0 && e.1 == key then
    l.map fun e => if e.2.1 ≠ 0 ∧ e.1 = key then (e.1, sat32 e.2.1 1, e.2.2) else e
  else match l.findIdx? fun e => e.2.1 == 0 with
    | some i => l.set i (key, 1, 0)
    | none => let m := leastEntry l
      l.set m.2 (key, sat32 m.1 1, m.1)

/-- `vskd`'s step on the registers (R270). -/
def absorbHash (p : Nat) (l : List Nat) (x : Nat) : List Nat :=
  let h := (h64 (BitVec.ofNat 64 x)).toNat
  let low := h % 2 ^ (64 - p)
  let j := h / 2 ^ (64 - p)
  let r := if low = 0 then 65 - p else 64 - p - Nat.log2 low
  l.set j (max (l.getD j 0) r)

/-- Absorbs the element of encoding `e` (R269, R270, R311), with the substitution mark of its word (R315). -/
def absorb (p : Word × Summary) (e : Nat) (mark : Bool) : Word × Summary :=
  let s := p.2
  let v := rne32 (decodeNum s.vfmt e)
  let s := { s with n := satN s.n 1, mn := valueMin s.mn v, mx := valueMax s.mx v, flags := if mark then s.flags ||| 2 else s.flags }
  match s.kind with
  | 1 => settleLevels (p.1, { s with levels := s.levels.mapIdx fun i l => if i = 0 then (l.1, l.2 ++ [v]) else l })
  | 2 => (p.1, { s with entries := absorbKey s.entries e })
  | _ => (p.1, { s with regs := absorbHash s.param s.regs e })

/-! ### Merging (R272, R312, R314) -/

/-- COUNT and ERR of a key in a list, or its least COUNT when it is full, or 0 (R312). -/
def entryOf (l : List (Nat × Nat × Nat)) (key : Nat) : Nat × Nat :=
  match l.find? fun e => e.2.1 != 0 && e.1 == key with
  | some e => e.2
  | none => if l.any fun e => e.2.1 == 0 then (0, 0) else let m := (leastEntry l).1
    (m, m)

/-- Keys of either list, each once. -/
def entryKeys (r s : List (Nat × Nat × Nat)) : List Nat :=
  (((r ++ s).filter fun e => e.2.1 != 0).map (·.1)).foldl (fun acc k => if acc.contains k then acc else acc ++ [k]) []

/-- An HHL merge (R312). -/
def mergeEntries (r s : List (Nat × Nat × Nat)) : List (Nat × Nat × Nat) :=
  let all := (entryKeys r s).map fun k =>
    let a := entryOf r k
    let b := entryOf s k
    (k, sat32 a.1 b.1, sat32 a.2 b.2)
  let kept := (sortBy (fun a b => decide (b.2.1 < a.2.1) || (a.2.1 == b.2.1 && decide (a.1 < b.1))) all).take r.length
  kept ++ List.replicate (r.length - kept.length) (0, 0, 0)

/-- The two summaries agree, so that they can be merged (R314). -/
def Summary.agrees (r s : Summary) : Bool := r.kind == s.kind && r.param == s.param && r.vfmt == s.vfmt

/-- Merges s into r, with `COIN` of the core that merges (R272, R312, R314). -/
def merge (coin : Word) (r s : Summary) : Word × Summary :=
  let t := { r with
    n := satN r.n s.n
    coins := (r.coins + s.coins) % 2 ^ 64
    mn := valueMin r.mn s.mn
    mx := valueMax r.mx s.mx
    flags := r.flags ||| (s.flags &&& 2) }
  match r.kind with
  | 1 => settleLevels (coin, { t with levels := (r.levels.zip s.levels).map fun p => ((p.1.1 + p.2.1) % 2 ^ 16, p.1.2 ++ p.2.2) })
  | 2 => (coin, { t with entries := mergeEntries r.entries s.entries })
  | _ => (coin, { t with regs := (r.regs.zip s.regs).map fun p => max p.1 p.2 })

/-! ### Queries (R313, R321) -/

/-- Stored items with their weights, in the order of R309. -/
def Summary.items (s : Summary) : List (Nat × Nat) :=
  sortBy (fun a b => valueBefore a.1 b.1) (s.levels.mapIdx fun h l => l.2.map fun y => (y, 2 ^ h)).flatten

/-- ⌈x⌉ of an exact real. -/
def ceilEx (x : Ex) : Int := -(Sf.fixDown x.neg 0)

/-- The first item whose cumulative weight reaches t; the last item where none does. -/
def itemAt (t : Int) : Nat → List (Nat × Nat) → Nat
  | _, [] => 0x7FC00000
  | _, [y] => y.1
  | w, y :: l => if t ≤ (w + y.2 : Nat) then y.1 else itemAt t (w + y.2) l

/-- `squery.quant` (R321). -/
def Summary.quantile (s : Summary) (q : Num) : Nat :=
  if s.n = 0 then 0x7FC00000
  else match q with
    | .nan => 0x7FC00000
    | .inf true => itemAt 1 0 s.items
    | .inf false => (s.items.getLast?.map (·.1)).getD 0x7FC00000
    | .fin _ x => itemAt (max 1 (ceilEx (x.mul (Ex.ofInt s.n)))) 0 s.items

/-- `squery.rank` (R321). -/
def Summary.rank (s : Summary) (x : Num) : Nat :=
  (s.items.filter fun y => x.isNan || (let v := decodeNum 0x10 y.1; !v.isNan && !x.lt v)).foldl (fun acc y => acc + y.2) 0

/-- The binary64 value nearest a positive real. -/
def nearest64 (x : Ex) : Ex := let q := x.log2 - 52
  Ex.dyadic (x.magRne q) q

/-- α_m (R313). -/
def alphaM (m : Nat) : Ex :=
  match m with
  | 16 => nearest64 ⟨673, 1000, 0⟩
  | 32 => nearest64 ⟨697, 1000, 0⟩
  | 64 => nearest64 ⟨709, 1000, 0⟩
  | _ => nearest64 ((⟨7213, 10000, 0⟩ : Ex).div ((Ex.ofInt 1).add ((⟨1079, 1000, 0⟩ : Ex).div (Ex.ofInt m))))

/-- rne32 of m × ln x for a rational x > 1. -/
def scaledLog (m : Nat) (x : Ex) : Nat :=
  let e := x.log2
  let y := x.scale (-e)
  let z := (y.sub (Ex.ofInt 1)).div (y.add (Ex.ofInt 1))
  let bounds (p : Nat) : Sf.Ival :=
    let a := Sf.atanh z p
    let l := Sf.ln2 p
    ⟨m * (e * l.lo + 2 * a.lo), m * (e * l.hi + 2 * a.hi)⟩
  Sf.settle bounds false 0 0 Sf.ladder

/-- `squery.est` (R313). -/
def Summary.estimate (s : Summary) : Nat :=
  let m := 2 ^ s.param
  let z := s.regs.foldl (fun acc r => acc.add (Ex.dyadic 1 (-(r : Int)))) (Ex.ofInt 0)
  let v := (s.regs.filter (· == 0)).length
  let raw := ((alphaM m).mul (Ex.ofInt (m * m))).div z
  if v = m then 0
  else if v ≠ 0 ∧ !((Ex.dyadic (5 * m) (-1)).lt raw) then scaledLog m ⟨m, v, 0⟩
  else rne32 (Num.real raw)

/-- `squery.count`: ERR above COUNT (R321). -/
def Summary.count (s : Summary) (key : Nat) : Word := let e := entryOf s.entries key
  BitVec.ofNat 64 (e.2 * 2 ^ 32 + e.1)

/-- `squery.entry`: KEY above COUNT (R321). -/
def Summary.entry (s : Summary) (i : Nat) : Word := let e := s.entries.getD i (0, 0, 0)
  BitVec.ofNat 64 (e.1 * 2 ^ 32 + e.2.1)

/-- The kind that a query needs, and its result (R321). -/
def queryOf (i : Instr) (x : Word) : Nat × (Summary → Word) :=
  match i with
  | .squeryQuant .. => (1, fun s => BitVec.ofNat 64 (s.quantile (decodeNum 0x10 (x.toNat % 2 ^ 32))))
  | .squeryRank .. => (1, fun s => BitVec.ofNat 64 (s.rank (decodeNum 0x10 (x.toNat % 2 ^ 32))))
  | .squeryCount .. => (2, fun s => s.count (x.toNat % 2 ^ 32))
  | .squeryEntry .. => (2, fun s => s.entry x.toNat)
  | _ => (3, fun s => BitVec.ofNat 64 s.estimate)

/-! ### Issue (R266, R282, R317-R321) -/

/-- A summary operand: the checks of R266 and R282, and its footprint, the whole region (R317). -/
def Mach.summaryOp (m : Mach) (v : BitVec 128) (dst remoteToo : Bool) (size : Nat) : List (Check Unit) × List Operand :=
  let iw := m.instrWord
  let base := RegionReg.base v
  let ext := summaryExtent v
  let peer := regionCore m.cid v
  ([need (summaryRegion v remoteToo && decide (size ≤ ext)) Cause.illegal iw, need (base % 64 == 0) Cause.misalign (BitVec.ofNat 64 base),
    need (ext == 0 || decide (base + ext ≤ 0xC0000)) Cause.access (BitVec.ofNat 64 base),
    need (peer == m.cid || (m.view m.cid peer).runs m.here.job) Cause.access (windowWord peer)],
   if ext = 0 then [] else [Operand.interval (.core peer) base (base + ext) dst])

/-- A summary instruction past its guard: its registers resolve, its checks are made, and it enters VQ (R282, R317). -/
def Mach.cabIssue (m : Mach) (i : Instr) (vd va : Option VReg) (x : Word) (g : LGuard) (build : BitVec 128 → BitVec 128 → VBuilt) : Mach :=
  let live := m.cur.lguard g
  if !live && !m.here.fixed then m.fin8 id
  else match m.cur.wait with
    | some (.enq d) => m.vecEnter d
    | _ =>
      let d := m.named vd
      let a := m.named va
      match d, a with
      | .ok d, .ok a => m.vecChecked i (build (d.getD 0) (a.getD 0)) x (!live)
      | d, a => match lowest [Check.unit d, Check.unit a] with
        | some e => m.trap e.1 e.2
        | none => m

/-- What `vskq`, `vskh` and `vskd` resolve to (R319); a command of no elements still reads the header. -/
def Mach.absorbBuild (m : Mach) (pl live : Bool) (d a : BitVec 128) : VBuilt :=
  let e := if pl then min (RegionReg.count a) m.cur.plen.toNat else RegionReg.count a
  let od := m.summaryOp d true false 0
  let oa := m.vop a e false false false 1
  let meets := od.2.any fun o => oa.2.any fun p => o.overlaps p && p.inPlace o
  { conds := od.1 ++ oa.1 ++ [need (!(live && meets)) Cause.regionAlias (aliasBase od.2)], ops := od.2 ++ oa.2, d := d, a := a, b := 0, e := max 1 e }

/-- `vskq`, `vskh` and `vskd` in a slot. -/
def Mach.absorbIssue (m : Mach) (i : Instr) (vd va : VReg) (h : VHead) : Mach :=
  m.cabIssue i (some vd) (some va) 0 h.g (m.absorbBuild h.pl (m.cur.lguard h.g))

/-- `smerge` (R320). -/
def Mach.mergeBuild (m : Mach) (d a : BitVec 128) : VBuilt :=
  let od := m.summaryOp d true false 0
  let oa := m.summaryOp a false true 0
  { conds := od.1 ++ oa.1, ops := od.2 ++ oa.2, d := d, a := a, b := 0, e := 1 }

/-- `squery` (R321). -/
def Mach.queryBuild (m : Mach) (a : BitVec 128) : VBuilt :=
  let oa := m.summaryOp a false false 0
  { conds := oa.1, ops := oa.2, d := 0, a := a, b := 0, e := 1 }

/-- `squery` in a slot. -/
def Mach.queryIssue (m : Mach) (i : Instr) (va : VReg) (x : Word) (g : LGuard) : Mach :=
  m.cabIssue i none (some va) x g fun _ a => m.queryBuild a

/-- The header word of `sinit` is legal (R318). -/
def initWordOk (x : Word) : Bool :=
  x.toNat < 2 ^ 32 && !x.getLsbD 25 && summaryKindOk (x.toNat % 256) (x.toNat / 256 % 256) (x.toNat / 65536 % 256) (x.toNat / 2 ^ 24 % 256)

/-- `sinit` (R318). -/
def Mach.initBuild (m : Mach) (x : Word) (d : BitVec 128) : VBuilt :=
  let ok := initWordOk x
  let od := m.summaryOp d true false (if ok then summarySize (x.toNat % 256) (x.toNat / 65536 % 256) else 0)
  { conds := need ok Cause.illegal m.instrWord :: od.1, ops := od.2, d := d, a := 0, b := 0, e := 1 }

/-- `vskq` (R269, R319). -/
def execVskq (vd va : VReg) (h : VHead) : State → Result := lift fun m => m.absorbIssue (.vskq vd va h) vd va h

/-- `vskh` (R311, R319). -/
def execVskh (vd va : VReg) (h : VHead) : State → Result := lift fun m => m.absorbIssue (.vskh vd va h) vd va h

/-- `vskd` (R270, R319). -/
def execVskd (vd va : VReg) (h : VHead) : State → Result := lift fun m => m.absorbIssue (.vskd vd va h) vd va h

/-- `smerge` (R320). -/
def execSmerge (vd va : VReg) (g : LGuard) : State → Result := lift fun m => m.cabIssue (.smerge vd va g) (some vd) (some va) 0 g m.mergeBuild

/-- `squery.quant` (R321). -/
def execSqueryQuant (va : VReg) (xc : Reg) (g : LGuard) : State → Result := lift fun m => m.queryIssue (.squeryQuant va xc g) va (m.cur.reg xc) g

/-- `squery.rank` (R321). -/
def execSqueryRank (va : VReg) (xc : Reg) (g : LGuard) : State → Result := lift fun m => m.queryIssue (.squeryRank va xc g) va (m.cur.reg xc) g

/-- `squery.count` (R321). -/
def execSqueryCount (va : VReg) (xc : Reg) (g : LGuard) : State → Result := lift fun m => m.queryIssue (.squeryCount va xc g) va (m.cur.reg xc) g

/-- `squery.entry` (R321). -/
def execSqueryEntry (va : VReg) (xc : Reg) (g : LGuard) : State → Result := lift fun m => m.queryIssue (.squeryEntry va xc g) va (m.cur.reg xc) g

/-- `squery.est` (R313, R321). -/
def execSqueryEst (va : VReg) (g : LGuard) : State → Result := lift fun m => m.queryIssue (.squeryEst va g) va 0 g

/-- `sinit` (R318). -/
def execSinit (vd : VReg) (xc : Reg) (g : LGuard) : State → Result :=
  lift fun m => m.cabIssue (.sinit vd xc g) (some vd) none (m.cur.reg xc) g fun d _ => m.initBuild (m.cur.reg xc) d

/-! ### Elements (R308, R316-R321) -/

/-- Bytes of a summary's region from an offset of it; a poisoned one is consumed (R248). -/
def El.summaryBytes (c : Nat) (v : BitVec 128) (lo n : Nat) : El (List Byte) := do
  let pa := localPa (regionCore c v) (RegionReg.base v + lo)
  let m ← El.now
  match m.dev.poisonIn pa n with
  | some u => throw (.poison u)
  | none => pure (m.bytes pa n)

/-- Reads a summary of at most the region's extent; an invalid one is the engine fault of R308, with the address that `TVAL` holds. -/
def El.summary (c : Nat) (v : BitVec 128) (tval : Nat) : El Summary := do
  let bad : Stop := .fault Cause.illegal (BitVec.ofNat 64 tval)
  let g := regionCore c v
  let ext := summaryExtent v
  El.peer c g
  El.require ((← El.now).reachable c g) .hold
  El.require (decide (64 ≤ ext)) bad
  let h ← El.summaryBytes c v 0 64
  match headerSize h with
  | none => throw bad
  | some size =>
    El.require (decide (size ≤ ext)) bad
    let rest ← El.summaryBytes c v 64 (size - 64)
    match readSummary (h ++ rest) with
    | none => throw bad
    | some s => pure s

/-- A command writes bytes of its own scratchpad, sector by sector (R247). -/
def Mach.putBytes (m : Mach) (c u : Nat) (pa : Nat) (bs : List Byte) : Mach :=
  ((chunked 32 bs).mapIdx fun i b => (pa + 32 * i, b)).foldl (fun m p => (m.store p.1 p.2).markWrite c u (2 * p.1) (2 * p.2.length) false) m

/-- The value from which a command draws its coins: `COIN`, or the value that a later write of `COIN` has left to it (R310). -/
def El.coin (c : Nat) (d : Cmd) : El Word := do
  let k := (← El.now).core c
  pure (d.acc.headD k.coin)

/-- Writes a summary to its region, and what its compactions left of the command's coins. -/
def El.putSummary (c : Nat) (d : Cmd) (v : BitVec 128) (p : Word × Summary) : El Unit :=
  El.change fun m => (m.putBytes c d.uid (localPa c (RegionReg.base v)) p.2.bytes).onCore c fun k =>
    k.drawn d p.1

/-- A VQ command has the Cabinet in this cycle (R316). -/
def El.begin (c : Nat) : El Unit := El.change fun m => m.onCore c fun k => { k with cabinetAt := some (m.dev.now, 1024) }

/-- One element absorbed (R319). -/
def elAbsorb (kind : Nat) (vd va : BitVec 128) (c : Nat) (d : Cmd) : El Unit := do
  El.chaseElem c d 0 0
  if 1 < d.ops.length then El.chaseElem c d 1 d.n
  let s ← El.summary c vd (RegionReg.base vd)
  El.require (s.kind == kind && s.vfmt == RegionReg.fmt va) (.fault Cause.illegal (BitVec.ofNat 64 (RegionReg.base vd)))
  if 1 < d.ops.length then
    El.peerOf c d 1
    let e ← El.readElem c d 1 d.n
    match e.poison with
    | some u => throw (.poison u)
    | none =>
      let coin ← El.coin c d
      El.putSummary c d vd (absorb (coin, s) (cleanBits (RegionReg.fmt va) e.bits) e.sub)
  El.begin c
  El.advance c d 1

/-- `smerge` (R320). -/
def elMerge (vd va : BitVec 128) (c : Nat) (d : Cmd) : El Unit := do
  El.chaseElem c d 0 0
  El.chaseElem c d 1 0
  let at_ := RegionReg.base vd
  let r ← El.summary c vd at_
  let s ← El.summary c va at_
  El.require (r.agrees s) (.fault Cause.illegal (BitVec.ofNat 64 at_))
  let coin ← El.coin c d
  El.putSummary c d vd (merge coin r s)
  El.begin c
  El.advance c d 1

/-- `squery`: the result is kept until the command retires (R321). -/
def elQuery (i : Instr) (va : BitVec 128) (x : Word) (c : Nat) (d : Cmd) : El Unit := do
  El.chaseElem c d 0 0
  let s ← El.summary c va (RegionReg.base va)
  let q := queryOf i x
  El.require (s.kind == q.1) (.fault Cause.illegal (BitVec.ofNat 64 (RegionReg.base va)))
  El.begin c
  El.advanceWith c d [q.2 s]

/-- `sinit` (R318). -/
def elInit (vd : BitVec 128) (x : Word) (c : Nat) (d : Cmd) : El Unit := do
  El.chaseElem c d 0 0
  let coin ← El.coin c d
  El.putSummary c d vd (coin, Summary.fresh (x.toNat % 256) (x.toNat / 256 % 256) (x.toNat / 65536 % 256) (x.toNat / 2 ^ 24 % 256))
  El.begin c
  El.advance c d 1

/-- A command of the Cabinet. -/
def Cmd.cabinet (d : Cmd) : Bool :=
  match d.work with
  | .record _ => false
  | .vec i .. => match i with
    | .vskq .. | .vskh .. | .vskd .. | .smerge .. | .sinit .. => true
    | .squeryQuant .. | .squeryRank .. | .squeryCount .. | .squeryEntry .. | .squeryEst .. => true
    | _ => false

/-- The next element of a VQ command of the Cabinet. -/
def elCabinet (c : Nat) (d : Cmd) : El Unit :=
  match d.work with
  | .record _ => pure ()
  | .vec i vd va _ x _ _ =>
    match i with
    | .vskq .. => elAbsorb 1 vd va c d
    | .vskh .. => elAbsorb 2 vd va c d
    | .vskd .. => elAbsorb 3 vd va c d
    | .smerge .. => elMerge vd va c d
    | .sinit .. => elInit vd x c d
    | i => elQuery i va x c d

/-! ### Arrivals (R271, R316, R327) -/

/-- A Cabinet command is in the middle of its operation: it has done an element and has another to do, and stands neither faulted nor stopped (R316). -/
def Core.cabinetBusy (k : Core) : Bool := k.vq.any fun d => d.cabinet && d.working && decide (0 < d.n)

/-- An arrival from a sender may be merged now: the Cabinet is in a gap, and in this cycle it has begun neither a command nor the merge of an arrival from a
higher core, which an arrival that became ready in this cycle would have gone before (R316). -/
def Core.mayMerge (k : Core) (now src : Nat) : Bool :=
  !k.cabinetBusy && (match k.cabinetAt with | some (t, r) => t != now || decide (r ≤ src) | none => true)

/-- What the receiver's Cabinet finds at the destination: a poisoned sector, or the summary if it is valid (R308, R327). -/
def Mach.receiving (m : Mach) (c off : Nat) : Except Nat (Option Summary) :=
  let pa := localPa c off
  if 0xC0000 < off + 64 then .ok none
  else match m.dev.poisonIn pa 64 with
    | some u => .error u
    | none => match headerSize (m.bytes pa 64) with
      | none => .ok none
      | some size =>
        if 0xC0000 < off + size then .ok none
        else match m.dev.poisonIn pa size with
          | some u => .error u
          | none => .ok (readSummary (m.bytes pa size))

/-- The tainted flag is set where the summary stands: a partial write (R327). -/
def Mach.taint (m : Mach) (c off : Nat) : Mach := let a := localPa c off + 3
  m.store a [m.rd a ||| 2]

/-- The merge of an arrival, or its discard (R271, R327). -/
def Mach.mergeArrival (m : Mach) (c off : Nat) (data : List Byte) : Mach :=
  match m.receiving c off with
  | .error u => (m.taint c off).logErr 10 c (unitAddr u) 0 0
  | .ok none => m.taint c off
  | .ok (some r) =>
    match readSummary data with
    | none => m.taint c off
    | some s =>
      if r.agrees s then
        let p := merge (m.core c).coin r s
        (m.store (localPa c off) p.2.bytes).onCore c fun k => { k with coin := p.1 }
      else m.taint c off

end Sys2Proof.Machine
end

