-- ==== Sys2Proof/Machine/Collective.lean ====
section
/-! DEFINITION. Collectives and messages (19, 20, 21; R326, R327, R358, R359, R372-R395, R402-R405): what the collective and message engine sends, receive
windows, arrivals, parking and refusal, active messages, and the waits on arrival counters. -/

namespace Sys2Proof.Machine

/-! ### Sending (R326, R327, R378-R382, R390-R392, R402) -/

/-- A command counted as injected; a `tsend` was counted at its `enq` (R392), but counts again what it sends again (R359). -/
def Cmd.counts (d : Cmd) : Bool := d.opc != 0x33 || !d.again.isEmpty

/-- A message leaves its sender (R398); it makes the core's uncommitted phases irrevocable (R254). -/
def Mach.send (m : Mach) (c : Nat) (d : Cmd) (dst n size : Nat) (kind : MsgKind) (counted : Bool) : Mach :=
  let m := m.onCore c fun k =>
    let k := if d.phase.isSome then k.irrevoke else k
    if counted then { k with inj := k.inj + 1 } else k
  let x : Msg := { id := m.fresh, job := (m.core c).job.getD 0, src := c, cmd := d.uid, dst := dst, kind := kind, n := n, size := size, refused := false }
  (m.onDev fun v => { v with net := v.net ++ [x] }).bump

/-- Σ PCl·il of AUX (R326). -/
def Cmd.peerOffset (d : Cmd) (it : List Nat) : Int := (List.range 4).foldl (fun acc l => acc + d.auxInt (9 * l) 9 * (it.getD l 0 : Int)) 0

/-- The member of GROUP that iteration `it` sends to (R327, R379). -/
def Cmd.peer (d : Cmd) (it : List Nat) : Nat := d.members.getD (((d.aux 36 12 : Int) + d.peerOffset it) % (d.members.length : Int)).toNat 0

/-- The iteration of traversal index n in ROW order, by the record's trip counts. -/
def Cmd.iteration (d : Cmd) (n : Nat) : List Nat :=
  match d.work with
  | .vec .. => []
  | .record r => (Nest.mk .virt 0 0 [r.t0.toNat, r.t1.toNat, r.t2.toNat, r.t3.toNat] [] 0).iter n

/-- Σ il·DSTRIDEl. -/
def Cmd.destOffset (d : Cmd) (it : List Nat) : Int :=
  match d.work with
  | .vec .. => 0
  | .record r => ([r.ds0.toInt, r.ds1.toInt, r.ds2.toInt, r.ds3.toInt].zip it).foldl (fun acc p => acc + p.1 * (p.2 : Int)) 0

/-- DBASE below its tag, and within the receiving core's window when it has tag 2 (R145). -/
def Cmd.destBase (d : Cmd) : Nat :=
  match d.work with
  | .vec .. => 0
  | .record r => if baseTag r.dbase = 2 then baseLow r.dbase % 2 ^ 22 else baseLow r.dbase

/-- The offset at the receiver; a negative one lies in no window. -/
def Cmd.destAt (d : Cmd) (w : Nat) (it : List Nat) : Nat := let a : Int := d.destBase + w * d.destOffset it
  if a < 0 then 2 ^ 60 else a.toNat

/-- The source format: SFMT in MOD (R378), FMT in AUX for a `tsend` (R390). -/
def Cmd.sfmt (d : Cmd) : Nat := if d.opc = 0x33 then d.aux 11 5 else d.mod / 8

/-- The transfer that the command does next: one to be sent again, or its next element. -/
def Cmd.transfer (d : Cmd) : Nat := match d.again with | i :: _ => i / 2 | [] => d.n

/-- The transfer is done. -/
def El.sent (c : Nat) (d : Cmd) : El Unit := do
  El.cmd c d fun e => match e.again with | _ :: l => { e with again := l } | [] => { e with n := e.n + 1 }
  El.change fun m => m.advanced c d

/-- One element of `cput` or of a fired `tsend`: sent with its poison mark (R381, R391). -/
def elPut (c : Nat) (d : Cmd) : El Unit := do
  let n := d.transfer
  let it := d.iteration n
  let f := d.sfmt
  let w := fmtNibs f / 2
  El.chaseElem c d 0 n
  let g ← El.readElem c d 0 n
  let dst := if d.opc = 0x33 then d.members.headD 0 else d.peer it
  El.change fun m => m.send c d dst (2 * n) w (.elem 0 (d.aux 48 8) (d.destAt w it) f (BitVec.ofNat 64 g.bits) g.poison.isSome) d.counts
  El.sent c d

/-- One element of `cred` of class FAST: BF16 on the wire (R385). -/
def elFast (c : Nat) (d : Cmd) : El Unit := do
  let n := d.transfer
  let it := d.iteration n
  El.chaseElem c d 0 n
  let v ← El.take c d 0 n
  El.change fun m => m.send c d (d.peer it) (2 * n) 2 (.elem 2 (d.aux 48 8) (d.destAt 4 it) 0x0F (BitVec.ofNat 64 (convert 0x0F (decodeNum d.sfmt v))) false) true
  El.sent c d

/-- Runs a part of an element if nothing stops it; what it changed is kept only then. -/
def El.speculate {α : Type} (x : El α) : El (Option α) := do
  match x.run.run (← El.now) with
  | (.ok a, m) => do
    set m
    pure (some a)
  | (.error _, _) => pure none

/-- The exponent byte of a block of FP32 encodings (R382). -/
def exponentByte (fs : List Nat) : Nat :=
  fs.foldl (fun acc f => let e := f / 2 ^ 23 % 256
    if e = 255 then acc else max acc e) 1

/-- The FP32 encodings of a block of the source. -/
def El.block (c : Nat) (d : Cmd) (b : Nat) : El (List Nat) := do
  let _ ← (List.range 32).mapM fun i => El.chaseElem c d 0 (32 * b + i)
  let vs ← (List.range 32).mapM fun i => El.take c d 0 (32 * b + i)
  pure (vs.map fun v => convert 0x10 (decodeNum d.sfmt v))

/-- The run of a block fills one block of one receiver (R382): one peer, at consecutive elements. -/
def Cmd.wholeRun (d : Cmd) (b : Nat) : Bool :=
  let it := d.iteration (32 * b)
  (List.range 32).all fun i => let jt := d.iteration (32 * b + i)
    d.peer jt == d.peer it && d.destAt 4 jt == d.destAt 4 it + 4 * i

/-- The pre-pass of a block: its byte goes to the block's receiver (R382). -/
def El.prePass (c : Nat) (d : Cmd) (b : Nat) : El Unit := do
  let fs ← El.block c d b
  let it := d.iteration (32 * b)
  El.change fun m => m.send c d (d.peer it) (64 * b + 1) 1 (.expByte (d.aux 48 8) (d.destAt 4 it) (exponentByte fs) b (d.wholeRun b)) false

/-- The wire integer of an FP32 value under a block exponent, with the class bits NaN, +Inf, −Inf above bit 60 (R382). -/
def wireWord (v : Num) (eb : Int) : BitVec 64 :=
  match v with
  | .nan => 0x8000000000000000
  | .inf false => 0x4000000000000000
  | .inf true => 0x2000000000000000
  | .fin _ x => (BitVec.ofInt 32 (x.truncAt (eb - 30))).zeroExtend 64

/-- The exponent that has been returned for a block. -/
def Cmd.exponent (d : Cmd) (b : Nat) : Option Int := (d.exps.find? fun p => p.1 == b).map (·.2)

/-- Some participant of the collective, a member of the group or the sender itself, is not RUNNING the core's job (R360). -/
def Mach.memberAway (m : Mach) (c : Nat) (d : Cmd) : Bool :=
  (c :: d.members).any fun g => !((m.core g).life == .running && (m.core g).job == (m.core c).job)

/-- One element of the value pass, or the beginning of the wait for its block's exponent (R382, R384). -/
def El.value (c : Nat) (d : Cmd) : El Unit := do
  let n := d.transfer
  match d.exponent (n / 32) with
  | none => do
    El.require d.since.isNone .hold
    El.change fun m =>
      let now := m.dev.now
      let away := m.memberAway c d
      m.onCore c fun k => k.onCmd d.uid fun e => { e with since := some now, paused := if away then some now else none }
  | some eb => do
    let it := d.iteration n
    El.chaseElem c d 0 n
    let v ← El.take c d 0 n
    let f := convert 0x10 (decodeNum d.sfmt v)
    El.change fun m => m.send c d (d.peer it) (2 * n) 4 (.elem 1 (d.aux 48 8) (d.destAt 4 it) 0x10 (wireWord (decodeNum 0x10 f) eb) false) true
    El.cmd c d fun e => { e with since := none, paused := none }
    El.sent c d

/-- One piece of work of `cred` of class EXACT: the pre-pass runs ahead where the source allows it, and the value pass follows (R382). -/
def elExact (c : Nat) (d : Cmd) : El Unit := do
  match d.again with
  | i :: _ =>
    if i % 2 = 1 then
      (do El.prePass c d (i / 64)
          El.sent c d)
    else El.value c d
  | [] => do
    let b := d.pre
    let pre : El Unit := do
      El.prePass c d b
      El.cmd c d fun e => { e with pre := b + 1 }
    let ahead ← if 32 * b < d.total then El.speculate pre else pure none
    match ahead with
    | some _ => pure ()
    | none => if d.n / 32 < b then El.value c d else pre

/-- The send buffer as words of eight bytes, and back. -/
def packWords (bs : List Byte) : List Word := (chunked 8 bs).map fun b => BitVec.ofNat 64 (leNat b)

def unpackWords (ws : List Word) : List Byte := ws.flatMap fun w => leBytes 8 w.toNat

/-- One transfer of `smrg`: the source is read once, then sent to each peer (R327). -/
def elSmrg (c : Nat) (d : Cmd) : El Unit := do
  let n := d.transfer
  let buf ← if d.acc.isEmpty then (do
      El.chaseElem c d 0 0
      let v := d.regions.headD 0
      let s ← El.summary c v (RegionReg.base v)
      pure (packWords s.bytes))
    else pure d.acc
  let data := unpackWords buf
  let size := (headerSize data).getD 64
  El.cmd c d fun e => { e with acc := buf }
  El.change fun m => m.send c d (d.peer (d.iteration n)) (2 * n) size (.merge (d.aux 48 8) d.destBase (data.take size)) true
  El.sent c d

/-- `amsg`: its one message (R402). -/
def elAmsg (c : Nat) (d : Cmd) : El Unit := do
  let ps := match d.work with | .record r => baseLow r.sbase | .vec .. => 0
  El.change fun m => m.send c d (d.members.headD 0) 0 0 (.amsg ⟨d.aux 59 5, d.destBase, ps⟩) true
  El.sent c d

/-! ### Windows (R374-R377) -/

/-- The window that owns a counter. -/
def Core.window (k : Core) (ac : Nat) : Option Window := k.windows.find? fun w => decide (w.ac ≤ ac) && decide (ac < w.ac + w.tiles)

/-- Changes the window that owns a counter. -/
def Core.onWindow (k : Core) (ac : Nat) (f : Window → Window) : Core :=
  { k with windows := k.windows.map fun w => if w.ac ≤ ac ∧ ac < w.ac + w.tiles then f w else w }

/-- Bytes and elements of a tile. -/
def Window.esz (w : Window) : Nat := fmtNibs w.fmt / 2

def Window.perTile (w : Window) : Nat := w.tile / max 1 w.esz

/-- The tile and the element of it at a local offset. -/
def Window.place (w : Window) (off : Nat) : Option (Nat × Nat) :=
  let o := off - w.base
  let k := o / max 1 w.tile
  let r := o % max 1 w.tile
  if w.base ≤ off ∧ k < w.tiles ∧ r % max 1 w.esz = 0 then some (k, r / max 1 w.esz) else none

/-- The counter of a tile. -/
def Core.ac (k : Core) (n : Nat) : Nat := natAt k.acs n

/-- The tile is ready, or its finish is in progress (R376). -/
def Core.tileReady (k : Core) (w : Window) (t : Nat) : Bool := decide (w.expect ≤ k.ac (w.ac + t)) || w.finishing.contains t

/-- Sets a counter and every event latch (R138). -/
def Core.setAc (k : Core) (n v : Nat) : Core := ({ k with acs := natSet k.acs n v }).latchAll

/-- The lowest ready, unclaimed counter in a range (R333). -/
def Core.readyAc (k : Core) (first count : Nat) : Option Nat :=
  ((List.range count).map (first + ·)).find? fun n => !k.claims.contains n && (match k.window n with
    | none => false
    | some w => decide (w.expect ≤ k.ac n))

/-- Serves the pending `acany`s that can be served, in the order of their issue (R387). -/
def Core.serveAnys (k : Core) : Core :=
  k.anys.foldl (fun k a => match k.readyAc a.first a.count with
    | none => k
    | some n => ({ k with claims := k.claims ++ [n], anys := k.anys.filter fun b => b.rq != a.rq }).rqFill a.ctx a.rq (BitVec.ofNat 64 n) none) k

/-- Windows of the core that own a counter of the `rxpost` (R374). -/
def Core.overlapped (k : Core) (d : Cmd) : List Window :=
  k.windows.filter fun w => decide (w.ac < d.aux 16 8 + d.aux 35 9) && decide (d.aux 16 8 < w.ac + w.tiles)

/-- Arrivals for a counter are parked (R374): an `rxpost` that takes it has issued and not posted, or one waits at issue for a window that owns it. -/
def Core.postPending (k : Core) (ac : Nat) : Bool := k.kq.any fun d =>
  d.opc == 0x32 && !d.null && decide (d.n < d.total) &&
  (((d.issued || d.since.isSome) && decide (d.aux 16 8 ≤ ac) && decide (ac < d.aux 16 8 + d.aux 35 9)) ||
   (d.since.isSome && (k.overlapped d).any fun w => decide (w.ac ≤ ac) && decide (ac < w.ac + w.tiles)))

/-- The value that an element takes from an arriving one (R375, R191). -/
def windowCombine (op f cur v : Nat) : Nat :=
  match op with
  | 0 => cleanBits f v
  | 1 => convert 0x10 ((decodeNum 0x10 cur).add (decodeNum 0x10 v))
  | 2 => convert f ((decodeNum f cur).max (decodeNum f v))
  | 3 => convert f ((decodeNum f cur).min (decodeNum f v))
  | 4 => cur ||| v
  | _ => cur &&& v

/-- An EXACT slot after a wire word (R382): sum in [60:0], class bits above. -/
def exactSlot (slot : Nat) (wire : BitVec 64) : Nat :=
  let s : BitVec 64 := BitVec.ofNat 64 slot
  let sum : BitVec 61 := s.truncate 61 + (wire.truncate 32).signExtend 61
  ((s.extractLsb' 61 3 ||| wire.extractLsb' 61 3) ++ sum).toNat

/-- A FAST slot after a BF16 value: filled flag in bit 32, FP32 below (R385). -/
def fastSlot (slot : Nat) (v : Nat) : Nat :=
  let x := decodeNum 0x0F v
  2 ^ 32 + (if slot / 2 ^ 32 % 2 = 0 then convert 0x10 x else convert 0x10 ((decodeNum 0x10 (slot % 2 ^ 32)).add x))

/-- The class of an arriving element suits the window (R377). -/
def Window.suits (w : Window) (cls f : Nat) : Bool :=
  match cls with
  | 0 => decide (w.op ≤ 5) && f == w.fmt
  | 1 => w.op == 6
  | _ => w.op == 7

/-- Poison at an element put by command `u` (R247, R381): a moved mark poisons the unit; a unit that the command has covered whole is clean. -/
def Mach.markPut (m : Mach) (c : Nat) (w : Window) (u pa nb : Nat) (poison : Bool) : Mach :=
  let un := unitOf pa
  if poison then (m.onDev fun d => d.poisonUnit un.1).onCore c fun k => k.onWindow w.ac fun w => { w with moved := (u, un.1) :: w.moved }
  else if !m.dev.poison.contains un.1 || w.moved.contains (u, un.1) then m
  else
    let cover := w.cover ++ (List.range nb).map fun i => (u, pa + i)
    if (List.range un.2).all fun i => cover.contains (u, un.1 + i) then
      (m.onDev fun d => d.cleanUnit un.1).onCore c fun k => k.onWindow w.ac fun w => { w with cover := cover.filter fun p => p.2 < un.1 || un.1 + un.2 ≤ p.2 }
    else m.onCore c fun k => k.onWindow w.ac fun w => { w with cover := cover }

/-- Units that lie whole in bytes just written by one operation of an engine are clean (R247). -/
def Mach.cleanWhole (m : Mach) (pa nb : Nat) : Mach :=
  m.onDev fun d => (d.poison.filter fun u => decide (pa ≤ u) && decide (u + (unitOf u).2 ≤ pa + nb)).foldl (fun d u => d.cleanUnit u) d

/-- Writes an element of a window, put or combined by command `u`, or a slot of its staging. -/
def Mach.applyElem (m : Mach) (c : Nat) (w : Window) (i u : Nat) (bits : BitVec 64) (poison : Bool) : Mach :=
  if 6 ≤ w.op then
    let a := localPa c (w.staging + 8 * i)
    let s := m.le a 8
    m.store a (leBytes 8 (if w.op = 6 then exactSlot s bits else fastSlot s bits.toNat))
  else
    let a := localPa c (w.base + w.esz * i)
    let m := m.store a (leBytes w.esz (windowCombine w.op w.fmt (m.le a w.esz) bits.toNat))
    -- a combined element is made from the old one, so it clears nothing (log entry 72)
    if poison || w.op = 0 then m.markPut c w u a w.esz poison else m

/-- An element has arrived in tile t; each E of them complete a contribution (R376). -/
def Core.countElem (k : Core) (w : Window) (t : Nat) : Core :=
  let n := w.counts.getD t 0 + 1
  let k := k.onWindow w.ac fun w => { w with counts := w.counts.set t n }
  if n % max 1 w.perTile ≠ 0 then k
  else if 6 ≤ w.op ∧ w.expect ≤ k.ac (w.ac + t) + 1 then k.onWindow w.ac fun w => { w with finishing := w.finishing ++ [t] }
  else (k.setAc (w.ac + t) (k.ac (w.ac + t) + 1)).serveAnys

/-- An arrival that cannot be applied sets ERR (R377). -/
def Core.windowErr (k : Core) (w : Window) : Core := k.onWindow w.ac fun w => { w with err := true }

/-- An element at a core whose window owns its counter: applied, or discarded (R375-R377), and consumed (R398). -/
def Mach.elemArrive (m : Mach) (c : Nat) (w : Window) (cls off f u : Nat) (bits : BitVec 64) (poison : Bool) : Mach :=
  let k := m.core c
  let m := m.onCore c fun k => { k with con := k.con + 1 }
  match w.place off with
  | none => m.onCore c (·.windowErr w)
  | some (t, e) =>
    let i := w.perTile * t + e
    if k.tileReady w t || !w.suits cls f || (w.op == 6 && !(w.exps.any fun p => p.1 == i / 32)) then m.onCore c (·.windowErr w)
    else (m.applyElem c w i u bits poison).onCore c fun k => k.countElem w t

/-- An exponent byte at the root (R382): one of a run that does not fill a block of the root is treated under R377; with the last one expected, the exponent
returns to every sender. -/
def Mach.byteArrive (m : Mach) (c : Nat) (w : Window) (job off byte src cmd block : Nat) (whole : Bool) : Mach :=
  match w.place off with
  | none => m.onCore c (·.windowErr w)
  | some (t, e) =>
    let b := (w.perTile * t + e) / 32
    if w.op ≠ 6 ∨ !whole ∨ e % 32 ≠ 0 ∨ (m.core c).tileReady w t ∨ (w.exps.any fun p => p.1 == b) then m.onCore c (·.windowErr w)
    else
      let pre := w.pre ++ [(b, byte, src, cmd, block)]
      let mine := pre.filter fun p => p.1 == b
      if mine.length < w.expect then m.onCore c fun k => k.onWindow w.ac fun w => { w with pre := pre }
      else
        let eb : Int := (mine.map fun p => p.2.1).foldl max 0 - 127
        let m := m.onCore c fun k => k.onWindow w.ac fun w => { w with pre := pre.filter fun p => p.1 != b, exps := w.exps ++ [(b, eb)] }
        mine.foldl (fun m p =>
          let x : Msg := { id := m.fresh, job := job, src := c, cmd := p.2.2.2.1, dst := p.2.2.1, kind := .expReturn p.2.2.2.2 eb, n := 0, size := 1, refused := false }
          (m.onDev fun v => { v with net := v.net ++ [x] }).bump) m

/-! ### Parking (R358, R359) -/

/-- Bytes that a message occupies in the parking area. -/
def Msg.area (x : Msg) : Nat := 64 + (x.size + 63) / 64 * 64

/-- The job's parking quota in bytes (R336). -/
def Job.quota (j : Job) : Nat := let p := launchField j.launch 928 32
  (if p = 0 then 16 else p) * 2 ^ 20

/-- The parking area has room for a message (R359). -/
def Job.parks (j : Job) (x : Msg) : Bool := decide ((j.parked.map Msg.area).foldl (· + ·) 0 + x.area ≤ j.quota)

/-- The hub parks a message, or refuses it and sends it back (R358, R359). -/
def Mach.park (m : Mach) (x : Msg) (replay : Bool) : Mach :=
  match m.job x.job with
  | none => m
  | some j =>
    if replay || j.parks x then m.onJob x.job fun b => { b with parked := b.parked ++ [{ x with arrived := none }] }
    else m.onDev fun v => { v with net := v.net ++ [{ x with refused := true }] }

/-! ### Active messages (R403-R405) -/

/-- The handler record of an active message, checked as `enq` checks it; none where a check fails (R403). The delivery waits for a lead page whose
translation the CXL home agent holds up (R364). -/
def Mach.buildHandler (m : Mach) (c : Nat) (a : Amsg) : Mach × Option Cmd :=
  let h := (((m.jobOf c).map (·.handlers)).getD []).getD a.slot 0xFFFF
  if h = 0xFFFF ∨ h % 64 ≠ 0 ∨ (m.core c).imgLen < h + 64 then (m, none)
  else
    let t := m.template c h
    let r := completeRecord t (BitVec.ofNat 64 a.pd) (BitVec.ofNat 64 a.ps)
    let opc := r.opc.toNat
    let q : Queue := if opc < 0x30 then .lq else .kq
    let own := ((0x10 ≤ opc ∧ opc ≤ 0x17) ∨ (0x30 ≤ opc ∧ opc ≤ 0x35)) ∧
      !(r.pop0.getLsbD 3 || r.pop1.getLsbD 3 || r.pop2.getLsbD 3) ∧ r.push = 0 ∧ !r.pub ∧ !r.null
    let b := m.plan ⟨c, 0, q, t, r, none, false, 0⟩
    if !decide own || (firstFailed b.conds).isSome || aliasBroken b.ops then (m, none)
    else
      let u := m.fresh
      if b.leads.any fun l => m.transBusy c l.2.1 l.2.2 (u, l.1) then ({ m with held := true }, none) else
      match m.leadPages c u b.leads with
      | (m, some _) => (m.onCore c (·.tlbRelease u), none)
      | (m, none) => (m.bump, some { mkCmd m u q r none none b false with handler := true })

/-- The interface of a core takes an active message: it is abandoned, or waits for its queue (R403, R405). -/
def Mach.takeAmsg (m : Mach) (c : Nat) (a : Amsg) : Mach :=
  match m.buildHandler c a with
  | (m, none) => m.onCore c Core.abandon
  | (m, some d) => m.onCore c fun k => { k with amsgs := k.amsgs ++ [d] }

/-- An active message for the core is parked. -/
def Mach.amsgParked (m : Mach) (x : Msg) : Bool :=
  match m.job x.job with
  | none => false
  | some j => j.parked.any fun y => y.dst == x.dst && (match y.kind with | .amsg _ => true | _ => false)

/-! ### Arrival -/

/-- The exponent of a block has returned to its sender (R382). -/
def Core.takeExponent (k : Core) (cmd block : Nat) (e : Int) : Core := k.onCmd cmd fun d => { d with exps := d.exps ++ [(block, e)] }

/-- A message reaches its receiver, or is replayed from the parking area: it takes effect, is parked, or is refused (R358, R411). -/
def Mach.msgArrive (m : Mach) (x : Msg) (replay : Bool) : Mach :=
  if (m.job x.job).isNone then m
  else if !m.receives x then m.park x replay
  else
    let c := x.dst
    let k := m.core c
    match x.kind with
    | .elem cls ac off f bits poison => match k.window ac with
      | some w => if k.postPending ac then m.park x replay else m.elemArrive c w cls off f x.cmd bits poison
      | none => m.park x replay
    | .expByte ac off byte block whole => match k.window ac with
      | some w => if k.postPending ac then m.park x replay else m.byteArrive c w x.job off byte x.src x.cmd block whole
      | none => m.park x replay
    | .expReturn block e => m.onCore c (·.takeExponent x.cmd block e)
    | .merge ac off data => (m.mergeArrival c off data).onCore c fun k =>
      (({ k with con := k.con + 1, cabinetAt := some (m.dev.now, x.src) }).setAc ac (k.ac ac + 1)).serveAnys
    | .amsg a => if 64 ≤ k.amsgs.length ∨ (!replay && m.amsgParked x) then m.park x replay else m.takeAmsg c a

/-- An `smrg` arrival. -/
def MsgKind.merges : MsgKind → Bool
  | .merge .. => true
  | _ => false

/-- Of merges that a Cabinet has accepted, y goes before x: accepted in an earlier cycle, or in the same one from a lower core (R271, R316). -/
def Msg.before (y x : Msg) : Bool :=
  match y.arrived, x.arrived with
  | some a, some b => decide (a < b) || (a == b && decide (y.src < x.src))
  | some _, none => true
  | none, _ => false

/-- The messages that left before one. -/
def Mach.sentBefore (m : Mach) (x : Msg) : List Msg := m.dev.net.takeWhile fun y => y.id != x.id

/-- A merge can be made now: the Cabinet is in a gap, and none that it has accepted goes before (R271, R316, R330). -/
def Mach.mergeTurn (m : Mach) (x : Msg) : Bool :=
  (m.core x.dst).mayMerge m.dev.now x.src &&
  !(m.dev.net.any fun y => y.id != x.id && y.dst == x.dst && y.before x) && (m.sentBefore x).all fun y => y.src != x.src || y.dst != x.dst || !y.accepted

/-- A message can reach its receiver now: the earlier ones of its sender to the same receiver have; a merge that has been accepted can be made in its turn
(R271, R316, R330, R379). -/
def Mach.msgReady (m : Mach) (x : Msg) : Bool :=
  !x.refused && (m.sentBefore x).all (fun y => y.src != x.src || y.dst != x.dst || y.refused || y.accepted) &&
  (!x.accepted || m.mergeTurn x)

def Mach.msg (m : Mach) (id : Nat) : Option Msg := m.dev.net.find? fun x => x.id == id

def Mach.dropMsg (m : Mach) (id : Nat) : Mach := m.onDev fun d => { d with net := d.net.filter fun x => x.id != id }

/-- The receiver's interface accepts a merge whose turn at the Cabinet has not come (R271, R327). -/
def Mach.acceptMsg (m : Mach) (id : Nat) : Mach :=
  m.onDev fun d => { d with net := d.net.map fun x => if x.id = id then { x with arrived := some d.now } else x }

/-- Lets a message of a kind arrive. -/
def Mach.deliverMsg (m : Mach) (id : Nat) (kind : MsgKind → Bool) : Mach :=
  match m.msg id with
  | none => m
  | some x =>
    if !kind x.kind || !m.msgReady x then m
    else if x.kind.merges && m.receives x && !m.mergeTurn x then m.acceptMsg id
    else (m.dropMsg id).msgArrive x false

/-- `MESSAGE_APPLY` (R375-R377, R358). -/
def execMessageApply (id : Nat) : State → Result := lift fun m => m.deliverMsg id fun k => match k with | .elem .. => true | _ => false

/-- `EXPONENT_BYTE_ARRIVE` (R382). -/
def execExponentByteArrive (id : Nat) : State → Result := lift fun m => m.deliverMsg id fun k => match k with | .expByte .. => true | _ => false

/-- `EXPONENT_RETURN_ARRIVE` (R382). -/
def execExponentReturnArrive (id : Nat) : State → Result := lift fun m => m.deliverMsg id fun k => match k with | .expReturn .. => true | _ => false

/-- `ARRIVAL_MERGE` (R271, R316, R327). -/
def execArrivalMerge (id : Nat) : State → Result := lift fun m => m.deliverMsg id fun k => match k with | .merge .. => true | _ => false

/-- `AMSG_DELIVER` (R403). -/
def execAmsgDeliver (id : Nat) : State → Result := liftHub fun m => m.deliverMsg id fun k => match k with | .amsg _ => true | _ => false

/-- Counted messages (R398). -/
def MsgKind.counted : MsgKind → Bool
  | .elem .. => true
  | .merge .. => true
  | .amsg _ => true
  | _ => false

/-- A refused exponent may be returned again: its receiver runs, or the parking area has room (log entry 21). -/
def Mach.mayReturn (m : Mach) (x : Msg) : Bool := m.receives x || (m.job x.job).any fun j => j.parks x

/-- `PARK_FULL` (R359): a refusal reaches the sender, whose command stops sending; its fault follows when nothing of it is in flight. A returned exponent is no
transfer of a command: its sender returns it again (log entry 21). -/
def execParkFull (id : Nat) : State → Result :=
  lift fun m => match m.msg id with
    | none => m
    | some x =>
      if x.refused && (m.core x.src).life == .running && (m.core x.src).job == some x.job then
        if (match x.kind with | .expReturn .. => true | _ => false) then
          if m.mayReturn x then (m.dropMsg id).onDev fun d => { d with net := d.net ++ [{ x with refused := false }] } else m
        else (m.dropMsg id).onCore x.src fun k =>
          (if x.kind.counted then { k with inj := k.inj - 1 } else k).onCmd x.cmd fun d => { d with refused := d.refused ++ [(x.n, x.dst)] }
      else m

/-- Replays parked messages of a core, in order of arrival (R358). -/
def Mach.replay (m : Mach) (c : Nat) (pick : Msg → Bool) : Mach :=
  match (m.core c).job with
  | none => m
  | some j =>
    let sel (x : Msg) : Bool := x.dst == c && pick x
    let old := ((m.job j).map (·.parked)).getD []
    (old.filter sel).foldl (fun m x => m.msgArrive x true) (m.onJob j fun b => { b with parked := b.parked.filter fun x => !sel x })

/-- A core that had become free runs again: the time between does not count in `BUDGETUSED`, the time of its handler record does (R350, R403). -/
def Core.charge (k : Core) (now : Nat) : Core := match k.freeAt with
  | some t => { k with startAt := k.startAt + (now - t), freeAt := none }
  | none => k

/-- A place of the interface has freed: the oldest parked messages are delivered, each that is abandoned leaving the place to the next (R403). -/
def Mach.refillAmsgs (m : Mach) (c : Nat) : Mach :=
  match (m.core c).job.bind m.job with
  | none => m
  | some j => (j.parked.filter fun x => x.dst == c && (match x.kind with | .amsg _ => true | _ => false)).foldl (fun m x =>
      if (m.core c).amsgs.length < 64 then m.replay c fun y => y.id == x.id else m) m

/-- The oldest handler record at the interface enters its queue, and the place goes to the oldest parked message. -/
def Mach.enqueueHandler (m : Mach) (c : Nat) : Mach :=
  let k := m.core c
  match k.amsgs with
  | [] => m
  | d :: rest =>
    if k.life != .running || k.queueFull d.q then m
    else
      let now := m.dev.now
      (m.onCore c fun k => (({ k with amsgs := rest }).charge now).append d none now).refillAmsgs c

/-- `AMSG_HANDLER_ENQUEUE` (R403). -/
def execAmsgHandlerEnqueue (c : CoreId) : State → Result := liftHub fun m => m.enqueueHandler c.toNat

/-! ### Finishing tiles (R382, R385) -/

/-- An EXACT slot rounded once (R382). -/
def exactValue (slot : Nat) (eb : Int) : Nat :=
  let s : BitVec 64 := BitVec.ofNat 64 slot
  let sum : Int := (s.truncate 61).toInt
  if s.getLsbD 63 || (s.getLsbD 62 && s.getLsbD 61) then 0x7FC00000
  else if s.getLsbD 62 then 0x7F800000
  else if s.getLsbD 61 then 0xFF800000
  else convert 0x10 (Num.real (Ex.dyadic sum (eb - 30)))

/-- The finish of a tile: results into the tile, slots zero, and the increment that was held back (R331, R376); merges may have counted meanwhile (R271). -/
def Mach.finishTile (m : Mach) (c ac op : Nat) : Mach :=
  match (m.core c).window ac with
  | none => m
  | some w =>
    let t := ac - w.ac
    if w.op ≠ op ∨ !w.finishing.contains t then m
    else
      let e := w.perTile
      let slots := (List.range e).map fun i => m.le (localPa c (w.staging + 8 * (e * t + i))) 8
      let vals := slots.mapIdx fun i s =>
        if op = 6 then exactValue s (((w.exps.find? fun p => p.1 == (e * t + i) / 32).map (·.2)).getD 0) else s % 2 ^ 32
      let m := (m.store (localPa c (w.base + w.tile * t)) (vals.flatMap (leBytes 4))).cleanWhole (localPa c (w.base + w.tile * t)) (4 * e)
      let m := (m.store (localPa c (w.staging + 8 * e * t)) (List.replicate (8 * e) 0)).cleanWhole (localPa c (w.staging + 8 * e * t)) (8 * e)
      m.onCore c fun k => ((k.onWindow ac fun w => { w with finishing := w.finishing.filter (· != t) }).setAc ac (k.ac ac + 1)).serveAnys

/-- `EXACT_TILE_FINISH` (R382). -/
def execExactTileFinish (c : CoreId) (ac : BitVec 8) : State → Result := lift fun m => m.finishTile c.toNat ac.toNat 6

/-- `FAST_TILE_FINISH` (R385). -/
def execFastTileFinish (c : CoreId) (ac : BitVec 8) : State → Result := lift fun m => m.finishTile c.toNat ac.toNat 7

/-! ### The commands -/

/-- The window that an `rxpost` posts (R372). -/
def Cmd.posted (d : Cmd) : Window :=
  let tiles := d.aux 35 9
  let staging := match d.work with | .record r => baseLow r.sbase | .vec .. => 0
  { base := d.destBase, tile := d.aux 44 20, tiles := tiles, expect := d.aux 24 11, ac := d.aux 16 8, fmt := d.aux 11 5, op := d.aux 8 3, staging := staging
    err := false, counts := List.replicate tiles 0, pre := [], exps := [], finishing := [], cover := [], moved := [] }

/-- `rxpost` (R374): staging is zeroed, counters and claims are cleared, the window is posted and its parked messages are replayed. -/
def elRxpost (c : Nat) (d : Cmd) : El Unit := do
  El.chaseElem c d 0 0
  let w := d.posted
  El.change fun m => if 6 ≤ w.op then m.putBytes c d.uid (localPa c w.staging) (List.replicate (8 * w.perTile * w.tiles) 0) else m
  El.cmd c d fun e => { e with n := 1 }
  El.change fun m =>
    let acs := (List.range w.tiles).map (w.ac + ·)
    let m := m.onCore c fun k =>
      ({ k with acs := k.acs.filter fun p => !acs.contains p.1, claims := k.claims.filter fun n => !acs.contains n, windows := k.windows ++ [w] }).latchAll
    m.replay c fun x => match x.kind with
      | .elem _ ac .. => acs.contains ac
      | .expByte ac .. => acs.contains ac
      | _ => false

/-- The refused transfers of a command are reported once nothing of it is in flight: `PARK_FULL` at the first of them (R359). -/
def Mach.reportRefusal (m : Mach) (c : Nat) (d : Cmd) : Mach :=
  match d.refused with
  | [] => m
  | r :: rest =>
    if d.fault.isSome || m.inFlight c d.uid then m
    else
      let first := rest.foldl (fun a b => if b.1 < a.1 then b else a) r
      m.faultAt c d (first.1 / 2) Cause.parkFull (BitVec.ofNat 64 first.2)

/-- The next piece of work of a sending command. -/
def Mach.sendStep (m : Mach) (c u : Nat) (kind : Cmd → Bool) (f : Nat → Cmd → El Unit) : Mach :=
  match (m.core c).cmd u with
  | none => m
  | some d => if kind d && !d.refused.isEmpty then m.reportRefusal c d else m.engineStep c u kind f

/-- The class of a `cred` is EXACT. -/
def Cmd.exact (d : Cmd) : Bool := d.mod % 8 == 0

/-- `cput` (R378, R379, R381). -/
def execCput (c : CoreId) (u : Nat) : State → Result := lift fun m => m.sendStep c.toNat u (Cmd.isOpc 0x30) elPut

/-- `cred` of class EXACT (R382, R383). -/
def execCredExact (c : CoreId) (u : Nat) : State → Result := lift fun m => m.sendStep c.toNat u (fun d => d.isOpc 0x31 && d.exact) elExact

/-- `cred` of class FAST (R385). -/
def execCredFast (c : CoreId) (u : Nat) : State → Result := lift fun m => m.sendStep c.toNat u (fun d => d.isOpc 0x31 && !d.exact) elFast

/-- `rxpost` (R372-R374). -/
def execRxpost (c : CoreId) (u : Nat) : State → Result := lift fun m => m.sendStep c.toNat u (Cmd.isOpc 0x32) elRxpost

/-- `tsend` (R390-R393). -/
def execTsend (c : CoreId) (u : Nat) : State → Result := lift fun m => m.sendStep c.toNat u (Cmd.isOpc 0x33) elPut

/-- `amsg` (R402). -/
def execAmsg (c : CoreId) (u : Nat) : State → Result := lift fun m => m.sendStep c.toNat u (Cmd.isOpc 0x34) elAmsg

/-- `smrg` (R326, R327). -/
def execSmrg (c : CoreId) (u : Nat) : State → Result := lift fun m => m.sendStep c.toNat u (Cmd.isOpc 0x35) elSmrg

/-- The trigger of an armed `tsend` holds (R391). -/
def Core.mayFire (k : Core) (d : Cmd) : Bool := d.opc == 0x33 && !d.null && d.issued && !d.fired && !d.stopped && decide (d.aux 16 32 ≤ k.ac (d.aux 56 8))

/-- The armed sends that are due, in SEQ order (R391). -/
def Core.dueSends (k : Core) : List Cmd := k.kq.filter k.mayFire

/-- The first armed send that is due fires. -/
def Core.fire (k : Core) : Core :=
  match k.dueSends with
  | [] => k
  | d :: _ => k.onCmd d.uid fun e => { e with fired := true }

/-- `TSEND_FIRE` (R391): a send fires when it is the first that is due, in SEQ order. -/
def execTsendFire (c : CoreId) (u : Nat) : State → Result :=
  lift fun m => m.onCore c.toNat fun k => if k.dueSends.head?.any fun d => d.uid == u then k.fire else k

/-- 2^30 cycles have passed without the exponent of the sender's block (R384, R360). -/
def Cmd.collExpired (d : Cmd) (now : Nat) : Bool :=
  match d.since, d.paused with
  | some s, none => d.opc == 0x31 && d.working && (d.exponent (d.transfer / 32)).isNone && decide (2 ^ 30 ≤ now - s)
  | _, _ => false

/-- `COLL_TIMEOUT` (R384). -/
def execCollTimeout (c : CoreId) (u : Nat) : State → Result :=
  lift fun m => match (m.core c.toNat).cmd u with
    | none => m
    | some d => if d.collExpired m.dev.now then m.faultCmd c.toNat d Cause.collTimeout (BitVec.ofNat 64 (d.aux 56 8)) else m

/-! ### Waits on counters (R333, R386, R387) -/

/-- The window of a counter with ERR, by its DBASE (R377). -/
def Core.acError (k : Core) (n : Nat) : Option Word := match k.window n with | some w => if w.err then some (BitVec.ofNat 64 w.base) else none | none => none

/-- `acwait` (R386). -/
def execAcwait (a : Reg) (n : BitVec 8) (g : Guard) : State → Result :=
  lift fun m => m.guarded g fun m =>
    let v := m.cur.reg a
    if v.extractLsb' 32 32 ≠ 0 then m.trap Cause.reservedField m.instrWord
    else match m.here.acError n.toNat with
      | some b => m.trap Cause.access b
      | none => if (v.extractLsb' 0 32).toNat ≤ m.here.ac n.toNat then m.fin4 id else m

/-- `acany` (R333, R387): an RQ entry, filled at once or when a counter of its range can be claimed. -/
def execAcany (a : Reg) (n : BitVec 8) (g : Guard) : State → Result :=
  lift fun m => m.guarded g fun m =>
    let v := m.cur.reg a
    let count := (v.extractLsb' 0 9).toNat
    if v.extractLsb' 9 55 ≠ 0 ∨ count = 0 ∨ 256 < count ∨ 256 < n.toNat + count then m.illegal
    else if m.cur.rqFull then m.trap Cause.illegal (limitTval 0x11)
    else match ((List.range count).map (n.toNat + ·)).findSome? m.here.acError with
      | some b => m.trap Cause.access b
      | none =>
        let u := m.fresh
        let k := m.kid
        ((m.fin4 fun x => x.rqAlloc u).onHere fun c => ({ c with anys := c.anys ++ [AnyWait.mk k n.toNat count u] }).serveAnys).bump

end Sys2Proof.Machine
end

