-- ==== Sys2Proof/Machine/Engine.lean ====
section
/-! DEFINITION. The engines at large: issue (R149, R63, R215, R253, R284, R374), the next element of any command, refetches (R186), gang parts (R185), the chase
monitor (R56, R57), the Footstool (R259), signatures (R261, R262), the watchdog (R350), and errors of the hardware (R246, R364, R409, R419). -/

namespace Sys2Proof.Machine

/-! ### Issue -/

/-- The core's engines run (R355). -/
def Core.engines (c : Core) : Bool := c.life == .running || c.life == .stopping

/-- Commands of a queue that have issued and not retired, other than armed sends. -/
def Core.inProgress (c : Core) (q : Queue) : List Cmd := (c.queue q).filter fun d => d.issued && !(d.opc == 0x33 && !d.null && !d.fired)

/-- `seat` or `seats`. -/
def Cmd.loadsSeat (d : Cmd) : Bool := d.opc == 0x20 || d.opc == 0x21

/-- The command uses a seat (R215). -/
def Cmd.usesSeat (d : Cmd) (s : Nat) : Bool := (d.loadsSeat || d.opc == 0x22) && d.seatNo == s

/-- Two matrix commands may run alongside each other (R215). -/
def Cmd.alongside (d e : Cmd) : Bool := (d.loadsSeat && !e.usesSeat d.seatNo) || (e.loadsSeat && !d.usesSeat e.seatNo)

/-- The command's engine has a place for it (R150, R215, R253, R284, R374). -/
def Core.engineFree (c : Core) (d : Cmd) : Bool :=
  let busy := c.inProgress d.q
  match d.q with
  | .lq => decide (busy.length < 4)
  | .sq => decide (busy.length < 4) && (match d.phase with | some n => !c.guarded n || !c.uncommitted n | none => true)
  | .mq => match busy with
    | [] => true
    | [e] => d.alongside e
    | _ => false
  | .vq => match busy with
    | [] => true
    | [e] => decide (e.total ≤ e.n)
    | _ => false
  | .kq => decide (busy.length < 4) && !(c.kq.any fun e => e.issued && e.opc == 0x32)

/-- Every FIFO that the command pops from holds enough tokens (R149). -/
def Core.tokensFor (c : Core) (d : Cmd) : Bool := d.pops.all fun p => decide (((d.pops.filter (· == p)).length : Int) ≤ c.tok p (queueNum d.q))

/-- The publish slot of a command with PUB = 1. -/
def Cmd.pub (d : Cmd) : Option Nat := match d.work with | .record r => if r.pub && !d.refetch then some r.pslot.toNat else none | .vec .. => none

/-- The earlier command that holds the command's publish slot (R63). -/
def Core.slotHolder (c : Core) (d : Cmd) : Option Nat :=
  match d.pub.bind c.slot with
  | none => none
  | some s => if !s.complete && s.uid != d.uid && (c.cmd s.uid).isSome then some s.uid else none

/-- The command may issue (R149): none ahead of it in its queue is unissued, or faulted (R11). -/
def Core.mayIssue (c : Core) (d : Cmd) : Bool :=
  c.engines && !d.issued && d.fault.isNone && !d.stopped && d.ready && (c.ahead d).all (fun e => e.issued && e.fault.isNone) && (d.refetch || c.tokensFor d) &&
  (c.slotHolder d).isNone && c.engineFree d

/-- An `rxpost` waits for the tile finishes of the windows that it is to unpost (R374). -/
def Core.waitsFinish (c : Core) (d : Cmd) : Bool := d.opc == 0x32 && !d.null && (c.overlapped d).any fun w => !w.finishing.isEmpty

/-- The counters of windows that an `rxpost` is to unpost whose tile finish is in progress (R374). -/
def Core.finishingAcs (c : Core) (d : Cmd) : List Nat := (c.overlapped d).flatMap fun w => w.finishing.map fun t => w.ac + t

/-- An `rxpost` begins its wait at issue, and notes the counters that the unposting is to set to 0 (R374). -/
def Core.awaitFinish (c : Core) (d : Cmd) (now : Nat) : Core :=
  let acs := (c.finishingAcs d).map (BitVec.ofNat 64 ·)
  c.onCmd d.uid fun e => if e.since.isSome then e else { e with since := some now, acc := acs }

/-- The windows that an `rxpost` takes counters of are unposted, and the counters whose finish it waited for are 0 (R374). -/
def Core.unpost (c : Core) (d : Cmd) : Core :=
  let old := c.overlapped d
  let acs := d.acc.map (·.toNat)
  let c := { c with windows := c.windows.filter fun w => !old.contains w }
  let c := if acs.isEmpty then c else { c with acs := c.acs.filter fun p => !acs.contains p.1 }.latchAll
  c.onCmd d.uid fun e => { e with acc := [] }

/-- What issue changes on the core: tokens popped, slot bound, seat EMPTY, windows unposted (R149, R61, R254, R214, R374). -/
def Core.issueCmd (c : Core) (d : Cmd) : Core :=
  let t := queueNum d.q
  let c := if d.refetch then c else d.pops.foldl (fun c p => (c.tokTake p t (.cmd d.uid)).tokNote d.phase p t false []) c
  let c := match d.pub with
    | none => c
    | some k => let c := c.bindSlot k d
      if d.phase.isSome then c.irrevoke else c
  let c := if d.loadsSeat && !d.null then c.setSeat d.seatNo Seat.empty else c
  let c := if d.opc == 0x32 && !d.null then c.unpost d else c
  c.onCmd d.uid fun e => { e with issued := true, since := none }

/-- The command may issue now: not once `DRAINLIM` has expired on a core that stops (R180), and a part of a gang only while no member's part is away (R233). -/
def Mach.mayIssue (m : Mach) (c : Nat) (d : Cmd) : Bool :=
  (m.core c).mayIssue d && !(m.core c).drained m.dev.now && !(d.gang.any (m.gangAway c))

/-- Issues a command, or lets an `rxpost` begin its wait at issue. -/
def Mach.issue (m : Mach) (c : Nat) (d : Cmd) : Mach :=
  let k := m.core c
  if !m.mayIssue c d then m
  else if k.waitsFinish d then
    let now := m.dev.now
    m.onCore c fun k => k.awaitFinish d now
  else
    let m := m.onCore c fun k => k.issueCmd d
    if d.pub.isSome then m.latchCluster c else m

/-- `COMMAND_ISSUE` (R149). -/
def execCommandIssue (c : CoreId) (u : Nat) : State → Result :=
  lift fun m => match (m.core c.toNat).cmd u with
    | none => m
    | some d => m.issue c.toNat d

/-! ### Elements -/

/-- What one element of a record's opcode does. -/
def elRecord (d : Cmd) : Nat → Cmd → El Unit :=
  match d.opc with
  | 0x12 => elGather false
  | 0x13 => elGather true
  | 0x14 => elScatter
  | 0x15 => elScattera
  | 0x20 => elSeat false
  | 0x21 => elSeat true
  | 0x22 => elMmul
  | 0x23 => elDrain
  | 0x24 => if d.stat then elTzeroStat else elTzero
  | 0x25 => elTcopy
  | 0x30 => elPut
  | 0x31 => if d.exact then elExact else elFast
  | 0x32 => elRxpost
  | 0x33 => elPut
  | 0x34 => elAmsg
  | 0x35 => elSmrg
  | _ => elOrdered

/-- What one element of a command does. -/
def elementOf (d : Cmd) : Nat → Cmd → El Unit :=
  match d.work with
  | .record _ => elRecord d
  | .vec .. => if d.cabinet then elCabinet else elVector

/-- The next piece of work of a command (R149, R151). -/
def Mach.engine (m : Mach) (c u : Nat) : Mach :=
  match (m.core c).cmd u with
  | none => m
  | some d => if d.q = .kq then m.sendStep c u (fun _ => true) (elementOf d) else m.engineStep c u (fun _ => true) (elementOf d)

/-- `ENGINE_ELEMENT` (R151). -/
def execEngineElement (c : CoreId) (u : Nat) : State → Result := lift fun m => m.engine c.toNat u

/-- `REFETCH` (R186): a kept record runs again, from element 0. -/
def execRefetch (c : CoreId) (u : Nat) : State → Result :=
  lift fun m => match (m.core c.toNat).cmd u with
    | none => m
    | some d => if !d.refetch then m else if d.issued then m.engine c.toNat u else m.issue c.toNat d

/-- The refetches that a gang part waits for have ended (R185). -/
def Core.refetched (k : Core) (d : Cmd) : Bool :=
  match d.refetchWait with
  | none => false
  | some w => w.1.all fun u => (k.cmd u).isNone

/-- `GANG_PART_CONTINUE` (R185). -/
def execGangPartContinue (c : CoreId) (u : Nat) : State → Result :=
  lift fun m => m.onCore c.toNat fun k => match k.cmd u with
    | none => k
    | some d => if k.refetched d then k.onCmd u fun e => { e with refetchWait := none } else k

/-! ### The chase monitor (R56, R57) -/

/-- The next piece of work of a command: what its operation does, or what a nullified command does (R351). -/
def nextWork (c : Nat) (d : Cmd) : El Unit := if d.null then El.nullElement c d else elementOf d c d

/-- The entries that the operands of a command's next piece of work chase: those of the operand that it meets first, then, with that operand's edges let
through, those of the next. Where an index is still to be read, the operand that it chooses chases nothing yet. -/
def Mach.chasedFrom (m : Mach) (c : Nat) : Nat → Cmd → List Nat
  | 0, _ => []
  | k + 1, d => match ((nextWork c d).run.run m).1 with
    | .error (.chase op l) =>
      if 0x12 ≤ d.opc && d.opc ≤ 0x15 && op == 2 then l
      else l ++ m.chasedFrom c k { d with edges := d.edges.filter fun e => e.own != op }
    | _ => []

/-- What holds back the next element of a command: the entries that its operands chase (R56). -/
def Mach.chased (m : Mach) (c : Nat) (d : Cmd) : List Nat := if d.working then m.chasedFrom c (d.ops.length + 1) d else []

/-- The instruction at a context's PC, where the bytes of the image decode to one. -/
def Mach.instrAt (m : Mach) (c : Nat) (k : CtxId) : Option Instr :=
  let pc := ((m.core c).ctx k).pc.toNat
  if (m.core c).imgLen < pc + 4 then none
  else match decode (m.bytes (localPa c (0x300000 + pc)) 8) with
    | .ok (i, _) => some i
    | .error _ => none

/-- The oldest unretired command of a queue whose PUSH names an endpoint (R56). -/
def Core.pusher (k : Core) (q t : Nat) : Option Cmd :=
  match allQueues[q]? with
  | none => none
  | some q => (k.queue q).find? fun d => d.push.contains t

/-- Nodes of the wait graph: commands and contexts. -/
def cmdNode (u : Nat) : Nat := 2 * u

def ctxNode (k : CtxId) : Nat := 2 * ctxNum k + 1

/-- The commands that a local access of a context waits for at its chase point. -/
def Core.scalarBlock (k : Core) (a : Option (Nat × Nat × Bool)) : List Nat :=
  match a with
  | none => []
  | some (ea, size, write) => k.blockers (scalarEdges k (.core k.id) ea (ea + size) write) 0 ea (ea + size)

/-- The local access that an instruction makes: address, size, whether it is a store (R112). -/
def localAccess (x : Ctx) (i : Instr) : Option (Nat × Nat × Bool) :=
  let acc (a : Reg) (off : BitVec 12) (g : Guard) (size : Nat) (write : Bool) : Option (Nat × Nat × Bool) :=
    let ea := localEa x a off size
    if x.guard g && (localCheck ea size write).isNone then some (ea.toNat, size, write) else none
  match i with
  | .ldb _ a off g => acc a off g 1 false
  | .ldh _ a off g => acc a off g 2 false
  | .ldw _ a off g => acc a off g 4 false
  | .ldd _ a off g => acc a off g 8 false
  | .ldbu _ a off g => acc a off g 1 false
  | .ldhu _ a off g => acc a off g 2 false
  | .ldwu _ a off g => acc a off g 4 false
  | .stb _ a off g => acc a off g 1 true
  | .sth _ a off g => acc a off g 2 true
  | .stw _ a off g => acc a off g 4 true
  | .std _ a off g => acc a off g 8 true
  | _ => none

/-- The commands that a stalled context waits for, and whether it is a node at all (R56). -/
def Mach.ctxArcs (m : Mach) (c : Nat) (k : CtxId) : Bool × List Nat :=
  let d := m.core c
  let x := d.ctx k
  if x.done || x.held.isSome || (!x.efq.isEmpty && !x.inh) then (false, [])
  else match m.instrAt c k with
    | some (.tokwait prod g) =>
      if x.guard g && decide (d.tok prod.toNat (ctxEndpoint k) ≤ 0) then (true, ((d.pusher prod.toNat (ctxEndpoint k)).map (·.uid)).toList) else (false, [])
    | some (.fwait a mode slot g) =>
      -- the awaited command, whether it has issued or not
      if x.guard g && (mode != .cslot || Desc.core (x.reg a) == c % 32) && !m.fwaitOk c mode c slot.toNat (x.reg a) then
        (true, ((d.cmdSeq (Desc.seq (x.reg a))).map (·.uid)).toList)
      else (false, [])
    | some i => let l := d.scalarBlock (localAccess x i)
      (!l.isEmpty, l)
    | none => (false, [])

/-- The arcs of a command (R56). -/
def Mach.cmdArcs (m : Mach) (c : Nat) (ctxs : List CtxId) (d : Cmd) : List Nat :=
  let k := m.core c
  if d.fault.isSome then []
  else
    let behind := match (k.ahead d).getLast? with | some e => [cmdNode e.uid] | none => []
    let pops := if d.issued || d.refetch then [] else (d.pops.filter fun p => decide (k.tok p (queueNum d.q) < ((d.pops.filter (· == p)).length : Int))).flatMap fun p =>
      match endpointCtx p with
      | some x => if ctxs.contains x then [ctxNode x] else []
      | none => ((k.pusher p (queueNum d.q)).map fun e => cmdNode e.uid).toList
    let slot := if d.issued then [] else ((k.slotHolder d).map cmdNode).toList
    let push := if d.finished && d.gang.isNone then (d.push.filter fun t => !k.tokRoom (queueNum d.q) t).flatMap fun t => match allQueues[t]? with
        | some q => (((k.queue q).head?).map fun e => cmdNode e.uid).toList
        | none => []
      else []
    behind ++ pops ++ slot ++ push ++ (m.chased c d).map cmdNode

/-- The wait graph of a core (R56). -/
def Mach.waitArcs (m : Mach) (c : Nat) : List (Nat × Nat) :=
  let k := m.core c
  if k.cmds.isEmpty then []
  else
    let xs := (allCtx.map fun x => (x, m.ctxArcs c x)).filter fun p => p.2.1
    (xs.flatMap fun p => p.2.2.map fun u => (ctxNode p.1, cmdNode u)) ++ k.cmds.flatMap fun d => (m.cmdArcs c (xs.map (·.1)) d).map fun t => (cmdNode d.uid, t)

/-- The arcs with the cycle since which they have held without a break. -/
def Mach.agedArcs (m : Mach) (c : Nat) : List (Nat × Nat × Nat) :=
  (m.waitArcs c).dedup.map fun a => match (m.core c).arcs.find? fun b => b.1 == a.1 && b.2.1 == a.2 with
    | some b => b
    | none => (a.1, a.2, m.dev.now)

/-- The nodes that can be reached along arcs. -/
def reach (arcs : List (Nat × Nat × Nat)) : Nat → List Nat → List Nat
  | 0, s => s
  | n + 1, s => reach arcs n (s ++ ((arcs.filter fun a => s.contains a.1 && !s.contains a.2.1).map (·.2.1)).dedup)

/-- Commands by order of enqueue (R57). -/
def Cmd.older (d e : Cmd) : Bool := decide (d.born < e.born) || (d.born == e.born && decide (d.uid ≤ e.uid))

/-- The command is the oldest of some cycle of arcs: it reaches itself through contexts and commands that are not older. -/
def oldestOfCycle (arcs : List (Nat × Nat × Nat)) (ds : List Cmd) (d : Cmd) : Bool :=
  let barred := (ds.filter fun e => !d.older e).map fun e => cmdNode e.uid
  let arcs := arcs.filter fun a => !barred.contains a.1 && !barred.contains a.2.1
  (reach arcs arcs.length ((arcs.filter fun a => a.1 == cmdNode d.uid).map (·.2.1))).contains (cmdNode d.uid)

/-- The oldest command of each cycle whose arcs have all held for 256 cycles, oldest first (R57). -/
def Mach.chaseVictims (m : Mach) (c : Nat) : List Cmd :=
  let old := (m.core c).arcs.filter fun a => decide (256 ≤ m.dev.now - a.2.2)
  let ds := (m.core c).cmds.filter fun d => d.fault.isNone
  sortBy Cmd.older (ds.filter (oldestOfCycle old ds))

/-- `CHASE_CYCLE` (R56, R57): the monitor takes note of the waits; the oldest command of a cycle that has stood for 256 cycles faults, or waits to where its
queue holds a faulted command (R152). -/
def execChaseCycle (c : CoreId) : State → Result :=
  lift fun m =>
    let arcs := m.agedArcs c.toNat
    let m := m.onCore c.toNat fun k => { k with arcs := arcs }
    (m.chaseVictims c.toNat).foldl (fun m d => m.faultCmd c.toNat d Cause.chaseCycle (d.seq.zeroExtend 64)) m

/-! ### The Footstool (R259) -/

/-- Four cycles have passed since the `enq` or the issue (R259). -/
def fourLater (born now : Nat) : Bool := decide (born + 4 ≤ now)

/-- A command at the head of its queue is to be compared: every command ahead of it has issued, and it has not. -/
def Core.comparesCmd (k : Core) (d : Cmd) (now : Nat) : Bool := !d.ready && fourLater d.born now && (k.ahead d).all (·.issued)

/-- A system access is to be compared: every earlier one of the core has been. -/
def Core.comparesAcc (k : Core) (a : Acc) (now : Nat) : Bool := !a.ready && fourLater a.born now && (earlierAccs k.accs a.uid).all (·.ready)

/-- `FOOTSTOOL_COMPARE` (R259, R260): a command or a system access agrees with its second execution and may go on, or a mismatch is counted; one that a
cancellation of this cycle has squashed still counts (R257). -/
def execFootstoolCompare (c : CoreId) (u : Nat) (differ : Bool) : State → Result :=
  lift fun m =>
    let k := m.core c.toNat
    if !k.checked then m
    else match k.cmd u with
      | some d =>
        if !k.comparesCmd d m.dev.now then m
        else if differ then m.mismatch c.toNat d.during
        else m.onCore c.toNat fun k => k.onCmd u fun e => { e with ready := true }
      | none => match k.acc u with
        | some a =>
          if !k.comparesAcc a m.dev.now then m
          else if differ then m.mismatch c.toNat a.phase
          else m.onCore c.toNat fun k => k.onAcc u fun e => { e with ready := true }
        | none => match m.cancelling c.toNat with
          | some (n, gone) => if differ && gone.contains u then m.mismatch c.toNat n else m
          | none => m

/-! ### Paired execution (R261-R263) -/

/-- The bytes that an element of an SQ command would write (R261). -/
def El.signed (c : Nat) (d : Cmd) : El (List Byte) := do
  let bytes (f bits : Nat) : List Byte := leBytes ((fmtNibs f + 1) / 2) (if d.opc = 0x10 then bits else cleanBits f bits)
  match d.opc with
  | 0x16 => pure (bytes (d.aux 0 5) (d.aux 32 32))
  | 0x11 => do
    let g ← El.readElem c d d.dsts d.n
    pure (bytes 0x06 (widen (d.aux 5 5) g.bits))
  | 0x12 | 0x13 => do
    let i ← El.index c { d with edges := [] } 1
    let f := d.aux 11 5
    if d.inBounds i then
      (do let g ← El.read c d 1 (d.space 1) (d.indexedAddr i true) (fmtNibs f)
          -- poison ends a `gatherff` (R173)
          pure (if d.opc == 0x13 && g.poison.isSome then [] else bytes f g.bits))
    else pure (if d.zoob then bytes f 0 else [])
  | 0x14 | 0x15 => do
    let i ← El.index c { d with edges := [] } 1
    if d.inBounds i then
      (do let g ← El.readElem c d 1 d.n
          pure (bytes (d.aux 11 5) g.bits))
    else pure []
  | _ => do
    let g ← El.readElem c d d.dsts d.n
    pure (bytes (d.aux 0 5) g.bits)

/-- The bytes of a command's elements, in traversal order; a `gatherff` ends at its first failing element (R173). -/
def Mach.signedBytes (m : Mach) (c : Nat) (d : Cmd) : Mach × List Byte :=
  let r := (List.range (if d.null then 0 else d.total)).foldl (fun (acc : Mach × List Byte × Bool) n =>
    if acc.2.2 then acc
    else match (El.signed c { d with n := n, edges := [] }).run.run acc.1 with
      | (.ok bs, m) => (m, acc.2.1 ++ bs, d.opc == 0x13 && bs.isEmpty)
      | (.error _, m) => (m, acc.2.1, d.opc == 0x13)) (m, [], false)
  (r.1, r.2.1)

/-- The SQ commands of a phase, in SEQ order. -/
def Core.phaseStores (k : Core) (n : Nat) : List Cmd := k.sq.filter fun d => d.phase == some n

/-- The phase whose signature a paired core may compute now (R261): its conditions of R252 hold but for the signature. -/
def Core.signable (k : Core) : Option Phase :=
  match k.phases.head? with
  | none => none
  | some p => if k.paired && p.ended && p.sig.isNone && (k.lq ++ k.mq ++ k.vq ++ k.kq).all (fun d => d.phase != some p.num) then some p else none

/-- The other core of a pair (R261). -/
def partner (c : Nat) : Nat := if c % 2 = 0 then c + 1 else c - 1

/-- A core's oldest phase, when its signature is known and not resolved. -/
def Core.signature (k : Core) : Option (Nat × BitVec 64) :=
  match k.phases.head? with
  | none => none
  | some p => if p.resolved then none else p.sig.map fun s => (p.num, s)

/-- The phase's signatures are resolved on a core. -/
def Core.resolve (k : Core) (n : Nat) : Core := k.onPhase n fun p => { p with resolved := true, differAt := none }

/-- Equal signatures: both phases are resolved, and the odd core's SQ commands are squashed (R262). -/
def Mach.pairAgrees (m : Mach) (c n : Nat) : Mach :=
  let odd := if c % 2 = 0 then c + 1 else c
  let m := (m.onCore c (·.resolve n)).onCore (partner c) (·.resolve n)
  ((m.core odd).phaseStores n).foldl (fun m d => m.squash odd d.uid) m

/-- `SIGNATURE_PASS` (R261, R262): the signature, and its comparison once both cores have theirs. -/
def execSignaturePass (c : CoreId) : State → Result :=
  lift fun m => match (m.core c.toNat).signable with
    | none => m
    | some p =>
      let r := ((m.core c.toNat).phaseStores p.num).foldl (fun acc d => let x := acc.1.signedBytes c.toNat d
        (x.1, acc.2 ++ x.2)) (m, [])
      let s := crc64 r.2
      let m := r.1.onCore c.toNat fun k => k.onPhase p.num fun q => { q with sig := some s }
      match (m.core (partner c.toNat)).signature with
      | none => m
      | some t =>
        if t.1 ≠ p.num then m
        else if t.2 = s then m.pairAgrees c.toNat p.num
        else
          let now := m.dev.now
          let note (k : Core) : Core := k.onPhase p.num fun q => { q with differAt := some now }
          (m.onCore c.toNat note).onCore (partner c.toNat) note

/-! ### The watchdog (R350) -/

/-- A core of a FIXED job has used up its budget. -/
def Core.overBudget (k : Core) (now : Nat) : Bool :=
  k.fixed && k.job.isSome && k.freeAt.isNone && k.tie.isNone && k.life == .running && decide (k.budget.toNat < k.budgetUsed now)

/-- `WATCHDOG` (R350). -/
def execWatchdog (c : CoreId) : State → Result :=
  lift fun m =>
    let k := m.core c.toNat
    if k.overBudget m.dev.now then m.endJob k.job ⟨5, 0, BitVec.ofNat 64 (k.budgetUsed m.dev.now), c.toNat, Cause.watchdog⟩ else m

/-! ### Errors (R246, R264, R265) -/

/-- The unit that a soft error strikes on a core, where it has one (R246). -/
def siteUnit (c : Nat) : ErrSite → Option (List Nat)
  | .spad s => if 32 * s < 0xC0000 then some [window c + 32 * s] else none
  | .trf w => if w < 65536 then some [window c + 0x100000 + 8 * (w / 2), window c + 0x100000 + 8 * (w / 2) + 4] else none
  | .region n => if n < 2048 then some [window c + 0x200000 + 16 * n] else none
  | .seat s => some [seatUnit (if s then 1 else 0)]
  | .istore w => if 8 * (w / 2) < 0x10000 then some [window c + 0x300000 + 8 * (w / 2), window c + 0x300000 + 8 * (w / 2) + 4] else none
  | .control => none
  | .mem s => some [32 * s]

/-- A corrected error: counted, and logged at most once per unit per 2^20 hub cycles (R265). -/
def Mach.corrected (m : Mach) (c u : Nat) : Mach :=
  let hub := m.dev.now * 2 / 3
  -- a seat is a unit of its core
  let key := if 2 ^ 60 ≤ u then u + 2 * c else u
  let last := m.dev.correctedAt.find? fun p => p.1 == key
  let m := m.onDev fun d => { d with corrected := d.corrected + 1 }
  let silent : Bool := match last with | some p => decide (hub < p.2 + 2 ^ 20) | none => false
  if silent then m
  else (m.logErr 1 c (unitAddr u) 0 (m.core c).phase).onDev fun d => { d with correctedAt := (d.correctedAt.filter fun p => p.1 != key) ++ [(key, hub)] }

/-- A unit is struck by an error that its code cannot correct (R246). -/
def Mach.strike (m : Mach) (c : Nat) (site : ErrSite) (us : List Nat) : Mach :=
  let m := m.logErr 2 c (unitAddr (us.headD 0)) 0 (m.core c).phase
  match site with
  | .seat s => m.onCore c fun k => let n := if s then 1 else 0
    k.setSeat n { k.seatOf n with poisoned := true }
  | _ => m.onDev fun d => us.foldl (fun d u => d.poisonUnit u) d

/-- `SOFT_ERROR` (R246): corrected, poisoned, or in control-core state a mismatch or a machine check. -/
def execSoftError (c : CoreId) (site : ErrSite) (corrected : Bool) : State → Result :=
  lift fun m => match site with
    | .control =>
      if corrected then m
      else if (m.core c.toNat).checked || (m.core c.toNat).paired then m.mismatch c.toNat (m.core c.toNat).phase
      else (m.endJob (m.core c.toNat).job ⟨3, 0, 0, c.toNat, 0⟩).reply (.machineCheck c.toNat)
    | site => match siteUnit c.toNat site with
      | none => m
      | some us =>
        let inMem : Bool := match site with | .mem s => (m.dev.memKind (32 * s) 32).isSome | _ => true
        if !inMem then m else if corrected then m.corrected c.toNat (us.headD 0) else m.strike c.toNat site us

/-! ### CXL memory, its links, and die-to-die bridges (R364, R419, R409) -/

/-- The elements of an ordered operand that a command's next piece of work reads: of an EXACT `cred`, a block of the pre-pass or an element of the value pass
(R382); of an entry of sparse metadata, two values (R219). -/
def Cmd.nextReads (d : Cmd) (op : Nat) : List Nat :=
  if d.opc == 0x31 && d.exact then (List.range 32).map (32 * d.pre + ·) ++ [d.transfer]
  else if d.q == .kq then [d.transfer]
  else if d.opc == 0x21 && op == 1 then [d.n / 2]
  else [d.n]

/-- The byte addresses in virtual memory that a command's next piece of work reads of operand `op`: the elements of a source, the element that an index chooses
of a `gather` or `gatherff`, or of a `scattera`, which reads its destination (R171, R172). -/
def Mach.readsNext (m : Mach) (c : Nat) (d : Cmd) (op : Nat) (o : Operand) : List Nat :=
  let chosen (own : Nat) (gathers : Bool) : List Nat := match ((El.index c { d with edges := [] } own).run.run m).1 with
    | .ok i => if d.inBounds i then [(d.indexedAddr i gathers / 2).toNat] else []
    | .error _ => []
  if o.nest.space != .virt then []
  else if (d.opc == 0x12 || d.opc == 0x13) && op == 1 then chosen 0 true
  else if d.opc == 0x15 && op == 0 then chosen 1 false
  else if o.dst then []
  else (d.nextReads op).map fun n => (o.nest.addr n / 2).toNat

/-- The CXL addresses that a command's next piece of work reads, where their pages are translated. -/
def Mach.cxlElements (m : Mach) (c : Nat) (d : Cmd) : List Nat :=
  ((d.ops.mapIdx fun i o => (i, o)).flatMap fun p => m.readsNext c d p.1 p.2).filterMap fun va =>
    ((m.core c).tlb.find? fun e => e.maps (m.core c) va).bind fun e =>
      let pa := e.pa + (va - e.va)
      if m.dev.memKind pa 1 == some .cxl then some pa else none

/-- The access is an atomic. -/
def AccOp.atomic (o : AccOp) : Bool := !(o == .load || o == .store || o == .fence)

/-- `CXL_READ_DATA` (R364): the data returns and the home performs the read, of a load, or of an atomic or a command's element, whose own step follows; poison
reported by the expander poisons the sector. -/
def execCxlReadData (c : CoreId) (u : Nat) (poison : Bool) : State → Result :=
  lift fun m => match (m.core c.toNat).acc u with
    | some a =>
      let struck := if poison then m.homePoison c.toNat a.pa else m
      if a.op == .load && a.stage == .cxl then (struck.loadAtHome c.toNat a).wake
      else if a.op.atomic && m.dev.accCxl a && (m.accReady c.toNat u fun _ => true).isSome then struck
      else m
    | none => match (m.core c.toNat).cmd u with
      | some d => if poison && d.issued then (m.cxlElements c.toNat d).foldl (fun m pa => m.homePoison c.toNat pa) m else m
      | none => m

/-- Capacity behind a CXL port (R419). -/
def Dev.portBytes (d : Dev) (port : Bool) : Nat := natAt d.cxlPorts (if port then 1 else 0)

/-- The physical range [lo, hi) of a port's memory: port 0 first (R419). -/
def Dev.portRange (d : Dev) (port : Bool) : Nat × Nat :=
  let a := Config.cxlBase + (if port then d.portBytes false else 0)
  (a, min (a + d.portBytes port) (Config.cxlBase + Config.cxlMax))

/-- `CXL_LINK_DOWN` (R419): the link goes down and every sector that it held is poisoned; the log takes one record, of the first sector (log entry 71). -/
def execCxlLinkDown (port : Bool) : State → Result :=
  lift fun m =>
    let r := m.dev.portRange port
    (if r.1 < r.2 then m.logErr 2 0 (BitVec.ofNat 64 r.1) 0 0 else m).onDev fun d => { (List.range ((r.2 - r.1) / 32)).foldl (fun d i => d.poisonUnit (r.1 + 32 * i)) d with
      cxlDown := unitInsert d.cxlDown (if port then 1 else 0) }

/-- `BRIDGE_FAILURE` (R409): a machine check of the device ends every job with status 3. -/
def execBridgeFailure : State → Result :=
  lift fun m => m.dev.jobs.foldl (fun m j => m.endJob (some j.id) ⟨3, 0, 0, 0, 0⟩) m

end Sys2Proof.Machine
end

