-- ==== Sys2Proof/Machine/Hub.lean ====
section
/-! DEFINITION. The hub (17): work queues and launch records (R334-R338), admission (R339-R342), the launch scheduler (R343-R345), dealing (R346-R349), the
end of a job (R352, R353), pre-emption and restoration (R355-R360, R180, R233) and the folding of message counters (R401). -/

namespace Sys2Proof.Machine

/-! ### Work queues (R334, R335) -/

def queueFind : List WorkQueue → Nat → Option WorkQueue
  | [], _ => none
  | w :: l, n => if w.num = n then some w else queueFind l n

/-- A queue that the supervisor has not programmed (R334). -/
def WorkQueue.unset (n : Nat) : WorkQueue where
  num := n
  en := false
  domain := none
  prio := 0
  depth := 1
  done := none
  recs := []
  since := 0
  level := 0

def Dev.queue (d : Dev) (n : Nat) : WorkQueue := (queueFind d.queues n).getD (WorkQueue.unset n)

/-- Puts a queue's state in place, keeping numbers rising. -/
def queueSet : List WorkQueue → WorkQueue → List WorkQueue
  | [], w => [w]
  | v :: l, w => if w.num < v.num then w :: v :: l else if w.num = v.num then w :: l else v :: queueSet l w

def Dev.setQueue (d : Dev) (w : WorkQueue) : Dev := { d with queues := queueSet d.queues w }

/-- The host domain of a Nolham node, by the node table (R415). -/
def Dev.nodeDomain (d : Dev) (node : Nat) : Option Nat := (d.nodes.find? fun p => p.1 == node).map (·.2)

/-- The level at which a head launch starts: the queue's PRIO, capped by the record's (R343). -/
def WorkQueue.startLevel (w : WorkQueue) : Nat :=
  match w.recs with
  | [] => 0
  | r :: _ => min w.prio (launchField r 560 8)

/-- The head begins to wait. -/
def WorkQueue.newHead (w : WorkQueue) (now : Nat) : WorkQueue := { w with since := now, level := w.startLevel }

/-- The status of a queue-put (R335, R416): the first that applies. ADDR holds the queue number, with its other bits zero (R415). -/
def Dev.putStatus (d : Dev) (src : BitVec 16) (h : PutHdr) (rec : List Byte) : Nat :=
  let w := d.queue h.addr.toNat
  let dom := d.nodeDomain src.toNat
  if !h.clean ∨ h.ord = 3 ∨ 65536 ≤ h.addr.toNat then 8
  else if h.len ≠ 256 ∨ rec.length ≠ 256 then 4
  else if !w.en then 3
  else if dom.isNone ∨ dom ≠ w.domain then 2
  else if w.depth ≤ w.recs.length then 1
  else 0

/-- `PROGRAM_QUEUE` (R334). -/
def execProgramQueue (q : BitVec 16) (p : QueueProg) : State → Result :=
  lift fun m => m.managed (·.onDev fun d => d.setQueue { d.queue q.toNat with en := p.en, domain := p.domain, prio := p.prio % 8, depth := max 1 (min p.depth 256), done := p.done })

/-! ### The launch record (R336, R337) -/

namespace Launch
def entry (r : List Byte) (k : Nat) : Nat := launchField r (16 * k) 16
def imgLen (r : List Byte) : Nat := launchField r 48 16
def image (r : List Byte) : Nat := launchField r 64 64
def params (r : List Byte) : Nat := launchField r 128 64
def gtab (r : List Byte) : Nat := launchField r 192 64
def spad (r : List Byte) : Nat := launchField r 256 64
def regv (r : List Byte) : Nat := launchField r 320 64
def htab (r : List Byte) : Nat := launchField r 384 64
def poolPages (r : List Byte) : Nat := launchField r 512 32
def clusters (r : List Byte) : Nat := launchField r 544 16
def prio (r : List Byte) : Nat := launchField r 560 8
def flag (r : List Byte) (k : Nat) : Bool := launchField r (568 + k) 1 == 1
def fixed (r : List Byte) : Bool := flag r 0
def checked (r : List Byte) : Bool := flag r 1
def paired (r : List Byte) : Bool := flag r 2
def conf (r : List Byte) : Bool := flag r 3
def budget (r : List Byte) : Nat := launchField r 576 64
def seed (r : List Byte) : Nat := launchField r 640 64
def trip (r : List Byte) (k : Nat) : Nat := launchField r (704 + 32 * k) 32
def nlev (r : List Byte) : Nat := launchField r 896 8
def dorder (r : List Byte) : Nat := launchField r 904 8
def keyField (r : List Byte) : Nat := launchField r 912 16
def keyValid (r : List Byte) : Bool := keyField r / 32768 == 1
def keySlot (r : List Byte) : Nat := keyField r % 4096
/-- Iterations of the grid (R346). -/
def total (r : List Byte) : Nat := ((List.range (nlev r)).map (trip r)).foldl (· * ·) 1
end Launch

/-- Clusters that a level may ever use (R344). -/
def Dev.allowed (d : Dev) (fixed : Bool) : List Nat := (List.range 32).filter fun q => d.reservedClusters.contains q == fixed

/-- The conditions of R337 on the record's own fields. -/
def Dev.recordOk (d : Dev) (w : WorkQueue) (r : List Byte) : Bool :=
  let n := Launch.nlev r
  launchField r 960 1088 == 0 && launchField r 924 3 == 0 && launchField r 572 4 == 0 &&
  decide (1 ≤ Launch.imgLen r) && decide (Launch.imgLen r ≤ 16384) &&
  ((List.range 3).all fun k => Launch.entry r k % 4 == 0 && decide (Launch.entry r k < 4 * Launch.imgLen r)) &&
  decide (1 ≤ n) && decide (n ≤ 6) && ((List.range 6).all fun k => if k < n then decide (1 ≤ Launch.trip r k) else Launch.trip r k == 0) &&
  decide (Launch.total r < 2 ^ 48) && decide (Launch.dorder r ≤ 1) && decide (Launch.prio r ≤ w.prio) && (Launch.fixed r == (Launch.prio r == 7)) &&
  !(Launch.fixed r && Launch.budget r == 0) && (Launch.conf r == Launch.keyValid r) &&
  (!Launch.conf r || (match d.keySlot (Launch.keySlot r) with | some s => some s.domain == w.domain && s.key.isSome | none => false)) &&
  decide (1 ≤ Launch.clusters r) && decide (Launch.clusters r ≤ 32) && decide (Launch.clusters r ≤ (d.allowed (Launch.fixed r)).length)

/-- A job as its launch record describes it, before anything is allocated. -/
def mkJob (d : Dev) (w : WorkQueue) (r : List Byte) (id : Nat) : Job where
  id := id
  queue := w.num
  domain := w.domain
  launch := r
  level := w.level
  clusters := []
  groups := []
  handlers := []
  regv := []
  spad := []
  image := []
  pool := []
  mapped := []
  leaving := []
  key := if Launch.conf r then some (Launch.keySlot r) else none
  saveKey := []
  ptbase := BitVec.ofNat 64 (natAt d.roots w.num)
  next := []
  gens := []
  inj := 0
  con := 0
  lost := 0
  abandoned := 0
  parked := []
  log := []
  ending := none
  admitted := d.now
  seen := []
  away := []
  awaySince := 0
  saved := []
  waved := false
  qlost := 0
  qabandon := 0
  qwave := 0

/-! ### The tables of a launch (R337, R338) -/

/-- A table that is absent when its address is 0. -/
def Mach.table {α : Type} (m : Mach) (va : Nat) (none_ : α) (read : Mach → Mach × Option α) : Mach × Option α := if va = 0 then (m, some none_) else read m

/-- The list of a group-table entry (R338): distinct job core indices of the partition. -/
def Mach.readGroup (m : Mach) (j : Job) (cores : Nat) (e : List Byte) : Mach × Option (List Nat) :=
  let n := leNat ((e.drop 8).take 2)
  if leNat (e.drop 10) ≠ 0 then (m, none)
  else if n = 0 then (m, some [])
  else match m.jobBytes j (leNat (e.take 8)) (2 * n) with
    | (m, none) => (m, none)
    | (m, some bs) =>
      let l := (chunked 2 bs).map leNat
      (m, if l.all (fun i => decide (i < cores)) && decide l.Nodup then some l else none)

/-- The group table (R338): the filled groups by number. -/
def Mach.readGroups (m : Mach) (j : Job) : Mach × Option (List (Nat × List Nat)) :=
  let cores := 32 * Launch.clusters j.launch
  m.table (Launch.gtab j.launch) [] fun m => match m.jobBytes j (Launch.gtab j.launch) 4096 with
    | (m, none) => (m, none)
    | (m, some bs) =>
      let r := ((chunked 16 bs).mapIdx fun g e => (g, e)).foldl (fun (acc : Mach × Option (List (Nat × List Nat))) p => match acc with
        | (m, none) => (m, none)
        | (m, some gs) => match m.readGroup j cores p.2 with
          | (m, none) => (m, none)
          | (m, some []) => (m, some gs)
          | (m, some l) => (m, some (gs ++ [(p.1, l)]))) (m, some [])
      (r.1, r.2.bind fun gs => if (List.range cores).all (fun i => decide ((gs.filter fun g => g.2.contains i).length ≤ 4)) then some gs else none)

/-- The handler table (R336). -/
def Mach.readHandlers (m : Mach) (j : Job) : Mach × Option (List Nat) :=
  m.table (Launch.htab j.launch) (List.replicate 32 0xFFFF) fun m => match m.jobBytes j (Launch.htab j.launch) 64 with
    | (m, none) => (m, none)
    | (m, some bs) => (m, some ((chunked 2 bs).map leNat))

/-- `.region` values (R336): pairs ended by a number of all ones; a table that runs on past `fuel` pairs is malformed. -/
def Mach.readRegv (m : Mach) (j : Job) : Nat → Nat → Mach × Option (List (Nat × BitVec 128))
  | 0, _ => (m, none)
  | fuel + 1, va => match m.jobBytes j va 8 with
    | (m, none) => (m, none)
    | (m, some k) =>
      if leNat k = 2 ^ 64 - 1 then (m, some [])
      else if 2048 ≤ leNat k then (m, none)
      else match m.jobBytes j (va + 8) 16 with
        | (m, none) => (m, none)
        | (m, some v) => match m.readRegv j fuel (va + 24) with
          | (m, none) => (m, none)
          | (m, some l) => (m, some ((leNat k, BitVec.ofNat 128 (leNat v)) :: l))

/-- The scratchpad image (R336): pieces ended by length 0; an image that runs on past `fuel` pieces is malformed (log entry 66). -/
def Mach.readSpad (m : Mach) (j : Job) : Nat → Nat → Mach × Option (List (Nat × List Byte))
  | 0, _ => (m, none)
  | fuel + 1, va => match m.jobBytes j va 16 with
    | (m, none) => (m, none)
    | (m, some h) =>
      let off := leNat (h.take 8)
      let len := leNat (h.drop 8)
      if len = 0 then (m, some [])
      else if 0xC0000 < off + len then (m, none)
      else match m.jobBytes j (va + 16) len with
        | (m, none) => (m, none)
        | (m, some bs) => match m.readSpad j fuel (va + 16 + len) with
          | (m, none) => (m, none)
          | (m, some l) => (m, some ((off, bs) :: l))

/-- Everything that a record names, read and checked (R337, R338); none where a table is malformed or cannot be read. -/
def Mach.readTables (m : Mach) (j : Job) : Mach × Option Job :=
  match m.jobBytes j (Launch.image j.launch) (4 * Launch.imgLen j.launch) with
  | (m, none) => (m, none)
  | (m, some image) => match m.readGroups j with
    | (m, none) => (m, none)
    | (m, some groups) => match m.readHandlers j with
      | (m, none) => (m, none)
      | (m, some handlers) => match m.table (Launch.regv j.launch) [] (·.readRegv j 4096 (Launch.regv j.launch)) with
        | (m, none) => (m, none)
        | (m, some regv) => match m.table (Launch.spad j.launch) [] (·.readSpad j 65536 (Launch.spad j.launch)) with
          | (m, none) => (m, none)
          | (m, some spad) => (m, some { j with image := image, groups := groups, handlers := handlers, regv := regv, spad := spad })

/-! ### End records (R353) -/

/-- Hub cycles of core cycles: the hub's clock is two thirds of the core's (R396). -/
def hubCycles (n : Nat) : Nat := n * 2 / 3

/-- The 32-byte end record (R353). -/
def endRecord (conf : Bool) (cycles q id : Nat) (e : Ending) : List Byte :=
  leBytes 32 (e.status + q * 2 ^ 8 + id * 2 ^ 28 +
    (if conf then 0 else e.cause * 2 ^ 46 + e.core * 2 ^ 54 + e.tval.toNat * 2 ^ 64 + e.code.toNat * 2 ^ 128 + cycles % 2 ^ 64 * 2 ^ 192))

/-- The hub writes an end record to the queue's DONE address, where it has one. -/
def Mach.writeEnd (m : Mach) (q : Nat) (rec : List Byte) : Mach :=
  match (m.dev.queue q).done with
  | none => m
  | some a => m.reply (.endRecord a rec)

/-! ### The launch scheduler (R343-R345) -/

/-- Cycles of 10 ms and of 1 ms at 2.7 GHz. -/
def cycles10ms : Nat := 27000000

def cycles1ms : Nat := 2700000

/-- A level after a wait: up by one every 10 ms, to 6; level 7 does not change (R343). -/
def agedLevel (base waited : Nat) : Nat := if base ≤ 5 then min 6 (base + waited / cycles10ms) else base

/-- `LEVEL_AGING` (R343). -/
def execLevelAging (q : BitVec 16) : State → Result :=
  lift fun m =>
    let w := m.dev.queue q.toNat
    if w.recs.isEmpty then m else m.onDev fun d => d.setQueue { w with level := agedLevel w.startLevel (d.now - w.since) }

/-- A launch or a restoration that waits: its queue, and the job of a restoration. -/
abbrev Waiter := Nat × Option Nat

/-- The launches at the heads of queues, and the restorations that wait. -/
def Dev.waiters (d : Dev) : List Waiter :=
  ((d.jobs.filter fun j => !j.away.isEmpty && j.ending.isNone).map fun j => (j.queue, some j.id)) ++
  ((d.queues.filter fun w => !w.recs.isEmpty).map fun w => (w.num, none))

/-- The level of a waiter now. -/
def Dev.waiterLevel (d : Dev) (w : Waiter) : Nat :=
  match w.2 with
  | none => (d.queue w.1).level
  | some j => match jobFind d.jobs j with | some b => agedLevel b.level (d.now - b.awaySince) | none => 0

/-- The place of a queue in the round that starts after the queue served last (R343). -/
def Dev.turnOf (d : Dev) (q : Nat) : Nat := (q + 65535 - d.lastServed) % 65536

/-- The better of two waiters: the higher level, then the round's order. -/
def Dev.betterWaiter (d : Dev) (a b : Waiter) : Waiter :=
  let la := d.waiterLevel a
  let lb := d.waiterLevel b
  if la < lb then b else if lb < la then a else if d.turnOf b.1 < d.turnOf a.1 then b else a

/-- The next waiter to choose: the best one, if its level is above that of every one already chosen. -/
def Dev.nextChoice (d : Dev) : Option Waiter :=
  let free := d.waiters.filter fun w => !d.chosen.any fun c => c.1 == w.1 && c.2.1 == w.2
  match free with
  | [] => none
  | w :: ws =>
    let b := ws.foldl d.betterWaiter w
    if d.chosen.all fun c => decide (d.waiterLevel (c.1, c.2.1) < d.waiterLevel b) then some b else none

/-- The chosen waiter that is admitted first: the one of highest level. -/
def Dev.topChosen (d : Dev) : Option (Waiter × Nat) :=
  match d.chosen with
  | [] => none
  | c :: cs =>
    let b := cs.foldl (fun (a : Nat × Option Nat × Nat) x => if d.waiterLevel (a.1, a.2.1) < d.waiterLevel (x.1, x.2.1) then x else a) c
    some ((b.1, b.2.1), b.2.2)

/-- A waiter is served. -/
def Dev.served (d : Dev) (w : Waiter) : Dev := { d with chosen := d.chosen.filter fun c => !(c.1 == w.1 && c.2.1 == w.2), lastServed := w.1 }

/-- The head of a queue leaves it. -/
def Dev.popHead (d : Dev) (q : Nat) : Dev := let w := d.queue q
  d.setQueue ({ w with recs := w.recs.drop 1 }.newHead d.now)

/-- A cluster is free: no running job holds it, and no core of it is still being pre-empted. -/
def Dev.clusterFree (d : Dev) (q : Nat) : Bool :=
  (d.jobs.all fun j => !j.clusters.contains q || j.away.contains q) &&
  d.cores.all fun p => clusterOf p.1 != q || p.2.life == .idle || p.2.life == .saved

/-- The clusters that a launch would take now (R340). -/
def Dev.partition (d : Dev) (r : List Byte) : List Nat := ((d.allowed (Launch.fixed r)).filter d.clusterFree).take (Launch.clusters r)

/-- The lowest free job ID (R339). -/
def Dev.freeId (d : Dev) : Option Nat := (List.range 4096).find? fun i => (jobFind d.jobs i).isNone

/-- The key slot of a record is bound to no other job (R341). -/
def Dev.keyFree (d : Dev) (r : List Byte) : Bool :=
  !Launch.conf r || (match d.keySlot (Launch.keySlot r) with | some s => s.job.isNone | none => true)

/-- Pages that the supervisor can give: those given back, and those of HBM not yet given (R342; log entry 68). -/
def Dev.pagesLeft (d : Dev) : Nat := d.freePages.length + (d.topPage / 4096 - Config.hbmBase / 4096 - 1)

/-- `n` pages from the supervisor, or as many as there are. -/
def Mach.takePages (m : Mach) : Nat → List Nat × Mach
  | 0 => ([], m)
  | n + 1 => match m.takePage with
    | none => ([], m)
    | some (p, m) => let r := m.takePages n
      (p :: r.1, r.2)

/-- The launch fits now: clusters, pool pages, a job ID, its key slot (R339-R342). -/
def Dev.fits (d : Dev) (r : List Byte) : Bool :=
  (d.partition r).length == Launch.clusters r && decide (Launch.poolPages r ≤ d.pagesLeft) && d.freeId.isSome && d.keyFree r

/-- A record is rejected with end status 6 (R337). -/
def Mach.reject (m : Mach) (q : Nat) : Mach :=
  let r := (m.dev.queue q).recs.headD []
  (m.writeEnd q (endRecord (Launch.conf r) 0 q 0 ⟨6, 0, 0, 0, 0⟩)).onDev fun d => (d.served (q, none)).popHead q

/-- Iterations that a walker deals in one run before it skips the other clusters' (R347). -/
def Launch.unit (r : List Byte) : Nat := if Launch.fixed r then (if Launch.paired r then 15 else 32) else 1

/-- Random bytes of a save key (R356). -/
def saveKeyBytes (n : Nat) : List Byte := (List.range 64).map fun i => Config.randomByte (64 * n + i)

/-- Admission (R339-R342): job ID, partition, pool, key slot and walkers. -/
def Mach.admitJob (m : Mach) (j : Job) : Mach :=
  let d := m.dev
  match d.freeId with
  | none => m
  | some id =>
    let part := d.partition j.launch
    let pool := m.takePages (Launch.poolPages j.launch)
    let u := Launch.unit j.launch
    let j := { j with id := id, clusters := part, pool := pool.1, saveKey := if j.key.isSome then [] else saveKeyBytes d.free
                      next := (List.range part.length).map (u * ·), admitted := d.now, level := (d.queue j.queue).level }
    pool.2.onDev fun d => { (d.served (j.queue, none)).popHead j.queue with
      jobs := d.jobs ++ [j], free := d.free + 1
      keys := d.keys.map fun s => if j.key = some s.num then { s with job := some id } else s }

/-- A chosen launch is judged and admitted, rejected, or left waiting. -/
def Mach.tryLaunch (m : Mach) (q : Nat) : Mach :=
  let w := m.dev.queue q
  match w.recs with
  | [] => m.onDev (·.served (q, none))
  | r :: _ =>
    if !m.dev.recordOk w r then m.reject q
    else match m.readTables (mkJob m.dev w r (m.dev.freeId.getD 0)) with
      | (m, none) => m.reject q
      | (m, some j) => if m.dev.fits r then m.admitJob j else m

/-- The clusters of a pre-empted job are free again. -/
def Dev.mayRestore (d : Dev) (j : Nat) : Bool :=
  match jobFind d.jobs j with
  | none => false
  | some b => !b.away.isEmpty && b.away.all d.clusterFree

/-- A chosen restoration begins once the job's clusters are free (R345); it stays chosen until it has begun on all of them. -/
def Mach.tryRestore (m : Mach) (w : Waiter) (j : Nat) : Mach :=
  match m.job j with
  | none => m.onDev (·.served w)
  | some b =>
    if b.away.isEmpty then m.onDev (·.served w)
    else if m.dev.mayRestore j then m.onDev fun d => { d with agenda := d.agenda ++ b.away.map fun q => .event (.restoreStart (BitVec.ofNat 5 q)) }
    else m

/-- The scheduler chooses, if it can. -/
def Dev.choose (d : Dev) : Dev :=
  match d.nextChoice with
  | none => d
  | some w => { d with chosen := d.chosen ++ [(w.1, w.2, d.now)] }

/-- `ADMIT` (R339, R343): the scheduler chooses, and the chosen launch or restoration of highest level proceeds if it can. -/
def execAdmit : State → Result :=
  liftHub fun m =>
    let m := m.onDev Dev.choose
    match m.dev.topChosen with
    | none => m
    | some ((q, none), _) => m.tryLaunch q
    | some ((q, some j), _) => m.tryRestore (q, some j) j

/-- The top of the chosen ones can proceed, or there is one to choose. -/
def Dev.admitReady (d : Dev) : Bool :=
  d.nextChoice.isSome ||
  (match d.topChosen with
   | none => false
   | some ((q, none), _) => (match (d.queue q).recs with | [] => true | r :: _ => d.fits r)
   | some ((_, some j), _) => d.mayRestore j || (jobFind d.jobs j).isNone)

/-! ### Pre-emption (R345, R355, R180, R233) -/

/-- The clusters that pre-emption would take from a list of jobs, in order, until `need` of them allowed to the launch are taken. -/
def takeClusters (ok : Nat → Bool) : Nat → List Job → List Nat
  | _, [] => []
  | need, j :: js =>
    let own := ((j.clusters.filter fun q => ok q && !j.away.contains q).reverse).take need
    own ++ takeClusters ok (need - own.length) js

/-- Running jobs below a level, lowest level first and the most recently admitted of a level first (R345). -/
def Dev.victims (d : Dev) (level : Nat) : List Job :=
  sortBy (fun a b => decide (a.level < b.level) || (a.level == b.level && decide (b.admitted < a.admitted)))
    (d.jobs.filter fun j => decide (j.level < level) && decide (j.level < 7) && j.ending.isNone)

/-- A cluster that is free or is being freed by a pre-emption. -/
def Dev.clusterComing (d : Dev) (q : Nat) : Bool := d.jobs.all fun j => !j.clusters.contains q || j.away.contains q

/-- The clusters to pre-empt for the top of the chosen ones, if it has waited 1 ms and jobs of lower level hold enough (R345). -/
def Dev.toPreempt (d : Dev) : List Nat :=
  match d.topChosen with
  | none => []
  | some (w, since) =>
    if d.now - since < cycles1ms then []
    else
      let level := d.waiterLevel w
      match w.2 with
      | none => match (d.queue w.1).recs with
        | [] => []
        | r :: _ =>
          let mine := d.allowed (Launch.fixed r)
          let have_ := (mine.filter d.clusterComing).length
          let need := Launch.clusters r - have_
          let qs := takeClusters mine.contains need (d.victims level)
          if qs.length = need then qs else []
      | some j => match jobFind d.jobs j with
        | none => []
        | some b =>
          let held := b.away.filter fun q => d.jobs.any fun k => k.id != j && k.clusters.contains q && !k.away.contains q
          let lower := (d.victims level).flatMap fun k => k.clusters
          if held.all lower.contains then held else []

/-- `PREEMPT_DECISION` (R345): the pre-emptions follow. -/
def execPreemptDecision : State → Result :=
  lift fun m => m.onDev fun d => { d with agenda := d.agenda ++ d.toPreempt.map fun q => .event (.preemptRequest (BitVec.ofNat 5 q)) }

/-- A core enters STOPPING: its waiting instructions have not issued, and its cycles stop counting (R355). -/
def Mach.stopCore (m : Mach) (c : Nat) : Mach :=
  let now := m.dev.now
  (m.unwaitAll c).onCore c fun k => { k with life := .stopping, stopAt := now, counted := k.cycles now }

/-- Cores that stop together with some: every member that holds a part of a gang of theirs (R233); `fuel` bounds the spread. -/
def Mach.gangSpread (m : Mach) : Nat → List Nat → List Nat
  | 0, cs => cs
  | fuel + 1, cs =>
    let gs := cs.flatMap fun c => (m.core c).gangs
    let more := ((gs.flatMap (·.members)).filter fun c => !cs.contains c && (m.core c).life == .running && (m.core c).gangs.any fun g => gs.any fun h => h.id == g.id).dedup
    m.gangSpread fuel (cs ++ more)

/-- Waits for a returned exponent stop counting while a participant is away (R360). -/
def Mach.pauseWaits (m : Mach) (j : Nat) : Mach :=
  let now := m.dev.now
  let away (c : Nat) : Bool := (m.core c).life != .running || (m.core c).job != some j
  let hold (c : Nat) (e : Cmd) : Cmd :=
    if e.since.isSome && e.opc == 0x31 && e.paused.isNone && (away c || e.members.any away) then { e with paused := some now } else e
  m.onDev fun d => { d with cores := d.cores.map fun p => if p.2.job = some j then (p.1, { p.2 with kq := p.2.kq.map (hold p.1) }) else p }

/-- `PREEMPT_REQUEST` (R355): the cores of a cluster enter STOPPING, and with them those of R233. -/
def execPreemptRequest (cluster : BitVec 5) : State → Result :=
  lift fun m =>
    let q := cluster.toNat
    match m.dev.jobs.find? fun j => j.clusters.contains q && !j.away.contains q with
    | none => m
    | some j =>
      if 7 ≤ j.level ∨ j.ending.isSome then m
      else
        let now := m.dev.now
        let own := (m.dev.cores.filter fun p => clusterOf p.1 == q && p.2.life == .running && p.2.job == some j.id).map (·.1)
        let m := m.onJob j.id fun b => { b with away := b.away ++ [q], awaySince := if b.away.isEmpty then now else b.awaySince }
        ((m.gangSpread 32 own).foldl Mach.stopCore m).pauseWaits j.id

/-- A Cabinet command that runs to its end once started: `sinit`, `smerge`, `squery` (R324). -/
def Cmd.runsOn (d : Cmd) : Bool :=
  d.cabinet && d.working && decide (0 < d.n) && (match d.work with
    | .vec i .. => (match i with
      | .vskq .. | .vskh .. | .vskd .. => false
      | _ => true)
    | .record _ => false)

/-- A system access of the core is on its way, or will be able to be performed: it completes before the core is saved (R355). -/
def Dev.accessing (d : Dev) (c : Nat) : Bool := (coreGet d.cores c).accs.any fun a => d.accComes 8 c a

/-- `DRAINLIM_EXPIRY` (R180, R355): unretired commands stop for replay; once every stop is complete, and every merge that the core has accepted is made, the
core enters SAVING. -/
def execDrainlimExpiry (c : CoreId) : State → Result :=
  lift fun m => m.onCore c.toNat fun k =>
    if !k.drained m.dev.now then k
    else
      let stop (d : Cmd) : Cmd := if d.issued && !d.runsOn then { d with stopped := true } else d
      let k := { k with lq := k.lq.map stop, sq := k.sq.map stop, mq := k.mq.map stop, vq := k.vq.map stop, kq := k.kq.map stop }
      if k.cmds.any Cmd.runsOn || m.dev.accessing c.toNat || m.owesMerges c.toNat then k else { k with life := .saving }

/-- `SAVE_COMPLETE` (R355, R356): the image is in the save area; the core is free for other jobs. A core that stopped only for a gang goes back at once when
the clusters of its job are back already (R233). -/
def execSaveComplete (c : CoreId) : State → Result :=
  lift fun m =>
    let k := m.core c.toNat
    match k.life, k.job with
    | .saving, some j =>
      let lo := window c.toNat
      let hi := window (c.toNat + 1)
      let store := localPa c.toNat 0x300000
      -- the instruction store is no part of the image (R356)
      let inW (u : Nat) : Bool := decide (lo ≤ u) && decide (u < hi) && !(decide (store ≤ u) && decide (u < store + 0x10000))
      let img : Saved := ⟨{ k with tlb := [], life := .saved }, (m.cells lo hi).filter (inW ·.1), m.dev.poison.filter inW, m.dev.subst.filter inW⟩
      let m := (m.onJob j fun b => { b with saved := b.saved ++ [img] }).setCore c.toNat
        { Core.reset c.toNat with life := .saved, quarantined := k.quarantined, drainlim := k.drainlim, gangwait := k.gangwait }
      if (m.job j).any fun b => b.away.isEmpty then m.onDev fun d => { d with agenda := d.agenda ++ [.event (.restoreStart (BitVec.ofNat 5 (clusterOf c.toNat)))] } else m
    | _, _ => m

/-- The counters of a saved core of a job go to the job's hub entry, and begin again from zero. -/
def Job.fold (j : Job) (c : Nat) : Job :=
  match j.saved.find? (fun s => s.core.id == c) with
  | none => j
  | some s =>
    let zero (t : Saved) : Saved := if t.core.id = c then { t with core := { t.core with inj := 0, con := 0, lost := 0, abandoned := 0 } } else t
    { j with
      inj := j.inj + s.core.inj
      con := j.con + s.core.con
      lost := j.lost + s.core.lost
      abandoned := j.abandoned + s.core.abandoned
      saved := j.saved.map zero }

/-- Saved counters that are not yet folded (R401). -/
def Saved.unfolded (s : Saved) : Bool := s.core.inj != 0 || s.core.con != 0 || s.core.lost != 0 || s.core.abandoned != 0

/-- `COUNTER_FOLD` (R401): the counters of a saved core go to the job's hub entry; during a pass of a wave the fold waits. -/
def execCounterFold (c : CoreId) : State → Result :=
  lift fun m =>
    if m.dev.waving.isSome then m
    else m.onDev fun d => { d with jobs := d.jobs.map (·.fold c.toNat) }

/-- The job that a restoration on a cluster restores: the chosen one of highest level of those whose cluster it is; or one whose clusters are all back and
that has saved a core of the cluster for a gang since (R345, R233). -/
def Dev.restores (d : Dev) (q : Nat) : Option Job :=
  let mine := d.chosen.filter fun c => match c.2.1.bind (jobFind d.jobs) with | some j => j.away.contains q | none => false
  let better (a b : Nat × Option Nat × Nat) : Nat × Option Nat × Nat := if d.waiterLevel (a.1, a.2.1) < d.waiterLevel (b.1, b.2.1) then b else a
  let best : Option Nat := match mine with
    | [] => none
    | c :: cs => (cs.foldl better c).2.1
  match best.bind (jobFind d.jobs) with
  | some j => if d.clusterFree q then some j else none
  | none => d.jobs.find? fun j => j.away.isEmpty && j.saved.any fun s => clusterOf s.core.id == q && (coreGet d.cores s.core.id).life == Life.saved

/-- `RESTORE_START` (R355, R345): the cluster's saved cores enter RESTORING; with the job's last cluster, so do those that stopped only for a gang (R233). -/
def execRestoreStart (cluster : BitVec 5) : State → Result :=
  lift fun m =>
    let q := cluster.toNat
    match m.dev.restores q with
    | none => m
    | some j =>
      let away := j.away.filter (· != q)
      let back := (j.saved.map (·.core.id)).filter fun c => (m.core c).life == .saved && (clusterOf c == q || (away.isEmpty && !j.away.contains (clusterOf c)))
      let m := back.foldl (fun m c => m.onCore c fun k => { k with life := .restoring, job := some j.id }) (m.onJob j.id fun b => { b with away := away })
      if away.isEmpty then m.onDev (·.served (j.queue, some j.id)) else m

/-- The commands of a running core that stopped for replay continue, a gang's parts only together (R180, R233). -/
def Mach.unstop (m : Mach) (c : Nat) : Mach :=
  let go (d : Cmd) : Cmd := { d with stopped := d.stopped && d.gang.any (m.gangAway c) }
  m.onCore c fun k => if k.life != .running then k
    else { k with lq := k.lq.map go, sq := k.sq.map go, mq := k.mq.map go, vq := k.vq.map go, kq := k.kq.map go }

/-- Waits for a returned exponent go on from where they paused, once every participant runs (R360). -/
def Mach.resumeWaits (m : Mach) (j : Nat) : Mach :=
  let now := m.dev.now
  let away (c : Nat) : Bool := (m.core c).life != .running || (m.core c).job != some j
  let go (c : Nat) (e : Cmd) : Cmd := match e.since, e.paused with
    | some s, some t => if away c || e.members.any away then e else { e with since := some (s + (now - t)), paused := none }
    | _, _ => e
  m.onDev fun d => { d with cores := d.cores.map fun p => if p.2.job = some j then (p.1, { p.2 with kq := p.2.kq.map (go p.1) }) else p }

/-- Puts bytes in a core's window, and takes the marks of the window away. -/
def Mach.clearWindow (m : Mach) (c : Nat) : Mach :=
  let lo := window c
  let hi := window (c + 1)
  let outW (u : Nat) : Bool := decide (u < lo) || decide (hi ≤ u)
  (m.wipe lo hi).onDev fun d => { d with poison := d.poison.filter outW, subst := d.subst.filter outW }

/-- A saved core of a job is back, running: the image is in place, the instruction store is reloaded from IMAGE, parked traffic is replayed, and the job's
stopped commands and paused waits go on; a pre-emption requested meanwhile stops it again (R355, R358, R180). -/
def Mach.bringBack (m : Mach) (c : Nat) (j : Job) (s : Saved) : Mach :=
  let k := m.core c
  let now := m.dev.now
  let m := s.bytes.foldl (fun m b => m.wr b.1 b.2) (m.clearWindow c)
  let image := m.jobImage j
  let m := image.1.wrBytes (localPa c 0x300000) image.2
  let m := m.onDev fun d => { d with poison := s.poison.foldl unitInsert d.poison, subst := s.subst.foldl unitInsert d.subst }
  let m := m.onJob j.id fun b => let b := b.fold c
    { b with saved := b.saved.filter fun t => t.core.id != c }
  let m := m.setCore c { s.core with life := .running, dealtAt := now, quarantined := k.quarantined, drainlim := m.dev.drainlim, gangwait := m.dev.gangwait, inj := 0, con := 0, lost := 0, abandoned := 0 }
  let m := m.replay c fun _ => true
  let m := (m.dev.cores.foldl (fun m p => m.unstop p.1) m).resumeWaits j.id
  if j.away.contains (clusterOf c) then ((m.gangSpread 32 [c]).foldl Mach.stopCore m).pauseWaits j.id else m

/-- The restoration of a core is completed, where its image is there; counters that are not folded yet wait for the pass of a wave to end (R401). -/
def Mach.restoreCore (m : Mach) (c : Nat) : Mach :=
  let k := m.core c
  match k.life, k.job.bind m.job with
  | .restoring, some j => match j.saved.find? (fun s => s.core.id == c) with
    | none => m
    | some s => if m.dev.waving.isSome && s.unfolded then m else m.bringBack c j s
  | _, _ => m

/-- `RESTORE_COMPLETE` (R355). -/
def execRestoreComplete (c : CoreId) : State → Result := liftHub fun m => m.restoreCore c.toNat

/-! ### Dealing (R346-R349) -/

/-- The grid indices of iteration n (R346). -/
def gridIndices (r : List Byte) (n : Nat) : List Nat :=
  let levels := List.range (Launch.nlev r)
  let order := if Launch.dorder r = 1 then levels.reverse else levels
  let idx := (order.foldl (fun (acc : Nat × List (Nat × Nat)) l => (acc.1 / max 1 (Launch.trip r l), acc.2 ++ [(l, acc.1 % max 1 (Launch.trip r l))])) (n, [])).2
  (List.range 6).map fun l => match idx.find? fun p => p.1 == l with | some p => p.2 | none => 0

/-- Every command and access of the core is done with (R130). -/
def Core.idleNow (k : Core) : Bool := k.cmds.isEmpty && k.amsgs.isEmpty && k.accs.all fun a => a.op == .fence

/-- The core is free for dealing (R130). -/
def Core.isFree (k : Core) : Bool := (!k.busy || k.allDone) && k.idleNow

/-- The core may be dealt an iteration of the job now. -/
def Mach.dealable (m : Mach) (j : Job) (c : Nat) : Bool :=
  let k := m.core c
  !k.quarantined && !(j.saved.any fun s => s.core.id == c) &&
  (k.life == .idle || k.life == .saved || (k.life == .running && k.job == some j.id && k.isFree))

/-- The core of a cluster to which a walker deals iteration n (R347), if it can now. -/
def Mach.dealTarget (m : Mach) (j : Job) (q n : Nat) : Option Nat :=
  let r := j.launch
  let ok (c : Nat) : Bool := m.dealable j c && (!Launch.paired r || m.dealable j (c + 1))
  let cs : List Nat := match Launch.fixed r, Launch.paired r with
    | false, false => (List.range 32).map (32 * q + ·)
    | true, false => [32 * q + n % 32]
    | false, true => (List.range 15).map (32 * q + 2 * ·)
    | true, true => [32 * q + 2 * (n % 15)]
  cs.find? ok

/-- The iteration after n of the same walker. -/
def nextIteration (r : List Byte) (clusters n : Nat) : Nat :=
  let u := Launch.unit r
  if (n + 1) % u ≠ 0 then n + 1 else n + 1 + u * (clusters - 1)

/-- A context at dealing (R348, R9). -/
def Ctx.dealt (x : Ctx) (r : List Byte) (entry : Nat) (idx : List Nat) : Ctx :=
  let regs := (idx.mapIdx fun i v => (26 + i, v)).foldl (fun (y : Ctx) p => y.setReg (BitVec.ofNat 5 p.1) (BitVec.ofNat 64 p.2))
    (Ctx.reset.setReg 25 (BitVec.ofNat 64 (Launch.params r)))
  { regs with pc := BitVec.ofNat 64 entry, latch := x.latch, pwbSel := x.pwbSel }

/-- `GMAP` (R349). -/
def Job.gmap (j : Job) (idx : Nat) : Word :=
  BitVec.ofNat 64 ((((j.groups.filter fun g => g.2.contains idx).take 4).mapIdx fun k g => g.1 * 2 ^ (8 * k) + 2 ^ (32 + k)).foldl (· + ·) 0)

/-- The state of a core at dealing (R348, R310, R349). -/
def Core.dealt (k : Core) (j : Job) (first : Bool) (d : Dev) (idx : List Nat) : Core :=
  let r := j.launch
  let old := if first then { Core.reset k.id with quarantined := k.quarantined } else k
  let seed := BitVec.ofNat 64 (Launch.seed r)
  let jix := j.indexOf k.id
  let k := { old with
    a := old.a.dealt r (Launch.entry r 0) idx, x := old.x.dealt r (Launch.entry r 1) idx, s := old.s.dealt r (Launch.entry r 2) idx
    imgLen := 4 * Launch.imgLen r, rings := [], tokens := [], heldTokens := [], accs := [], sees := [], nextSeq := 0, slots := [], fmts := []
    seat0 := Seat.empty, seat1 := Seat.empty, pcw := List.replicate 8 0, acs := [], claims := [], windows := [], anys := [], freads := []
    coin := seed ^^^ (BitVec.ofNat 64 jix * golden), seed := seed, job := some j.id, jobid := BitVec.ofNat 64 j.id, gmap := j.gmap jix
    fixed := Launch.fixed r, checked := Launch.checked r, paired := Launch.paired r, conf := Launch.conf r, budget := BitVec.ofNat 64 (Launch.budget r)
    startAt := d.now, dealtAt := d.now, counted := 0, excluded := 0, freeAt := none, drainlim := d.drainlim, gangwait := d.gangwait, ptbase := j.ptbase, asid := BitVec.ofNat 64 j.id
    phase := 0, phases := [], lapsed := [], cancelled := none, tokLog := [], life := .running, busy := true, arcs := [] }
  { k with phases := [Phase.fresh 0 (if k.guarded 0 then some k.checkpoint else none)] }

/-- Writes bytes of a local storage, with the marks of whole units cleared (R247). -/
def Mach.placeBytes (m : Mach) (c off : Nat) (bs : List Byte) : Mach :=
  let pa := localPa c off
  (m.store pa bs).onDev fun d => { d with poison := d.poison.filter fun u => !(decide (pa ≤ u) && decide (u + (unitOf u).2 ≤ pa + bs.length)) }

/-- The job's region values and scratchpad image as its tables hold them now, or as admission read them where they can no longer be read (R348; log entry
73). -/
def Mach.dealTables (m : Mach) (j : Job) : Mach × List (Nat × BitVec 128) × List (Nat × List Byte) :=
  let regv := m.table (Launch.regv j.launch) [] (·.readRegv j 4096 (Launch.regv j.launch))
  let spad := regv.1.table (Launch.spad j.launch) [] (·.readSpad j 65536 (Launch.spad j.launch))
  (spad.1, regv.2.getD j.regv, spad.2.getD j.spad)

/-- The storages of a core at dealing (R348). -/
def Mach.dealStorage (m : Mach) (j : Job) (c : Nat) (first : Bool) : Mach :=
  let m := if first then (let image := (m.clearWindow c).jobImage j
                          image.1.wrBytes (localPa c 0x300000) image.2) else m
  let t := m.dealTables j
  let lo := localPa c 0x200000
  let m := (t.1.wipe lo (lo + 0x8000)).onDev fun d => { d with poison := d.poison.filter fun u => decide (u < lo) || decide (lo + 0x8000 ≤ u) }
  let m := t.2.1.foldl (fun m p => m.setRegion c p.1 p.2) m
  t.2.2.foldl (fun m p => m.placeBytes c p.1 p.2) m

/-- Deals iteration n to a core, and replays its parked traffic at its first dealing (R358); arrival counters that change set the core's latches and slots that
change the cluster's (R138), and waits of collectives go on once every participant runs (R360). -/
def Mach.dealCore (m : Mach) (j : Job) (c n : Nat) : Mach :=
  let first := !j.seen.contains c
  let idx := gridIndices j.launch n
  let m := m.dealStorage j c first
  let d := m.dev
  let shown := !(m.core c).slots.isEmpty
  let counted := (m.core c).acs.any fun p => p.2 != 0
  let m := (m.onCore c fun k => let k := k.dealt j first d idx
    if counted then k.latchAll else k).onJob j.id fun b => { b with seen := if first then b.seen ++ [c] else b.seen }
  let m := if shown then m.latchCluster c else m
  (if first then m.replay c (fun _ => true) else m).resumeWaits j.id

/-- The walker whose cluster a core is in, with its next iteration (R347). -/
def Job.walker (j : Job) (c : Nat) : Option (Nat × Nat) :=
  let k := j.clusters.idxOf (clusterOf c)
  match j.clusters[k]?, j.next[k]? with
  | some _, some n => if n < Launch.total j.launch ∧ !j.away.contains (clusterOf c) then some (k, n) else none
  | _, _ => none

/-- `DEAL_ITERATION` (R347): the walker of the core's cluster deals its next iteration, if it goes to this core. -/
def execDealIteration (job : BitVec 12) (c : CoreId) : State → Result :=
  liftHub fun m => match m.job job.toNat with
    | none => m
    | some j => match j.walker c.toNat with
      | none => m
      | some (k, n) =>
        if j.ending.isSome ∨ m.dealTarget j (clusterOf c.toNat) n ≠ some c.toNat then m
        else
          let m := m.onJob j.id fun b => { b with next := b.next.set k (nextIteration b.launch b.clusters.length n) }
          let m := m.dealCore j c.toNat n
          if Launch.paired j.launch then m.dealCore j (c.toNat + 1) n else m

/-- The cores that have become free note when (R350). -/
def Dev.settle (d : Dev) : Dev :=
  { d with cores := d.cores.map fun p =>
      if p.2.freeAt.isNone && p.2.job.isSome && p.2.life == .running && p.2.isFree then (p.1, { p.2 with busy := false, freeAt := some d.now }) else p }

/-! ### The end of a job (R352) -/

/-- Every iteration has been dealt and every core of the partition is free. -/
def Mach.jobComplete (m : Mach) (j : Job) : Bool :=
  j.next.all (fun n => decide (Launch.total j.launch ≤ n)) && j.away.isEmpty && j.saved.isEmpty &&
  m.dev.cores.all fun p => p.2.job != some j.id || (p.2.life == .running && p.2.isFree)

/-- A system store already issued completes (R352); the end of the job waits where the CXL home agent holds bytes of it for another access (R364). -/
def Mach.finishStore (m : Mach) (c : Nat) (a : Acc) : Mach :=
  if a.op != .store then m
  else if a.rep then (match a.stage with
    | .sequenced _ => m
    | _ => m.sequence c a.uid a.pa a.key (leBytes a.bytes a.b.toNat))
  else if m.dev.cxlBusy a.pa a.bytes then { m with held := true }
  else m.homeWrite a.pa (leBytes a.bytes a.b.toNat) a.key

/-- The accesses of a job's cores, running and saved, those first that the CXL home agent has already. -/
def Mach.jobAccs (m : Mach) (j : Job) : List (Nat × Acc) :=
  let all := (m.dev.cores.filter fun p => p.2.job == some j.id).flatMap (fun p => p.2.accs.map fun a => (p.1, a)) ++
    j.saved.flatMap fun s => s.core.accs.map fun a => (s.core.id, a)
  all.filter (fun p => p.2.stage == .cxl) ++ all.filter fun p => p.2.stage != .cxl

/-- The pages of the elastic pool go back to the supervisor, their leaves invalidated (R342), once the CXL home agent holds none of the tables (R364). -/
def Mach.freePool (m : Mach) (j : Job) : Mach :=
  if j.mapped.any fun p => m.walkBusy p.1 5 j.ptbase.toNat then { m with held := true } else
  let m := j.mapped.foldl (fun m p => match m.leafAddr p.1 5 j.ptbase.toNat with
    | some a => m.homeWrite a (leBytes 8 0) 0
    | none => m) m
  m.onDev fun d => { d with freePages := d.freePages ++ j.pool ++ j.mapped.map (·.2) ++ j.leaving.map (·.2) }

/-- What a core is for other jobs once a job has ended: free, or SAVED while another job has an image of it (R345, R355). -/
def Dev.lifeAfter (d : Dev) (j c : Nat) : Life := if d.jobs.any fun b => b.id != j && b.saved.any fun s => s.core.id == c then .saved else .idle

/-- The cores that a job has run on, or has images of in its save area, are free. -/
def Mach.freeCores (m : Mach) (j : Job) : Mach :=
  let free (c : Nat) (k : Core) : Core :=
    if k.job = some j.id then
      { Core.reset c with life := m.dev.lifeAfter j.id c, quarantined := k.quarantined, drainlim := k.drainlim, gangwait := k.gangwait }
    else if k.life = .saved then { k with life := m.dev.lifeAfter j.id c } else k
  m.onDev fun d => { d with cores := d.cores.map fun p => (p.1, free p.1 p.2) }

/-- A wave does not go on for a job that has ended (R339, R406). -/
def Wave.leave (w : Wave) (j : Nat) : Wave := { w with jobs := w.jobs.filter (· != j), first := w.first.filter fun f => f.1 != j }

/-- Ends a job (R352, R353): stores complete, commands are squashed, everything it holds is released and the end record is written. -/
def Mach.finishJob (m : Mach) (j : Job) (e : Ending) : Mach :=
  let accs := m.jobAccs j
  let m := accs.foldl (fun m p => m.finishStore p.1 p.2) (m.freeCores j)
  let m := m.freePool j
  let m := m.writeEnd j.queue (endRecord (Launch.conf j.launch) (hubCycles (m.dev.now - j.admitted)) j.queue j.id e)
  (m.onDev fun d => { d with
    jobs := d.jobs.filter fun b => b.id != j.id
    net := d.net.filter fun x => x.job != j.id
    chosen := d.chosen.filter fun c => c.2.1 != some j.id
    waving := d.waving.map fun w => w.leave j.id
    ports := d.ports.map fun p => { p with inj := p.inj.filter fun e => e.1 != j.id, lost := p.lost.filter fun e => e.1 != j.id }
    quietDomains := d.quietDomains.filter fun q => !q.contains (0, j.id)
    ledWaves := d.ledWaves.filter fun e => e.1 != j.id
    keys := d.keys.map fun s => if s.job = some j.id then { s with job := none } else s }).wake

/-- `JOB_END` (R352): a decided end is carried out, or a job that has run out of iterations completes. -/
def execJobEnd (job : BitVec 12) : State → Result :=
  liftHub fun m => match m.job job.toNat with
    | none => m
    | some j => match j.ending with
      | some e => m.finishJob j e
      | none => if m.jobComplete j then m.finishJob j ⟨0, 0, 0, 0, 0⟩ else m

/-- `JOB_ABORT` (R352, R427): the job ends with status 7. -/
def execJobAbort (job : BitVec 12) : State → Result := lift fun m => m.endJob (some job.toNat) ⟨7, 0, 0, 0, 0⟩

/-! ### Limits set by the management session (R427) -/

/-- `SET_DRAINLIM`. -/
def execSetDrainlim (v : Word) : State → Result :=
  lift fun m => m.managed (·.onDev fun d => { d with drainlim := v, cores := d.cores.map fun p => (p.1, { p.2 with drainlim := v }) })

/-- `SET_GANGWAIT`. -/
def execSetGangwait (v : Word) : State → Result :=
  lift fun m => m.managed (·.onDev fun d => { d with gangwait := v, cores := d.cores.map fun p => (p.1, { p.2 with gangwait := v }) })

end Sys2Proof.Machine
end

