-- ==== Sys2Proof/Machine/Quiet.lean ====
section
/-! DEFINITION. Quiet (R396, R398-R408, R411-R413): the wait `wquiet` and the wave of the quiet root. -/

namespace Sys2Proof.Machine

/-- Another device leads the job's quiet domain (R413). -/
def Dev.ledElsewhere (d : Dev) (j : Nat) : Bool := d.quietDomains.any fun q => q.contains (0, j) && (q.head?.map (·.1)) != some 0

/-- The wave in progress for a job that a wait of it does not count, by its number plus 1: one that began before the wait (R396); 0 where none is in progress. -/
def Dev.runningWave (d : Dev) (j : Option Nat) : Nat :=
  match j with
  | none => 0
  | some j =>
    if d.ledElsewhere j then (match d.ledWaves.find? fun p => p.1 == j with | some p => p.2 + 1 | none => 0)
    else match d.waving with
      | some w => if w.jobs.contains j then w.began + 1 else 0
      | none => 0

/-- `wquiet` (R396): it waits for a wave that begins after its issue and ends it. -/
def execWquiet (d a : Reg) (g : Guard) : State → Result :=
  lift fun m => m.guarded g fun m =>
    match m.cur.wait with
    | some (.quiet _ _ _ (some v)) => m.finWrite d v 1 m.pc4 fun x => { x with wait := none }
    | some (.quiet _ _ _ none) => m
    | _ =>
      let v := m.cur.reg a
      if v.extractLsb' 32 32 ≠ 0 then m.trap Cause.reservedField m.instrWord
      else
        let w := m.dev.runningWave m.here.job
        m.onCur fun x => { x with wait := some (.quiet (v.extractLsb' 0 32).toNat w 0 none) }

/-- A context waits in `wquiet` (R406). -/
def Ctx.quietPending (x : Ctx) : Bool :=
  match x.wait with
  | some (.quiet _ _ _ none) => true
  | _ => false

/-- A context of the core waits in `wquiet`. -/
def Core.quietPending (c : Core) : Bool := allCtx.any fun k => (c.ctx k).quietPending

/-- The jobs with a `wquiet` pending that this device's root serves: those of domains that another device leads wait for its waves (R406, R413). -/
def Dev.quietJobs (d : Dev) : List Nat :=
  (d.jobs.filter fun j => !d.ledElsewhere j.id && d.cores.any fun p => p.2.job == some j.id && p.2.quietPending).map (·.id)

/-- Core cycles of the quiet root's period of 4,096 hub cycles (R396). -/
def quietPeriod : Nat := 6144

/-- A wave may start: one in each period of the root (R396, R406). -/
def Dev.mayWave (d : Dev) : Bool := d.waving.isNone && d.now % quietPeriod == 0 && d.waveAt != some d.now && !d.quietJobs.isEmpty

/-- The other members of the quiet domain that this device leads for a job: device and job there (R413). -/
def Dev.followers (d : Dev) (j : Nat) : List (Nat × Nat) :=
  match d.quietDomains.find? fun q => q.head? == some (0, j) with
  | none => []
  | some q => q.drop 1

/-- The wave agents of a job's domain, where this device leads it (R413). -/
def Dev.agentsOf (d : Dev) (j : Nat) : List Nat := (d.followers j).map (·.1)

/-- Frames of class 3 to the wave agents of a wave's jobs: the agent's job, the wave's number, and what follows for the job (R413, R414). -/
def Mach.tellAgents (m : Mach) (jobs : List Nat) (n : Nat) (more : Nat → List Nat) : Mach :=
  (jobs.flatMap fun j => (m.dev.followers j).map fun a => (a, j)).foldl (fun m x => m.transmit 3 (.wave x.1.1 ([x.1.2, n] ++ more x.2))) m

/-- `QUIET_WAVE` (R406): a wave begins; the agents are asked for its first pass (R413). -/
def execQuietWave : State → Result :=
  lift fun m =>
    let d := m.dev
    if !d.mayWave then m
    else
      let w := (d.wave + 1) % 2 ^ 32
      (m.onDev fun d => { d with wave := w, waveAt := some d.now, waving := some { jobs := d.quietJobs, pass := 1, began := w, first := [], agents := [] } }).tellAgents
        d.quietJobs w fun _ => []

/-- Sums of INJ, CON, LOST and ABANDONED. -/
abbrev Sums := Word × Word × Word × Word

def Sums.add (a b : Sums) : Sums := (a.1 + b.1, a.2.1 + b.2.1, a.2.2.1 + b.2.2.1, a.2.2.2 + b.2.2.2)

/-- A core's counters. -/
def Core.sums (c : Core) : Sums := (c.inj, c.con, c.lost, c.abandoned)

/-- What a port holds of a job (R410). -/
def Port.sums (p : Port) (j : Nat) : Sums :=
  let at_ (l : List (Nat × Word)) : Word := match l.find? fun e => e.1 == j with | some e => e.2 | none => 0
  (at_ p.inj, 0, at_ p.lost, 0)

/-- The sums over this device's interfaces of a job (R400, R406). -/
def Dev.sums (d : Dev) (j : Job) : Sums :=
  let cores := (d.cores.filter fun p => p.2.job == some j.id).map fun p => p.2.sums
  (cores ++ (j.saved.map fun s => s.core.sums) ++ d.ports.map (·.sums j.id)).foldl Sums.add (j.inj, j.con, j.lost, j.abandoned)

/-- A wave agent has answered for a job in the pass. -/
def Wave.answered (w : Wave) (device j : Nat) : Bool := w.agents.any fun a => a.device == device && a.job == j && a.pass == w.pass

/-- What the agents have returned for a job in the pass. -/
def Wave.agentSums (w : Wave) (j : Nat) : Sums :=
  ((w.agents.filter fun a => a.job == j && a.pass == w.pass).map fun a => (a.inj, a.con, a.lost, a.abandoned)).foldl Sums.add (0, 0, 0, 0)

/-- Every agent that the pass asks has answered. -/
def Dev.passDone (d : Dev) (w : Wave) : Bool := w.jobs.all fun j => (d.agentsOf j).all fun a => w.answered a j

/-- The sums of a pass, for each job that still lives. -/
def Dev.passSums (d : Dev) (w : Wave) : List (Nat × Sums) :=
  w.jobs.filterMap fun n => (jobFind d.jobs n).map fun j => (n, (d.sums j).add (w.agentSums n))

/-- Quiet by the sums of two passes (R406). -/
def isQuiet (first second : Sums) : Bool := first.2.1 == second.1 && second.1 == second.2.1

/-- The word that a wave reports (R396, R412). -/
def waveWord (w : Nat) (loss quiet : Bool) : Word := BitVec.ofNat 64 (w * 2 ^ 32 + (if loss then 2 else 0) + (if quiet then 1 else 0))

/-- A wait at the end of a wave: one that was in progress when the wait began does not count; another ends the wait, or is counted (R406). -/
def Ctx.waveEnds (x : Ctx) (w : Nat) (quiet : Bool) (word : Word) : Ctx :=
  match x.wait with
  | some (.quiet lim start seen none) =>
    if start = w + 1 then { x with wait := some (.quiet lim 0 seen none) }
    else if quiet then { x with wait := some (.quiet lim start seen (some word)) }
    else if lim = 0 then x
    else { x with wait := some (.quiet lim start (seen + 1) (if lim ≤ seen + 1 then some word else none)) }
  | _ => x

/-- A wave's result reaches a job: its registers, its waits, its latches (R406, R412, R138). -/
def Dev.waveResult (d : Dev) (n j : Nat) (first second : Sums) : Dev :=
  let quiet := isQuiet first second
  let loss := second.2.2.1 != 0
  let word := waveWord n loss quiet
  { d with
    jobs := d.jobs.map fun b => if b.id = j then { b with waved := true, qlost := second.2.2.1, qabandon := second.2.2.2, qwave := word } else b
    cores := d.cores.map fun p => if p.2.job = some j then (p.1, (allCtx.foldl (fun c k => c.onCtx k fun x => x.waveEnds n quiet word) p.2).latchAll) else p }

/-- Sums as numbers of a frame. -/
def Sums.nats (s : Sums) : List Nat := [s.1.toNat, s.2.1.toNat, s.2.2.1.toNat, s.2.2.2.toNat]

/-- The two passes of a job in a wave that ends, where the job was gathered for in both. -/
def Wave.passes (w : Wave) (sums : List (Nat × Sums)) (j : Nat) : Option (Sums × Sums) :=
  match w.first.find? fun f => f.1 == j, sums.find? fun s => s.1 == j with
  | some f, some s => some (f.2, s.2)
  | _, _ => none

/-- `WAVE_PASS_END` (R406): the pass has its sums; the second one decides. The interfaces of this device are read at the end of the pass. The agents are asked
for the second pass, and told the result (R413). -/
def execWavePassEnd : State → Result :=
  lift fun m =>
    match m.dev.waving with
    | none => m
    | some w =>
      if !m.dev.passDone w then m
      else
        let sums := m.dev.passSums w
        if w.pass = 1 then (m.onDev fun d => { d with waving := some { w with pass := 2, first := sums } }).tellAgents w.jobs w.began fun _ => []
        else
          let m := m.onDev fun d => sums.foldl (fun d s => match w.passes sums s.1 with
            | some p => d.waveResult w.began s.1 p.1 p.2
            | none => d) { d with waving := none }
          m.tellAgents (w.jobs.filter fun j => (w.passes sums j).isSome) w.began fun j => match w.passes sums j with
            | some p => p.1.nats ++ p.2.nats
            | none => []

/-- The domain in which a device leads this device's job, by the member that leads it: device and job there (R413). -/
def Dev.leadOf (d : Dev) (device j : Nat) : Option (Nat × Nat) :=
  (d.quietDomains.find? fun q => q.contains (0, j) && (match q.head? with | some p => p.1 == device && p.1 != 0 | none => false)).bind (·.head?)

/-- This device as a wave agent of a lead (R413): asked for a pass of wave `n`, it returns the sums of its interfaces for its job, under the lead's number of
the job. -/
def Mach.gatherFor (m : Mach) (lead : Nat × Nat) (j n : Nat) : Mach :=
  match m.job j with
  | none => m
  | some b =>
    let s := m.dev.sums b
    (m.onDev fun d => { d with ledWaves := (d.ledWaves.filter fun p => p.1 != j) ++ [(j, n)] }).transmit 3 (.wave lead.1 ([lead.2] ++ s.nats))

/-- A lead's wave has ended (R413): its result reaches the job of this device. -/
def Dev.ledResult (d : Dev) (j n : Nat) (first second : Sums) : Dev :=
  { d with ledWaves := d.ledWaves.filter fun p => p.1 != j }.waveResult n j first second

/-- An agent's sums for a job reach the wave in progress, once in a pass (R413). -/
def Dev.agentAnswer (d : Dev) (device j : Nat) (s : Sums) : Dev :=
  match d.waving with
  | none => d
  | some w =>
    if w.jobs.contains j && (d.agentsOf j).contains device && !w.answered device j then
      { d with waving := some { w with agents := w.agents ++ [⟨device, j, w.pass, s.1, s.2.1, s.2.2.1, s.2.2.2⟩] } }
    else d

/-- `WAVE_AGENT_GATHER` (R413). A frame names this device's job first. Of the device that leads the job's domain: a pass request, the wave's number, or the
wave's result, its number before the sums of both passes. Of an agent of a domain that this device leads for the job: its four sums for the pass. -/
def execWaveAgentGather (device : BitVec 6) (sums : List Nat) : State → Result :=
  lift fun m =>
    let w64 (i : Nat) : Word := BitVec.ofNat 64 (sums.getD i 0)
    let four (i : Nat) : Sums := (w64 i, w64 (i + 1), w64 (i + 2), w64 (i + 3))
    let j := sums.headD 0
    match sums.length, m.dev.leadOf device.toNat j with
    | 2, some lead => m.gatherFor lead j (sums.getD 1 0)
    | 10, some _ => m.onDev fun d => d.ledResult j (sums.getD 1 0) (four 2) (four 6)
    | 5, none => m.onDev fun d => d.agentAnswer device.toNat j (four 1)
    | _, _ => m

end Sys2Proof.Machine
end

