-- ==== Sys2Proof/Machine/Sha3.lean ====
section
/-! DEFINITION. SHA3-256 (FIPS 202), which measures firmware and configuration (R420, R421). The rotation offsets and the round constants are computed as
FIPS 202 defines them: by the walk of ρ over the lanes, and by the shift register of rc. -/

namespace Sys2Proof.Machine

/-- A sheet of a Keccak state: the lanes of one x, by y. -/
abbrev Sheet := List Word

/-- A Keccak state: its five sheets, by x. -/
abbrev Sponge := List Sheet

/-- The lane of column x and row y. -/
def Sponge.lane (s : Sponge) (x y : Nat) : Word := (s.getD (x % 5) []).getD (y % 5) 0

/-- The state whose lanes a function gives. -/
def Sponge.build (f : Nat → Nat → Word) : Sponge := (List.range 5).map fun x => (List.range 5).map (f x)

/-- θ: each lane takes the parity of the column before it, and that of the column after it turned by one bit. -/
def Sponge.theta (s : Sponge) : Sponge :=
  let parity : List Word := s.map fun sheet => sheet.foldl (· ^^^ ·) 0
  let add (x : Nat) : Word := (parity.getD ((x + 1) % 5) 0).rotateLeft 1 ^^^ parity.getD ((x + 4) % 5) 0
  s.mapIdx fun x sheet => sheet.map (add x ^^^ ·)

/-- The lanes in the order in which ρ visits them, from (1, 0). -/
def rhoWalk : List (Nat × Nat) := (List.range 24).foldl (fun l _ => match l.getLast? with
  | none => [(1, 0)]
  | some (x, y) => l ++ [(y, (2 * x + 3 * y) % 5)]) []

/-- By how many bits ρ turns a lane: a triangular number for the t-th lane of the walk, nothing for lane (0, 0). -/
def rhoTurn (x y : Nat) : Nat := match rhoWalk.findIdx? (· == (x, y)) with
  | some t => (t + 1) * (t + 2) / 2 % 64
  | none => 0

/-- ρ, and then π, which takes the lane of (x, y) from (x + 3y, x). -/
def Sponge.turn (s : Sponge) : Sponge :=
  Sponge.build fun x y => let from_ := (x + 3 * y) % 5
    (s.lane from_ x).rotateLeft (rhoTurn from_ x)

/-- χ, within each row. -/
def Sponge.chi (s : Sponge) : Sponge := Sponge.build fun x y => s.lane x y ^^^ (s.lane (x + 2) y &&& ~~~s.lane (x + 1) y)

/-- One step of the shift register of rc. -/
def rcShift (r : BitVec 8) : BitVec 8 := let v := r <<< 1
  if r.msb then v ^^^ 0x71 else v

/-- The constant of a round, and the register after it: seven bits, at the places 2^j - 1. -/
def roundConstant (r : BitVec 8) : Word × BitVec 8 :=
  (List.range 7).foldl (fun p j => (if p.2.getLsbD 0 then p.1 ||| (1 <<< (2 ^ j - 1)) else p.1, rcShift p.2)) (0, r)

/-- One round of Keccak-f[1600], with the register of rc. -/
def Sponge.round (p : Sponge × BitVec 8) : Sponge × BitVec 8 :=
  let rc := roundConstant p.2
  (p.1.theta.turn.chi.modify 0 fun sheet => sheet.modify 0 (· ^^^ rc.1), rc.2)

/-- Keccak-f[1600]. -/
def Sponge.permute (s : Sponge) : Sponge := (Nat.repeat Sponge.round 24 (s, 1)).1

/-- A message with the suffix and the padding of SHA3-256, in blocks of 136 bytes. -/
def sha3Blocks (bs : List Byte) : List (List Byte) :=
  let fill := 136 - bs.length % 136
  let tail : List Byte := ((List.replicate fill 0).modify 0 (· ||| 0x06)).modify (fill - 1) (· ||| 0x80)
  chunked 136 (bs ++ tail)

/-- A block of 136 bytes is absorbed: the words of the message lie along the rows. -/
def Sponge.absorb (s : Sponge) (block : List Byte) : Sponge :=
  let word (x y : Nat) : Word := BitVec.ofNat 64 (leNat ((block.drop (8 * (x + 5 * y))).take 8))
  (Sponge.build fun x y => word x y ^^^ s.lane x y).permute

/-- SHA3-256 of bytes: 32 bytes, the first of them lowest. -/
def sha3 (bs : List Byte) : BitVec 256 :=
  let s := (sha3Blocks bs).foldl Sponge.absorb (Sponge.build fun _ _ => 0)
  s.lane 3 0 ++ s.lane 2 0 ++ s.lane 1 0 ++ s.lane 0 0

/-- A measurement extends a register (R421). -/
def extend (mr : BitVec 256) (x : List Byte) : BitVec 256 := sha3 (leBytes 32 mr.toNat ++ leBytes 32 (sha3 x).toNat)

/-- Extends measurement register `k`; MR5 to MR7 stay zero. -/
def Dev.measure (d : Dev) (k : Nat) (x : List Byte) : Dev := { d with mr := d.mr.modify k fun v => if k ≤ 4 then extend v x else v }

end Sys2Proof.Machine
end

