-- ==== Sys2Proof/Machine/Nolham.lean ====
section
/-! DEFINITION. The Nolham fabric and the scale-out Ethernet (R368, R410, R414-R418, R425): ports and their replay buffers, memory transactions of other nodes, and
the transport engine. -/

namespace Sys2Proof.Machine

/-! ### Ports (R410, R414, R425) -/

/-- Adds to a job's count at a port. -/
def portAdd : List (Nat × Word) → Nat → Word → List (Nat × Word)
  | [], j, v => [(j, v)]
  | (k, w) :: l, j, v => if k = j then (k, w + v) :: l else (k, w) :: portAdd l j v

/-- A frame's counted messages move from INJ to LOST (R410). -/
def Port.lose (p : Port) (f : Frame) : Port :=
  f.counted.foldl (fun p c => { p with inj := portAdd p.inj c.1 (0 - BitVec.ofNat 64 c.2), lost := portAdd p.lost c.1 (BitVec.ofNat 64 c.2) })
    { p with frames := p.frames.filter fun g => g.id != f.id }

/-- The record of `MSG_LOST` in a job's log (R410). -/
def lostRecord (j n : Nat) : LogRec := ⟨BitVec.ofNat 64 n, BitVec.ofNat 64 Cause.msgLost, BitVec.ofNat 64 j, 0, 0, 0⟩

/-- A frame of a port is declared lost (R410). -/
def Mach.loseFrame (m : Mach) (port : Nat) (f : Frame) : Mach :=
  let m := m.onDev fun d => d.onPort port (·.lose f)
  f.counted.foldl (fun m c => m.onJob c.1 (·.append (lostRecord c.1 c.2))) m

/-- Replays that a frame is given before it is declared lost (R410). -/
def maxReplays : Nat := 8

/-- `FRAME_LOSS` (R410): the eighth replay has failed. -/
def execFrameLoss (port : BitVec 4) (id : Nat) : State → Result :=
  lift fun m => match (m.dev.port port.toNat).frames.find? fun f => f.id == id with
    | none => m
    | some f => if f.replays < maxReplays then m else m.loseFrame port.toNat f

/-- `LINK_DOWN` (R410): every frame of the replay buffer is lost. -/
def execLinkDown (port : BitVec 4) : State → Result :=
  lift fun m => ((m.dev.port port.toNat).frames.foldl (fun m f => m.loseFrame port.toNat f) m).onDev fun d =>
    d.onPort port.toNat fun p => { p with up := false, waiting := [] }

/-- `LINK_ACK` (R414): the frame leaves the replay buffer. -/
def execLinkAck (port : BitVec 4) (id : Nat) : State → Result :=
  lift fun m => m.onDev fun d => d.onPort port.toNat fun p => { p with frames := p.frames.filter fun f => f.id != id }

/-- `REPLAY_REQUEST` (R414): the frame is sent again. -/
def execReplayRequest (port : BitVec 4) (id : Nat) : State → Result :=
  lift fun m => match (m.dev.port port.toNat).frames.find? fun f => f.id == id with
    | none => m
    | some f =>
      if f.replays < maxReplays then
        (m.onDev fun d => d.onPort port.toNat fun p => { p with frames := p.frames.map fun g => if g.id = id then { g with replays := g.replays + 1 } else g }).reply
          (.resend port.toNat id)
      else m

/-- `CREDIT_RETURN` (R414): credits of a class come back, and frames that waited for them go out. -/
def execCreditReturn (port : BitVec 4) (cls : BitVec 3) (n : Nat) : State → Result :=
  lift fun m => m.onDev fun d => d.onPort port.toNat fun p => { p with credits := p.credits.modify cls.toNat (· + n) }.flush p.waiting.length

/-- `LINK_REKEY` (R425): a new epoch, and sequence numbers begin again. -/
def execLinkRekey (port : BitVec 4) : State → Result :=
  lift fun m => m.onDev fun d => d.onPort port.toNat fun p => if p.up then p.rekey else p

/-- `LINK_BRING_UP` (R425): the SPDM session between the two ends of the link has given it its keys; the first epoch is a free value (log entry 6). -/
def execLinkBringUp (port : BitVec 4) : State → Result :=
  lift fun m =>
    let e := m.freeVal
    (m.onDev fun d => d.onPort port.toNat fun p => if p.up then p else { p with up := true, epoch := e.truncate 32, seq := 0, frames := [], waiting := [] }).bumpFree

/-! ### Memory transactions (R368, R415, R416) -/

/-- A node's domain may use the key slot, and no CONFIDENTIAL job holds it (R416, R341). -/
def Dev.memKeyOk (d : Dev) (node slot : Nat) : Bool :=
  match d.nodeDomain node, d.keySlot slot with
  | some dom, some s => s.domain == dom && s.key.isSome && s.job.isNone
  | _, _ => false

/-- The parts of [pa, pa + n) that lie in one page each: address and length. A transaction reaches two pages at most. -/
def pageParts (pa n : Nat) : List (Nat × Nat) :=
  let k := min n (4096 - pa % 4096)
  [(pa, k), (pa + k, n - k)].filter fun p => p.2 != 0

/-- The status of a memory transaction on `n` bytes (R416): the first that applies. `reads`: it reads, so that poison refuses it. -/
def Dev.memStatus (d : Dev) (h : MemHdr) (lenOk : Bool) (n : Nat) (reads : Bool) : Nat :=
  if !h.clean ∨ h.ord = 3 ∨ !lenOk then 8
  else if (d.memKind h.addr.toNat (max 1 n)).isNone then 5
  else if !d.memKeyOk h.src.toNat h.key.toNat then 6
  else if reads && ((pageParts h.addr.toNat n).any fun p => (d.poisonIn (d.replicaPa 0 p.1) p.2).isSome) then 7
  else 0

/-- Bytes at the home, or at die 0's replica of a replicated page (R366). -/
def Mach.memBytes (m : Mach) (pa n key : Nat) : List Byte := (pageParts pa n).flatMap fun p => m.homeRead (m.dev.replicaPa 0 p.1) p.2 key

/-- The current value at the home, or in the update order for a replicated page (R365). -/
def Mach.memValue (m : Mach) (pa n key : Nat) : List Byte :=
  (pageParts pa n).flatMap fun p => if m.dev.replicated p.1 then m.orderValue p.1 p.2 key else m.homeRead p.1 p.2 key

/-- A write of each page's part at the home, or at the update sequencer for a replicated page (R365, R368). -/
def Mach.memPut (m : Mach) (pa : Nat) (data : List Byte) (key : Nat) : Mach :=
  (pageParts pa data.length).foldl (fun m p =>
    let bs := (data.drop (p.1 - pa)).take p.2
    if m.dev.replicated p.1 then m.sequence 1024 0 p.1 key bs else m.homeWrite p.1 bs key) m

/-- A write of a source, and what is due for it: at once, or once every replica has applied what was sequenced of it (R365, R368). -/
def Mach.memWrite (m : Mach) (node pa key : Nat) (acq : Bool) (data : List Byte) (r : Option Reply) : Mach :=
  let m' := m.memPut pa data key
  if m'.dev.nextUpdate = m.dev.nextUpdate then (match r with | some r => m'.transmit 0 r | none => m')
  else m'.onDev fun d => { d with pendingMem := d.pendingMem ++ [⟨d.nextUpdate - 1, node, pa, data.length, acq, r⟩] }

/-- A transaction of a node on [pa, pa + n) may not be performed yet: an earlier one of the node is held; one that is not performed everywhere overlaps it or
is an acquire, or this one is a release (R368); the CXL home agent holds it (R364). -/
def Dev.mustWait (d : Dev) (node pa n : Nat) (rel : Bool) : Bool :=
  (d.deferred.any fun p => p.1 == node) ||
  (d.pendingMem.any fun p => p.node == node && (rel || p.acq || (decide (p.pa < pa + n) && decide (pa < p.pa + p.bytes)))) || d.cxlBusy pa n

/-- A transaction in its turn: held, or performed. -/
def Mach.inTurn (m : Mach) (i : Instr) (node pa n : Nat) (rel : Bool) (f : Mach → Mach) : Mach :=
  if m.dev.mustWait node pa n rel then m.onDev fun d => { d with deferred := d.deferred ++ [(node, i)] } else f m

/-- `MEM_READ` (R366, R368, R415, R416). -/
def execMemRead (h : MemHdr) : State → Result :=
  lift fun m =>
    let n := h.len.toNat
    m.inTurn (.memRead h) h.src.toNat h.addr.toNat n (h.ord == 1) fun m =>
      let st := m.dev.memStatus h (decide (n ≤ 4096)) n true
      m.transmit 0 (.nolham h.src h.tag st (if st = 0 then m.memBytes h.addr.toNat n h.key.toNat else []))

/-- `MEM_WRITE` (R368, R415, R416). -/
def execMemWrite (h : MemHdr) (data : List Byte) : State → Result :=
  lift fun m =>
    let n := h.len.toNat
    m.inTurn (.memWrite h data) h.src.toNat h.addr.toNat n (h.ord == 1) fun m =>
      let st := m.dev.memStatus h (decide (n ≤ 4096) && data.length == n) n false
      if st = 0 then m.memWrite h.src.toNat h.addr.toNat h.key.toNat (h.ord == 2) data (some (.nolham h.src h.tag 0 [])) else m.transmit 0 (.nolham h.src h.tag st [])

/-- An atomic of another node (R415, R416): `amocas` carries its compare value below its swap value. -/
def Mach.memAmo (m : Mach) (i : Instr) (op : AccOp) (h : MemHdr) (data : List Byte) : Mach :=
  let cas := op == .cas
  let w := if cas then h.len.toNat / 2 else h.len.toNat
  m.inTurn i h.src.toNat h.addr.toNat w (h.ord == 1) fun m =>
    let st := m.dev.memStatus h ((w == 4 || w == 8) && data.length == h.len.toNat && (!cas || h.len.toNat % 2 == 0)) w true
    if st ≠ 0 then m.transmit 0 (.nolham h.src h.tag st [])
    else
      let old := m.memValue h.addr.toNat w h.key.toNat
      let new := amoNew op (8 * w) (leNat old) (leNat (data.take w)) (leNat (data.drop w))
      m.memWrite h.src.toNat h.addr.toNat h.key.toNat (h.ord == 2) (leBytes w new) (some (.nolham h.src h.tag 0 old))

/-- `MEM_AMOADD` (R415). -/
def execMemAmoadd (h : MemHdr) (data : List Byte) : State → Result := lift fun m => m.memAmo (.memAmoadd h data) .add h data

/-- `MEM_AMOAND` (R415). -/
def execMemAmoand (h : MemHdr) (data : List Byte) : State → Result := lift fun m => m.memAmo (.memAmoand h data) .and h data

/-- `MEM_AMOOR` (R415). -/
def execMemAmoor (h : MemHdr) (data : List Byte) : State → Result := lift fun m => m.memAmo (.memAmoor h data) .or h data

/-- `MEM_AMOXOR` (R415). -/
def execMemAmoxor (h : MemHdr) (data : List Byte) : State → Result := lift fun m => m.memAmo (.memAmoxor h data) .xor h data

/-- `MEM_AMOMIN` (R415). -/
def execMemAmomin (h : MemHdr) (data : List Byte) : State → Result := lift fun m => m.memAmo (.memAmomin h data) .min h data

/-- `MEM_AMOMAX` (R415). -/
def execMemAmomax (h : MemHdr) (data : List Byte) : State → Result := lift fun m => m.memAmo (.memAmomax h data) .max h data

/-- `MEM_AMOMINU` (R415). -/
def execMemAmominu (h : MemHdr) (data : List Byte) : State → Result := lift fun m => m.memAmo (.memAmominu h data) .minu h data

/-- `MEM_AMOMAXU` (R415). -/
def execMemAmomaxu (h : MemHdr) (data : List Byte) : State → Result := lift fun m => m.memAmo (.memAmomaxu h data) .maxu h data

/-- `MEM_AMOSWAP` (R415). -/
def execMemAmoswap (h : MemHdr) (data : List Byte) : State → Result := lift fun m => m.memAmo (.memAmoswap h data) .swap h data

/-- `MEM_AMOCAS` (R415). -/
def execMemAmocas (h : MemHdr) (data : List Byte) : State → Result := lift fun m => m.memAmo (.memAmocas h data) .cas h data

/-! ### Queue-puts (R335, R417) -/

/-- `QUEUE_PUT` (R335): performed as a release, whatever its ORD, after every earlier transaction of its node (R417). -/
def execQueuePut (src tag : BitVec 16) (h : PutHdr) (rec : List Byte) : State → Result :=
  lift fun m => m.inTurn (.queuePut src tag h rec) src.toNat 0 0 true fun m =>
    let st := m.dev.putStatus src h rec
    let m := m.transmit 1 (.put src tag st)
    if st ≠ 0 then m
    else
      let w := m.dev.queue h.addr.toNat
      let v := { w with recs := w.recs ++ [rec] }
      m.onDev fun d => d.setQueue (if w.recs.isEmpty then v.newHead d.now else v)

/-! ### Scale-out Ethernet (R418) -/

/-- Changes a queue pair that exists. -/
def Dev.onPair (d : Dev) (qp : Nat) (f : QueuePair → QueuePair) : Dev := { d with pairs := d.pairs.map fun p => if p.num = qp then f p else p }

def Dev.hasPair (d : Dev) (qp : Nat) : Bool := d.pairs.any fun p => p.num == qp

/-- `ROCE_SEND` (R418): the transport engine takes the data for the queue pair. -/
def execRoceSend (qp : Nat) (data : List Byte) : State → Result :=
  lift fun m => if m.dev.hasPair qp then m.onDev fun d => d.onPair qp fun p => { p with received := p.received ++ [data] } else m.reply (.refused qp)

/-- The key slot that an RDMA access uses: the one whose key the sector is under; the supervisor's where there is none (log entry 70). -/
def Dev.rdmaKey (d : Dev) (pa : Nat) : Nat :=
  match d.keys.find? fun s => (match s.key with | some v => v.toNat + 1 == d.sectorKey pa | none => false) with
  | some s => s.num
  | none => 0

/-- RDMA may reach [addr, addr + n): memory of a queue pair that exists, none of it under the key of a CONFIDENTIAL job (R341, R426). -/
def Dev.rdmaOk (d : Dev) (qp addr n : Nat) : Bool :=
  d.hasPair qp && (d.memKind addr (max 1 n)).isSome &&
  (List.range ((addr + n + 31) / 32 - addr / 32)).all fun i => match d.keySlot (d.rdmaKey (addr + 32 * i)) with
    | some s => s.job.isNone
    | none => true

/-- The pages' parts of an RDMA access of any length. -/
def allPages (pa n : Nat) : List (Nat × Nat) :=
  (List.range (n / 4096 + 2)).filterMap fun i =>
    let lo := max pa ((pa / 4096 + i) * 4096)
    let hi := min (pa + n) ((pa / 4096 + i + 1) * 4096)
    if lo < hi then some (lo, hi - lo) else none

/-- The write of a queue pair, page by page; nothing is answered. -/
def Mach.rdmaPut (m : Mach) (qp pa : Nat) (data : List Byte) : Mach :=
  (allPages pa data.length).foldl (fun m p => m.memWrite (65536 + qp) p.1 (m.dev.rdmaKey p.1) false ((data.drop (p.1 - pa)).take p.2) none) m

/-- `RDMA_WRITE` (R418): performed at its home as a system-scope Nolham write. -/
def execRdmaWrite (qp : Nat) (addr : Word) (data : List Byte) : State → Result :=
  lift fun m => m.inTurn (.rdmaWrite qp addr data) (65536 + qp) addr.toNat data.length false fun m =>
    if m.dev.rdmaOk qp addr.toNat data.length then m.rdmaPut qp addr.toNat data else m.reply (.refused qp)

/-- `RDMA_READ` (R418): served from device memory. -/
def execRdmaRead (qp : Nat) (addr : Word) (len : Nat) : State → Result :=
  lift fun m => m.inTurn (.rdmaRead qp addr len) (65536 + qp) addr.toNat len false fun m =>
    if m.dev.rdmaOk qp addr.toNat len && (allPages addr.toNat len).all fun p => (m.dev.poisonIn (m.dev.replicaPa 0 p.1) p.2).isNone then
      m.reply (.roce qp ((allPages addr.toNat len).flatMap fun p => m.memBytes p.1 p.2 (m.dev.rdmaKey p.1)))
    else m.reply (.refused qp)

/-- `CONGESTION_NOTIFICATION` (R418): the queue pair sends slower while it is told of congestion. -/
def execCongestionNotification (qp : Nat) (marked : Bool) : State → Result := lift fun m => m.onDev fun d => d.onPair qp fun p => { p with slow := marked }

/-- `QUEUE_PAIR_CREATE` (R418): the supervisor creates or destroys a queue pair. -/
def execQueuePairCreate (qp : Nat) (create : Bool) : State → Result :=
  lift fun m => m.managed (·.onDev fun d =>
    if !create then { d with pairs := d.pairs.filter fun p => p.num != qp }
    else if d.hasPair qp then d else { d with pairs := d.pairs ++ [⟨qp, [], false⟩] })

end Sys2Proof.Machine
end

