-- ==== Sys2Proof/Machine/Pair.lean ====
section
/-! DEFINITION. Tie-breaks of paired execution (R262, R263, R350): the spare core's run of a phase whose signatures differ, and what its signature decides. -/

namespace Sys2Proof.Machine

/-- The spare core of a core's cluster (R347). -/
def spareOf (c : Nat) : Nat := c / 32 * 32 + 30

/-- The phase of a pair, by its even core, whose two signatures are known and differ (R262). -/
def Mach.tied (m : Mach) (e : Nat) : Option (Nat × BitVec 64 × BitVec 64) :=
  if e % 2 = 1 then none
  else match (m.core e).signature, (m.core (e + 1)).signature with
    | some (n, a), some (n', b) => if n = n' ∧ a ≠ b then some (n, a, b) else none
    | _, _ => none

/-! ### The spare's run (R262) -/

/-- The spare core can begin a run: it serves no other pair, and no image of it is in the save area. -/
def Mach.spareFree (m : Mach) (sp : Nat) : Bool :=
  let k := m.core sp
  k.tie.isNone && (k.life == .idle || k.life == .saved) && !k.quarantined && m.dev.jobs.all fun j => j.saved.all fun s => s.core.id != sp

/-- Every return-queue entry that a checkpoint holds is filled. -/
def Ckpt.filled (k : Ckpt) : Bool := (k.a.rq ++ k.x.rq ++ k.s.rq).all fun e => e.val.isSome

/-- The checkpoint of phase n of the even core from which the spare can start now. -/
def Mach.tieCkpt (m : Mach) (e n : Nat) : Option Ckpt :=
  match ((m.core e).phaseRec n).bind (·.ckpt) with
  | some k => if k.filled then some k else none
  | none => none

/-- A context of the spare: the state that the checkpoint holds, with the trap vector and the scratch register of the even core's context. -/
def Ctx.spare (x k : Ctx) : Ctx := { Ctx.reset.restore k with tvec := x.tvec, scratch := x.scratch, latch := k.latch }

/-- The spare core at the start of its run (R262; log entry 47). -/
def Core.spare (w : Core) (sp n : Nat) (k : Ckpt) (now : Nat) : Core :=
  { w with
    id := sp, a := w.a.spare k.a, x := w.x.spare k.x, s := w.s.spare k.s, rings := k.rings, tokens := k.tokens, heldTokens := [], fmts := k.fmts
    coin := k.coin, lq := [], sq := [], mq := [], vq := [], kq := [], reserved := 0, accs := [], sees := k.carried, slots := [], seat0 := Seat.empty, seat1 := Seat.empty
    windows := [], anys := [], freads := [], startAt := now, dealtAt := now, counted := 0, excluded := 0, freeAt := none, tlb := [], phase := n
    phases := [Phase.fresh n (some { k with tokAt := 0 })], lapsed := [], cancelled := none, kept := [], tokLog := [], inj := 0, con := 0, lost := 0, abandoned := 0, amsgs := []
    life := .running, busy := true, stopAt := 0, quarantined := false, arcs := [] }

/-- An operand space of one core, as the same space of another. -/
def Space.moved (a b : Nat) : Space → Space
  | .core g => .core (if g = a then b else g)
  | .virt => .virt

/-- A kept record of one core as a record of another. -/
def Cmd.moveTo (a b : Nat) (d : Cmd) : Cmd :=
  { d with ops := d.ops.map fun o => { o with nest := { o.nest with space := o.nest.space.moved a b } } }

/-- The spare's storages: the image and the region registers of the even core, everything else zero (R262). -/
def Mach.spareStorage (m : Mach) (e sp : Nat) : Mach :=
  let image := m.bytes (localPa e 0x300000) (m.core e).imgLen
  let regs := m.bytes (localPa e 0x200000) 0x8000
  let lo := localPa e 0x200000
  let marks := (m.dev.poison.filter fun u => decide (lo ≤ u) && decide (u < lo + 0x8000)).map fun u => localPa sp 0x200000 + (u - lo)
  let m := ((m.clearWindow sp).wrBytes (localPa sp 0x300000) image).wrBytes (localPa sp 0x200000) regs
  m.onDev fun d => { d with poison := marks.foldl unitInsert d.poison }

/-- The spare begins to run phase n of a pair: from the even core's checkpoint, the even core's kept records first (R262). -/
def Mach.startSpare (m : Mach) (e sp n : Nat) (k : Ckpt) : Mach :=
  let w := m.core e
  let now := m.dev.now
  let m := (m.spareStorage e sp).setCore sp { w.spare sp n k now with tie := some e }
  w.kept.foldl (fun m r => m.refetchOf sp (r.moveTo e sp)) m

/-- What the spare's run has given: nothing yet, an engine fault, or a signature (R262, R263). -/
def Core.spareVerdict (k : Core) : Option (Option (BitVec 64)) :=
  if k.cmds.any (fun d => d.fault.isSome) || allCtx.any (fun x => !(k.ctx x).efq.isEmpty || (k.ctx x).efault != 0) then some none
  else (k.phases.head?.bind (·.sig)).map some

/-- The spare has counted messages while a pass of a wave is under way, so that its counters cannot be folded yet (R401). -/
def Mach.spareHeld (m : Mach) (k : Core) : Bool :=
  m.dev.waving.isSome && (k.inj != 0 || k.con != 0 || k.lost != 0 || k.abandoned != 0)

/-- The spare's run is over: its counters go to the job's hub entry, and it serves another pair; slots that were bound set the cluster's latches (R138). -/
def Mach.releaseSpare (m : Mach) (sp : Nat) : Mach :=
  let k := m.core sp
  let m := m.unwaitAll sp
  let m := match k.job with
    | none => m
    | some j => m.onJob j fun b => { b with
        inj := b.inj + k.inj, con := b.con + k.con, lost := b.lost + k.lost, abandoned := b.abandoned + k.abandoned }
  let m := m.setCore sp { Core.reset sp with quarantined := k.quarantined, drainlim := k.drainlim, gangwait := k.gangwait }
  (if k.slots.isEmpty then m else m.latchCluster sp).wake

/-! ### The decision (R262, R263) -/

/-- The time of a tie-break is left out of `BUDGETUSED` (R350). -/
def Core.endTie (k : Core) (n now : Nat) : Core :=
  ({ k with excluded := k.excluded + k.tieWait now }).onPhase n fun p => { p with differAt := none }

/-- The core that lost a tie-break: its phase is cancelled, and it goes on from the winner's state at the start of the next phase (R262). -/
def Mach.follow (m : Mach) (loser winner n : Nat) : Mach :=
  let w := m.core winner
  let kept : Option Ckpt := (w.phaseRec (n + 1)).bind (·.ckpt)
  let k := kept.getD w.checkpoint
  let m := (m.unwaitAll loser).onCore loser fun d =>
    let gone : List Cmd := d.cmds.filter fun q => match q.phase with | some x => decide (n ≤ x) | none => false
    let d := d.discard gone
    let back (x kx : Ctx) : Ctx := let y := x.restore kx
      { y with efq := y.efq.filter fun f => !(gone.any fun q => q.q == f.q && q.seq == f.seq) }
    { d with a := back d.a k.a, x := back d.x k.x, s := back d.s k.s, rings := k.rings, fmts := k.fmts, coin := k.coin, tokens := k.tokens
             sees := (d.sees.filter fun e => !e.1.ofContexts && !e.1.ofTokens) ++ k.carried
             accs := d.accs.filter fun a => decide (a.phase < n), lapsed := d.lapsed.filter fun p => decide (n + 1 < p.1), phase := n + 1, tokLog := []
             phases := (d.phases.filter fun q => q.num < n) ++ [Phase.fresh (n + 1) (kept.map fun k => { k with tokAt := 0 })] }
  ((m.logErr 5 loser 0 0 n).startRefetches loser).wake

/-- The spare's signature decides between a, of the even core, and b; without a match, or after an engine fault of the spare, nothing of the phase is
committed and the job ends (R262, R263). -/
def Mach.decideTie (m : Mach) (e n : Nat) (a b : BitVec 64) (v : Option (BitVec 64)) : Mach :=
  let o := e + 1
  let now := m.dev.now
  let m := (m.onCore e (·.endTie n now)).onCore o (·.endTie n now)
  if v = some a then (((m.logErr 8 e 0 a n).onCore e (·.resolve n))).follow o e n
  else if v = some b then (((m.logErr 8 e 0 a n).onCore o (·.resolve n))).follow e o n
  else (((m.logErr 9 e 0 a n).logErr 9 e 0 b n).logErr 9 e 0 (v.getD 0) n).endJob (m.core e).job ⟨4, 0, 0, e, Cause.resultUnresolved⟩

/-- `TIE_BREAK` (R262, R263): for a pair whose signatures differ, the spare begins its run, or its result decides; a run whose pair is no longer tied is
given up. -/
def execTieBreak (even : CoreId) : State → Result :=
  lift fun m =>
    let e := even.toNat
    let sp := spareOf e
    let k := m.core sp
    if k.tie = some e then
      if m.spareHeld k then m
      else match m.tied e, k.spareVerdict with
        | none, _ => m.releaseSpare sp
        | some _, none => m
        | some (n, a, b), some v => (m.releaseSpare sp).decideTie e n a b v
    else match m.tied e with
      | none => m
      | some (n, _) => match m.tieCkpt e n with
        | some k => if m.spareFree sp then m.startSpare e sp n k else m
        | none => m

/-- The pair of an even core has something for `TIE_BREAK` to do. -/
def Mach.tieReady (m : Mach) (e : Nat) : Bool :=
  let sp := spareOf e
  let k := m.core sp
  if k.tie = some e then k.life == .running && !m.spareHeld k && ((m.tied e).isNone || k.spareVerdict.isSome)
  else match m.tied e with
    | none => false
    | some (n, _) => (m.core e).life == .running && (m.tieCkpt e n).isSome && m.spareFree sp

/-- The spare has run its phase to the end: its contexts issue no more (R262). -/
def Core.spareDone (k : Core) : Bool := k.tie.isSome && (match k.phases.head? with | some p => p.ended | none => true)

end Sys2Proof.Machine
end

