-- ==== Sys2Proof/Machine/Trust.lean ====
section
/-! DEFINITION. Trust, the Sideboard and the supervisor's own actions (R341, R344, R352, R413, R415, R419-R431, R433): boot and measurement, SPDM, key slots,
power, telemetry, logs, CXL expanders. -/

namespace Sys2Proof.Machine

/-! ### Boot (R420, R421) -/

/-- The firmware that boots: a staged image takes the place of the one that ran (R427). -/
def Dev.images (d : Dev) : List Firmware := (d.firmware.filter fun f => !d.staged.any fun g => g.image == f.image) ++ d.staged

/-- An image loads (R420). -/
def Firmware.loads (f : Firmware) : Bool :=
  sha3 f.key == Config.fusedKeyHash && Config.mldsaVerify f.key (leBytes 32 (sha3 f.body).toNat) f.signature && decide (Config.fusedMinVersion f.image ≤ f.version)

/-- The measurement registers after boot: MR0 the ROM and fuses, MR1 to MR3 the images of those numbers (R421). -/
def bootMr (fs : List Firmware) : List (BitVec 256) :=
  fs.foldl (fun mr f => if 1 ≤ f.image ∧ f.image ≤ 3 then mr.modify f.image fun v => extend v f.body else mr)
    ((List.replicate 8 (0 : BitVec 256)).modify 0 fun v => extend v Config.romIdentity)

/-- What the supervisor maps of the expanders that a boot finds: whole pages, port 0 first, up to 4 TiB in all (R419; log entry 75). -/
def expanders (free : Nat) : Nat × Nat :=
  let c0 := min (Config.cxlCapacity free 0 / 4096 * 4096) Config.cxlMax
  (c0, min (Config.cxlCapacity free 1 / 4096 * 4096) (Config.cxlMax - c0))

/-- The device after a reset: all as `State.reset` has it, but for the firmware that runs, the expanders that the supervisor maps and the counters of the
model's own. In the boot ROM no supervisor runs, and nothing is mapped (R419, R420). -/
def Dev.rebooted (d : Dev) : Dev :=
  let fs := d.images
  let ok := fs.all Firmware.loads
  let c := if ok then expanders d.free else (0, 0)
  { Dev.reset with
    firmware := fs, staged := [], inRom := !ok, mr := if ok then bootMr fs else (List.replicate 8 (0 : BitVec 256)).modify 0 fun v => extend v Config.romIdentity
    cxlBytes := c.1 + c.2, cxlPorts := natSet (natSet [] 0 c.1) 1 c.2, outbox := if ok then d.outbox else d.outbox ++ [.bootFailed], free := d.free + 1, uid := d.uid }

/-- Addresses above every byte of the physical map. -/
def topAddress : Nat := 2 ^ 57

/-- A reset of the package. -/
def Mach.reboot (m : Mach) : Mach := (m.wipe 0 topAddress).onDev Dev.rebooted

/-- `DEVICE_RESET` (R420). -/
def execDeviceReset : State → Result := lift Mach.reboot

/-- `POWER_CYCLE` (R427, R429): every job is lost, no end record is written, and the package boots. -/
def execPowerCycle : State → Result := lift Mach.reboot

/-- `STAGE_FIRMWARE` (R427): the image waits for the next reset. -/
def execStageFirmware (image version : Nat) (key body signature : List Byte) : State → Result :=
  lift fun m => m.onDev fun d => { d with staged := (d.staged.filter fun f => f.image != image) ++ [⟨image, version, key, body, signature⟩] }

/-! ### Power and heat (R427, R429, R431) -/

/-- Every job ends with a machine check (R429). -/
def Mach.failJobs (m : Mach) : Mach := m.dev.jobs.foldl (fun m j => m.endJob (some j.id) ⟨3, 0, 0, 0, 0⟩) m

/-- `COMPUTE_DIE_POWER` (R427): with the dies off no core issues; jobs that ran on them end as for a thermal trip (log entry 76). -/
def execComputeDiePower (on : Bool) : State → Result := lift fun m => (if on then m else m.failJobs).onDev fun d => { d with diesOn := on }

/-- `THERMAL_TRIP` (R429): a machine check ends every job with status 3, and the compute dies switch off; the hub still carries out the ends. -/
def execThermalTrip : State → Result := lift fun m => m.failJobs.onDev fun d => { d with diesOn := false }

/-- `SET_POWER_CAP` (R431). -/
def execSetPowerCap (watts : Nat) : State → Result :=
  lift fun m => m.managed fun m => if 1200 ≤ watts ∧ watts ≤ 2400 then m.onDev fun d => { d with powerCap := watts } else m.reply (.refused watts)

/-! ### Telemetry and logs (R264, R427, R433) -/

/-- The 16 Nolham links and the two CXL links: up or down (R427). -/
def Dev.nolhamLinks (d : Dev) : List Bool := (List.range 16).map fun k => (d.port k).up

def Dev.cxlLinks (d : Dev) : List Bool := (List.range 2).map fun k => natAt d.cxlPorts k != 0 && !d.cxlDown.contains k

/-- `TELEMETRY_READ` (R427): readings of the moment, the count of corrected errors (R265) and the link states. -/
def execTelemetryRead : State → Result :=
  lift fun m => (m.reply (.telemetry (Config.telemetry m.dev.free) m.dev.corrected m.dev.nolhamLinks m.dev.cxlLinks)).bumpFree

/-- `ERROR_LOG_READ` (R264). -/
def execErrorLogRead : State → Result := lift fun m => m.reply (.errorLog m.dev.errlog m.dev.errOver)

/-- A session of a domain is established. -/
def Dev.sessionOf (d : Dev) (id : Nat) : Option Session := d.sessions.find? fun s => s.id == id && s.established

/-- The reader may see a job's log: the job's host domain, and for a CONFIDENTIAL job only its domain's session (R433, R426). -/
def Dev.logReader (d : Dev) (node : Nat) (session : Option Nat) (j : Job) : Bool :=
  let bySession := match session.bind d.sessionOf with | some s => j.domain == some s.domain | none => false
  bySession || (!Launch.conf j.launch && j.domain.isSome && d.nodeDomain node == j.domain)

/-- `JOB_LOG_READ` (R433). -/
def execJobLogRead (node : BitVec 16) (session : Option Nat) (job : BitVec 12) : State → Result :=
  lift fun m => match m.job job.toNat with
    | none => m.reply (.refused job.toNat)
    | some j => if m.dev.logReader node.toNat session j then m.reply (.jobLog j.log) else m.reply (.refused job.toNat)

/-! ### Configuration that MR4 measures (R421) -/

/-- A trust-relevant change of configuration extends MR4. -/
def Mach.measured (m : Mach) (f : Dev → Dev) : Mach := m.managed fun m => ((m.onDev f).onDev fun d => d.measure 4 (Config.changeRecord d.free)).bumpFree

/-- `RESERVE_CLUSTERS` (R344). -/
def execReserveClusters (clusters : List (BitVec 5)) : State → Result :=
  lift fun m => m.measured fun d => { d with reservedClusters := (clusters.map (·.toNat)).foldl unitInsert [] }

/-- `NODE_DOMAIN_BIND` (R415). -/
def execNodeDomainBind (node : BitVec 16) (domain : Nat) : State → Result :=
  lift fun m => m.measured fun d => { d with nodes := (d.nodes.filter fun p => p.1 != node.toNat) ++ [(node.toNat, domain)] }

/-- `KEY_SLOT_ASSIGN` (R341, R423): slot 0 is the supervisor's; a slot bound to a job stays as it is. -/
def execKeySlotAssign (domain : Nat) (slot : BitVec 12) : State → Result :=
  lift fun m =>
    let bound : Bool := match m.dev.keySlot slot.toNat with | some s => s.job.isSome | none => false
    if slot = 0 ∨ bound then m.reply (.refused slot.toNat)
    else m.measured fun d => { d with keys := (d.keys.filter fun s => s.num != slot.toNat) ++ [⟨slot.toNat, domain, none, none⟩] }

/-- `BIND_QUIET_DOMAIN` (R413): refused for more than 64 devices, or where a path crosses a switch with no wave agent. The first device leads; a job's earlier
binding gives way to its new one. -/
def execBindQuietDomain (jobs : List (BitVec 6 × BitVec 12)) (agents : Bool) : State → Result :=
  lift fun m =>
    if !agents ∨ 64 < jobs.length ∨ ¬(jobs.map (·.1)).Nodup then m.reply (.refused jobs.length)
    else
      let q := jobs.map fun p => (p.1.toNat, p.2.toNat)
      m.measured fun d => { d with quietDomains := (d.quietDomains.filter fun e => !(e.any q.contains)) ++ [q] }

/-! ### SPDM (R422, R424) -/

namespace Spdm
/-- Response codes of SPDM 1.3 (PRESUMED from DSP0274). -/
def version : Nat := 0x04
def digests : Nat := 0x01
def certificate : Nat := 0x02
def challengeAuth : Nat := 0x03
def measurements : Nat := 0x60
def capabilities : Nat := 0x61
def keyExchange : Nat := 0x64
def finish : Nat := 0x65
def heartbeat : Nat := 0x68
def endSession : Nat := 0x6C
def vendor : Nat := 0x7E
def error : Nat := 0x7F
end Spdm

/-- An answer whose bytes the manual does not give. In band, SPDM runs over MGMT frames (R414, R422). -/
def Mach.spdmFree (m : Mach) (code : Nat) : Mach := (m.transmit 4 (.spdm code (Config.spdmAnswer m.dev.free))).bumpFree

/-- An error answer. -/
def Mach.spdmError (m : Mach) : Mach := m.spdmFree Spdm.error

/-- A request that the negotiation has come far enough for: 1 version, 2 capabilities, 3 algorithms. -/
def Mach.spdmAfter (m : Mach) (step : Nat) (f : Mach → Mach) : Mach := if step ≤ m.dev.negotiated then f m else m.spdmError

/-- Bytes signed with the alias key, which MR1 to MR3 determine (R420). -/
def Dev.signed (d : Dev) (bs : List Byte) : List Byte := bs ++ Config.aliasSign ((d.mr.drop 1).take 3) bs

/-- MR0 to MR4 as bytes. -/
def Dev.mrBytes (d : Dev) : List Byte := (d.mr.take 5).flatMap fun v => leBytes 32 v.toNat

/-- `GET_VERSION` (R422): 1.3 only. -/
def execGetVersion : State → Result := lift fun m => (m.transmit 4 (.spdm Spdm.version [0x13])).onDev fun d => { d with negotiated := 1 }

/-- `GET_CAPABILITIES` (R422). -/
def execGetCapabilities : State → Result :=
  lift fun m => m.spdmAfter 1 fun m => (m.spdmFree Spdm.capabilities).onDev fun d => { d with negotiated := 2 }

/-- `NEGOTIATE_ALGORITHMS` (R422): the algorithms are fixed. -/
def execNegotiateAlgorithms : State → Result :=
  lift fun m => m.spdmAfter 2 fun m =>
    let r : Reply := .algorithms .mlDsa44 .sha3With256 .sha3With256 .secp384r1 .aes256Gcm (Config.spdmAnswer m.dev.free)
    ((m.transmit 4 r).bumpFree).onDev fun d => { d with negotiated := 3 }

/-- `GET_DIGESTS` (R422): the hash of the certificate chain. -/
def execGetDigests : State → Result := lift fun m => m.spdmAfter 3 fun m => m.transmit 4 (.spdm Spdm.digests (leBytes 32 (sha3 Config.certificate).toNat))

/-- `GET_CERTIFICATE` (R422). -/
def execGetCertificate : State → Result := lift fun m => m.spdmAfter 3 fun m => m.transmit 4 (.spdm Spdm.certificate Config.certificate)

/-- `CHALLENGE` (R422): signed with the alias key. -/
def execChallenge (nonce : List Byte) : State → Result := lift fun m => m.spdmAfter 3 fun m => m.transmit 4 (.spdm Spdm.challengeAuth (m.dev.signed nonce))

/-- `GET_MEASUREMENTS` (R422): MR0 to MR4, signed; the running ones also while firmware is staged (R429). -/
def execGetMeasurements (nonce : List Byte) : State → Result :=
  lift fun m => m.spdmAfter 3 fun m => m.transmit 4 (.spdm Spdm.measurements (m.dev.signed (m.dev.mrBytes ++ nonce)))

/-- `KEY_EXCHANGE` (R422): a session begins. -/
def execKeyExchange (domain : Nat) : State → Result :=
  lift fun m => m.spdmAfter 3 fun m =>
    let u := m.fresh
    ((m.spdmFree Spdm.keyExchange).onDev fun d => { d with sessions := d.sessions ++ [⟨u, domain, false⟩] }).bump

/-- `FINISH` (R422): the session is established. -/
def execFinish (session : Nat) : State → Result :=
  lift fun m =>
    if m.dev.sessions.any fun s => s.id == session then
      (m.spdmFree Spdm.finish).onDev fun d => { d with sessions := d.sessions.map fun s => if s.id = session then { s with established := true } else s }
    else m.spdmError

/-- `HEARTBEAT` (R422). -/
def execHeartbeat (session : Nat) : State → Result :=
  lift fun m => if (m.dev.sessionOf session).isSome then m.spdmFree Spdm.heartbeat else m.spdmError

/-- `END_SESSION` (R422). -/
def execEndSession (session : Nat) : State → Result :=
  lift fun m =>
    if (m.dev.sessionOf session).isSome then (m.spdmFree Spdm.endSession).onDev fun d => { d with sessions := d.sessions.filter fun s => s.id != session }
    else m.spdmError

/-- A key request inside a session (R424): refused, with nothing changed, for a slot of another domain or one bound to a CONFIDENTIAL job. -/
def Mach.keyRequest (m : Mach) (session slot : Nat) (key : Option (BitVec 512)) : Mach :=
  match m.dev.sessionOf session, m.dev.keySlot slot with
  | some s, some k =>
    if k.domain = s.domain ∧ k.job.isNone then
      (m.spdmFree Spdm.vendor).onDev fun d => { d with keys := d.keys.map fun t => if t.num = slot then { t with key := key } else t }
    else m.reply (.refused slot)
  | _, _ => m.reply (.refused slot)

/-- `KEY_SET` (R424). -/
def execKeySet (session : Nat) (slot : BitVec 12) (key : BitVec 512) : State → Result := lift fun m => m.keyRequest session slot.toNat (some key)

/-- `KEY_CLEAR` (R424). -/
def execKeyClear (session : Nat) (slot : BitVec 12) : State → Result := lift fun m => m.keyRequest session slot.toNat none

/-! ### CXL expanders (R419) -/

/-- Some page table under a table of a level maps an address of [lo, hi). -/
def Mach.mapsRange (m : Mach) (lo hi : Nat) : Nat → Nat → Bool
  | 0, _ => false
  | level + 1, table => (List.range 512).any fun i =>
    let e : Word := BitVec.ofNat 64 (leNat (m.homeRead (table + 8 * i) 8 0))
    Pte.v e && (if level = 0 ∨ Pte.l e then decide (Pte.pa e < hi) && decide (lo < Pte.pa e + pageSize (level + 1) e) else m.mapsRange lo hi level (Pte.pa e))

/-- Every page-table root in use. -/
def Dev.allRoots (d : Dev) : List Nat := (d.roots.map (·.2) ++ d.jobs.map fun j => j.ptbase.toNat).dedup

/-- Moves what is stored at [lo, hi) down by `by_` bytes. -/
def Mach.moveDown (m : Mach) (lo hi by_ : Nat) : Mach :=
  let cs := m.cells lo hi
  let shift (u : Nat) : Nat := if lo ≤ u ∧ u < hi then u - by_ else u
  (cs.foldl (fun m c => m.wr (c.1 - by_) c.2) (m.wipe lo hi)).onDev fun d => { d with
    poison := (d.poison.map shift).foldl unitInsert []
    sectorKeys := d.sectorKeys.foldl (fun l p => natSet l (shift p.1) p.2) [] }

/-- `CXL_EXPANDER_REMOVE` (R419): refused while any page table maps the expander; otherwise its capacity leaves CXL memory. -/
def execCxlExpanderRemove (port : Bool) : State → Result :=
  lift fun m =>
    let r := m.dev.portRange port
    if m.dev.allRoots.any fun t => m.mapsRange r.1 r.2 5 t then m.reply (.refused (if port then 1 else 0))
    else
      let top := Config.cxlBase + m.dev.cxlBytes
      let gone (u : Nat) : Bool := decide (u < r.1) || decide (r.2 ≤ u)
      let m := (m.wipe r.1 r.2).onDev fun d => { d with
        poison := d.poison.filter gone
        sectorKeys := d.sectorKeys.filter fun p => gone p.1 }
      let m := m.moveDown r.2 top (r.2 - r.1)
      m.onDev fun d => { d with cxlBytes := d.cxlBytes - (r.2 - r.1), cxlPorts := natSet d.cxlPorts (if port then 1 else 0) 0 }

end Sys2Proof.Machine
end

