-- ==== Sys2Proof/Machine/Auto.lean ====
section
/-! DEFINITION. What comes next: the step of the engines, the homes, the hub and the recovery machinery that can be taken now (log entry 4), and what a
context's issue slot holds: nothing, an engine fault, a fetch that cannot be made, or an instruction (R13, R14, R19, R37, R99, R246). -/

namespace Sys2Proof.Machine

/-! ### Steps that can be taken on a core -/

/-- The next piece of work of a command would be done, or would stop it for good. -/
def Mach.elementReady (m : Mach) (c : Nat) (d : Cmd) : Bool :=
  let busy := !d.handler && (m.core c).queueFaulted d
  if !d.refused.isEmpty then d.q == .kq && d.fault.isNone && !busy && !m.inFlight c d.uid
  else if !d.working then false
  else match ((nextWork c d).run.run m).1 with
    | .ok _ => true
    | .error .hold => false
    | .error (.chase ..) => false
    | .error (.fault ..) => !busy
    | .error (.faultOn ..) => !busy
    | .error (.poison u) => !busy || (if d.gang.isSome then (m.core c).absorbs (m.core c).phase u else (m.absorb c d.phase u).isSome)

/-- The step that a command can take. -/
def Mach.cmdEvent (m : Mach) (c : Nat) (d : Cmd) : Option Instr :=
  let k := m.core c
  let g : CoreId := BitVec.ofNat _ c
  if !k.engines then none
  else if m.mayRetire c d then some (.commandRetire g d.uid)
  else if m.mayIssue c d && !(k.waitsFinish d && d.since.isSome) then some (.commandIssue g d.uid)
  else if k.checked && k.comparesCmd d m.dev.now then some (.footstoolCompare g d.uid false)
  else if k.refetched d then some (.gangPartContinue g d.uid)
  else if k.dueSends.head?.any (fun e => e.uid == d.uid) then some (.tsendFire g d.uid)
  else if d.collExpired m.dev.now && !k.queueFaulted d && d.fault.isNone then some (.collTimeout g d.uid)
  else if m.elementReady c d then some (.engineElement g d.uid)
  else none

/-- The step that a system access can take. -/
def Mach.accEvent (m : Mach) (c : Nat) (a : Acc) : Option Instr :=
  let k := m.core c
  let g : CoreId := BitVec.ofNat _ c
  match a.stage with
  | .cxl => some (if a.op == .load then .cxlReadData g a.uid false else .cxlWriteCompletion g a.uid)
  | .sequenced _ => none
  | .waiting =>
    if k.checked && k.comparesAcc a m.dev.now then some (.footstoolCompare g a.uid false)
    else if (m.accReady c a.uid fun _ => true).isNone then none
    else if a.op == .load then some (.systemLoadPerform g a.uid)
    else if a.rep then some (.updateSequence g a.uid)
    else if a.op == .store then some (.systemStorePerform g a.uid)
    else some (.atomicPerform g a.uid)

/-- The step that the gang reservations of a context can take (R231). -/
def Mach.gangEvent (m : Mach) (c : Nat) (k : CtxId) : Option Instr :=
  let g : CoreId := BitVec.ofNat _ c
  match ((m.core c).ctx k).wait with
  | some (.gang _ _ ms got since) =>
    match ms.find? fun x => !got.contains x && m.gangFree (m.core c).job x && wantsFirst (m.gangWants x) c (ctxNum k) with
    | some x => some (.gangReserve g k (BitVec.ofNat _ x))
    | none => if (m.core c).gangwait.toNat ≤ m.dev.now - since ∧ !(ms.all got.contains) then some (.gangTimeout g k) else none
  | _ => none

/-- The tile finish that a window can make (R382, R385). -/
def finishEvent (c : Nat) (w : Window) : Option Instr :=
  w.finishing.head?.map fun t =>
    let g : CoreId := BitVec.ofNat _ c
    let ac := BitVec.ofNat 8 (w.ac + t)
    if w.op = 6 then .exactTileFinish g ac else .fastTileFinish g ac

/-- The tie-break of a pair of cores (R262). -/
def Mach.tieEvent (m : Mach) (c : Nat) : Option Instr :=
  if c % 2 = 0 && m.tieReady c then some (.tieBreak (BitVec.ofNat _ c)) else none

/-- `DRAINLIM_EXPIRY` has something to do on a core: commands to stop, or every stop is complete (R355, R180). -/
def Mach.drainReady (m : Mach) (c : Nat) : Bool :=
  let k := m.core c
  k.drained m.dev.now &&
    (k.cmds.any (fun d => d.issued && !d.stopped && !d.runsOn) || (!k.cmds.any Cmd.runsOn && !m.dev.accessing c && !m.owesMerges c))

/-- `RESTORE_COMPLETE` can bring a core's image back: its counters are folded, or no wave passes (R401), and the CXL home agent holds nothing that it needs. -/
def Mach.restoreReady (m : Mach) (c : Nat) : Bool :=
  match ((m.core c).job.bind m.job).bind fun j => j.saved.find? fun s => s.core.id == c with
  | some s => !(m.dev.waving.isSome && s.unfolded) && !(m.restoreCore c).held
  | none => false

/-- The first context whose fetch is held and can be released. -/
def Mach.rewritable (m : Mach) (c : Nat) : Option CtxId :=
  allCtx.find? fun x => ((m.core c).ctx x).fetchHeld.isSome && (match m.jobOf c with | some j => !(m.jobImage j).1.held | none => true)

/-- The chase monitor has a change to note, or a command to fault (R57, R152). -/
def Mach.chaseReady (m : Mach) (c : Nat) : Bool :=
  (m.agedArcs c != (m.core c).arcs) || (m.chaseVictims c).any fun d => d.handler || !(m.core c).queueFaulted d

/-- The commit, signature, watchdog or restoring step of a core. -/
def Mach.coreEvent (m : Mach) (c : Nat) : Option Instr :=
  let k := m.core c
  let g : CoreId := BitVec.ofNat _ c
  if k.life == .saving && k.job.isSome then some (.saveComplete g)
  else if k.life == .restoring then (if m.restoreReady c then some (.restoreComplete g) else none)
  else if m.drainReady c then some (.drainlimExpiry g)
  else if !k.engines then none
  else if k.overBudget m.dev.now && (match m.jobOf c with | some j => j.ending.isNone | none => false) then some (.watchdog g)
  else if m.chaseReady c then some (.chaseCycle g)
  else if k.signable.isSome then some (.signaturePass g)
  else if k.committable.isSome then some (.phaseCommit g)
  else if !k.amsgs.isEmpty && k.life == .running && (match k.amsgs with | d :: _ => !k.queueFull d.q | [] => false) && !(m.enqueueHandler c).held then some (.amsgHandlerEnqueue g)
  else match m.rewritable c with
    | some x => some (.instructionStoreRewrite g x)
    | none => match k.heldTokens.find? fun p => decide (k.tok p.1 p.2.1 < 15) with
      | some p => some (.heldTokenPush g (BitVec.ofNat 3 p.1) (BitVec.ofNat 3 p.2.1))
      | none => k.freads.head?.map fun f => .freadFill g f.rq

/-- The first step that can be taken on a core. -/
def Mach.onCoreEvent (m : Mach) (c : Nat) : Option Instr :=
  (m.coreEvent c).orElse fun _ =>
  (m.tieEvent c).orElse fun _ =>
  ((m.core c).windows.findSome? (finishEvent c)).orElse fun _ =>
  ((m.core c).accs.findSome? (m.accEvent c)).orElse fun _ =>
  (allCtx.findSome? (m.gangEvent c)).orElse fun _ =>
  (m.core c).cmds.findSome? (m.cmdEvent c)

/-! ### Steps that can be taken on the device -/

/-- What the message brings about has to wait for the CXL home agent (R364). -/
def Mach.msgHeld (m : Mach) (x : Msg) : Bool := (match x.kind with | .amsg _ => true | _ => false) && (m.deliverMsg x.id fun _ => true).held

/-- The step that a message can take. -/
def Mach.msgEvent (m : Mach) (x : Msg) : Option Instr :=
  if x.refused then
    if (m.core x.src).life == .running && (m.core x.src).job == some x.job &&
      (match x.kind with | .expReturn .. => m.mayReturn x | _ => true) then some (.parkFull x.id) else none
  else if !m.msgReady x || m.msgHeld x then none
  else some (match x.kind with
    | .elem .. => .messageApply x.id
    | .expByte .. => .exponentByteArrive x.id
    | .expReturn .. => .exponentReturnArrive x.id
    | .merge .. => .arrivalMerge x.id
    | .amsg _ => .amsgDeliver x.id)

/-- The end of a job, or its next dealing (R347, R352). -/
def Mach.jobEvent (m : Mach) (j : Job) : Option Instr :=
  let n := BitVec.ofNat 12 j.id
  if j.ending.isSome || m.jobComplete j then some (.jobEnd n)
  else (j.clusters.findSome? fun q => match j.walker (32 * q) with
    | none => none
    | some (_, i) => m.dealTarget j q i).map fun c => .dealIteration n (BitVec.ofNat _ c)

/-- The fold of a saved core's counters, outside the passes of a wave (R401). -/
def Dev.foldEvent (d : Dev) : Option Instr :=
  if d.waving.isSome then none
  else (d.jobs.findSome? fun j => j.saved.find? Saved.unfolded).map fun s => .counterFold (BitVec.ofNat _ s.core.id)

/-- A queue whose head's level has changed with its wait (R343). -/
def Dev.agingEvent (d : Dev) : Option Instr :=
  (d.queues.find? fun w => !w.recs.isEmpty && w.level != agedLevel w.startLevel (d.now - w.since)).map fun w => .levelAging (BitVec.ofNat 16 w.num)

/-- A replica that has an update to apply (R365). -/
def Dev.replicaEvent (d : Dev) : Option Instr :=
  ((List.range 4).find? fun k => d.updates.any fun u => u.pos == d.applied.getD k 0).map fun k => .replicaApply (BitVec.ofNat 2 k)

/-- The step that the hub and the quiet root can take. -/
def Mach.hubEvent (m : Mach) : Option Instr :=
  let d := m.dev
  (d.agingEvent).orElse fun _ =>
  (d.foldEvent).orElse fun _ =>
  (d.replicaEvent).orElse fun _ =>
  (d.jobs.findSome? m.jobEvent).orElse fun _ =>
  if d.admitReady then some .admitHead
  else if !d.toPreempt.isEmpty then some .preemptDecision
  else if d.mayWave then some .quietWave
  else match d.waving with
    | some w => if d.passDone w then some .wavePassEnd else none
    | none => none

/-- The hub's step while the compute dies are off: expanders answer, the ends that are decided are carried out, and replicas catch up (R429). -/
def Mach.offEvent (m : Mach) : Option Instr :=
  (m.dev.cores.findSome? fun p => (p.2.accs.find? fun a => a.stage == .cxl).bind (m.accEvent p.1)).orElse fun _ =>
  ((m.dev.jobs.find? fun j => j.ending.isSome).map fun j => .jobEnd (BitVec.ofNat 12 j.id)).orElse fun _ => m.dev.replicaEvent

/-- Messages by ascending sender, those of one sender in the order they were sent (R316, R330). -/
def Dev.bySender (d : Dev) : List Msg := sortBy (fun a b => decide (a.src < b.src)) d.net

/-- The step of the machine's own that is taken next, if one can be taken (log entry 4): messages, then the cores by number, then the hub. In the boot ROM
nothing runs (R420). -/
def Mach.autoEvent (m : Mach) : Option Instr :=
  if m.dev.inRom then none
  else if !m.dev.diesOn then m.offEvent
  else (m.dev.bySender.findSome? m.msgEvent).orElse fun _ =>
    (m.dev.cores.findSome? fun p => m.onCoreEvent p.1).orElse fun _ => m.hubEvent

/-! ### Issue slots -/

/-- What a slot holds: nothing, a fetch that is held at an offset of the image, or something to execute. -/
inductive SlotWork where
  | empty
  | hold (o : Nat)
  | run (i : Instr)
  deriving DecidableEq, Repr

/-- The instruction at an address, or why it cannot be had (R37, R99, R96, R98, R246). -/
def Mach.fetch (m : Mach) (c : Nat) (pc : Word) : SlotWork :=
  let at_ (o : Nat) : Nat := localPa c (0x300000 + o)
  let p := pc.toNat
  let img := (m.core c).imgLen
  let word (o : Nat) : BitVec 32 := BitVec.ofNat 32 (m.le (at_ o) 4)
  let bad (o : Nat) : Bool := (m.dev.poisonIn (at_ o) 4).isSome
  let access (v : Word) : SlotWork := .run (.illegalEncoding (BitVec.ofNat 8 Cause.access) v)
  if img < p + 4 then access pc
  else if bad p then .hold p
  else
    let w0 := word p
    let long := isLong w0
    if long && decide (img < p + 8) then access (pc + 4)
    else if long && bad (p + 4) then .hold (p + 4)
    else match decode (m.bytes (at_ p) 8) with
      | .ok (i, _) => .run i
      | .error .illegal => .run (.illegalEncoding (BitVec.ofNat 8 Cause.illegal) (w0.zeroExtend 64))
      | .error .reserved => .run (.illegalEncoding (BitVec.ofNat 8 Cause.reservedField) (if long then word (p + 4) ++ w0 else w0.zeroExtend 64))

/-- What the slot of a context of a core holds (R13, R14, R19, R31, R355). -/
def Mach.slotOf (m : Mach) (c : Nat) (k : CtxId) : SlotWork :=
  let d := m.core c
  let x := d.ctx k
  if !m.dev.diesOn || m.dev.inRom || d.life != .running || !d.busy || x.held.isSome || d.spareDone then .empty
  else if !x.efq.isEmpty && !x.inh then .run (.engineFault (BitVec.ofNat _ c) k)
  else if x.done || x.fetchHeld.isSome then .empty
  else m.fetch c x.pc

/-- The cores whose contexts have slots. -/
def Dev.runningCores (d : Dev) : List Nat := (d.cores.filter fun p => p.2.life == .running).map (·.1)

/-- The slot is over: the next running core's comes, or after the last one the next cycle's first. -/
def Dev.nextSlot (d : Dev) : Dev :=
  match d.runningCores.find? fun c => decide (d.turn.toNat < c) with
  | some c => { d with turn := BitVec.ofNat _ c }
  | none => { d with now := d.now + 1, turn := BitVec.ofNat _ (d.runningCores.headD d.turn.toNat) }

/-- A fetch is held (R246). -/
def Mach.holdFetch (m : Mach) (o : Nat) : Mach := m.onCur fun x => { x with fetchHeld := some o }

/-! ### What follows every step -/

/-- Every armed send that is due fires (R391). -/
def Core.fireDue (k : Core) : Core := if k.engines then { k with kq := k.kq.map fun d => if k.mayFire d then { d with fired := true } else d } else k

/-- The chase monitor notes, on a core whose engines run, which waits hold and since when (R56, R57). -/
def Mach.noteWaits (m : Mach) (c : Nat) (k : Core) : Core := if !k.engines || (k.cmds.isEmpty && k.arcs.isEmpty) then k else { k with arcs := m.agedArcs c }

/-- What follows a step at once: armed sends fire, the chase monitor takes note of the waits, and the cores that have become free are noted (R391, R57, R350). -/
def Mach.follows (m : Mach) : Dev :=
  let m := m.onDev fun d => { d with cores := d.cores.map fun p => (p.1, p.2.fireDue) }
  Dev.settle { m.dev with cores := m.dev.cores.map fun p => (p.1, m.noteWaits p.1 p.2) }

/-! ### Placing an instruction -/

/-- A core that runs, whose context can fetch at `pc`. -/
def Core.placed (d : Core) (k : CtxId) (pc : Nat) : Core :=
  ({ d with life := .running, busy := true, tie := none, imgLen := max d.imgLen (pc + 8) }).onCtx k fun x =>
    { x with pc := BitVec.ofNat 64 pc, done := false, held := none, fetchHeld := none, efq := [], wait := none }

/-- The instruction of bits `w` placed in the instruction store of the core whose slot is next, where its context fetches. -/
def Mach.placeWord (m : Mach) (nbits w : Nat) : Mach :=
  let c := m.cid
  let k := m.kid
  let p := if m.cur.pc.toNat + 8 ≤ 0x10000 then m.cur.pc.toNat else 0
  let pa := localPa c (0x300000 + p)
  ((m.wrBytes pa (bytesOf 8 (w % 2 ^ nbits))).onCore c (·.placed k p)).onDev fun d =>
    { d with diesOn := true, inRom := false, agenda := .slot :: d.agenda, poison := d.poison.filter fun u => decide (u < pa) || decide (pa + 8 ≤ u) }

end Sys2Proof.Machine
end

