-- ==== Sys2Proof/Machine/Alu.lean ====
section
/-! DEFINITION. Arithmetic, constants, compares, predicates and selection of the control core (R105-R111): the value each operation gives, and one
meaning per instruction over `Mach.regOp`. -/

namespace Sys2Proof.Machine

/-! ### Values (R105, R106) -/

/-- Left shift by the low six bits of the count. -/
def aluShl (a b : Word) : Word := a <<< (b.truncate 6).toNat
/-- Logical right shift by the low six bits of the count. -/
def aluShr (a b : Word) : Word := a >>> (b.truncate 6).toNat
/-- Arithmetic right shift by the low six bits of the count. -/
def aluSar (a b : Word) : Word := a.sshiftRight (b.truncate 6).toNat
/-- Smaller as signed values. -/
def aluMin (a b : Word) : Word := if a.slt b then a else b
/-- Larger as signed values. -/
def aluMax (a b : Word) : Word := if a.slt b then b else a
/-- Smaller as unsigned values. -/
def aluMinu (a b : Word) : Word := if a.ult b then a else b
/-- Larger as unsigned values. -/
def aluMaxu (a b : Word) : Word := if a.ult b then b else a
/-- Bits [127:64] of the signed product. -/
def aluMulh (a b : Word) : Word := (a.signExtend 128 * b.signExtend 128).extractLsb' 64 64
/-- Bits [127:64] of the unsigned product. -/
def aluMulhu (a b : Word) : Word := (a.zeroExtend 128 * b.zeroExtend 128).extractLsb' 64 64
/-- Signed quotient toward zero; all ones for a zero divisor; -2^63 by -1 wraps (R106). -/
def aluDiv (a b : Word) : Word := if b = 0 then BitVec.allOnes 64 else BitVec.ofInt 64 (a.toInt.tdiv b.toInt)
/-- Unsigned quotient; all ones for a zero divisor (R106). -/
def aluDivu (a b : Word) : Word := if b = 0 then BitVec.allOnes 64 else a / b
/-- Signed remainder with the sign of the dividend; the dividend for a zero divisor (R106). -/
def aluRem (a b : Word) : Word := if b = 0 then a else BitVec.ofInt 64 (a.toInt.tmod b.toInt)
/-- Unsigned remainder; the dividend for a zero divisor (R106). -/
def aluRemu (a b : Word) : Word := if b = 0 then a else a % b
/-- Leading zero bits, 0 to 64. -/
def aluClz (a : Word) : Word := BitVec.ofNat 64 (if a = 0 then 64 else 63 - a.toNat.log2)
/-- One bits, 0 to 64. -/
def aluPopc (a : Word) : Word := BitVec.ofNat 64 ((List.range 64).filter a.getLsbD).length

/-- A condition on two words (R109). -/
def condHolds (cc : Cond) (a b : Word) : Bool :=
  match cc with
  | .eq => a == b
  | .ne => a != b
  | .lt => a.slt b
  | .ltu => a.ult b
  | .ge => !a.slt b
  | .geu => !a.ult b
  | .true => true

/-- A 12-bit immediate, sign-extended (R83, R107). -/
def imm12 (i : BitVec 12) : Word := i.signExtend 64

/-! ### Integer arithmetic (R105, R106) -/

/-- `add` (R105), latency 1. -/
def execAdd (d a b : Reg) (g : Guard) : State → Result := lift fun m => m.regOp g d 1 fun x => (fun x y => x + y) (x.reg a) (x.reg b)

/-- `sub` (R105), latency 1. -/
def execSub (d a b : Reg) (g : Guard) : State → Result := lift fun m => m.regOp g d 1 fun x => (fun x y => x - y) (x.reg a) (x.reg b)

/-- `and` (R105), latency 1. -/
def execAnd (d a b : Reg) (g : Guard) : State → Result := lift fun m => m.regOp g d 1 fun x => (fun x y => x &&& y) (x.reg a) (x.reg b)

/-- `or` (R105), latency 1. -/
def execOr (d a b : Reg) (g : Guard) : State → Result := lift fun m => m.regOp g d 1 fun x => (fun x y => x ||| y) (x.reg a) (x.reg b)

/-- `xor` (R105), latency 1. -/
def execXor (d a b : Reg) (g : Guard) : State → Result := lift fun m => m.regOp g d 1 fun x => (fun x y => x ^^^ y) (x.reg a) (x.reg b)

/-- `shl` (R105), latency 1. -/
def execShl (d a b : Reg) (g : Guard) : State → Result := lift fun m => m.regOp g d 1 fun x => (aluShl) (x.reg a) (x.reg b)

/-- `shr` (R105), latency 1. -/
def execShr (d a b : Reg) (g : Guard) : State → Result := lift fun m => m.regOp g d 1 fun x => (aluShr) (x.reg a) (x.reg b)

/-- `sar` (R105), latency 1. -/
def execSar (d a b : Reg) (g : Guard) : State → Result := lift fun m => m.regOp g d 1 fun x => (aluSar) (x.reg a) (x.reg b)

/-- `min` (R105), latency 1. -/
def execMin (d a b : Reg) (g : Guard) : State → Result := lift fun m => m.regOp g d 1 fun x => (aluMin) (x.reg a) (x.reg b)

/-- `max` (R105), latency 1. -/
def execMax (d a b : Reg) (g : Guard) : State → Result := lift fun m => m.regOp g d 1 fun x => (aluMax) (x.reg a) (x.reg b)

/-- `minu` (R105), latency 1. -/
def execMinu (d a b : Reg) (g : Guard) : State → Result := lift fun m => m.regOp g d 1 fun x => (aluMinu) (x.reg a) (x.reg b)

/-- `maxu` (R105), latency 1. -/
def execMaxu (d a b : Reg) (g : Guard) : State → Result := lift fun m => m.regOp g d 1 fun x => (aluMaxu) (x.reg a) (x.reg b)

/-- `mul` (R105), latency 3. -/
def execMul (d a b : Reg) (g : Guard) : State → Result := lift fun m => m.regOp g d 3 fun x => (fun x y => x * y) (x.reg a) (x.reg b)

/-- `mulh` (R105), latency 3. -/
def execMulh (d a b : Reg) (g : Guard) : State → Result := lift fun m => m.regOp g d 3 fun x => (aluMulh) (x.reg a) (x.reg b)

/-- `mulhu` (R105), latency 3. -/
def execMulhu (d a b : Reg) (g : Guard) : State → Result := lift fun m => m.regOp g d 3 fun x => (aluMulhu) (x.reg a) (x.reg b)

/-- `div` (R105), latency 12. -/
def execDiv (d a b : Reg) (g : Guard) : State → Result := lift fun m => m.regOp g d 12 fun x => (aluDiv) (x.reg a) (x.reg b)

/-- `divu` (R105), latency 12. -/
def execDivu (d a b : Reg) (g : Guard) : State → Result := lift fun m => m.regOp g d 12 fun x => (aluDivu) (x.reg a) (x.reg b)

/-- `rem` (R105), latency 12. -/
def execRem (d a b : Reg) (g : Guard) : State → Result := lift fun m => m.regOp g d 12 fun x => (aluRem) (x.reg a) (x.reg b)

/-- `remu` (R105), latency 12. -/
def execRemu (d a b : Reg) (g : Guard) : State → Result := lift fun m => m.regOp g d 12 fun x => (aluRemu) (x.reg a) (x.reg b)

/-- `clz` (R105), latency 1. -/
def execClz (d a : Reg) (g : Guard) : State → Result := lift fun m => m.regOp g d 1 fun x => (aluClz) (x.reg a)

/-- `popc` (R105), latency 1. -/
def execPopc (d a : Reg) (g : Guard) : State → Result := lift fun m => m.regOp g d 1 fun x => (aluPopc) (x.reg a)

/-- `sextb` (R105), latency 1. -/
def execSextb (d a : Reg) (g : Guard) : State → Result := lift fun m => m.regOp g d 1 fun x => (fun x => (x.truncate 8).signExtend 64) (x.reg a)

/-- `sexth` (R105), latency 1. -/
def execSexth (d a : Reg) (g : Guard) : State → Result := lift fun m => m.regOp g d 1 fun x => (fun x => (x.truncate 16).signExtend 64) (x.reg a)

/-- `sextw` (R105), latency 1. -/
def execSextw (d a : Reg) (g : Guard) : State → Result := lift fun m => m.regOp g d 1 fun x => (fun x => (x.truncate 32).signExtend 64) (x.reg a)

/-- `zextw` (R105), latency 1. -/
def execZextw (d a : Reg) (g : Guard) : State → Result := lift fun m => m.regOp g d 1 fun x => (fun x => (x.truncate 32).zeroExtend 64) (x.reg a)

/-! ### Immediate forms (R107) -/

/-- `addi` (R107), latency 1. -/
def execAddi (d a : Reg) (imm : BitVec 12) (g : Guard) : State → Result := lift fun m => m.regOp g d 1 fun x => x.reg a + imm12 imm

/-- `andi` (R107), latency 1. -/
def execAndi (d a : Reg) (imm : BitVec 12) (g : Guard) : State → Result := lift fun m => m.regOp g d 1 fun x => x.reg a &&& imm12 imm

/-- `ori` (R107), latency 1. -/
def execOri (d a : Reg) (imm : BitVec 12) (g : Guard) : State → Result := lift fun m => m.regOp g d 1 fun x => x.reg a ||| imm12 imm

/-- `xori` (R107), latency 1. -/
def execXori (d a : Reg) (imm : BitVec 12) (g : Guard) : State → Result := lift fun m => m.regOp g d 1 fun x => x.reg a ^^^ imm12 imm

/-- `shli` (R107), latency 1. -/
def execShli (d a : Reg) (sh : BitVec 6) (g : Guard) : State → Result := lift fun m => m.regOp g d 1 fun x => aluShl (x.reg a) (sh.zeroExtend 64)

/-- `shri` (R107), latency 1. -/
def execShri (d a : Reg) (sh : BitVec 6) (g : Guard) : State → Result := lift fun m => m.regOp g d 1 fun x => aluShr (x.reg a) (sh.zeroExtend 64)

/-- `sari` (R107), latency 1. -/
def execSari (d a : Reg) (sh : BitVec 6) (g : Guard) : State → Result := lift fun m => m.regOp g d 1 fun x => aluSar (x.reg a) (sh.zeroExtend 64)

/-! ### Constants and addresses (R108) -/

/-- `lui`: sext(imm21) << 11. -/
def execLui (d : Reg) (imm : BitVec 21) : State → Result := lift fun m => m.finWrite d (imm.signExtend 64 <<< 11) 1 m.pc4 id

/-- `luih`: the low half of the old value under imm21 << 32. -/
def execLuih (d : Reg) (imm : BitVec 21) : State → Result :=
  lift fun m => m.finWrite d ((imm.zeroExtend 64 <<< 32) ||| ((m.cur.reg d).truncate 32).zeroExtend 64) 1 m.pc4 id

/-- `addpc`: PC + sext(imm21) * 4. -/
def execAddpc (d : Reg) (imm : BitVec 21) : State → Result := lift fun m => m.finWrite d (m.cur.pc + (imm.signExtend 64 <<< 2)) 1 m.pc4 id

/-! ### Compares, predicates, selection (R109-R111) -/

/-- `cmp` (R109): no guard. -/
def execCmp (pd : BitVec 3) (a b : Reg) (cc : Cond) : State → Result := lift fun m => m.predOp pd fun x => condHolds cc (x.reg a) (x.reg b)

/-- `cmpi` (R109): no guard. -/
def execCmpi (pd : BitVec 3) (a : Reg) (cc : Cond) (imm : BitVec 12) : State → Result :=
  lift fun m => m.predOp pd fun x => condHolds cc (x.reg a) (imm12 imm)

/-- `pand` (R110). -/
def execPand (pd : BitVec 3) (sa sb : PSpec) (g : Guard) : State → Result := lift fun m => m.guarded g fun m => m.predOp pd fun x => x.pspec sa && x.pspec sb

/-- `por` (R110). -/
def execPor (pd : BitVec 3) (sa sb : PSpec) (g : Guard) : State → Result := lift fun m => m.guarded g fun m => m.predOp pd fun x => x.pspec sa || x.pspec sb

/-- `pxor` (R110). -/
def execPxor (pd : BitVec 3) (sa sb : PSpec) (g : Guard) : State → Result := lift fun m => m.guarded g fun m => m.predOp pd fun x => x.pspec sa != x.pspec sb

/-- `pandn` (R110). -/
def execPandn (pd : BitVec 3) (sa sb : PSpec) (g : Guard) : State → Result := lift fun m => m.guarded g fun m => m.predOp pd fun x => x.pspec sa && !x.pspec sb

/-- `pnot` (R110). -/
def execPnot (pd : BitVec 3) (sa : PSpec) (g : Guard) : State → Result := lift fun m => m.guarded g fun m => m.predOp pd fun x => !x.pspec sa

/-- `sel` (R111). -/
def execSel (d a b : Reg) (psel : BitVec 3) (g : Guard) : State → Result :=
  lift fun m => m.regOp g d 1 fun x => if x.pred psel then x.reg a else x.reg b

end Sys2Proof.Machine
end

