-- ==== Sys2Proof/Machine/Dispatch.lean ====
section
/-! DEFINITION. One arm per constructor of `Instr`: a direct call of its meaning. -/

namespace Sys2Proof.Machine

/-- The effect of an instruction or event on a state. -/
def exec (i : Instr) (s : State) : Host.Outcome State Fault Refusal :=
  match i with
  | .add d a b g => Sys2Proof.Machine.execAdd d a b g s
  | .sub d a b g => Sys2Proof.Machine.execSub d a b g s
  | .and d a b g => Sys2Proof.Machine.execAnd d a b g s
  | .or d a b g => Sys2Proof.Machine.execOr d a b g s
  | .xor d a b g => Sys2Proof.Machine.execXor d a b g s
  | .shl d a b g => Sys2Proof.Machine.execShl d a b g s
  | .shr d a b g => Sys2Proof.Machine.execShr d a b g s
  | .sar d a b g => Sys2Proof.Machine.execSar d a b g s
  | .min d a b g => Sys2Proof.Machine.execMin d a b g s
  | .max d a b g => Sys2Proof.Machine.execMax d a b g s
  | .minu d a b g => Sys2Proof.Machine.execMinu d a b g s
  | .maxu d a b g => Sys2Proof.Machine.execMaxu d a b g s
  | .mul d a b g => Sys2Proof.Machine.execMul d a b g s
  | .mulh d a b g => Sys2Proof.Machine.execMulh d a b g s
  | .mulhu d a b g => Sys2Proof.Machine.execMulhu d a b g s
  | .div d a b g => Sys2Proof.Machine.execDiv d a b g s
  | .divu d a b g => Sys2Proof.Machine.execDivu d a b g s
  | .rem d a b g => Sys2Proof.Machine.execRem d a b g s
  | .remu d a b g => Sys2Proof.Machine.execRemu d a b g s
  | .clz d a g => Sys2Proof.Machine.execClz d a g s
  | .popc d a g => Sys2Proof.Machine.execPopc d a g s
  | .sextb d a g => Sys2Proof.Machine.execSextb d a g s
  | .sexth d a g => Sys2Proof.Machine.execSexth d a g s
  | .sextw d a g => Sys2Proof.Machine.execSextw d a g s
  | .zextw d a g => Sys2Proof.Machine.execZextw d a g s
  | .addi d a imm g => Sys2Proof.Machine.execAddi d a imm g s
  | .andi d a imm g => Sys2Proof.Machine.execAndi d a imm g s
  | .ori d a imm g => Sys2Proof.Machine.execOri d a imm g s
  | .xori d a imm g => Sys2Proof.Machine.execXori d a imm g s
  | .shli d a sh g => Sys2Proof.Machine.execShli d a sh g s
  | .shri d a sh g => Sys2Proof.Machine.execShri d a sh g s
  | .sari d a sh g => Sys2Proof.Machine.execSari d a sh g s
  | .lui d imm => Sys2Proof.Machine.execLui d imm s
  | .luih d imm => Sys2Proof.Machine.execLuih d imm s
  | .addpc d imm => Sys2Proof.Machine.execAddpc d imm s
  | .cmp pd a b cc => Sys2Proof.Machine.execCmp pd a b cc s
  | .cmpi pd a cc imm => Sys2Proof.Machine.execCmpi pd a cc imm s
  | .pand pd sa sb g => Sys2Proof.Machine.execPand pd sa sb g s
  | .por pd sa sb g => Sys2Proof.Machine.execPor pd sa sb g s
  | .pxor pd sa sb g => Sys2Proof.Machine.execPxor pd sa sb g s
  | .pandn pd sa sb g => Sys2Proof.Machine.execPandn pd sa sb g s
  | .pnot pd sa g => Sys2Proof.Machine.execPnot pd sa g s
  | .sel d a b psel g => Sys2Proof.Machine.execSel d a b psel g s
  | .ldb t a off g => Sys2Proof.Machine.execLdb t a off g s
  | .ldh t a off g => Sys2Proof.Machine.execLdh t a off g s
  | .ldw t a off g => Sys2Proof.Machine.execLdw t a off g s
  | .ldd t a off g => Sys2Proof.Machine.execLdd t a off g s
  | .ldbu t a off g => Sys2Proof.Machine.execLdbu t a off g s
  | .ldhu t a off g => Sys2Proof.Machine.execLdhu t a off g s
  | .ldwu t a off g => Sys2Proof.Machine.execLdwu t a off g s
  | .stb t a off g => Sys2Proof.Machine.execStb t a off g s
  | .sth t a off g => Sys2Proof.Machine.execSth t a off g s
  | .stw t a off g => Sys2Proof.Machine.execStw t a off g s
  | .std t a off g => Sys2Proof.Machine.execStd t a off g s
  | .lds a scope size acq g => Sys2Proof.Machine.execLds a scope size acq g s
  | .sts a b scope size rel g => Sys2Proof.Machine.execSts a b scope size rel g s
  | .amoadd a b scope dw acq rel g => Sys2Proof.Machine.execAmoadd a b scope dw acq rel g s
  | .amoand a b scope dw acq rel g => Sys2Proof.Machine.execAmoand a b scope dw acq rel g s
  | .amoor a b scope dw acq rel g => Sys2Proof.Machine.execAmoor a b scope dw acq rel g s
  | .amoxor a b scope dw acq rel g => Sys2Proof.Machine.execAmoxor a b scope dw acq rel g s
  | .amomin a b scope dw acq rel g => Sys2Proof.Machine.execAmomin a b scope dw acq rel g s
  | .amomax a b scope dw acq rel g => Sys2Proof.Machine.execAmomax a b scope dw acq rel g s
  | .amominu a b scope dw acq rel g => Sys2Proof.Machine.execAmominu a b scope dw acq rel g s
  | .amomaxu a b scope dw acq rel g => Sys2Proof.Machine.execAmomaxu a b scope dw acq rel g s
  | .amoswap a b scope dw acq rel g => Sys2Proof.Machine.execAmoswap a b scope dw acq rel g s
  | .amocas a b scope dw acq rel g => Sys2Proof.Machine.execAmocas a b scope dw acq rel g s
  | .pushq a recv g => Sys2Proof.Machine.execPushq a recv g s
  | .popq d src g => Sys2Proof.Machine.execPopq d src g s
  | .fmt a g => Sys2Proof.Machine.execFmt a g s
  | .toksig mask g => Sys2Proof.Machine.execToksig mask g s
  | .tokwait prod g => Sys2Proof.Machine.execTokwait prod g s
  | .fwait a mode slot g => Sys2Proof.Machine.execFwait a mode slot g s
  | .fread a mode slot g => Sys2Proof.Machine.execFread a mode slot g s
  | .mfence mask g => Sys2Proof.Machine.execMfence mask g s
  | .join g => Sys2Proof.Machine.execJoin g s
  | .fence scope g => Sys2Proof.Machine.execFence scope g s
  | .bar grp g => Sys2Proof.Machine.execBar grp g s
  | .bara grp g => Sys2Proof.Machine.execBara grp g s
  | .barw grp g => Sys2Proof.Machine.execBarw grp g s
  | .phase g => Sys2Proof.Machine.execPhase g s
  | .acwait a n g => Sys2Proof.Machine.execAcwait a n g s
  | .acany a n g => Sys2Proof.Machine.execAcany a n g s
  | .wquiet d a g => Sys2Proof.Machine.execWquiet d a g s
  | .br off g => Sys2Proof.Machine.execBr off g s
  | .call off g => Sys2Proof.Machine.execCall off g s
  | .jr d a imm g => Sys2Proof.Machine.execJr d a imm g s
  | .loop off g => Sys2Proof.Machine.execLoop off g s
  | .loopr off g => Sys2Proof.Machine.execLoopr off g s
  | .done g => Sys2Proof.Machine.execDone g s
  | .enq q xrec xp0 xp1 g => Sys2Proof.Machine.execEnq q xrec xp0 xp1 g s
  | .enqG xrec xp0 xp1 g => Sys2Proof.Machine.execEnqG xrec xp0 xp1 g s
  | .csrr d csr => Sys2Proof.Machine.execCsrr d csr s
  | .csrw d a csr => Sys2Proof.Machine.execCsrw d a csr s
  | .csrs d a csr => Sys2Proof.Machine.execCsrs d a csr s
  | .csrc d a csr => Sys2Proof.Machine.execCsrc d a csr s
  | .trapMapPool => Sys2Proof.Machine.execTrapMapPool s
  | .trapUnmap => Sys2Proof.Machine.execTrapUnmap s
  | .trapYield => Sys2Proof.Machine.execTrapYield s
  | .trapLog => Sys2Proof.Machine.execTrapLog s
  | .trapExit => Sys2Proof.Machine.execTrapExit s
  | .trap n => Sys2Proof.Machine.execTrap n s
  | .eret => Sys2Proof.Machine.execEret s
  | .wfe => Sys2Proof.Machine.execWfe s
  | .brk => Sys2Proof.Machine.execBrk s
  | .resume a => Sys2Proof.Machine.execResume a s
  | .squash a => Sys2Proof.Machine.execSquash a s
  | .tlbinv a sel => Sys2Proof.Machine.execTlbinv a sel s
  | .vadd vd va b h => Sys2Proof.Machine.execVadd vd va b h s
  | .vsub vd va b h => Sys2Proof.Machine.execVsub vd va b h s
  | .vmul vd va b h => Sys2Proof.Machine.execVmul vd va b h s
  | .vfma vd va b h => Sys2Proof.Machine.execVfma vd va b h s
  | .vdiv vd va b h => Sys2Proof.Machine.execVdiv vd va b h s
  | .vmin vd va b h => Sys2Proof.Machine.execVmin vd va b h s
  | .vmax vd va b h => Sys2Proof.Machine.execVmax vd va b h s
  | .vand vd va b h => Sys2Proof.Machine.execVand vd va b h s
  | .vor vd va b h => Sys2Proof.Machine.execVor vd va b h s
  | .vxor vd va b h => Sys2Proof.Machine.execVxor vd va b h s
  | .vshl vd va b h => Sys2Proof.Machine.execVshl vd va b h s
  | .vshr vd va b h => Sys2Proof.Machine.execVshr vd va b h s
  | .vsar vd va b h => Sys2Proof.Machine.execVsar vd va b h s
  | .vcmp vd va b cc h => Sys2Proof.Machine.execVcmp vd va b cc h s
  | .vsel vd vm b h => Sys2Proof.Machine.execVsel vd vm b h s
  | .vabs vd va h => Sys2Proof.Machine.execVabs vd va h s
  | .vneg vd va h => Sys2Proof.Machine.execVneg vd va h s
  | .vnot vd va h => Sys2Proof.Machine.execVnot vd va h s
  | .vcvt vd va h => Sys2Proof.Machine.execVcvt vd va h s
  | .vquant vd va vb xc grp h => Sys2Proof.Machine.execVquant vd va vb xc grp h s
  | .vdeq vd va vb xc grp h => Sys2Proof.Machine.execVdeq vd va vb xc grp h s
  | .vsf vd va fn h => Sys2Proof.Machine.execVsf vd va fn h s
  | .vmove vd va h => Sys2Proof.Machine.execVmove vd va h s
  | .vfill vd xc h => Sys2Proof.Machine.execVfill vd xc h s
  | .viota vd xc step h => Sys2Proof.Machine.execViota vd xc step h s
  | .vclip vd va vb h => Sys2Proof.Machine.execVclip vd va vb h s
  | .vscan vd va op h => Sys2Proof.Machine.execVscan vd va op h s
  | .vzcnt va h => Sys2Proof.Machine.execVzcnt va h s
  | .vperm vd va n g => Sys2Proof.Machine.execVperm vd va n g s
  | .vpset va n g => Sys2Proof.Machine.execVpset va n g s
  | .vpred pd xc va g => Sys2Proof.Machine.execVpred pd xc va g s
  | .vrsum va h => Sys2Proof.Machine.execVrsum va h s
  | .vrmax va h => Sys2Proof.Machine.execVrmax va h s
  | .vrmin va h => Sys2Proof.Machine.execVrmin va h s
  | .vskq vd va h => Sys2Proof.Machine.execVskq vd va h s
  | .vskh vd va h => Sys2Proof.Machine.execVskh vd va h s
  | .vskd vd va h => Sys2Proof.Machine.execVskd vd va h s
  | .smerge vd va g => Sys2Proof.Machine.execSmerge vd va g s
  | .squeryQuant va xc g => Sys2Proof.Machine.execSqueryQuant va xc g s
  | .squeryRank va xc g => Sys2Proof.Machine.execSqueryRank va xc g s
  | .squeryCount va xc g => Sys2Proof.Machine.execSqueryCount va xc g s
  | .squeryEntry va xc g => Sys2Proof.Machine.execSqueryEntry va xc g s
  | .squeryEst va g => Sys2Proof.Machine.execSqueryEst va g s
  | .sinit vd xc g => Sys2Proof.Machine.execSinit vd xc g s
  | .tload vb dir line first => Sys2Proof.Machine.execTload vb dir line first s
  | .tstore vb dir line first => Sys2Proof.Machine.execTstore vb dir line first s
  | .vset f vd va xc g => Sys2Proof.Machine.execVset f vd va xc g s
  | .vget f xd va g => Sys2Proof.Machine.execVget f xd va g s
  | .vaddb vd va xc g => Sys2Proof.Machine.execVaddb vd va xc g s
  | .vcopy vd va g => Sys2Proof.Machine.execVcopy vd va g s
  | .copy c u => Sys2Proof.Machine.execCopy c u s
  | .copyt c u => Sys2Proof.Machine.execCopyt c u s
  | .gather c u => Sys2Proof.Machine.execGather c u s
  | .gatherff c u => Sys2Proof.Machine.execGatherff c u s
  | .scatter c u => Sys2Proof.Machine.execScatter c u s
  | .scatteraAdd c u => Sys2Proof.Machine.execScatteraAdd c u s
  | .scatteraMax c u => Sys2Proof.Machine.execScatteraMax c u s
  | .scatteraMin c u => Sys2Proof.Machine.execScatteraMin c u s
  | .scatteraBor c u => Sys2Proof.Machine.execScatteraBor c u s
  | .scatteraBand c u => Sys2Proof.Machine.execScatteraBand c u s
  | .fill c u => Sys2Proof.Machine.execFill c u s
  | .mcast c u => Sys2Proof.Machine.execMcast c u s
  | .seat c u => Sys2Proof.Machine.execSeat c u s
  | .seats c u => Sys2Proof.Machine.execSeats c u s
  | .mmul c u => Sys2Proof.Machine.execMmul c u s
  | .drain c u => Sys2Proof.Machine.execDrain c u s
  | .tzero c u => Sys2Proof.Machine.execTzero c u s
  | .tzeroStat c u => Sys2Proof.Machine.execTzeroStat c u s
  | .tcopy c u => Sys2Proof.Machine.execTcopy c u s
  | .cput c u => Sys2Proof.Machine.execCput c u s
  | .credExact c u => Sys2Proof.Machine.execCredExact c u s
  | .credFast c u => Sys2Proof.Machine.execCredFast c u s
  | .rxpost c u => Sys2Proof.Machine.execRxpost c u s
  | .tsend c u => Sys2Proof.Machine.execTsend c u s
  | .smrg c u => Sys2Proof.Machine.execSmrg c u s
  | .amsg c u => Sys2Proof.Machine.execAmsg c u s
  | .engineElement c u => Sys2Proof.Machine.execEngineElement c u s
  | .commandRetire c u => Sys2Proof.Machine.execCommandRetire c u s
  | .engineFault c k => Sys2Proof.Machine.execEngineFault c k s
  | .chaseCycle c => Sys2Proof.Machine.execChaseCycle c s
  | .pageWalk c va write => Sys2Proof.Machine.execPageWalk c va write s
  | .systemLoadPerform c u => Sys2Proof.Machine.execSystemLoadPerform c u s
  | .systemStorePerform c u => Sys2Proof.Machine.execSystemStorePerform c u s
  | .atomicPerform c u => Sys2Proof.Machine.execAtomicPerform c u s
  | .updateSequence c u => Sys2Proof.Machine.execUpdateSequence c u s
  | .replicaApply die => Sys2Proof.Machine.execReplicaApply die s
  | .cxlWriteCompletion c u => Sys2Proof.Machine.execCxlWriteCompletion c u s
  | .cxlReadData c u poison => Sys2Proof.Machine.execCxlReadData c u poison s
  | .cxlLinkDown port => Sys2Proof.Machine.execCxlLinkDown port s
  | .gangReserve c k m => Sys2Proof.Machine.execGangReserve c k m s
  | .gangTimeout c k => Sys2Proof.Machine.execGangTimeout c k s
  | .gangPartContinue c u => Sys2Proof.Machine.execGangPartContinue c u s
  | .heldTokenPush c prod cons => Sys2Proof.Machine.execHeldTokenPush c prod cons s
  | .phaseCommit c => Sys2Proof.Machine.execPhaseCommit c s
  | .refetch c u => Sys2Proof.Machine.execRefetch c u s
  | .footstoolCompare c u differ => Sys2Proof.Machine.execFootstoolCompare c u differ s
  | .signaturePass c => Sys2Proof.Machine.execSignaturePass c s
  | .tieBreak even => Sys2Proof.Machine.execTieBreak even s
  | .instructionStoreRewrite c k => Sys2Proof.Machine.execInstructionStoreRewrite c k s
  | .watchdog c => Sys2Proof.Machine.execWatchdog c s
  | .queuePut src tag h rec => Sys2Proof.Machine.execQueuePut src tag h rec s
  | .admitHead => Sys2Proof.Machine.execAdmit s
  | .levelAging q => Sys2Proof.Machine.execLevelAging q s
  | .preemptDecision => Sys2Proof.Machine.execPreemptDecision s
  | .dealIteration job c => Sys2Proof.Machine.execDealIteration job c s
  | .jobEnd job => Sys2Proof.Machine.execJobEnd job s
  | .preemptRequest cluster => Sys2Proof.Machine.execPreemptRequest cluster s
  | .drainlimExpiry c => Sys2Proof.Machine.execDrainlimExpiry c s
  | .saveComplete c => Sys2Proof.Machine.execSaveComplete c s
  | .restoreStart cluster => Sys2Proof.Machine.execRestoreStart cluster s
  | .restoreComplete c => Sys2Proof.Machine.execRestoreComplete c s
  | .counterFold c => Sys2Proof.Machine.execCounterFold c s
  | .messageApply id => Sys2Proof.Machine.execMessageApply id s
  | .parkFull id => Sys2Proof.Machine.execParkFull id s
  | .exactTileFinish c ac => Sys2Proof.Machine.execExactTileFinish c ac s
  | .fastTileFinish c ac => Sys2Proof.Machine.execFastTileFinish c ac s
  | .exponentByteArrive id => Sys2Proof.Machine.execExponentByteArrive id s
  | .exponentReturnArrive id => Sys2Proof.Machine.execExponentReturnArrive id s
  | .collTimeout c u => Sys2Proof.Machine.execCollTimeout c u s
  | .arrivalMerge id => Sys2Proof.Machine.execArrivalMerge id s
  | .amsgDeliver id => Sys2Proof.Machine.execAmsgDeliver id s
  | .amsgHandlerEnqueue c => Sys2Proof.Machine.execAmsgHandlerEnqueue c s
  | .tsendFire c u => Sys2Proof.Machine.execTsendFire c u s
  | .quietWave => Sys2Proof.Machine.execQuietWave s
  | .wavePassEnd => Sys2Proof.Machine.execWavePassEnd s
  | .waveAgentGather device sums => Sys2Proof.Machine.execWaveAgentGather device sums s
  | .frameLoss port id => Sys2Proof.Machine.execFrameLoss port id s
  | .linkDown port => Sys2Proof.Machine.execLinkDown port s
  | .linkAck port id => Sys2Proof.Machine.execLinkAck port id s
  | .replayRequest port id => Sys2Proof.Machine.execReplayRequest port id s
  | .creditReturn port cls n => Sys2Proof.Machine.execCreditReturn port cls n s
  | .linkRekey port => Sys2Proof.Machine.execLinkRekey port s
  | .memRead h => Sys2Proof.Machine.execMemRead h s
  | .memWrite h data => Sys2Proof.Machine.execMemWrite h data s
  | .memAmoadd h data => Sys2Proof.Machine.execMemAmoadd h data s
  | .memAmoand h data => Sys2Proof.Machine.execMemAmoand h data s
  | .memAmoor h data => Sys2Proof.Machine.execMemAmoor h data s
  | .memAmoxor h data => Sys2Proof.Machine.execMemAmoxor h data s
  | .memAmomin h data => Sys2Proof.Machine.execMemAmomin h data s
  | .memAmomax h data => Sys2Proof.Machine.execMemAmomax h data s
  | .memAmominu h data => Sys2Proof.Machine.execMemAmominu h data s
  | .memAmomaxu h data => Sys2Proof.Machine.execMemAmomaxu h data s
  | .memAmoswap h data => Sys2Proof.Machine.execMemAmoswap h data s
  | .memAmocas h data => Sys2Proof.Machine.execMemAmocas h data s
  | .roceSend qp data => Sys2Proof.Machine.execRoceSend qp data s
  | .rdmaWrite qp addr data => Sys2Proof.Machine.execRdmaWrite qp addr data s
  | .rdmaRead qp addr len => Sys2Proof.Machine.execRdmaRead qp addr len s
  | .congestionNotification qp marked => Sys2Proof.Machine.execCongestionNotification qp marked s
  | .queuePairCreate qp create => Sys2Proof.Machine.execQueuePairCreate qp create s
  | .deviceReset => Sys2Proof.Machine.execDeviceReset s
  | .getVersion => Sys2Proof.Machine.execGetVersion s
  | .getCapabilities => Sys2Proof.Machine.execGetCapabilities s
  | .negotiateAlgorithms => Sys2Proof.Machine.execNegotiateAlgorithms s
  | .getDigests => Sys2Proof.Machine.execGetDigests s
  | .getCertificate => Sys2Proof.Machine.execGetCertificate s
  | .challenge nonce => Sys2Proof.Machine.execChallenge nonce s
  | .getMeasurements nonce => Sys2Proof.Machine.execGetMeasurements nonce s
  | .keyExchange domain => Sys2Proof.Machine.execKeyExchange domain s
  | .finish session => Sys2Proof.Machine.execFinish session s
  | .heartbeat session => Sys2Proof.Machine.execHeartbeat session s
  | .endSession session => Sys2Proof.Machine.execEndSession session s
  | .keySet session slot key => Sys2Proof.Machine.execKeySet session slot key s
  | .keyClear session slot => Sys2Proof.Machine.execKeyClear session slot s
  | .powerCycle => Sys2Proof.Machine.execPowerCycle s
  | .computeDiePower on => Sys2Proof.Machine.execComputeDiePower on s
  | .telemetryRead => Sys2Proof.Machine.execTelemetryRead s
  | .errorLogRead => Sys2Proof.Machine.execErrorLogRead s
  | .jobLogRead node session job => Sys2Proof.Machine.execJobLogRead node session job s
  | .stageFirmware image version key body signature => Sys2Proof.Machine.execStageFirmware image version key body signature s
  | .jobAbort job => Sys2Proof.Machine.execJobAbort job s
  | .programQueue q p => Sys2Proof.Machine.execProgramQueue q p s
  | .reserveClusters clusters => Sys2Proof.Machine.execReserveClusters clusters s
  | .setDrainlim v => Sys2Proof.Machine.execSetDrainlim v s
  | .setGangwait v => Sys2Proof.Machine.execSetGangwait v s
  | .bindQuietDomain jobs agents => Sys2Proof.Machine.execBindQuietDomain jobs agents s
  | .nodeDomainBind node domain => Sys2Proof.Machine.execNodeDomainBind node domain s
  | .keySlotAssign domain slot => Sys2Proof.Machine.execKeySlotAssign domain slot s
  | .setPowerCap watts => Sys2Proof.Machine.execSetPowerCap watts s
  | .thermalTrip => Sys2Proof.Machine.execThermalTrip s
  | .commandIssue c u => Sys2Proof.Machine.execCommandIssue c u s
  | .illegalEncoding cause tval => Sys2Proof.Machine.execIllegalEncoding cause tval s
  | .softError c site corrected => Sys2Proof.Machine.execSoftError c site corrected s
  | .bridgeFailure => Sys2Proof.Machine.execBridgeFailure s
  | .quarantineClear c => Sys2Proof.Machine.execQuarantineClear c s
  | .linkBringUp port => Sys2Proof.Machine.execLinkBringUp port s
  | .freadFill c u => Sys2Proof.Machine.execFreadFill c u s
  | .cxlExpanderRemove port => Sys2Proof.Machine.execCxlExpanderRemove port s

end Sys2Proof.Machine
end

