-- ==== Sys2Proof/Machine/Step.lean ====
section
/-! DEFINITION. One step of the machine: what the agenda names, else a step of the machine's own that can be taken, else the next issue slot
(log entry 4); and the placing of one instruction for the host. -/

namespace Sys2Proof.Machine

/-- Changes the state of an outcome. -/
def onNext (f : State → State) (r : Result) : Result :=
  match r with
  | .next s => .next (f s)
  | .fault e => .fault e
  | .refused e => .refused e

/-- The state after what follows a step at once. -/
def State.followed (s : State) : State := { s with dev := (Mach.mk s.mem [] s.dev false).follows }

/-- The state at the next slot. -/
def State.slotOver (s : State) : State := { s with dev := s.dev.nextSlot }

/-- Executes a step of the machine's own, and what follows it. -/
def runEvent (i : Instr) (s : State) : Result := onNext State.followed (exec i s)

/-- The issue slot that is next: its work, and the slot after it (R4, R17). -/
def runSlot (s : State) : Result :=
  let m : Mach := ⟨s.mem, [], s.dev, false⟩
  match m.slotOf m.cid m.kid with
  | .empty => .next s.slotOver
  | .hold o => onNext State.slotOver (lift (·.holdFetch o) s)
  | .run i => onNext (fun s => s.followed.slotOver) (exec i s)

/-- The state with an agenda. -/
def State.withAgenda (s : State) (l : List Move) : State := { s with dev := { s.dev with agenda := l } }

/-- One step. -/
def step (s : State) : Host.Outcome State Fault Refusal :=
  match s.dev.agenda with
  | .event i :: rest => runEvent i (s.withAgenda rest)
  | .slot :: rest => runSlot (s.withAgenda rest)
  | [] => match (Mach.mk s.mem [] s.dev false).autoEvent with
    | some i => runEvent i s
    | none => runSlot s

/-- `s` with the instruction of bits `w` where the next step fetches, and the next step a slot. -/
def State.withFetchWord (s : State) (nbits w : Nat) : State :=
  let r := (Mach.mk s.mem [] s.dev false).placeWord nbits w
  { mem := s.mem.apply r.log, dev := r.dev }

end Sys2Proof.Machine
end

