-- ==== Sys2Proof/Safety.lean ====
section
/-! DEFINITION. The terms in which claims are stated: views of a state, what a step leaves alone (frames), what one issue leaves of a context (R25, R26),
and the invariant of the machine (log entry 2). -/

namespace Sys2Proof.Machine

/-! ### Views -/

/-- The byte at a physical address. -/
def State.byte (s : State) (a : Nat) : Byte := s.mem.read a

/-- The `n` bytes from a physical address up, as a little-endian number (R1). -/
def State.num (s : State) (a : Nat) : Nat → Nat
  | 0 => 0
  | n + 1 => (s.byte a).toNat + 256 * s.num (a + 1) n

/-- The state of a core. -/
def State.core (s : State) (c : Nat) : Core := coreGet s.dev.cores c

/-- The state of a context. -/
def State.ctx (s : State) (c : Nat) (k : CtxId) : Ctx := (s.core c).ctx k

/-- The core whose slot it is. -/
def State.cid (s : State) : Nat := s.dev.turn.toNat

/-- The context whose slot it is (R4). -/
def State.kid (s : State) : CtxId := ctxOfCycle s.dev.now

/-- The core whose slot it is. -/
def State.here (s : State) : Core := s.core s.cid

/-- The context whose slot it is. -/
def State.cur (s : State) : Ctx := s.ctx s.cid s.kid

/-- The region register `n` of core `c`, as its 16 bytes of local space (R35, R273). -/
def State.region (s : State) (c n : Nat) : BitVec 128 := BitVec.ofNat 128 (s.num (window c + 0x200000 + 16 * n) 16)

/-- A live job. -/
def State.job (s : State) (j : Nat) : Option Job := jobFind s.dev.jobs j

/-- The job that a core runs. -/
def State.jobOf (s : State) (c : Nat) : Option Job := match (s.core c).job with | none => none | some j => s.job j

/-- The command of core `c` with the model's identifier `u`. -/
def State.cmd (s : State) (c u : Nat) : Option Cmd := (s.core c).cmd u

/-- The machine as a meaning finds it, before it has written anything. -/
def State.mach (s : State) : Mach := ⟨s.mem, [], s.dev, false⟩

/-! ### What a step leaves alone -/

/-- Every byte of memory reads as before. -/
def SameBytes (s t : State) : Prop := ∀ a, t.byte a = s.byte a

/-- Every byte outside the `n` bytes from `a` up reads as before. -/
def SameBytesBut (a n : Nat) (s t : State) : Prop := ∀ x, ¬(a ≤ x ∧ x < a + n) → t.byte x = s.byte x

/-- Nothing of the device but its list of cores has changed. -/
def SameDevice (s t : State) : Prop := t.dev = { s.dev with cores := t.dev.cores }

/-- Every core but `c` is as before. -/
def SameCores (c : Nat) (s t : State) : Prop := ∀ g, g ≠ c → t.core g = s.core g

/-- Every context of core `c` but `k`, and everything else of that core, is as before. -/
def SameCoreBut (c : Nat) (k : CtxId) (s t : State) : Prop := t.core c = (s.core c).setCtx k (t.ctx c k)

/-- Nothing has changed but one context. -/
structure OnlyCtx (c : Nat) (k : CtxId) (s t : State) : Prop where
  bytes : SameBytes s t
  device : SameDevice s t
  cores : SameCores c s t
  core : SameCoreBut c k s t

/-- Nothing has changed but one core. -/
structure OnlyCore (c : Nat) (s t : State) : Prop where
  bytes : SameBytes s t
  device : SameDevice s t
  cores : SameCores c s t

/-- Core `d` with the contexts of core `k`. -/
def withCtxs (k d : Core) : Core := { d with a := k.a, x := k.x, s := k.s }

/-- Every context of core `c` but those named is as before. -/
def SameCtxs (c : Nat) (but : List CtxId) (s t : State) : Prop := ∀ j, j ∉ but → t.ctx c j = s.ctx c j

/-! ### One issue of a context (R25, R26) -/

/-- What an issue leaves of a context, but for what the instruction itself does: the PC, `TICK`, and the pending writes, which count and land. Every
other register of the context is as `y` has it: `y` is the context before, with the fields changed that the instruction writes. -/
def Issued (x y : Ctx) (pc : Word) (z : Ctx) : Prop :=
  z = { y with pc := pc, tick := x.tick + 1, pwb := z.pwb, regs := z.regs }

/-- The scalar registers and pending writes after an issue that writes no register. -/
def NoWrite (x z : Ctx) : Prop := z.regs = x.landDue.regs ∧ z.pwb = pendStay x.pwb

/-- The scalar registers and pending writes after an issue that writes `v` to register `d` with latency 1 (R24, R25, R20). -/
def Wrote (x : Ctx) (d : Reg) (v : Word) (z : Ctx) : Prop :=
  (∀ r : Reg, z.reg r = if r = d ∧ d ≠ 0 then v else x.landDue.reg r) ∧ z.pwb = pendStay x.pwb

/-- The same with a latency above 1: the write becomes the youngest pending entry (R25); one to `x0` becomes none (R20). -/
def Pends (x : Ctx) (d : Reg) (v : Word) (lat : Nat) (z : Ctx) : Prop :=
  z.regs = x.landDue.regs ∧ z.pwb = pendStay x.pwb ++ (if d = 0 then [] else [⟨d, lat - 1, v⟩])

/-- The write of latency `lat` has its place: it needs no ninth pending entry (R27; log entry 8). -/
def HasRoom (x : Ctx) (d : Reg) (lat : Nat) : Prop := d = 0 ∨ lat ≤ 1 ∨ (pendStay x.pwb).length < 8

/-- The instruction has issued with no effect but its own advance (R84, R104). -/
def OnlyIssued (s t : State) : Prop :=
  OnlyCtx s.cid s.kid s t ∧ Issued s.cur s.cur (s.cur.pc + 4) t.cur ∧ NoWrite s.cur t.cur

/-- The context of the slot has taken a precise trap into its handler and nothing else has changed (R28). -/
def Trapped (cause : Nat) (tval epc : Word) (s t : State) : Prop :=
  OnlyCtx s.cid s.kid s t ∧
  t.cur = { s.cur with savedPwb := s.cur.pwb, pwb := [], epc := epc, cause := BitVec.ofNat 64 cause, tval := tval, inh := true, done := false,
                       pc := s.cur.tvec }

/-- The context can enter its job's handler, and nothing that a waiting instruction had fixed stands (R28, R30, R13). -/
def CanTrap (x : Ctx) (cause : Nat) : Prop := x.inh = false ∧ x.tvec ≠ 0 ∧ toSupervisor cause = false ∧ x.wait = none

/-! ### The invariant -/

/-- Memory is in its canonical form (log entry 2). -/
def State.Inv (s : State) : Prop := s.mem.wf = true

end Sys2Proof.Machine
end

