-- ==== Sys2Proof/Certificates/Slice0/Obligations.lean ====
section
/-! DEFINITION. What is claimed of the machine, for the provers. The tables at the head of a group name the instructions that the group speaks of, with
the values that the manual's tables give them. -/

namespace Sys2Proof.Claims

open Sys2Proof.Machine

/-! ### Tables of the scalar instructions -/

/-- A scalar instruction with a register result: destination, latency (R24), guard, and the value written as a function of the context. -/
structure RegRow where
  d : Reg
  lat : Nat
  g : Guard
  v : Ctx → Word

/-- No guard. -/
def always : Guard := ⟨0, false⟩

/-- A row of the OP group with two sources. -/
def two (d a b : Reg) (g : Guard) (lat : Nat) (f : Word → Word → Word) : Option RegRow := some ⟨d, lat, g, fun x => f (x.reg a) (x.reg b)⟩

/-- A row with one source. -/
def one (d a : Reg) (g : Guard) (f : Word → Word) : Option RegRow := some ⟨d, 1, g, fun x => f (x.reg a)⟩

/-- The OP group (R105, R106) in terms of the integers that the words stand for: `toInt` signed, `toNat` unsigned. -/
def arithRow : Instr → Option RegRow
  | .add d a b g => two d a b g 1 fun x y => BitVec.ofInt 64 (x.toInt + y.toInt)
  | .sub d a b g => two d a b g 1 fun x y => BitVec.ofInt 64 (x.toInt - y.toInt)
  | .and d a b g => two d a b g 1 fun x y => x &&& y
  | .or d a b g => two d a b g 1 fun x y => x ||| y
  | .xor d a b g => two d a b g 1 fun x y => x ^^^ y
  | .shl d a b g => two d a b g 1 fun x y => BitVec.ofNat 64 (x.toNat * 2 ^ (y.toNat % 64))
  | .shr d a b g => two d a b g 1 fun x y => BitVec.ofNat 64 (x.toNat / 2 ^ (y.toNat % 64))
  | .sar d a b g => two d a b g 1 fun x y => BitVec.ofInt 64 (x.toInt / 2 ^ (y.toNat % 64))
  | .min d a b g => two d a b g 1 fun x y => BitVec.ofInt 64 (Min.min x.toInt y.toInt)
  | .max d a b g => two d a b g 1 fun x y => BitVec.ofInt 64 (Max.max x.toInt y.toInt)
  | .minu d a b g => two d a b g 1 fun x y => BitVec.ofNat 64 (Min.min x.toNat y.toNat)
  | .maxu d a b g => two d a b g 1 fun x y => BitVec.ofNat 64 (Max.max x.toNat y.toNat)
  | .mul d a b g => two d a b g 3 fun x y => BitVec.ofInt 64 (x.toInt * y.toInt)
  | .mulh d a b g => two d a b g 3 fun x y => BitVec.ofInt 64 (x.toInt * y.toInt / 2 ^ 64)
  | .mulhu d a b g => two d a b g 3 fun x y => BitVec.ofNat 64 (x.toNat * y.toNat / 2 ^ 64)
  | .div d a b g => two d a b g 12 fun x y => if y = 0 then BitVec.allOnes 64 else BitVec.ofInt 64 (x.toInt.tdiv y.toInt)
  | .divu d a b g => two d a b g 12 fun x y => if y = 0 then BitVec.allOnes 64 else BitVec.ofNat 64 (x.toNat / y.toNat)
  | .rem d a b g => two d a b g 12 fun x y => if y = 0 then x else BitVec.ofInt 64 (x.toInt.tmod y.toInt)
  | .remu d a b g => two d a b g 12 fun x y => if y = 0 then x else BitVec.ofNat 64 (x.toNat % y.toNat)
  | .clz d a g => one d a g fun x => BitVec.ofNat 64 (64 - (if x = 0 then 0 else x.toNat.log2 + 1))
  | .popc d a g => one d a g fun x => BitVec.ofNat 64 (((List.range 64).map fun i => x.toNat / 2 ^ i % 2).sum)
  | .sextb d a g => one d a g fun x => BitVec.ofInt 64 (BitVec.ofNat 8 x.toNat).toInt
  | .sexth d a g => one d a g fun x => BitVec.ofInt 64 (BitVec.ofNat 16 x.toNat).toInt
  | .sextw d a g => one d a g fun x => BitVec.ofInt 64 (BitVec.ofNat 32 x.toNat).toInt
  | .zextw d a g => one d a g fun x => BitVec.ofNat 64 (x.toNat % 2 ^ 32)
  | _ => none

/-- The immediate forms (R107), constants and addresses (R108) and `sel` (R111). -/
def immRow : Instr → Option RegRow
  | .addi d a imm g => one d a g fun x => BitVec.ofInt 64 (x.toInt + imm.toInt)
  | .andi d a imm g => one d a g fun x => x &&& BitVec.ofInt 64 imm.toInt
  | .ori d a imm g => one d a g fun x => x ||| BitVec.ofInt 64 imm.toInt
  | .xori d a imm g => one d a g fun x => x ^^^ BitVec.ofInt 64 imm.toInt
  | .shli d a sh g => one d a g fun x => BitVec.ofNat 64 (x.toNat * 2 ^ sh.toNat)
  | .shri d a sh g => one d a g fun x => BitVec.ofNat 64 (x.toNat / 2 ^ sh.toNat)
  | .sari d a sh g => one d a g fun x => BitVec.ofInt 64 (x.toInt / 2 ^ sh.toNat)
  | .lui d imm => some ⟨d, 1, always, fun _ => BitVec.ofInt 64 (imm.toInt * 2 ^ 11)⟩
  | .luih d imm => some ⟨d, 1, always, fun x => BitVec.ofNat 64 (imm.toNat * 2 ^ 32 + (x.reg d).toNat % 2 ^ 32)⟩
  | .addpc d imm => some ⟨d, 1, always, fun x => BitVec.ofInt 64 (x.pc.toInt + imm.toInt * 4)⟩
  | .sel d a b p g => some ⟨d, 1, g, fun x => if x.pred p then x.reg a else x.reg b⟩
  | _ => none

/-- An instruction that writes a predicate: destination, guard, value. -/
structure PredRow where
  pd : BitVec 3
  g : Guard
  v : Ctx → Bool

/-- A condition on the integers that two words stand for (R109). -/
def cond (cc : Cond) (a b : Word) : Bool :=
  match cc with
  | .eq => decide (a.toNat = b.toNat)
  | .ne => decide (a.toNat ≠ b.toNat)
  | .lt => decide (a.toInt < b.toInt)
  | .ltu => decide (a.toNat < b.toNat)
  | .ge => decide (b.toInt ≤ a.toInt)
  | .geu => decide (b.toNat ≤ a.toNat)
  | .true => true

/-- Compares (R109) and predicate operations (R110). -/
def predRow : Instr → Option PredRow
  | .cmp pd a b cc => some ⟨pd, always, fun x => cond cc (x.reg a) (x.reg b)⟩
  | .cmpi pd a cc imm => some ⟨pd, always, fun x => cond cc (x.reg a) (BitVec.ofInt 64 imm.toInt)⟩
  | .pand pd a b g => some ⟨pd, g, fun x => x.pspec a && x.pspec b⟩
  | .por pd a b g => some ⟨pd, g, fun x => x.pspec a || x.pspec b⟩
  | .pxor pd a b g => some ⟨pd, g, fun x => x.pspec a ^^ x.pspec b⟩
  | .pandn pd a b g => some ⟨pd, g, fun x => x.pspec a && !x.pspec b⟩
  | .pnot pd a g => some ⟨pd, g, fun x => !x.pspec a⟩
  | _ => none

/-- The registers after an issue that writes `v` to `d` with latency `lat` (R25). -/
def Writes (x : Ctx) (d : Reg) (v : Word) (lat : Nat) (z : Ctx) : Prop := if lat ≤ 1 then Wrote x d v z else Pends x d v lat z

/-! ### Tables of the local accesses (R112) -/

/-- A local load or store: value or destination register, base register, offset, guard, size, signed load. -/
structure LocalRow where
  t : Reg
  a : Reg
  off : BitVec 12
  g : Guard
  size : Nat
  signed : Bool

def loadRow : Instr → Option LocalRow
  | .ldb t a off g => some ⟨t, a, off, g, 1, true⟩
  | .ldh t a off g => some ⟨t, a, off, g, 2, true⟩
  | .ldw t a off g => some ⟨t, a, off, g, 4, true⟩
  | .ldd t a off g => some ⟨t, a, off, g, 8, false⟩
  | .ldbu t a off g => some ⟨t, a, off, g, 1, false⟩
  | .ldhu t a off g => some ⟨t, a, off, g, 2, false⟩
  | .ldwu t a off g => some ⟨t, a, off, g, 4, false⟩
  | _ => none

def storeRow : Instr → Option LocalRow
  | .stb t a off g => some ⟨t, a, off, g, 1, false⟩
  | .sth t a off g => some ⟨t, a, off, g, 2, false⟩
  | .stw t a off g => some ⟨t, a, off, g, 4, false⟩
  | .std t a off g => some ⟨t, a, off, g, 8, false⟩
  | _ => none

/-- The effective address (R112): xa + sext(off) × size modulo 2^64. -/
def LocalRow.ea (r : LocalRow) (x : Ctx) : Nat := (BitVec.ofInt 64 ((x.reg r.a).toInt + r.off.toInt * r.size)).toNat

/-- Where the access lies in the physical map: the core's window (R35). -/
def LocalRow.pa (r : LocalRow) (s : State) : Nat := 0x7F0000000000 + s.cid * 2 ^ 22 + r.ea s.cur

/-- The storages of local space that the map of R35 assigns. -/
def assigned (o : Nat) : Bool :=
  decide (o < 0xC0000) || (decide (0x100000 ≤ o) && decide (o < 0x140000)) || (decide (0x200000 ≤ o) && decide (o < 0x208000)) ||
  (decide (0x300000 ≤ o) && decide (o < 0x310000))

/-- The value that a load gives to its register. -/
def LocalRow.value (r : LocalRow) (n : Nat) : Word := if r.signed then BitVec.ofInt 64 (BitVec.ofNat (8 * r.size) n).toInt else BitVec.ofNat 64 n

/-! ### Control registers (R34) -/

/-- The registers that a job may write, but for `PWBN` (R34, R135). -/
def jobWrites : List Nat := [0x001, 0x002, 0x003, 0x004, 0x005, 0x020, 0x021, 0x022, 0x023, 0x024, 0x034, 0x035]

/-- Numbers of registers that R34 lists and that a job may read. -/
def listed (n : Nat) : Bool :=
  decide (n ≤ 0x005) || n == 0x010 || n == 0x011 || (decide (0x020 ≤ n) && decide (n ≤ 0x024)) || (decide (0x030 ≤ n) && decide (n ≤ 0x035)) ||
  (decide (0x040 ≤ n) && decide (n ≤ 0x048)) || (decide (0x050 ≤ n) && decide (n ≤ 0x054)) || n == 0x058 || n == 0x060 || n == 0x061 || n == 0x070 ||
  n == 0x071 || (decide (0x080 ≤ n) && decide (n ≤ 0x08F)) || (decide (0x0A0 ≤ n) && decide (n ≤ 0x0A4))

end Sys2Proof.Claims

open Sys2Proof Sys2Proof.Machine Sys2Proof.Claims

/-! ## Scalar instructions -/

/-- R105-R108, R111, R24, R25: the OP group, the immediate forms, constants and addresses, and `sel`. The value is a function of the operands as the
context holds them before the issue; nothing else of the machine changes but the PC, `TICK` and the pending writes that count and land. -/
def Obligations.ScalarResults : Prop :=
  ∀ (s : State) (i : Instr) (r : RegRow), (arithRow i = some r ∨ immRow i = some r) → s.cur.guard r.g = true → HasRoom s.cur r.d r.lat →
    ∃ t, exec i s = .next t ∧ OnlyCtx s.cid s.kid s t ∧ Issued s.cur s.cur (s.cur.pc + 4) t.cur ∧ Writes s.cur r.d (r.v s.cur) r.lat t.cur

/-- R109, R110, R20: compares and predicate operations write their predicate, and nothing for `p0`. -/
def Obligations.ComparesAndPredicates : Prop :=
  ∀ (s : State) (i : Instr) (r : PredRow), predRow i = some r → s.cur.guard r.g = true →
    ∃ t, exec i s = .next t ∧ OnlyCtx s.cid s.kid s t ∧ Issued s.cur { s.cur with preds := t.cur.preds } (s.cur.pc + 4) t.cur ∧ NoWrite s.cur t.cur ∧
      ∀ p : BitVec 3, t.cur.pred p = if p = r.pd ∧ r.pd ≠ 0 then r.v s.cur else s.cur.pred p

/-- R25, R26: an issue counts every pending entry; the entries that reach zero land and leave, the others keep their order, and the instruction's own write
of latency above 1 becomes the youngest with `REM` = L − 1. Of the writes to one register that land at the end of one issue, the value of the latest-issued
producer remains: the instruction's own when its latency is 1, else that of the youngest entry due. `Ctx.landDue`, by which the other statements say what an
issue of any instruction leaves, lands in the same way. -/
def Obligations.PendingWritesLand : Prop :=
  (∀ (s : State) (i : Instr) (r : RegRow), (arithRow i = some r ∨ immRow i = some r) → s.cur.guard r.g = true → HasRoom s.cur r.d r.lat →
    ∃ t, exec i s = .next t ∧
      (t.cur.pwb = ((s.cur.pwb.filter fun p => decide (1 < p.rem)).map fun p => ⟨p.dest, p.rem - 1, p.val⟩) ++
        (if 1 < r.lat ∧ r.d ≠ 0 then [⟨r.d, r.lat - 1, r.v s.cur⟩] else [])) ∧
      ∀ q : Reg, q ≠ 0 → t.cur.reg q =
        if r.lat ≤ 1 ∧ q = r.d then r.v s.cur
        else match (s.cur.pwb.filter fun p => decide (p.rem ≤ 1) && p.dest == q).getLast? with
          | some p => p.val
          | none => s.cur.reg q) ∧
  (∀ (x : Ctx) (q : Reg), q ≠ 0 → x.landDue.reg q = match (x.pwb.filter fun p => decide (p.rem ≤ 1) && p.dest == q).getLast? with
      | some p => p.val
      | none => x.reg q) ∧
  (∀ x : Ctx, x.landDue = { x with regs := x.landDue.regs, pwb := (x.pwb.filter fun p => decide (1 < p.rem)).map fun p => ⟨p.dest, p.rem - 1, p.val⟩ })

/-- R20: writes to `x0` and to `p0` are discarded and occupy no pending-write entry. -/
def Obligations.ZeroRegisterDiscards : Prop :=
  (∀ (s : State) (i : Instr) (r : RegRow), (arithRow i = some r ∨ immRow i = some r) → s.cur.guard r.g = true → r.d = 0 →
    ∃ t, exec i s = .next t ∧ NoWrite s.cur t.cur ∧ t.cur.reg 0 = 0) ∧
  (∀ (s : State) (i : Instr) (r : LocalRow), loadRow i = some r → r.t = 0 → s.cur.guard r.g = true → r.ea s.cur % r.size = 0 →
    (oneStorage (r.ea s.cur) (r.ea s.cur + r.size)).isSome = true → s.here.scalarOk (r.ea s.cur) (r.ea s.cur + r.size) false = true →
    s.dev.poisonIn (r.pa s) r.size = none →
    ∃ t, exec i s = .next t ∧ NoWrite s.cur t.cur ∧ t.cur.reg 0 = 0) ∧
  (∀ (s : State) (i : Instr) (r : PredRow), predRow i = some r → s.cur.guard r.g = true → r.pd = 0 →
    ∃ t, exec i s = .next t ∧ NoWrite s.cur t.cur ∧ ∀ p, t.cur.pred p = s.cur.pred p) ∧
  (∀ (s : State) (a : Reg) (csr : BitVec 12) (i : Instr), ((i = .csrr 0 csr ∧ listed csr.toNat = true) ∨
      (i ∈ [Instr.csrw 0 a csr, .csrs 0 a csr, .csrc 0 a csr] ∧ csr.toNat ∈ jobWrites)) →
    ∃ t, exec i s = .next t ∧ NoWrite s.cur t.cur ∧ t.cur.reg 0 = 0) ∧
  (∀ (s : State) (g : Guard), s.cur.guard g = true →
    (∀ (src : BitVec 8) (k : CtxId), src ≠ 0 → endpointCtx src.toNat = some k → k ≠ s.kid → s.here.ring k s.kid ≠ [] →
      ∃ t, exec (.popq 0 src g) s = .next t ∧ NoWrite s.cur t.cur ∧ t.cur.reg 0 = 0) ∧
    (∀ (e : RqEntry) (rest : List RqEntry) (v : Word), s.cur.rq = e :: rest → e.val = some v → e.poison = none →
      ∃ t, exec (.popq 0 0 g) s = .next t ∧ NoWrite s.cur t.cur ∧ t.cur.reg 0 = 0) ∧
    (∀ (a : Reg) (imm : BitVec 12) (w : Word), w = BitVec.ofInt 64 ((s.cur.reg a).toInt + imm.toInt * 4) → w.toNat % 4 = 0 →
      ∃ t, exec (.jr 0 a imm g) s = .next t ∧ NoWrite s.cur t.cur ∧ t.cur.reg 0 = 0) ∧
    (∀ (a : Reg) lim start seen v, s.cur.wait = some (.quiet lim start seen (some v)) →
      ∃ t, exec (.wquiet 0 a g) s = .next t ∧ NoWrite s.cur t.cur ∧ t.cur.reg 0 = 0)) ∧
  (∀ (s : State) (g : LGuard) (va : VReg) (a : Nat) (v : BitVec 128), s.cur.lguard g = true →
    a = (if va.toNat < 1024 then va.toNat else 1024 + (va.toNat - 1024 + s.cur.rrb.toNat) % 1024) → v = s.region s.cid a →
    window s.cid + 0x200000 + 16 * a ∉ s.dev.poison → v.extractLsb' 72 56 = 0 → v.getLsbD 26 = false →
    (∀ f, ∃ t, exec (.vget f 0 va g) s = .next t ∧ NoWrite s.cur t.cur ∧ t.cur.reg 0 = 0) ∧
    (∀ xc, ∃ t, exec (.vpred 0 xc va g) s = .next t ∧ NoWrite s.cur t.cur ∧ ∀ p, t.cur.pred p = s.cur.pred p))

/-- R27: an instruction that would need a ninth pending entry raises `ILLEGAL` precisely with the limit's code, and writes nothing. -/
def Obligations.NinthPendingWriteTraps : Prop :=
  (∀ (s : State) (i : Instr) (r : RegRow), arithRow i = some r → s.cur.guard r.g = true → ¬HasRoom s.cur r.d r.lat → CanTrap s.cur Cause.illegal →
    ∃ t, exec i s = .next t ∧ Trapped Cause.illegal 0x8000000000000009 s.cur.pc s t) ∧
  (∀ (s : State) (i : Instr) (r : LocalRow), loadRow i = some r → s.cur.guard r.g = true → ¬HasRoom s.cur r.t 4 → CanTrap s.cur Cause.illegal →
    r.ea s.cur % r.size = 0 → (oneStorage (r.ea s.cur) (r.ea s.cur + r.size)).isSome = true →
    s.here.scalarOk (r.ea s.cur) (r.ea s.cur + r.size) false = true → s.dev.poisonIn (r.pa s) r.size = none →
    ∃ t, exec i s = .next t ∧ Trapped Cause.illegal 0x8000000000000009 s.cur.pc s t) ∧
  (∀ (s : State) (d a : Reg) (csr : BitVec 12) (i : Instr), ¬HasRoom s.cur d 2 → CanTrap s.cur Cause.illegal →
    ((i = .csrr d csr ∧ listed csr.toNat = true) ∨ (i ∈ [Instr.csrw d a csr, .csrs d a csr, .csrc d a csr] ∧ csr.toNat ∈ jobWrites)) →
    ∃ t, exec i s = .next t ∧ Trapped Cause.illegal 0x8000000000000009 s.cur.pc s t)

/-! ## Local loads and stores -/

/-- R112, R315: a local load whose address is aligned, assigned, past its chase point and not poisoned gives its register the bytes as they stand, extended,
with latency 4. A local store puts the low bytes of its register at its address, in its issue, changes no other byte, and clears the substitution marks of
the words that it touches; nothing else of the machine changes but the issuing context. -/
def Obligations.LocalLoadsAndStores : Prop :=
  (∀ (s : State) (i : Instr) (r : LocalRow), loadRow i = some r → s.cur.guard r.g = true → HasRoom s.cur r.t 4 → r.ea s.cur % r.size = 0 →
    (oneStorage (r.ea s.cur) (r.ea s.cur + r.size)).isSome = true → s.here.scalarOk (r.ea s.cur) (r.ea s.cur + r.size) false = true →
    s.dev.poisonIn (r.pa s) r.size = none →
    ∃ t, exec i s = .next t ∧ OnlyCtx s.cid s.kid s t ∧ Issued s.cur s.cur (s.cur.pc + 4) t.cur ∧
      Pends s.cur r.t (r.value (s.num (r.pa s) r.size)) 4 t.cur) ∧
  (∀ (s : State) (i : Instr) (r : LocalRow), s.Inv → storeRow i = some r → s.cur.guard r.g = true → r.ea s.cur % r.size = 0 →
    (∃ st, oneStorage (r.ea s.cur) (r.ea s.cur + r.size) = some st ∧ st ≠ .istore) →
    s.here.scalarOk (r.ea s.cur) (r.ea s.cur + r.size) true = true →
    ∃ t, exec i s = .next t ∧ SameBytesBut (r.pa s) r.size s t ∧
      (∀ k, k < r.size → t.byte (r.pa s + k) = (s.cur.reg r.t).extractLsb' (8 * k) 8) ∧
      t.dev = { s.dev with cores := t.dev.cores, subst := t.dev.subst } ∧
      (∀ u, u ∈ t.dev.subst ↔ u ∈ s.dev.subst ∧ u ∉ wordsOf (r.pa s) r.size) ∧
      SameCores s.cid s t ∧ SameCoreBut s.cid s.kid s t ∧ Issued s.cur s.cur (s.cur.pc + 4) t.cur ∧ NoWrite s.cur t.cur)

/-- R112, R30: a local access that is not aligned traps with `MISALIGN`; an aligned one with a byte that R35 assigns to nothing, and a store to the
instruction store, with `ACCESS`; `TVAL` is the effective address. -/
def Obligations.LocalAccessTraps : Prop :=
  ∀ (s : State) (i : Instr) (r : LocalRow), (loadRow i = some r ∨ storeRow i = some r) → s.cur.guard r.g = true →
    (r.ea s.cur % r.size ≠ 0 → CanTrap s.cur Cause.misalign →
      ∃ t, exec i s = .next t ∧ Trapped Cause.misalign (BitVec.ofNat 64 (r.ea s.cur)) s.cur.pc s t) ∧
    (r.ea s.cur % r.size = 0 → CanTrap s.cur Cause.access →
      ((∃ k, k < r.size ∧ assigned (r.ea s.cur + k) = false) ∨ (storeRow i = some r ∧ 0x300000 ≤ r.ea s.cur ∧ r.ea s.cur < 0x310000)) →
      ∃ t, exec i s = .next t ∧ Trapped Cause.access (BitVec.ofNat 64 (r.ea s.cur)) s.cur.pc s t)

/-! ## Control flow -/

/-- The target of a branch (R126): PC + sext(off22) × 4. -/
def Sys2Proof.Claims.target (pc : Word) (off : BitVec 22) : Word := BitVec.ofInt 64 (pc.toInt + off.toInt * 4)

/-- R126-R129: `br`, `call` and `jr` continue at their target; `call` links in `x1` and `jr` in its destination, with the address after the instruction;
`loop` and `loopr` with their effect on `LC`, `EC`, `KMASK` and `RRB`; `EC` reads as its eight bits. The words are those of their rules. -/
def Obligations.BranchesAndLoops : Prop :=
  (∀ (s : State) (g : Guard), s.cur.guard g = true →
    (∀ off, ∃ t, exec (.br off g) s = .next t ∧ OnlyCtx s.cid s.kid s t ∧ Issued s.cur s.cur (target s.cur.pc off) t.cur ∧ NoWrite s.cur t.cur) ∧
    (∀ off, ∃ t, exec (.call off g) s = .next t ∧ OnlyCtx s.cid s.kid s t ∧ Issued s.cur s.cur (target s.cur.pc off) t.cur ∧
      Wrote s.cur 1 (s.cur.pc + 4) t.cur) ∧
    (∀ (d a : Reg) (imm : BitVec 12) (w : Word), w = BitVec.ofInt 64 ((s.cur.reg a).toInt + imm.toInt * 4) →
      (w.toNat % 4 = 0 → ∃ t, exec (.jr d a imm g) s = .next t ∧ OnlyCtx s.cid s.kid s t ∧ Issued s.cur s.cur w t.cur ∧ Wrote s.cur d (s.cur.pc + 4) t.cur) ∧
      (w.toNat % 4 ≠ 0 → CanTrap s.cur Cause.misalign → ∃ t, exec (.jr d a imm g) s = .next t ∧ Trapped Cause.misalign w s.cur.pc s t))) ∧
  (∀ (s : State) (off : BitVec 22) (g : Guard) (lc : Word) (ec : BitVec 8) (taken : Bool) (bit : BitVec 16), s.cur.guard g = true →
    (s.cur.lc ≠ 0 → ∃ t, exec (.loop off g) s = .next t ∧ OnlyCtx s.cid s.kid s t ∧
      Issued s.cur { s.cur with lc := s.cur.lc - 1 } (target s.cur.pc off) t.cur ∧ NoWrite s.cur t.cur) ∧
    (s.cur.lc = 0 → ∃ t, exec (.loop off g) s = .next t ∧ OnlyIssued s t) ∧
    ((lc, ec, bit, taken) = (if s.cur.lc ≠ 0 then (s.cur.lc - 1, s.cur.ec, 1, true)
        else if 1 < s.cur.ec.toNat then (s.cur.lc, s.cur.ec - 1, 0, true) else (s.cur.lc, 0, 0, false)) →
      ∃ t, exec (.loopr off g) s = .next t ∧ OnlyCtx s.cid s.kid s t ∧
        Issued s.cur { s.cur with lc := lc, ec := ec, kmask := s.cur.kmask * 2 + bit, rrb := BitVec.ofNat 10 ((s.cur.rrb.toNat + 1023) % 1024) }
          (if taken then target s.cur.pc off else s.cur.pc + 4) t.cur ∧
        NoWrite s.cur t.cur)) ∧
  (∀ s : State, s.mach.csrRead s.cid s.kid 0x022 = some (s.cur.ec.zeroExtend 64)) ∧
  (∀ (g : Guard) (off : BitVec 22) (d a : Reg) (imm : BitVec 12) (pn : Nat), pn = (if g.n = true then 1 else 0) →
    encode (.br off g) = [BitVec.ofNat 32 (0x7C000000 + g.p.toNat * 2 ^ 23 + pn * 2 ^ 22 + off.toNat)] ∧
    encode (.call off g) = [BitVec.ofNat 32 (0x80000000 + g.p.toNat * 2 ^ 23 + pn * 2 ^ 22 + off.toNat)] ∧
    encode (.jr d a imm g) = [BitVec.ofNat 32 (0x84000000 + d.toNat * 2 ^ 21 + a.toNat * 2 ^ 16 + g.p.toNat * 2 ^ 13 + pn * 2 ^ 12 + imm.toNat)] ∧
    encode (.loop off g) = [BitVec.ofNat 32 (0x88000000 + g.p.toNat * 2 ^ 23 + pn * 2 ^ 22 + off.toNat)] ∧
    encode (.loopr off g) = [BitVec.ofNat 32 (0x8C000000 + g.p.toNat * 2 ^ 23 + pn * 2 ^ 22 + off.toNat)])

/-- The phases of a core after its current one has ended and the next has begun (R250): the record of the current phase has ended, the others stay as they
were, and the new record, with the checkpoint `k` or with none, is open; what earlier cancellations of that phase have counted stays with it (R256, R260; log
entry 26). -/
def Sys2Proof.Claims.NextPhase (c : Core) (k : Option Ckpt) (d : Core) : Prop :=
  d.phase = c.phase + 1 ∧ (∀ p, p ∈ d.lapsed ↔ p ∈ c.lapsed ∧ p.1 ≠ c.phase + 1) ∧
  ∃ z, d.phases = c.phases.map (fun p => if p.num = c.phase then { p with ended := true } else p) ++ [z] ∧ z.num = c.phase + 1 ∧ z.ended = false ∧
    z.irrevocable = false ∧ z.ckpt = k ∧ z.sig = none ∧ z.resolved = false ∧ z.differAt = none ∧ z.lqDone = [] ∧
    ((∀ p ∈ c.lapsed, p.1 ≠ c.phase + 1) → z.units = [] ∧ z.mismatches = 0)

/-- R130, R250: `done` lands every pending write and sets `DONE`, with the PC where it is; while another context of the core runs, nothing else changes.
The third `done` also ends the core's phase and the next begins, without a checkpoint. -/
def Obligations.DoneEndsTheContext : Prop :=
  ∀ (s : State) (g : Guard) (others : Bool), s.cur.guard g = true →
    others = (allCtx.all fun k => k == s.kid || (s.ctx s.cid k).done) →
    ∃ t, exec (.done g) s = .next t ∧ SameBytes s t ∧ SameDevice s t ∧ SameCores s.cid s t ∧ SameCtxs s.cid [s.kid] s t ∧
      t.cur = { s.cur with done := true, tick := s.cur.tick + 1, pwb := [], regs := s.cur.landAll.regs } ∧
      (others = false → SameCoreBut s.cid s.kid s t) ∧
      (others = true → NextPhase s.here none (t.core s.cid) ∧
        t.core s.cid = { withCtxs (t.core s.cid) (s.core s.cid) with phase := (t.core s.cid).phase, phases := (t.core s.cid).phases, lapsed := (t.core s.cid).lapsed })

/-! ## Guards and waiting -/

/-- The guard field of an instruction that has one and is not an `enq`. -/
def Sys2Proof.Claims.guardOf : Instr → Option Guard
  | .add _ _ _ g => some g
  | .sub _ _ _ g => some g
  | .and _ _ _ g => some g
  | .or _ _ _ g => some g
  | .xor _ _ _ g => some g
  | .shl _ _ _ g => some g
  | .shr _ _ _ g => some g
  | .sar _ _ _ g => some g
  | .min _ _ _ g => some g
  | .max _ _ _ g => some g
  | .minu _ _ _ g => some g
  | .maxu _ _ _ g => some g
  | .mul _ _ _ g => some g
  | .mulh _ _ _ g => some g
  | .mulhu _ _ _ g => some g
  | .div _ _ _ g => some g
  | .divu _ _ _ g => some g
  | .rem _ _ _ g => some g
  | .remu _ _ _ g => some g
  | .clz _ _ g => some g
  | .popc _ _ g => some g
  | .sextb _ _ g => some g
  | .sexth _ _ g => some g
  | .sextw _ _ g => some g
  | .zextw _ _ g => some g
  | .addi _ _ _ g => some g
  | .andi _ _ _ g => some g
  | .ori _ _ _ g => some g
  | .xori _ _ _ g => some g
  | .shli _ _ _ g => some g
  | .shri _ _ _ g => some g
  | .sari _ _ _ g => some g
  | .pand _ _ _ g => some g
  | .por _ _ _ g => some g
  | .pxor _ _ _ g => some g
  | .pandn _ _ _ g => some g
  | .pnot _ _ g => some g
  | .sel _ _ _ _ g => some g
  | .ldb _ _ _ g => some g
  | .ldh _ _ _ g => some g
  | .ldw _ _ _ g => some g
  | .ldd _ _ _ g => some g
  | .ldbu _ _ _ g => some g
  | .ldhu _ _ _ g => some g
  | .ldwu _ _ _ g => some g
  | .stb _ _ _ g => some g
  | .sth _ _ _ g => some g
  | .stw _ _ _ g => some g
  | .std _ _ _ g => some g
  | .lds _ _ _ _ g => some g
  | .sts _ _ _ _ _ g => some g
  | .amoadd _ _ _ _ _ _ g => some g
  | .amoand _ _ _ _ _ _ g => some g
  | .amoor _ _ _ _ _ _ g => some g
  | .amoxor _ _ _ _ _ _ g => some g
  | .amomin _ _ _ _ _ _ g => some g
  | .amomax _ _ _ _ _ _ g => some g
  | .amominu _ _ _ _ _ _ g => some g
  | .amomaxu _ _ _ _ _ _ g => some g
  | .amoswap _ _ _ _ _ _ g => some g
  | .amocas _ _ _ _ _ _ g => some g
  | .pushq _ _ g => some g
  | .popq _ _ g => some g
  | .fmt _ g => some g
  | .toksig _ g => some g
  | .tokwait _ g => some g
  | .fwait _ _ _ g => some g
  | .fread _ _ _ g => some g
  | .mfence _ g => some g
  | .join g => some g
  | .fence _ g => some g
  | .bar _ g => some g
  | .bara _ g => some g
  | .barw _ g => some g
  | .phase g => some g
  | .acwait _ _ g => some g
  | .acany _ _ g => some g
  | .wquiet _ _ g => some g
  | .br _ g => some g
  | .call _ g => some g
  | .jr _ _ _ g => some g
  | .loop _ g => some g
  | .loopr _ g => some g
  | .done g => some g
  | _ => none

/-- R84, R104: an instruction whose guard is false issues and has no other effect: it does not wait, pop, push, allocate or trap. -/
def Obligations.FalseGuardOnlyIssues : Prop :=
  ∀ (s : State) (i : Instr) (g : Guard), guardOf i = some g → s.cur.guard g = false → ∃ t, exec i s = .next t ∧ OnlyIssued s t

/-- R19, R50, R116, R118, R120, R123, R124, R138: an instruction that waits in its slot leaves the whole machine as it is. -/
def Obligations.WaitingChangesNothing : Prop :=
  ∀ (s : State) (g : Guard), s.cur.guard g = true →
    (∀ a recv k, endpointCtx recv.toNat = some k → k ≠ s.kid → 16 ≤ (s.here.ring s.kid k).length → exec (.pushq a recv g) s = .next s) ∧
    (∀ d src k, src ≠ 0 → endpointCtx src.toNat = some k → k ≠ s.kid → s.here.ring k s.kid = [] → exec (.popq d src g) s = .next s) ∧
    (∀ d e rest, s.cur.rq = e :: rest → e.val = none → exec (.popq d 0 g) s = .next s) ∧
    (∀ p, p.toNat ≠ ctxEndpoint s.kid → s.here.tok p.toNat (ctxEndpoint s.kid) ≤ 0 → exec (.tokwait p g) s = .next s) ∧
    (∀ a m slot k, s.mach.descCore m (s.cur.reg a) = some k → s.mach.fwaitOk s.cid m k slot.toNat (s.cur.reg a) = false →
      exec (.fwait a m slot g) s = .next s) ∧
    (s.cur.marks.all s.here.markAtHead = false → exec (.join g) s = .next s) ∧
    (∀ grp, s.here.inGroup grp.toNat = true → s.mach.barrierMet grp.toNat = false → exec (.barw grp g) s = .next s) ∧
    (s.cur.latch = false → exec .wfe s = .next s) ∧
    (∀ (i : Instr) (r : LocalRow), (loadRow i = some r ∨ storeRow i = some r) → r.g = g → r.ea s.cur % r.size = 0 →
      (∃ st, oneStorage (r.ea s.cur) (r.ea s.cur + r.size) = some st ∧ st ≠ .istore) →
      s.here.scalarOk (r.ea s.cur) (r.ea s.cur + r.size) (storeRow i).isSome = false → exec i s = .next s)

/-! ## Rings, the return queue, tokens -/

/-- What is visible to `v` in core `k` is visible in core `k'` to every viewer of `to_` too, and nothing else has become visible to anyone (R238). -/
def Sys2Proof.Claims.Carries (k : Core) (v : Viewer) (to_ : Viewer → Prop) (k' : Core) : Prop :=
  ∀ w u, u ∈ k'.visible w ↔ u ∈ k.visible w ∨ (to_ w ∧ u ∈ k.visible v)

/-- The oldest of the tokens of a FIFO, or of the entries of a ring, has left core `k` for `v`, to whom what it carries is visible now: `place i` is the
token or the entry at place `i`, and what each of the others carries stays with it (R238). -/
def Sys2Proof.Claims.Takes (k : Core) (place : Nat → Viewer) (v : Viewer) (k' : Core) : Prop :=
  (∀ i u, u ∈ k'.visible (place i) ↔ u ∈ k.visible (place (i + 1))) ∧
  ∀ w u, (∀ i, w ≠ place i) → (u ∈ k'.visible w ↔ u ∈ k.visible w ∨ (w = v ∧ u ∈ k.visible (place 0)))

/-- R116, R21, R22, R23, R238: `pushq` appends to the ring and sets the receiver's latch; `popq` takes from a ring or from the return queue and writes its
register with latency 1; what is visible to the sender becomes visible to the receiver through the entry. An empty return queue raises `ILLEGAL` with the
limit's code. -/
def Obligations.RingsAndReturnQueue : Prop :=
  ∀ (s : State) (g : Guard), s.cur.guard g = true →
    (∀ (a : Reg) (recv : BitVec 8) (k : CtxId), endpointCtx recv.toNat = some k → k ≠ s.kid → (s.here.ring s.kid k).length < 16 →
      ∃ t, exec (.pushq a recv g) s = .next t ∧ SameBytes s t ∧ SameDevice s t ∧ SameCores s.cid s t ∧ SameCtxs s.cid [s.kid, k] s t ∧
        t.core s.cid = withCtxs (t.core s.cid) { s.core s.cid with rings := (t.core s.cid).rings, sees := (t.core s.cid).sees } ∧
        (∀ p q, (t.core s.cid).ring p q = if p = s.kid ∧ q = k then s.here.ring p q ++ [s.cur.reg a] else s.here.ring p q) ∧
        Carries s.here (.ctx s.kid) (· = .ring s.kid k (s.here.ring s.kid k).length) (t.core s.cid) ∧
        t.ctx s.cid k = { s.ctx s.cid k with latch := true } ∧ Issued s.cur s.cur (s.cur.pc + 4) t.cur ∧ NoWrite s.cur t.cur) ∧
    (∀ (d : Reg) (src : BitVec 8) (k : CtxId) (v : Word) (rest : List Word), src ≠ 0 → endpointCtx src.toNat = some k → k ≠ s.kid →
      s.here.ring k s.kid = v :: rest →
      ∃ t, exec (.popq d src g) s = .next t ∧ SameBytes s t ∧ SameDevice s t ∧ SameCores s.cid s t ∧ SameCtxs s.cid [s.kid] s t ∧
        t.core s.cid = withCtxs (t.core s.cid) { s.core s.cid with rings := (t.core s.cid).rings, sees := (t.core s.cid).sees } ∧
        Takes s.here (.ring k s.kid) (.ctx s.kid) (t.core s.cid) ∧
        (∀ p q, (t.core s.cid).ring p q = if p = k ∧ q = s.kid then rest else s.here.ring p q) ∧
        Issued s.cur s.cur (s.cur.pc + 4) t.cur ∧ Wrote s.cur d v t.cur) ∧
    (∀ (d : Reg) (e : RqEntry) (rest : List RqEntry) (v : Word), s.cur.rq = e :: rest → e.val = some v → e.poison = none →
      ∃ t, exec (.popq d 0 g) s = .next t ∧ OnlyCtx s.cid s.kid s t ∧ Issued s.cur { s.cur with rq := rest } (s.cur.pc + 4) t.cur ∧ Wrote s.cur d v t.cur) ∧
    (∀ d : Reg, s.cur.rq = [] → CanTrap s.cur Cause.illegal →
      ∃ t, exec (.popq d 0 g) s = .next t ∧ Trapped Cause.illegal 0x8000000000000010 s.cur.pc s t)

/-- R117, R118, R210, R238: `toksig` pushes one token to each consumer of its mask, or traps with the limit's code and pushes none; `tokwait` pops one; what
is visible to the pusher becomes visible through the token (the count of a FIFO is an integer, log entry 13); `fmt` appends a word whose formats are assigned and whose reserved bits are zero to the core's format queue, or traps with the limit's code when sixteen words are
outstanding. -/
def Obligations.TokensAndFormats : Prop :=
  (∀ (s : State) (g : Guard), s.cur.guard g = true →
    (∀ mask : BitVec 8, mask ≠ 0 → mask.getLsbD (ctxEndpoint s.kid) = false →
      (∀ q, q < 8 → mask.getLsbD q = true → s.here.tok (ctxEndpoint s.kid) q < 15) →
      ∃ t, exec (.toksig mask g) s = .next t ∧ SameBytes s t ∧ SameDevice s t ∧ SameCores s.cid s t ∧
        t.core s.cid = withCtxs (t.core s.cid) { s.core s.cid with tokens := (t.core s.cid).tokens, sees := (t.core s.cid).sees } ∧
        Carries s.here (.ctx s.kid) (fun w => ∃ q i : Nat, q < 8 ∧ mask.getLsbD q = true ∧ w = .token (ctxEndpoint s.kid) q i ∧
          (i : Int) = s.here.tok (ctxEndpoint s.kid) q + (s.here.heldFor (ctxEndpoint s.kid) q).length) (t.core s.cid) ∧
        (∀ p q, (t.core s.cid).tok p q = if p = ctxEndpoint s.kid ∧ q < 8 ∧ mask.getLsbD q = true then s.here.tok p q + 1 else s.here.tok p q) ∧
        (∀ k, k ≠ s.kid → t.ctx s.cid k = { s.ctx s.cid k with latch := (s.ctx s.cid k).latch || mask.getLsbD (ctxEndpoint k) }) ∧
        Issued s.cur s.cur (s.cur.pc + 4) t.cur ∧ NoWrite s.cur t.cur) ∧
    (∀ mask : BitVec 8, mask ≠ 0 → mask.getLsbD (ctxEndpoint s.kid) = false →
      (∃ q, q < 8 ∧ mask.getLsbD q = true ∧ 15 ≤ s.here.tok (ctxEndpoint s.kid) q) → CanTrap s.cur Cause.illegal →
      ∃ t, exec (.toksig mask g) s = .next t ∧ Trapped Cause.illegal 0x800000000000000F s.cur.pc s t) ∧
    (∀ p : BitVec 3, p.toNat ≠ ctxEndpoint s.kid → 0 < s.here.tok p.toNat (ctxEndpoint s.kid) →
      ∃ t, exec (.tokwait p g) s = .next t ∧ SameBytes s t ∧ SameDevice s t ∧ SameCores s.cid s t ∧ SameCtxs s.cid [s.kid] s t ∧
        t.core s.cid = withCtxs (t.core s.cid) { s.core s.cid with tokens := (t.core s.cid).tokens, sees := (t.core s.cid).sees } ∧
        Takes s.here (.token p.toNat (ctxEndpoint s.kid)) (.ctx s.kid) (t.core s.cid) ∧
        (∀ a b, (t.core s.cid).tok a b = if a = p.toNat ∧ b = ctxEndpoint s.kid then s.here.tok a b - 1 else s.here.tok a b) ∧
        Issued s.cur s.cur (s.cur.pc + 4) t.cur ∧ NoWrite s.cur t.cur)) ∧
  (∀ (s : State) (a : Reg) (g : Guard), s.cur.guard g = true →
    (s.cur.reg a).extractLsb' 44 2 = 0 → (fmtBits (Fw.afmt (s.cur.reg a))).isSome = true → (fmtBits (Fw.bfmt (s.cur.reg a))).isSome = true →
    (fmtBits (Fw.ofmt (s.cur.reg a))).isSome = true →
    ((s.cur.reg a).extractLsb' 47 17 = 0 → s.here.fmts.length < 16 →
      ∃ t, exec (.fmt a g) s = .next t ∧ SameBytes s t ∧ SameDevice s t ∧ SameCores s.cid s t ∧ SameCtxs s.cid [s.kid] s t ∧
        t.core s.cid = withCtxs (t.core s.cid) { s.core s.cid with fmts := s.here.fmts ++ [s.cur.reg a] } ∧
        Issued s.cur s.cur (s.cur.pc + 4) t.cur ∧ NoWrite s.cur t.cur) ∧
    (16 ≤ s.here.fmts.length → CanTrap s.cur Cause.illegal →
      ∃ t, exec (.fmt a g) s = .next t ∧ Trapped Cause.illegal 0x8000000000000016 s.cur.pc s t))

/-! ## Frontiers, markers, barriers, phases -/

/-- R119, R120, R22, R23: `fwait` returns when its target is satisfied; `fread` allocates a return-queue entry in order, which `FREAD_FILL` fills with the
word of the command or the slot, setting the context's latch. -/
def Obligations.Frontiers : Prop :=
  ∀ (s : State) (a : Reg) (slot : BitVec 4) (g : Guard), s.cur.guard g = true →
    ((∀ d, s.here.cmdSeq ((s.cur.reg a).extractLsb' 40 16) = some d → ((s.cur.reg a).extractLsb' 0 40).toNat ≤ d.shownF) →
      ∃ t, exec (.fwait a .seq slot g) s = .next t ∧ OnlyIssued s t) ∧
    (∀ (m : FMode) (k : Nat) (p : Slot), m ≠ .seq → s.mach.descCore m (s.cur.reg a) = some k → (s.mach.view s.cid k).slotShows slot.toNat = some p →
      (seqLater ((s.cur.reg a).extractLsb' 40 16) p.seq = true ∨
        p.seq = (s.cur.reg a).extractLsb' 40 16 ∧ (p.complete = true ∨ ((s.cur.reg a).extractLsb' 0 40).toNat ≤ p.f)) →
      ∃ t, exec (.fwait a m slot g) s = .next t ∧ OnlyIssued s t) ∧
    (∀ (m : FMode) (k : Nat), s.mach.descCore m (s.cur.reg a) = some k → s.cur.rq.length < 16 →
      ∃ t, exec (.fread a m slot g) s = .next t ∧ SameBytes s t ∧ t.dev = { s.dev with cores := t.dev.cores, uid := s.dev.uid + 1 } ∧
        SameCores s.cid s t ∧ SameCtxs s.cid [s.kid] s t ∧
        t.core s.cid = withCtxs (t.core s.cid) { s.core s.cid with
          freads := s.here.freads ++ [⟨s.dev.uid, s.kid, m, k, slot.toNat, (s.cur.reg a).extractLsb' 40 16⟩] } ∧
        Issued s.cur { s.cur with rq := s.cur.rq ++ [⟨s.dev.uid, none, none⟩] } (s.cur.pc + 4) t.cur ∧ NoWrite s.cur t.cur) ∧
    (∀ (c : CoreId) (f : FRead), f ∈ (s.core c.toNat).freads → (∀ f' ∈ (s.core c.toNat).freads, f'.rq = f.rq → f' = f) →
      ∃ t, exec (.freadFill c f.rq) s = .next t ∧ SameBytes s t ∧ SameDevice s t ∧ SameCores c.toNat s t ∧ SameCtxs c.toNat [f.ctx] s t ∧
        (t.core c.toNat).freads = (s.core c.toNat).freads.filter (fun x => x.rq != f.rq) ∧
        t.ctx c.toNat f.ctx = { s.ctx c.toNat f.ctx with
          latch := true,
          rq := (s.ctx c.toNat f.ctx).rq.map fun e => if e.id = f.rq then { e with
            val := some (s.mach.freadWord c.toNat f.mode f.core f.slot f.seq), poison := none } else e }) ∧
    (s.cur.rq.length = 16 → CanTrap s.cur Cause.illegal → ∀ m k, s.mach.descCore m (s.cur.reg a) = some k →
      ∃ t, exec (.fread a m slot g) s = .next t ∧ Trapped Cause.illegal 0x8000000000000011 s.cur.pc s t)

/-- R122, R123: `mfence` puts the context's marker behind every command now in each queue of its mask, in place of the context's earlier marker there; `join`
returns when every command ahead of every marker has left, and removes the markers. -/
def Obligations.Markers : Prop :=
  ∀ (s : State) (g : Guard), s.cur.guard g = true →
    (∀ mask : BitVec 5, mask ≠ 0 →
      ∃ t, exec (.mfence mask g) s = .next t ∧ OnlyCtx s.cid s.kid s t ∧ Issued s.cur { s.cur with marks := t.cur.marks } (s.cur.pc + 4) t.cur ∧
        NoWrite s.cur t.cur ∧
        ∀ q us, (q, us) ∈ t.cur.marks ↔ if mask.getLsbD (queueNum q) then us = (s.here.queue q).map (·.uid) else (q, us) ∈ s.cur.marks) ∧
    ((∀ q us, (q, us) ∈ s.cur.marks → ∀ d ∈ s.here.queue q, d.uid ∉ us) →
      ∃ t, exec (.join g) s = .next t ∧ OnlyCtx s.cid s.kid s t ∧ Issued s.cur { s.cur with marks := [] } (s.cur.pc + 4) t.cur ∧ NoWrite s.cur t.cur)

/-- The job `b` after an arrival of core `c` at group `g`: the group's generation has risen by one exactly when it is the core's job and every member's
arrivals now exceed the generation (R124). `t` is the state after the arrival. -/
def Sys2Proof.Claims.Arrived (s : State) (c g : Nat) (t : State) : Prop :=
  ∀ n b, s.job n = some b → ∃ b', t.job n = some b' ∧ b' = { b with gens := b'.gens } ∧
    (∀ x, x ≠ g → natAt b'.gens x = natAt b.gens x) ∧
    ((s.jobOf c = some b ∧ ∃ ms, b.members g = some ms ∧ ∀ k ∈ ms, natAt b.gens g + 1 ≤ t.mach.arrivals b k g) → natAt b'.gens g = natAt b.gens g + 1) ∧
    (¬(s.jobOf c = some b ∧ ∃ ms, b.members g = some ms ∧ ∀ k ∈ ms, natAt b.gens g + 1 ≤ t.mach.arrivals b k g) → natAt b'.gens g = natAt b.gens g)

/-- What an arrival of the slot's core at a group leaves of everything but the issuing context: one arrival more, and the phases irrevocable (R124, R254). -/
def Sys2Proof.Claims.Arrival (s : State) (grp : Nat) (t : State) : Prop :=
  SameBytes s t ∧ SameCores s.cid s t ∧ SameCtxs s.cid [s.kid] s t ∧ t.dev = { s.dev with cores := t.dev.cores, jobs := t.dev.jobs } ∧
  t.core s.cid = withCtxs (t.core s.cid) { s.core s.cid with arr := (t.core s.cid).arr, phases := (t.core s.cid).phases } ∧
  (∀ x, natAt (t.core s.cid).arr x = natAt s.here.arr x + (if x = grp then 1 else 0)) ∧
  (t.core s.cid).phases = s.here.phases.map (fun p => if s.here.guarded p.num then { p with irrevocable := true } else p) ∧ Arrived s s.cid grp t

/-- The context of the slot may arrive at a group for its core: every earlier arrival has been met, no access of the core is in flight, nor a write that is
visible to the context, and the replica of the core's die is level with the others (R124, R243). -/
def Sys2Proof.Claims.MayArrive (s : State) (grp : Nat) : Prop :=
  natAt s.here.arr grp ≤ s.mach.gen s.cid grp ∧ (∀ a ∈ s.here.accs, a.op = .fence) ∧ (∀ u ∈ s.here.visible (.ctx s.kid), ∀ a ∈ s.dev.flying, a.uid ≠ u) ∧
  s.dev.dieSettled (dieOf s.cid) = true

/-- R124, R254: `bara` makes one arrival of the core, which makes its guarded phases irrevocable, and the group's generation rises by one when every member
has arrived past it, and only then; `barw` returns when the core's arrivals have been met; `bar` arrives once, and returns when its arrival has been met: at
once where the core's is the last, and in a later slot otherwise. `bara`, and `bar` before its arrival, change nothing while an earlier arrival of the core has
not been met, an access of the core or a write that is visible to its context is in flight, or its die's replica is not level with the others (R243). (That
`barAt` keeps the address of a `bar` that has arrived is the model's, log entry 9.) -/
def Obligations.Barriers : Prop :=
  (∀ (s : State) (grp : BitVec 8) (g : Guard), s.cur.guard g = true → s.here.inGroup grp.toNat = true →
    natAt s.here.arr grp.toNat ≤ s.mach.gen s.cid grp.toNat → ∃ t, exec (.barw grp g) s = .next t ∧ OnlyIssued s t) ∧
  (∀ (s : State) (grp : BitVec 8) (g : Guard), s.cur.guard g = true → s.here.inGroup grp.toNat = true →
    MayArrive s grp.toNat →
    ∃ t, exec (.bara grp g) s = .next t ∧ Arrival s grp.toNat t ∧ Issued s.cur s.cur (s.cur.pc + 4) t.cur ∧ NoWrite s.cur t.cur) ∧
  (∀ (s : State) (grp : BitVec 8) (g : Guard) (j : Job) (ms : List Nat), s.cur.guard g = true → s.here.inGroup grp.toNat = true →
    MayArrive s grp.toNat → s.cur.barAt ≠ some s.cur.pc → s.jobOf s.cid = some j → j.members grp.toNat = some ms → (∀ v ∈ j.saved, v.core.id ≠ s.cid) →
    (natAt s.here.arr grp.toNat = natAt j.gens grp.toNat) → (∀ k ∈ ms, k ≠ s.cid → natAt j.gens grp.toNat + 1 ≤ s.mach.arrivals j k grp.toNat) →
    ∃ t, exec (.bar grp g) s = .next t ∧ Arrival s grp.toNat t ∧ Issued s.cur { s.cur with barAt := none } (s.cur.pc + 4) t.cur ∧ NoWrite s.cur t.cur) ∧
  (∀ (s : State) (grp : BitVec 8) (g : Guard), s.cur.guard g = true → s.here.inGroup grp.toNat = true →
    MayArrive s grp.toNat → s.cur.barAt ≠ some s.cur.pc →
    ∃ t, exec (.bar grp g) s = .next t ∧ Arrival s grp.toNat t ∧
      (natAt s.here.arr grp.toNat + 1 ≤ t.mach.gen s.cid grp.toNat →
        Issued s.cur { s.cur with barAt := none } (s.cur.pc + 4) t.cur ∧ NoWrite s.cur t.cur) ∧
      (t.mach.gen s.cid grp.toNat < natAt s.here.arr grp.toNat + 1 → t.cur = { s.cur with barAt := some s.cur.pc })) ∧
  (∀ (s : State) (grp : BitVec 8) (g : Guard), s.cur.guard g = true → s.here.inGroup grp.toNat = true → s.cur.barAt = some s.cur.pc →
    (natAt s.here.arr grp.toNat ≤ s.mach.gen s.cid grp.toNat →
      ∃ t, exec (.bar grp g) s = .next t ∧ OnlyCtx s.cid s.kid s t ∧ Issued s.cur { s.cur with barAt := none } (s.cur.pc + 4) t.cur ∧ NoWrite s.cur t.cur) ∧
    (s.mach.gen s.cid grp.toNat < natAt s.here.arr grp.toNat → ∃ t, exec (.bar grp g) s = .next t ∧ OnlyCtx s.cid s.kid s t ∧ t.cur = s.cur)) ∧
  (∀ (s : State) (grp : BitVec 8) (g : Guard), s.cur.guard g = true → s.here.inGroup grp.toNat = true → ¬MayArrive s grp.toNat →
    exec (.bara grp g) s = .next s ∧ (s.cur.barAt ≠ some s.cur.pc → exec (.bar grp g) s = .next s))

/-- R250, R251: `phase` ends the current phase, whose record stays with the earlier ones, and begins the next with a checkpoint, in which a format word that a waiting `enq` has bound counts as unbound;
or it traps with the limit's code when eight ended phases have not committed. -/
def Obligations.PhaseBegins : Prop :=
  ∀ (s : State) (g : Guard), s.cur.guard g = true →
    ((s.here.phases.filter fun p => p.ended).length < 8 →
      ∃ t, exec (.phase g) s = .next t ∧ SameBytes s t ∧ SameDevice s t ∧ SameCores s.cid s t ∧ SameCtxs s.cid [s.kid] s t ∧
        t.core s.cid = withCtxs (t.core s.cid) { s.core s.cid with
          phase := s.here.phase + 1, phases := (t.core s.cid).phases, lapsed := (t.core s.cid).lapsed } ∧
        Issued s.cur s.cur (s.cur.pc + 4) t.cur ∧ NoWrite s.cur t.cur ∧
        ∃ k, NextPhase s.here (some k) (t.core s.cid) ∧ k.a = (t.core s.cid).a ∧ k.x = (t.core s.cid).x ∧ k.s = (t.core s.cid).s ∧ k.rings = s.here.rings ∧ k.tokens = s.here.tokens ∧
          k.fmts = s.here.boundWords ++ s.here.fmts ∧ k.coin = s.here.coin ∧ k.tokAt = s.here.tokLog.length) ∧
    (8 ≤ (s.here.phases.filter fun p => p.ended).length → CanTrap s.cur Cause.illegal →
      ∃ t, exec (.phase g) s = .next t ∧ Trapped Cause.illegal 0x8000000000000008 s.cur.pc s t)

/-! ## System accesses and atomics -/

/-- A system access or atomic (R113, R115): operation, address register, scope, size, order bits, guard, the values of its operand registers. -/
structure Sys2Proof.Claims.SysRow where
  op : AccOp
  a : Reg
  scope : Scope
  size : Nat
  acq : Bool
  rel : Bool
  g : Guard
  b : Ctx → Word
  c : Ctx → Word

/-- An atomic with one operand register. -/
def Sys2Proof.Claims.amoRow (op : AccOp) (a b : Reg) (sc : Scope) (dw acq rel : Bool) (g : Guard) : Option SysRow :=
  some ⟨op, a, sc, if dw then 8 else 4, acq, rel, g, fun x => x.reg b, fun _ => 0⟩

def Sys2Proof.Claims.sysRow : Instr → Option SysRow
  | .lds a sc sz acq g => some ⟨.load, a, sc, sizeBytes sz, acq, false, g, fun _ => 0, fun _ => 0⟩
  | .sts a b sc sz rel g => some ⟨.store, a, sc, sizeBytes sz, false, rel, g, fun x => x.reg b, fun _ => 0⟩
  | .amoadd a b sc dw acq rel g => amoRow .add a b sc dw acq rel g
  | .amoand a b sc dw acq rel g => amoRow .and a b sc dw acq rel g
  | .amoor a b sc dw acq rel g => amoRow .or a b sc dw acq rel g
  | .amoxor a b sc dw acq rel g => amoRow .xor a b sc dw acq rel g
  | .amomin a b sc dw acq rel g => amoRow .min a b sc dw acq rel g
  | .amomax a b sc dw acq rel g => amoRow .max a b sc dw acq rel g
  | .amominu a b sc dw acq rel g => amoRow .minu a b sc dw acq rel g
  | .amomaxu a b sc dw acq rel g => amoRow .maxu a b sc dw acq rel g
  | .amoswap a b sc dw acq rel g => amoRow .swap a b sc dw acq rel g
  | .amocas a b sc dw acq rel g =>
    some ⟨.cas, a, sc, if dw then 8 else 4, acq, rel, g, fun x => x.reg (BitVec.ofNat 5 (2 * b.toNat)), fun x => x.reg (BitVec.ofNat 5 (2 * b.toNat + 1))⟩
  | _ => none

/-- R113, R115, R22, R54, R238: a system access or atomic with an aligned address below 2^57 that translates to memory enters the accesses in flight, and one
that gives a result allocates its return-queue entry; its context goes on. Memory and the translation buffer change as the translation leaves them. It traps
precisely: not aligned, `MISALIGN`; at 2^57 or above, or where there is no memory, `ACCESS`; a translation that fails, its cause; a seventeenth return-queue
entry, `ILLEGAL` with the limit's code; `TVAL` is the address, or the code (R30, R23). While the CXL home agent holds an entry of its translation, it does not
issue (R364; that its slot passes without effect is the model's choice, log entry 92). -/
def Obligations.SystemAccessesIssue : Prop :=
  (∀ (s : State) (i : Instr) (r : SysRow) (m : Mach) (pa : Nat) (leaf : Word), sysRow i = some r → s.cur.guard r.g = true →
    (s.cur.reg r.a).toNat % r.size = 0 → (s.cur.reg r.a).toNat < 2 ^ 57 →
    s.mach.transBusy s.cid (s.cur.reg r.a).toNat (r.op != .load) (s.dev.uid, 0) = false →
    s.mach.translate s.cid (s.cur.reg r.a).toNat (r.op != .load) (s.dev.uid, 0) = (m, .ok (pa, leaf)) → (m.dev.memKind pa r.size).isSome = true →
    (r.op = .store ∨ s.cur.rq.length < 16) →
    ∃ t acc, exec i s = .next t ∧ (∀ x, t.byte x = (s.mem.apply m.log).read x) ∧ SameCores s.cid s t ∧ SameCtxs s.cid [s.kid] s t ∧
      t.core s.cid = withCtxs (t.core s.cid) { m.core s.cid with accs := s.here.accs ++ [acc] } ∧
      t.dev = { m.dev with cores := t.dev.cores, uid := s.dev.uid + 1 } ∧
      acc.uid = s.dev.uid ∧ acc.ctx = s.kid ∧ acc.op = r.op ∧ acc.va = (s.cur.reg r.a).toNat ∧ acc.pa = pa ∧ acc.bytes = r.size ∧
      acc.scope = r.scope ∧ acc.acq = r.acq ∧ acc.rel = r.rel ∧ acc.b = r.b s.cur ∧ acc.c = r.c s.cur ∧
      acc.et = leaf.getLsbD 2 ∧ acc.rep = leaf.getLsbD 3 ∧ acc.key = (leaf.extractLsb' 52 12).toNat ∧ acc.stage = .waiting ∧
      acc.after = s.here.visible (.ctx s.kid) ∧ acc.phase = s.here.phase ∧ acc.ready = !(s.here.checked && r.op != .load) ∧ acc.born = s.dev.now ∧
      (r.op = .store → acc.rq = none ∧ Issued s.cur s.cur (s.cur.pc + 4) t.cur) ∧
      (r.op ≠ .store → acc.rq = some s.dev.uid ∧ Issued s.cur { s.cur with rq := s.cur.rq ++ [⟨s.dev.uid, none, none⟩] } (s.cur.pc + 4) t.cur) ∧
      NoWrite s.cur t.cur) ∧
  (∀ (s : State) (i : Instr) (r : SysRow), sysRow i = some r → s.cur.guard r.g = true →
    ((s.cur.reg r.a).toNat % r.size ≠ 0 → CanTrap s.cur Cause.misalign →
      ∃ t, exec i s = .next t ∧ Trapped Cause.misalign (s.cur.reg r.a) s.cur.pc s t) ∧
    ((s.cur.reg r.a).toNat % r.size = 0 → 2 ^ 57 ≤ (s.cur.reg r.a).toNat → CanTrap s.cur Cause.access →
      ∃ t, exec i s = .next t ∧ Trapped Cause.access (s.cur.reg r.a) s.cur.pc s t) ∧
    ((s.cur.reg r.a).toNat % r.size = 0 → (s.cur.reg r.a).toNat < 2 ^ 57 →
      s.mach.transBusy s.cid (s.cur.reg r.a).toNat (r.op != .load) (s.dev.uid, 0) = true → exec i s = .next s) ∧
    (∀ m cause, (s.cur.reg r.a).toNat % r.size = 0 → (s.cur.reg r.a).toNat < 2 ^ 57 →
      s.mach.transBusy s.cid (s.cur.reg r.a).toNat (r.op != .load) (s.dev.uid, 0) = false →
      s.mach.translate s.cid (s.cur.reg r.a).toNat (r.op != .load) (s.dev.uid, 0) = (m, .error cause) → CanTrap s.cur cause →
      ∃ t, exec i s = .next t ∧ SameBytes s t ∧ t.cur = s.cur.enterHandler cause (s.cur.reg r.a) s.cur.pc) ∧
    (∀ m pa leaf, (s.cur.reg r.a).toNat % r.size = 0 → (s.cur.reg r.a).toNat < 2 ^ 57 →
      s.mach.transBusy s.cid (s.cur.reg r.a).toNat (r.op != .load) (s.dev.uid, 0) = false →
      s.mach.translate s.cid (s.cur.reg r.a).toNat (r.op != .load) (s.dev.uid, 0) = (m, .ok (pa, leaf)) → m.dev.memKind pa r.size = none →
      CanTrap s.cur Cause.access → ∃ t, exec i s = .next t ∧ Trapped Cause.access (s.cur.reg r.a) s.cur.pc s t) ∧
    (∀ m pa leaf, r.op ≠ .store → (s.cur.reg r.a).toNat % r.size = 0 → (s.cur.reg r.a).toNat < 2 ^ 57 →
      s.mach.transBusy s.cid (s.cur.reg r.a).toNat (r.op != .load) (s.dev.uid, 0) = false →
      s.mach.translate s.cid (s.cur.reg r.a).toNat (r.op != .load) (s.dev.uid, 0) = (m, .ok (pa, leaf)) → (m.dev.memKind pa r.size).isSome = true →
      16 ≤ s.cur.rq.length → CanTrap s.cur Cause.illegal →
      ∃ t, exec i s = .next t ∧ Trapped Cause.illegal 0x8000000000000011 s.cur.pc s t))

/-- A store, a load or an atomic: an access that is no fence. -/
def Sys2Proof.Claims.moves (a : Acc) : Prop := a.op ≠ .fence

/-- What a fence or a release of core `c` waits for elsewhere is not settled: an access that was visible to its context at its issue is in flight, or the
replica of the core's die has applied an update that another has not (R243). -/
def Sys2Proof.Claims.Unsettled (s : State) (c : Nat) (a : Acc) : Prop :=
  (∃ x ∈ s.dev.flying, x.uid ∈ a.after) ∨ s.dev.dieSettled (dieOf c) = false

/-- Access `a` of core `c` stands behind `l` in the order of issue, and the identifiers of `l` are those of other accesses. -/
def Sys2Proof.Claims.Behind (s : State) (c : Nat) (l : List Acc) (a : Acc) : Prop :=
  (∃ r, (s.core c).accs = l ++ a :: r) ∧ ∀ x ∈ l, x.uid ≠ a.uid

/-- R121, R114, R54, R243: a `fence` goes on at once; while an access of its context or a write that is visible to its context is in flight, or the die's replica
has applied an update that another has not, it stands among the accesses, and no later access of the context may be performed before it has gone. An acquire
holds every later access of its context; accesses that share a byte are performed in the order of their issue; a release waits for every earlier access of its
context, a load too, and for every write that was visible to its context at its issue, and for the replicas. An access that none of these holds, that waits for
no compare and whose chase edges have passed may be performed. One that may not be performed yet stays as it is. -/
def Obligations.FenceHoldsLaterAccesses : Prop :=
  (∀ (s : State) (sc : Scope) (g : Guard), s.cur.guard g = true →
    ∃ t, exec (.fence sc g) s = .next t ∧ SameBytes s t ∧ t.dev = { s.dev with cores := t.dev.cores, uid := s.dev.uid + 1 } ∧ SameCores s.cid s t ∧
      SameCtxs s.cid [s.kid] s t ∧ t.core s.cid = withCtxs (t.core s.cid) { s.core s.cid with accs := (t.core s.cid).accs } ∧
      Issued s.cur s.cur (s.cur.pc + 4) t.cur ∧ NoWrite s.cur t.cur ∧
      (((∃ a ∈ s.here.accs, a.ctx = s.kid) ∨ (∃ u ∈ s.here.visible (.ctx s.kid), ∃ a ∈ s.dev.flying, a.uid = u) ∨ s.dev.dieSettled (dieOf s.cid) = false) →
        ∃ f, (t.core s.cid).accs = s.here.accs ++ [f] ∧ f.op = .fence ∧ f.ctx = s.kid ∧ f.scope = sc ∧ f.uid = s.dev.uid ∧
          f.after = s.here.visible (.ctx s.kid)) ∧
      ((∀ a ∈ s.here.accs, a.ctx ≠ s.kid) → (∀ u ∈ s.here.visible (.ctx s.kid), ∀ a ∈ s.dev.flying, a.uid ≠ u) → s.dev.dieSettled (dieOf s.cid) = true →
        (t.core s.cid).accs = s.here.accs)) ∧
  (∀ (s : State) (c : CoreId) (l : List Acc) (a : Acc), Behind s c.toNat l a → moves a →
    ((∃ l1 f l2, l = l1 ++ f :: l2 ∧ f.op = .fence ∧ f.ctx = a.ctx ∧ (∀ x ∈ l1, x.uid ≠ f.uid) ∧
        ((∃ b ∈ l1, b.ctx = f.ctx ∧ moves b) ∨ Unsettled s c.toNat f)) ∨
      (∃ b ∈ l, b.ctx = a.ctx ∧ b.acq = true ∧ moves b) ∨
      (∃ b ∈ l, moves b ∧ b.pa < a.pa + a.bytes ∧ a.pa < b.pa + b.bytes) ∨
      (a.rel = true ∧ ((∃ b ∈ l, b.ctx = a.ctx ∧ moves b) ∨ Unsettled s c.toNat a))) →
    s.dev.accMay c.toNat a = false) ∧
  (∀ (s : State) (c : CoreId) (l : List Acc) (a : Acc), Behind s c.toNat l a → moves a → a.ready = true → a.edges = [] →
    (∀ b ∈ l, moves b ∧ ¬(b.pa < a.pa + a.bytes ∧ a.pa < b.pa + b.bytes) ∧ (b.ctx = a.ctx → b.acq = false ∧ a.rel = false)) →
    (a.rel = true → ¬Unsettled s c.toNat a) → s.dev.accMay c.toNat a = true) ∧
  (∀ (s : State) (c : CoreId) (u : Nat) (a : Acc), (s.core c.toNat).acc u = some a → s.dev.accMay c.toNat a = false →
    ∀ i, i ∈ [Instr.systemLoadPerform c u, .systemStorePerform c u, .atomicPerform c u, .updateSequence c u] → exec i s = .next s)

/-- The little-endian number of `n` bytes of a list from place `i` (R1, R415). -/
def Sys2Proof.Claims.payload (data : List Byte) (i : Nat) : Nat → Nat
  | 0 => 0
  | n + 1 => (data.getD i 0).toNat + 256 * payload data (i + 1) n

/-- The signed number of a `w`-bit number. -/
def Sys2Proof.Claims.signed (w n : Nat) : Int := if n < 2 ^ (w - 1) then (n : Int) else (n : Int) - 2 ^ w

/-- The new value of an atomic on `w` bits (R115): `b` and `c` are the operand values modulo 2^w. -/
def Sys2Proof.Claims.atomicNew (op : AccOp) (w old b c : Nat) : Nat :=
  match op with
  | .add => (old + b) % 2 ^ w
  | .and => old &&& b
  | .or => old ||| b
  | .xor => old ^^^ b
  | .min => if signed w old < signed w b then old else b
  | .max => if signed w old < signed w b then b else old
  | .minu => Min.min old b
  | .maxu => Max.max old b
  | .swap => b
  | .cas => if old = b then c else old
  | _ => old

/-- The bytes of an access were written under the key of its page (R423). -/
def Sys2Proof.Claims.KeyFits (s : State) (pa n key : Nat) : Prop := ∀ k, k < n → s.dev.sectorKey (pa + k) = s.dev.keyId key

/-- The accesses of core `c` after access `u` has been performed: it has gone, and every other one but fences is left as it was. -/
def Sys2Proof.Claims.AccGone (s : State) (c u : Nat) (t : State) : Prop :=
  (∀ b ∈ (t.core c).accs, b.uid ≠ u ∧ b ∈ (s.core c).accs) ∧ ∀ b ∈ (s.core c).accs, b.uid ≠ u → b.op ≠ .fence → b ∈ (t.core c).accs

/-- The return queue with the entry `r` filled. -/
def Sys2Proof.Claims.filled (l : List RqEntry) (r : Nat) (v : Word) (poison : Option Word) : List RqEntry :=
  l.map fun e => if e.id = r then { e with val := some v, poison := poison } else e

/-- SUBCNT counts one substitution and saturates (R258). -/
def Sys2Proof.Claims.counted1 (n : Word) : Word := if n = BitVec.allOnes 64 then n else n + 1

/-- R113, R115, R22, R234, R254, R258, R361, R366: a load performed at its home, or of a replicated page at the replica of its own die, fills its return-queue entry
with its bytes, zero-extended, and is done with; where a unit of them is poisoned, the entry carries the mark, or on an error-tolerant page holds 0, and `SUBCNT`
counts. A store
performed at its home leaves its low bytes at its address and every other byte as it was. An atomic replaces the value there by the new one and fills its
return-queue entry with the old one, in one step; of a poisoned value it leaves memory as it is and its entry carries the mark, or on an error-tolerant page
works on 0. A store or an atomic makes the core's guarded phases irrevocable. -/
def Obligations.SystemAccessesPerform : Prop :=
  (∀ (s : State) (c : CoreId) (u r pa : Nat) (a : Acc), s.mach.accReady c.toNat u (fun a => a.op == .load) = some a → s.dev.memKind a.pa a.bytes = some .hbm →
    a.rq = some r → pa = (if a.rep = true then s.dev.replicaPa (dieOf c.toNat) a.pa else a.pa) → KeyFits s pa a.bytes a.key →
    ∃ t, exec (.systemLoadPerform c u) s = .next t ∧ SameBytes s t ∧ SameDevice s t ∧ SameCores c.toNat s t ∧ SameCtxs c.toNat [a.ctx] s t ∧
      AccGone s c.toNat a.uid t ∧
      (s.dev.poisonIn pa a.bytes = none → t.ctx c.toNat a.ctx = { s.ctx c.toNat a.ctx with
        latch := true, rq := filled (s.ctx c.toNat a.ctx).rq r (BitVec.ofNat 64 (s.num pa a.bytes)) none }) ∧
      ∀ v, s.dev.poisonIn pa a.bytes = some v → v < 0x7F0000000000 →
        (a.et = false → t.ctx c.toNat a.ctx = { s.ctx c.toNat a.ctx with
          latch := true, rq := filled (s.ctx c.toNat a.ctx).rq r (BitVec.ofNat 64 (s.num pa a.bytes)) (some (BitVec.ofNat 64 v)) }) ∧
        (a.et = true → t.ctx c.toNat a.ctx = { s.ctx c.toNat a.ctx with
          latch := true, rq := filled (s.ctx c.toNat a.ctx).rq r 0 none, subcnt := counted1 (s.ctx c.toNat a.ctx).subcnt })) ∧
  (∀ (s : State) (c : CoreId) (u : Nat) (a : Acc), s.Inv → s.mach.accReady c.toNat u (fun a => a.op == .store && !a.rep) = some a →
    s.dev.memKind a.pa a.bytes = some .hbm → 1 ≤ a.bytes → a.rq = none → KeyFits s a.pa a.bytes a.key →
    ∃ t, exec (.systemStorePerform c u) s = .next t ∧ SameBytesBut a.pa a.bytes s t ∧
      (∀ k, k < a.bytes → t.byte (a.pa + k) = BitVec.ofNat 8 (a.b.toNat / 2 ^ (8 * k))) ∧ SameDevice s t ∧ SameCores c.toNat s t ∧ SameCtxs c.toNat [] s t ∧
      AccGone s c.toNat a.uid t ∧ (∀ p ∈ (t.core c.toNat).phases, (s.core c.toNat).guarded p.num = true → p.irrevocable = true)) ∧
  (∀ (s : State) (c : CoreId) (u r old new : Nat) (a : Acc), s.Inv →
    s.mach.accReady c.toNat u (fun a => !(a.op == .load || a.op == .store || a.op == .fence) && !a.rep) = some a →
    a.rq = some r → (a.bytes = 4 ∨ a.bytes = 8) → s.dev.poisonIn a.pa a.bytes = none → KeyFits s a.pa a.bytes a.key → old = s.num a.pa a.bytes →
    new = atomicNew a.op (8 * a.bytes) old (a.b.toNat % 2 ^ (8 * a.bytes)) (a.c.toNat % 2 ^ (8 * a.bytes)) →
    ∃ t, exec (.atomicPerform c u) s = .next t ∧ SameBytesBut a.pa a.bytes s t ∧
      (∀ k, k < a.bytes → t.byte (a.pa + k) = BitVec.ofNat 8 (new / 2 ^ (8 * k))) ∧ SameDevice s t ∧ SameCores c.toNat s t ∧ SameCtxs c.toNat [a.ctx] s t ∧
      AccGone s c.toNat a.uid t ∧ (∀ p ∈ (t.core c.toNat).phases, (s.core c.toNat).guarded p.num = true → p.irrevocable = true) ∧
      (t.ctx c.toNat a.ctx).rq = filled (s.ctx c.toNat a.ctx).rq r (if a.bytes = 4 then BitVec.ofInt 64 (signed 32 old) else BitVec.ofNat 64 old) none) ∧
  (∀ (s : State) (c : CoreId) (u r v new : Nat) (a : Acc), s.Inv →
    s.mach.accReady c.toNat u (fun a => !(a.op == .load || a.op == .store || a.op == .fence) && !a.rep) = some a →
    a.rq = some r → (a.bytes = 4 ∨ a.bytes = 8) → s.dev.poisonIn a.pa a.bytes = some v → v < 0x7F0000000000 → KeyFits s a.pa a.bytes a.key →
    new = atomicNew a.op (8 * a.bytes) 0 (a.b.toNat % 2 ^ (8 * a.bytes)) (a.c.toNat % 2 ^ (8 * a.bytes)) →
    ∃ t, exec (.atomicPerform c u) s = .next t ∧ SameBytesBut a.pa a.bytes s t ∧ SameDevice s t ∧ SameCores c.toNat s t ∧ SameCtxs c.toNat [a.ctx] s t ∧
      AccGone s c.toNat a.uid t ∧
      (a.et = true → (∀ k, k < a.bytes → t.byte (a.pa + k) = BitVec.ofNat 8 (new / 2 ^ (8 * k))) ∧
        (t.ctx c.toNat a.ctx).rq = filled (s.ctx c.toNat a.ctx).rq r 0 none ∧ (t.ctx c.toNat a.ctx).subcnt = counted1 (s.ctx c.toNat a.ctx).subcnt) ∧
      (a.et = false → SameBytes s t ∧
        ∃ x, (t.ctx c.toNat a.ctx).rq = filled (s.ctx c.toNat a.ctx).rq r x (some (BitVec.ofNat 64 v))))

/-- R364, R246, R265: an access to CXL memory goes to the expander, and waits there while the home agent has not completed one that overlaps it; a read is
performed when its data returns, and a write when its completion does; poison that the expander reports poisons the sector and is logged, and the entry of
the read then carries the mark. -/
def Obligations.CxlAccesses : Prop :=
  (∀ (s : State) (c : CoreId) (u : Nat) (a : Acc), s.mach.accReady c.toNat u (fun a => a.op == .load) = some a → s.dev.memKind a.pa a.bytes = some .cxl →
    ∃ t, exec (.systemLoadPerform c u) s = .next t ∧ SameBytes s t ∧ SameDevice s t ∧ SameCores c.toNat s t ∧
      t.core c.toNat = { s.core c.toNat with accs := (s.core c.toNat).accs.map fun a => if a.uid = u then { a with stage := .cxl } else a }) ∧
  (∀ (s : State) (c : CoreId) (u : Nat) (a b : Acc) (g : Nat) (k : Core), (s.core c.toNat).acc u = some a → (g, k) ∈ s.dev.cores → b ∈ k.accs →
    b.stage = .cxl → a.pa < b.pa + b.bytes → b.pa < a.pa + a.bytes →
    ∀ i, i ∈ [Instr.systemLoadPerform c u, .systemStorePerform c u, .atomicPerform c u] → exec i s = .next s) ∧
  (∀ (s : State) (c : CoreId) (u : Nat) (a : Acc), s.mach.accReady c.toNat u (fun a => a.op == .store && !a.rep) = some a →
    s.dev.memKind a.pa a.bytes = some .cxl →
    ∃ t, exec (.systemStorePerform c u) s = .next t ∧ SameBytes s t ∧ SameDevice s t ∧ SameCores c.toNat s t ∧
      t.core c.toNat = { s.core c.toNat with accs := (s.core c.toNat).accs.map fun a => if a.uid = u then { a with stage := .cxl } else a }) ∧
  (∀ (s : State) (c : CoreId) (u : Nat) (a : Acc), s.Inv → (s.core c.toNat).acc u = some a → a.op = .store → a.stage = .cxl → 1 ≤ a.bytes → a.rq = none →
    KeyFits s a.pa a.bytes a.key →
    ∃ t, exec (.cxlWriteCompletion c u) s = .next t ∧ SameBytesBut a.pa a.bytes s t ∧
      (∀ k, k < a.bytes → t.byte (a.pa + k) = BitVec.ofNat 8 (a.b.toNat / 2 ^ (8 * k))) ∧ (∀ b ∈ (t.core c.toNat).accs, b.uid ≠ u)) ∧
  (∀ (s : State) (c : CoreId) (u r : Nat) (a : Acc), (s.core c.toNat).acc u = some a → a.op = .load → a.stage = .cxl → a.rep = false → a.rq = some r →
    a.et = false → KeyFits s a.pa a.bytes a.key →
    (s.dev.poisonIn a.pa a.bytes = none →
      ∃ t, exec (.cxlReadData c u false) s = .next t ∧ SameBytes s t ∧ (∀ b ∈ (t.core c.toNat).accs, b.uid ≠ u) ∧
        (t.ctx c.toNat a.ctx).rq = (s.ctx c.toNat a.ctx).rq.map fun e =>
          if e.id = r then { e with val := some (BitVec.ofNat 64 (s.num a.pa a.bytes)), poison := none } else e) ∧
    (a.pa < 0x7F0000000000 → 1 ≤ a.bytes → a.pa % a.bytes = 0 → a.bytes ≤ 8 →
      ∃ t, exec (.cxlReadData c u true) s = .next t ∧ SameBytes s t ∧ a.pa / 32 * 32 ∈ t.dev.poison ∧
        (∃ e, t.dev.errlog.getLast? = some e ∧ e.kind = 2 ∧ e.addr = BitVec.ofNat 64 (a.pa / 32 * 32) ∧ e.core = c.toNat) ∧
        (t.ctx c.toNat a.ctx).rq = (s.ctx c.toNat a.ctx).rq.map fun e =>
          if e.id = r then { e with val := some (BitVec.ofNat 64 (s.num a.pa a.bytes)), poison := some (BitVec.ofNat 64 (a.pa / 32 * 32)) } else e))

/-- An access of core `g` with identifier `u` waits for an update that is not in the order of state `t` any more: it is acknowledged now (R365). -/
def Sys2Proof.Claims.Acknowledged (s : State) (g u : Nat) (t : State) (a : Acc) : Prop :=
  (∃ k, (g, k) ∈ s.dev.cores ∧ a ∈ k.accs) ∧ a.uid = u ∧ ∃ q, a.stage = .sequenced q ∧ ∀ x ∈ t.dev.updates, x.pos ≠ q

/-- R365, R366, R423: a store or an atomic to a replicated page takes the next position of the update order, an atomic with the value that the order gives
just before, and no replica changes yet. A die's replica then applies its next update, under the page's key, and no other byte. The update leaves the order
when every replica has applied it: then, and only then, its access is done with and a result fills its return-queue entry; every other access stays as it is,
and the answers of Nolham writes that waited for it go out. That the entry of an atomic is filled at this moment, when every replica has applied its update, is
the model's reading (log entry 24). -/
def Obligations.ReplicatedUpdates : Prop :=
  (∀ (s : State) (c : CoreId) (u : Nat) (a : Acc), (s.core c.toNat).acc u = some a → a.op = .store → a.rep = true → a.stage = .waiting →
    s.dev.accMay c.toNat a = true → s.dev.cxlBusy a.pa a.bytes = false →
    ∃ t, exec (.updateSequence c u) s = .next t ∧ SameBytes s t ∧ SameCores c.toNat s t ∧ SameCtxs c.toNat [] s t ∧
      t.dev = { s.dev with cores := t.dev.cores, nextUpdate := s.dev.nextUpdate + 1,
                           updates := s.dev.updates ++ [⟨s.dev.nextUpdate, a.pa, leBytes a.bytes a.b.toNat, a.key, c.toNat, u⟩] } ∧
      (t.core c.toNat).accs = (s.core c.toNat).accs.map (fun b => if b.uid = u then { b with stage := .sequenced s.dev.nextUpdate } else b) ∧
      (∀ p ∈ (t.core c.toNat).phases, (s.core c.toNat).guarded p.num = true → p.irrevocable = true)) ∧
  (∀ (s : State) (c : CoreId) (u old new : Nat) (a : Acc), (s.core c.toNat).acc u = some a → a.op ∉ [AccOp.load, .store, .fence] → a.rep = true →
    a.stage = .waiting → s.dev.accMay c.toNat a = true → s.dev.cxlBusy a.pa a.bytes = false →
    (a.bytes = 4 ∨ a.bytes = 8) → s.dev.poisonIn (s.dev.replicaPa 0 a.pa) a.bytes = none →
    old = payload (s.mach.orderValue a.pa a.bytes a.key) 0 a.bytes →
    new = atomicNew a.op (8 * a.bytes) old (a.b.toNat % 2 ^ (8 * a.bytes)) (a.c.toNat % 2 ^ (8 * a.bytes)) →
    ∃ t, exec (.updateSequence c u) s = .next t ∧ SameBytes s t ∧ SameCores c.toNat s t ∧ SameCtxs c.toNat [] s t ∧
      t.dev = { s.dev with cores := t.dev.cores, nextUpdate := s.dev.nextUpdate + 1,
                           updates := s.dev.updates ++ [⟨s.dev.nextUpdate, a.pa, leBytes a.bytes new, a.key, c.toNat, u⟩] } ∧
      (t.core c.toNat).accs = (s.core c.toNat).accs.map (fun b => if b.uid = u then { b with
        stage := .sequenced s.dev.nextUpdate, b := if a.bytes = 4 then BitVec.ofInt 64 (signed 32 old) else BitVec.ofNat 64 old } else b)) ∧
  (∀ (s : State) (die : BitVec 2) (p : Update), s.Inv → s.dev.applied.length = 4 →
    s.dev.updates.find? (fun x => x.pos == s.dev.applied.getD die.toNat 0) = some p → KeyFits s (s.dev.replicaPa die.toNat p.pa) p.data.length p.key →
    ∃ t, exec (.replicaApply die) s = .next t ∧ SameBytesBut (s.dev.replicaPa die.toNat p.pa) p.data.length s t ∧
      (∀ k, k < p.data.length → t.byte (s.dev.replicaPa die.toNat p.pa + k) = p.data.getD k 0) ∧
      t.dev.applied = s.dev.applied.set die.toNat (p.pos + 1) ∧
      (∀ x, x ∈ t.dev.updates ↔ x ∈ s.dev.updates ∧ ∃ d, d < 4 ∧ t.dev.applied.getD d 0 ≤ x.pos) ∧
      (∀ (g : Nat) (b : Acc), b ∈ (t.core g).accs → b ∈ (s.core g).accs ∧ ∀ a, ¬Acknowledged s g b.uid t a) ∧
      (∀ (g : Nat) (b : Acc), b ∈ (s.core g).accs → b.op ≠ .fence → (∀ a, ¬Acknowledged s g b.uid t a) → b ∈ (t.core g).accs) ∧
      (∀ (g u r : Nat) (a : Acc) (e : RqEntry), Acknowledged s g u t a → a.rq = some r → e ∈ (t.ctx g a.ctx).rq → e.id = r →
        ∃ v b, Acknowledged s g v t b ∧ b.ctx = a.ctx ∧ b.rq = some r ∧ e.val = some b.b ∧ e.poison = none) ∧
      (∀ (g : Nat) (k : CtxId) (e : RqEntry), e ∈ (s.ctx g k).rq → (∀ u a, Acknowledged s g u t a → a.ctx = k → a.rq ≠ some e.id) → e ∈ (t.ctx g k).rq) ∧
      (∀ x, x ∈ t.dev.pendingMem ↔ x ∈ s.dev.pendingMem ∧ ∃ y ∈ t.dev.updates, y.pos = x.pos) ∧
      (∀ x ∈ s.dev.pendingMem, (∀ y ∈ t.dev.updates, y.pos ≠ x.pos) → ∀ r, x.reply = some r → r ∈ t.dev.outbox))

/-! ## Control registers, services, handlers -/

/-- The bits that a write of a control register keeps (R135). -/
def Sys2Proof.Claims.kept (num : Nat) (v : Word) : Word :=
  match num with
  | 0x001 | 0x004 => BitVec.ofNat 64 (v.toNat / 4 * 4)
  | 0x020 => BitVec.ofNat 64 (v.toNat % 2 ^ 10)
  | 0x022 => BitVec.ofNat 64 (v.toNat % 2 ^ 8)
  | 0x023 | 0x024 => BitVec.ofNat 64 (v.toNat % 2 ^ 16)
  | _ => v

/-- R34, R31, R134: `csrr` gives its register the value of the control register, with latency 2; the values of the simple registers and of `STATUS`. -/
def Obligations.ControlRegisterReads : Prop :=
  (∀ (s : State) (d : Reg) (csr : BitVec 12), listed csr.toNat = true → HasRoom s.cur d 2 →
    ∃ t v, exec (.csrr d csr) s = .next t ∧ s.mach.csrRead s.cid s.kid csr.toNat = some v ∧ OnlyCtx s.cid s.kid s t ∧
      Issued s.cur s.cur (s.cur.pc + 4) t.cur ∧ Pends s.cur d v 2 t.cur) ∧
  (∀ (s : State) (x : Ctx) (c : Core), x = s.cur → c = s.here →
    s.mach.csrRead s.cid s.kid 0x001 = some x.epc ∧ s.mach.csrRead s.cid s.kid 0x002 = some x.cause ∧ s.mach.csrRead s.cid s.kid 0x003 = some x.tval ∧
    s.mach.csrRead s.cid s.kid 0x004 = some x.tvec ∧ s.mach.csrRead s.cid s.kid 0x005 = some x.scratch ∧ s.mach.csrRead s.cid s.kid 0x010 = some x.tick ∧
    s.mach.csrRead s.cid s.kid 0x021 = some x.lc ∧ s.mach.csrRead s.cid s.kid 0x030 = some c.jobid ∧ s.mach.csrRead s.cid s.kid 0x032 = some c.gmap ∧
    s.mach.csrRead s.cid s.kid 0x033 = some c.seed ∧ s.mach.csrRead s.cid s.kid 0x034 = some c.coin ∧ s.mach.csrRead s.cid s.kid 0x035 = some x.subcnt ∧
    s.mach.csrRead s.cid s.kid 0x058 = some x.efault ∧ s.mach.csrRead s.cid s.kid 0x070 = some c.budget ∧
    ∃ w, s.mach.csrRead s.cid s.kid 0x000 = some w ∧ w.getLsbD 0 = x.inh ∧ w.getLsbD 1 = x.done ∧ w.getLsbD 5 = c.fixed ∧ w.getLsbD 6 = c.checked ∧
      w.getLsbD 7 = c.paired ∧ w.getLsbD 8 = c.conf ∧ (w.extractLsb' 9 2).toNat = ctxNum s.kid ∧ w.getLsbD 11 = (x.inh && !x.efq.isEmpty) ∧
      w.extractLsb' 2 3 = 0 ∧ w.extractLsb' 12 52 = 0)

/-- R134, R135: `csrw`, `csrs` and `csrc` leave the new value with the bits that the register keeps, return the old one with latency 2, and leave every
other control register that is no pending-write register as it was, but for `TICK`. A write of `COIN` leaves the commands that are drawing coins with the
value that it replaces (R310). -/
def Obligations.ControlRegisterWrites : Prop :=
  ∀ (s : State) (d a : Reg) (csr : BitVec 12) (old new : Word) (i : Instr), csr.toNat ∈ jobWrites → HasRoom s.cur d 2 →
    s.mach.csrRead s.cid s.kid csr.toNat = some old →
    ((i = .csrw d a csr ∧ new = s.cur.reg a) ∨ (i = .csrs d a csr ∧ new = old ||| s.cur.reg a) ∨ (i = .csrc d a csr ∧ new = old &&& ~~~(s.cur.reg a))) →
    ∃ t, exec i s = .next t ∧ SameBytes s t ∧ SameDevice s t ∧ SameCores s.cid s t ∧ SameCtxs s.cid [s.kid] s t ∧
      t.mach.csrRead s.cid s.kid csr.toNat = some (kept csr.toNat new) ∧
      (csr.toNat ≠ 0x034 → SameCoreBut s.cid s.kid s t) ∧
      (csr.toNat = 0x034 → t.core s.cid = withCtxs (t.core s.cid) { s.core s.cid with
        coin := new, vq := (t.core s.cid).vq } ∧
        ∃ o : Nat, (∀ d, s.here.vq.find? (fun d => d.drawsCoins && d.acc.isEmpty) = some d → d.uid = o) ∧
          (t.core s.cid).vq = s.here.vq.map fun d => if d.drawsCoins && d.acc.isEmpty then { d with acc := [s.here.coin, BitVec.ofNat 64 o] } else d) ∧
      (∀ n, n ≠ csr.toNat → n ≠ 0x010 → ¬(0x040 ≤ n ∧ n ≤ 0x048) → t.mach.csrRead s.cid s.kid n = s.mach.csrRead s.cid s.kid n) ∧
      t.cur.pc = s.cur.pc + 4 ∧ t.cur.tick = s.cur.tick + 1 ∧ Pends s.cur d old 2 t.cur

/-- R34, R32: an unlisted number, and a write of a read-only register, raise `ILLEGAL`; a job's access to a supervisor register, and its write of `PWB`k,
raise `PRIVILEGE` with the number; a job's write of `PWBN` changes SEL only. -/
def Obligations.ControlRegisterTraps : Prop :=
  ∀ (s : State) (d a : Reg) (csr : BitVec 12), s.cur.sup = false →
    (∀ i, i ∈ [Instr.csrr d csr, .csrw d a csr, .csrs d a csr, .csrc d a csr] → listed csr.toNat = false → ¬(0x100 ≤ csr.toNat ∧ csr.toNat ≤ 0x102) →
      CanTrap s.cur Cause.illegal → ∃ t, exec i s = .next t ∧ Trapped Cause.illegal s.mach.instrWord s.cur.pc s t) ∧
    (∀ i, i ∈ [Instr.csrr d csr, .csrw d a csr, .csrs d a csr, .csrc d a csr] → 0x100 ≤ csr.toNat → csr.toNat ≤ 0x102 →
      CanTrap s.cur Cause.privilege → ∃ t, exec i s = .next t ∧ Trapped Cause.privilege (BitVec.ofNat 64 csr.toNat) s.cur.pc s t) ∧
    (∀ i, i ∈ [Instr.csrw d a csr, .csrs d a csr, .csrc d a csr] → 0x040 ≤ csr.toNat → csr.toNat ≤ 0x047 →
      CanTrap s.cur Cause.privilege → ∃ t, exec i s = .next t ∧ Trapped Cause.privilege (BitVec.ofNat 64 csr.toNat) s.cur.pc s t) ∧
    (∀ i, i ∈ [Instr.csrw d a csr, .csrs d a csr, .csrc d a csr] → listed csr.toNat = true → csr.toNat ∉ jobWrites →
      ¬(0x040 ≤ csr.toNat ∧ csr.toNat ≤ 0x048) → CanTrap s.cur Cause.illegal →
      ∃ t, exec i s = .next t ∧ Trapped Cause.illegal s.mach.instrWord s.cur.pc s t) ∧
    (HasRoom s.cur d 2 → csr = 0x048 →
      ∃ t v, exec (.csrw d a csr) s = .next t ∧ OnlyCtx s.cid s.kid s t ∧
        Issued s.cur { s.cur with pwbSel := (s.cur.reg a).extractLsb' 0 3 } (s.cur.pc + 4) t.cur ∧ Pends s.cur d v 2 t.cur)

/-- R136, R15, R91, R352, R433: `LOG` appends the value and the tag of `x10` and `x11` with the caller's identity to the job's log and returns 0; on a full log
it returns 1; `YIELD` returns 0; no other register changes but by landings. `EXIT` records the job's end with the code of `x10` (status 1), any other service
number records its end with cause `TRAP` (status 2) and the number, unless an earlier event has; the supervisor keeps the calling context. -/
def Obligations.Services : Prop :=
  (∀ (s : State) (j : Job), s.jobOf s.cid = some j →
    (∃ t, exec .trapYield s = .next t ∧ OnlyCtx s.cid s.kid s t ∧ Issued s.cur s.cur (s.cur.pc + 4) t.cur ∧ Wrote s.cur 10 0 t.cur) ∧
    (65536 ≤ j.log.length → ∃ t, exec .trapLog s = .next t ∧ OnlyCtx s.cid s.kid s t ∧ Issued s.cur s.cur (s.cur.pc + 4) t.cur ∧ Wrote s.cur 10 1 t.cur) ∧
    (j.log.length < 65536 → ∃ t, exec .trapLog s = .next t ∧ SameBytes s t ∧ t.dev = { s.dev with cores := t.dev.cores, jobs := t.dev.jobs } ∧
      SameCores s.cid s t ∧ SameCoreBut s.cid s.kid s t ∧ Issued s.cur s.cur (s.cur.pc + 4) t.cur ∧ Wrote s.cur 10 0 t.cur ∧
      ∃ j', t.jobOf s.cid = some j' ∧
        j' = { j with log := j.log ++ [⟨s.cur.reg 10, s.cur.reg 11, s.here.jobid, BitVec.ofNat 64 s.cid, ctxNum s.kid, s.cur.tick⟩] })) ∧
  (∀ (s : State) (j : Job), s.jobOf s.cid = some j → j.ending = none →
    (∃ t, exec .trapExit s = .next t ∧ SameBytes s t ∧ SameCores s.cid s t ∧ SameCoreBut s.cid s.kid s t ∧
      t.cur = { s.cur with held := some ⟨0x16, 5⟩ } ∧
      ∃ j', t.jobOf s.cid = some j' ∧ j' = { j with ending := some ⟨1, s.cur.reg 10, 0, s.cid, 0⟩ }) ∧
    (∀ n, ∃ t, exec (.trap n) s = .next t ∧ SameBytes s t ∧ SameCores s.cid s t ∧ SameCoreBut s.cid s.kid s t ∧
      t.cur = { s.cur with held := some ⟨0x16, BitVec.ofNat 64 n.toNat⟩ } ∧
      ∃ j', t.jobOf s.cid = some j' ∧ j' = { j with ending := some ⟨2, 0, BitVec.ofNat 64 n.toNat, s.cid, 0x16⟩ }))

/-- R16, R136: MAP_POOL refuses an address outside the job's elastic range with 2, a present page with 3 and an empty pool with 1, mapping nothing; UNMAP
refuses an address outside the range with 2 and a page that is not mapped with 4. MAP_POOL of an absent page takes a page of the pool, zeroed under the
job's key, with no poison mark left on it, maps it and returns 0, or returns 1 where no page is left for a page table (log entries 61 and 62: the model's
choices); a call for which the CXL home agent holds an entry or a page waits in its slot (log entry 92); UNMAP of a mapped page returns 0, takes it off the job's mapped pages, and leaves no usable translation of it on the job's
cores (R158). -/
def Obligations.PoolServices : Prop :=
  (∀ (s : State) (j : Job), s.jobOf s.cid = some j →
    (j.elastic (s.cur.reg 10).toNat = false → ∀ i, i ∈ [Instr.trapMapPool, .trapUnmap] →
      ∃ t, exec i s = .next t ∧ OnlyCtx s.cid s.kid s t ∧ Issued s.cur s.cur (s.cur.pc + 4) t.cur ∧ Wrote s.cur 10 2 t.cur) ∧
    (j.elastic (s.cur.reg 10).toNat = true → s.mach.poolBusy j (s.cur.reg 10).toNat = true → exec .trapMapPool s = .next s) ∧
    (∀ p, j.elastic (s.cur.reg 10).toNat = true → (j.mapped.find? fun p => p.1 == (s.cur.reg 10).toNat / 4096 * 4096) = some p →
      s.mach.walkBusy (s.cur.reg 10).toNat 5 s.here.ptbase.toNat = true → exec .trapUnmap s = .next s) ∧
    (j.elastic (s.cur.reg 10).toNat = true → s.mach.poolBusy j (s.cur.reg 10).toNat = false → s.mach.present (s.cur.reg 10).toNat = true →
      ∃ t, exec .trapMapPool s = .next t ∧ OnlyCtx s.cid s.kid s t ∧ Issued s.cur s.cur (s.cur.pc + 4) t.cur ∧ Wrote s.cur 10 3 t.cur) ∧
    (j.elastic (s.cur.reg 10).toNat = true → s.mach.poolBusy j (s.cur.reg 10).toNat = false → s.mach.present (s.cur.reg 10).toNat = false → j.pool = [] →
      j.leaving = [] →
      ∃ t, exec .trapMapPool s = .next t ∧ SameBytes s t ∧ SameCores s.cid s t ∧ SameCoreBut s.cid s.kid s t ∧
        Issued s.cur s.cur (s.cur.pc + 4) t.cur ∧ Wrote s.cur 10 1 t.cur) ∧
    (j.elastic (s.cur.reg 10).toNat = true → (j.mapped.find? fun p => p.1 == (s.cur.reg 10).toNat / 4096 * 4096) = none →
      ∃ t, exec .trapUnmap s = .next t ∧ OnlyCtx s.cid s.kid s t ∧ Issued s.cur s.cur (s.cur.pc + 4) t.cur ∧ Wrote s.cur 10 4 t.cur)) ∧
  (∀ (s : State) (j : Job) (m m' : Mach) (p : Nat) (rest : List Nat), s.jobOf s.cid = some j → j.elastic (s.cur.reg 10).toNat = true →
    s.mach.poolBusy j (s.cur.reg 10).toNat = false → s.mach.present (s.cur.reg 10).toNat = false → m = s.mach.reclaim j → (m.jobOf s.cid).map (·.pool) = some (p :: rest) →
    (m.zeroPage p (m.poolKey j)).mapFrom (s.cur.reg 10).toNat (BitVec.ofNat 64 (m.poolKey j * 2 ^ 52 + p + 3)) 5 s.here.ptbase.toNat = some m' →
    ∃ t, exec .trapMapPool s = .next t ∧ (∀ x, t.byte x = (s.mem.apply m'.log).read x) ∧ SameCores s.cid s t ∧ SameCoreBut s.cid s.kid s t ∧
      Issued s.cur s.cur (s.cur.pc + 4) t.cur ∧ Wrote s.cur 10 0 t.cur ∧
      ∃ j', t.jobOf s.cid = some j' ∧ j'.pool = rest ∧ j'.mapped = j.mapped ++ [((s.cur.reg 10).toNat / 4096 * 4096, p)] ∧
        ∀ u, u ∈ t.dev.poison → u ∈ s.dev.poison ∧ ¬(p ≤ u ∧ u < p + 4096)) ∧
  (∀ (s : State) (j : Job) (m : Mach) (p : Nat) (rest : List Nat), s.jobOf s.cid = some j → j.elastic (s.cur.reg 10).toNat = true →
    s.mach.poolBusy j (s.cur.reg 10).toNat = false → s.mach.present (s.cur.reg 10).toNat = false → m = s.mach.reclaim j → (m.jobOf s.cid).map (·.pool) = some (p :: rest) →
    (m.zeroPage p (m.poolKey j)).mapFrom (s.cur.reg 10).toNat (BitVec.ofNat 64 (m.poolKey j * 2 ^ 52 + p + 3)) 5 s.here.ptbase.toNat = none →
    ∃ t, exec .trapMapPool s = .next t ∧ SameBytes s t ∧ SameCores s.cid s t ∧ SameCoreBut s.cid s.kid s t ∧
      Issued s.cur s.cur (s.cur.pc + 4) t.cur ∧ Wrote s.cur 10 1 t.cur) ∧
  (∀ (s : State) (j : Job) (p : Nat × Nat), s.jobOf s.cid = some j → j.elastic (s.cur.reg 10).toNat = true →
    (j.mapped.find? fun p => p.1 == (s.cur.reg 10).toNat / 4096 * 4096) = some p → s.mach.walkBusy (s.cur.reg 10).toNat 5 s.here.ptbase.toNat = false →
    ∃ t, exec .trapUnmap s = .next t ∧ Wrote s.cur 10 0 t.cur ∧ t.cur.pc = s.cur.pc + 4 ∧
      (∀ (g : Nat) (k : Core) (e : TlbEntry), (g, k) ∈ t.dev.cores → k.job = some j.id → e ∈ k.tlb → e.va ≤ (s.cur.reg 10).toNat →
        (s.cur.reg 10).toNat < e.va + e.size → e.usable = false ∧ e.users ≠ []) ∧
      ∃ j', t.jobOf s.cid = some j' ∧ j'.mapped = j.mapped.filter (fun q => q.1 != p.1))

/-- R29, R137-R139 (that `TICK` and the counts of pending writes stand at a `break` is log entry 59): `eret` outside a handler raises `ILLEGAL`; inside, it lands what the handler left pending, restores the saved pending writes and goes to
`EPC`, with `INH` clear. `break` enters the handler with `EPC` behind it; `wfe` with its latch set clears it and goes on. -/
def Obligations.HandlersAndEvents : Prop :=
  ∀ s : State,
    (s.cur.inh = true → ∃ t, exec .eret s = .next t ∧ OnlyCtx s.cid s.kid s t ∧
      t.cur = { s.cur with pc := s.cur.epc, inh := false, pwb := s.cur.savedPwb, savedPwb := [], regs := s.cur.landAll.regs, tick := s.cur.tick + 1 }) ∧
    (CanTrap s.cur Cause.illegal → ∃ t, exec .eret s = .next t ∧ Trapped Cause.illegal s.mach.instrWord s.cur.pc s t) ∧
    (s.cur.latch = true → ∃ t, exec .wfe s = .next t ∧ OnlyCtx s.cid s.kid s t ∧ Issued s.cur { s.cur with latch := false } (s.cur.pc + 4) t.cur ∧
      NoWrite s.cur t.cur) ∧
    (CanTrap s.cur Cause.brk → ∃ t, exec .brk s = .next t ∧ Trapped 0x17 0 (s.cur.pc + 4) s t)

/-- R28, R30, R33, R96, R97: a word that is no instruction raises its cause precisely: the handler is entered with the saved registers written. Inside a
handler, without a handler, or for a cause that the supervisor takes, the context is held with its cause and the end of the job is recorded; its registers
stay as they are. -/
def Obligations.IllegalWordsTrap : Prop :=
  (∀ (s : State) (cause : BitVec 8) (tval : Word), CanTrap s.cur cause.toNat →
    ∃ t, exec (.illegalEncoding cause tval) s = .next t ∧ Trapped cause.toNat tval s.cur.pc s t) ∧
  (∀ (s : State) (cause : BitVec 8) (tval : Word) (j : Job), s.jobOf s.cid = some j → j.ending = none → s.cur.wait = none →
    (s.cur.inh = true ∨ s.cur.tvec = 0 ∨ toSupervisor cause.toNat = true) →
    ∃ t, exec (.illegalEncoding cause tval) s = .next t ∧ SameBytes s t ∧ SameCores s.cid s t ∧ SameCoreBut s.cid s.kid s t ∧
      t.cur = { s.cur with held := some ⟨cause.toNat, tval⟩ } ∧
      ∃ j' e, t.jobOf s.cid = some j' ∧ j'.ending = some e ∧ e.cause = cause.toNat ∧ e.tval = tval ∧ e.core = s.cid)

/-- R13, R14, R30, R153: the oldest pending engine fault of a context outside a handler is taken: `EFAULT` names it, and the handler is entered with cause
`ENGINE_FAULT`, the fault's `TVAL` and the address of the next instruction; a context that has executed `done` is restarted by it. -/
def Obligations.EngineFaultsAreTaken : Prop :=
  ∀ (s : State) (c : CoreId) (k : CtxId) (f : EFault) (rest : List EFault) (w : Word), (s.ctx c.toNat k).efq = f :: rest → (s.ctx c.toNat k).inh = false →
    (s.ctx c.toNat k).held = none → (s.ctx c.toNat k).tvec ≠ 0 → (s.ctx c.toNat k).wait = none → f.sub < 32 → f.pos < 2 ^ 40 →
    w = BitVec.ofNat 64 (f.seq.toNat * 2 ^ 48 + f.pos * 2 ^ 8 + f.sub * 2 ^ 3 + queueNum f.q) →
    ∃ t, exec (.engineFault c k) s = .next t ∧ OnlyCtx c.toNat k s t ∧
      t.ctx c.toNat k = { s.ctx c.toNat k with
        efq := rest, efault := w, savedPwb := (s.ctx c.toNat k).pwb, pwb := [], epc := (s.ctx c.toNat k).pc, cause := 0x0C, tval := f.tval,
        inh := true, done := false, pc := (s.ctx c.toNat k).tvec }

/-- Of the cores other than `c`, and of the contexts of `c` that are not named, nothing has changed but event latches that have been set. -/
def Sys2Proof.Claims.SameButLatches (c : Nat) (but : List CtxId) (s t : State) : Prop :=
  (∀ g, g ≠ c → t.core g = withCtxs (t.core g) (s.core g)) ∧
  ∀ g k, (g ≠ c ∨ k ∉ but) → t.ctx g k = { s.ctx g k with latch := (t.ctx g k).latch } ∧ ((s.ctx g k).latch = true → (t.ctx g k).latch = true)

/-- R140, R138, R178, R359, R59: `resume` restarts the faulted command that its operand names, with its position, its refused transfers to be sent again, and
sets the cluster's latches where a slot shows it, and holds no translation any more, so that every page is translated again; with no such command it has no
effect; a queue number above 4 raises `ILLEGAL`. (That a `resume` begins a wait for an exponent anew is log entry 41.) `squash` of such a command takes it off
the core: nothing further of it is written, and its operands hold back nobody (R58); an entry of a return queue that it was to fill stays as it is (log entry
85). Neither takes back an engine fault that is pending (log entry 86). -/
def Obligations.ResumeAndSquash : Prop :=
  (∀ (s : State) (a : Reg),
    (∀ (q : Queue) (d : Cmd), ((s.cur.reg a).extractLsb' 0 3).toNat = queueNum q →
      (s.here.queue q).find? (fun e => e.fault.isSome && e.seq == (s.cur.reg a).extractLsb' 48 16) = some d → d ∈ s.here.queue q →
      (∀ e ∈ s.here.cmds, e.uid = d.uid → e = d) →
      ∃ t d', exec (.resume a) s = .next t ∧ SameBytes s t ∧ SameDevice s t ∧ SameButLatches s.cid [s.kid] s t ∧
        d' ∈ (t.core s.cid).queue q ∧ d' = { d with fault := none, resumed := true, refused := [], again := d'.again, since := none, paused := none } ∧
        (∀ n, n ∈ d'.again ↔ n ∈ d.again ∨ ∃ r ∈ d.refused, r.1 = n) ∧ (∀ v, v ≠ d.uid → t.cmd s.cid v = s.cmd s.cid v) ∧
        (∀ e ∈ (t.core s.cid).tlb, ∀ x ∈ e.users, x.1 ≠ d.uid) ∧
        ((s.here.slots.any fun p => p.2.uid == d.uid) = true → ∀ g k, (g, k) ∈ s.dev.cores → g / 32 = s.cid / 32 → ∀ x, (t.ctx g x).latch = true) ∧
        Issued s.cur { s.cur with latch := t.cur.latch } (s.cur.pc + 4) t.cur ∧ NoWrite s.cur t.cur) ∧
    (∀ q : Queue, ((s.cur.reg a).extractLsb' 0 3).toNat = queueNum q →
      (∀ e ∈ s.here.queue q, e.fault.isSome = true → e.seq ≠ (s.cur.reg a).extractLsb' 48 16) →
      ∀ i, i ∈ [Instr.resume a, .squash a] → ∃ t, exec i s = .next t ∧ OnlyIssued s t) ∧
    (4 < ((s.cur.reg a).extractLsb' 0 3).toNat → CanTrap s.cur Cause.illegal →
      ∀ i, i ∈ [Instr.resume a, .squash a] → ∃ t, exec i s = .next t ∧ Trapped Cause.illegal s.mach.instrWord s.cur.pc s t)) ∧
  (∀ (s : State) (a : Reg) (q : Queue) (d : Cmd), ((s.cur.reg a).extractLsb' 0 3).toNat = queueNum q →
    (s.here.queue q).find? (fun e => e.fault.isSome && e.seq == (s.cur.reg a).extractLsb' 48 16) = some d → (∀ e ∈ s.here.cmds, e.uid = d.uid → e = d) →
    ∃ t, exec (.squash a) s = .next t ∧ SameBytes s t ∧ (∀ e ∈ (t.core s.cid).cmds, e.uid ≠ d.uid) ∧
      (∀ e, e ∈ s.here.cmds → e.uid ≠ d.uid → e ∈ (t.core s.cid).cmds) ∧ (∀ g k, (t.ctx g k).efq = (s.ctx g k).efq ∧ (t.ctx g k).rq = (s.ctx g k).rq) ∧
      t.cur.pc = s.cur.pc + 4 ∧ t.cur.tick = s.cur.tick + 1)

/-- R141, R158: `tlbinv` raises `PRIVILEGE` in a job context; the supervisor's completes when no entry that it selects is in use, and leaves none of them; while
one is in use it waits, and none of them serves a new access. Selectors 0 and 1 take
entries of the current ASID (of selector 0 that is log entry 84). -/
def Obligations.TranslationInvalidate : Prop :=
  ∀ (s : State) (a : Reg) (sel : BitVec 2), sel ≠ 3 →
    (s.cur.sup = false → CanTrap s.cur Cause.privilege → ∃ t, exec (.tlbinv a sel) s = .next t ∧ Trapped Cause.privilege s.mach.instrWord s.cur.pc s t) ∧
    (s.cur.sup = true → (∀ e ∈ s.here.tlb, e.selected sel.toNat s.here.asid (s.cur.reg a) = true → e.users = []) →
      ∃ t, exec (.tlbinv a sel) s = .next t ∧ SameBytes s t ∧ SameCores s.cid s t ∧ SameCtxs s.cid [s.kid] s t ∧
        (∀ e, e ∈ (t.core s.cid).tlb ↔ (e ∈ s.here.tlb ∧ e.selected sel.toNat s.here.asid (s.cur.reg a) = false ∧ (e.usable = true ∨ e.users ≠ []))) ∧
        Issued s.cur s.cur (s.cur.pc + 4) t.cur ∧ NoWrite s.cur t.cur) ∧
    (s.cur.sup = true → (∃ e ∈ s.here.tlb, e.selected sel.toNat s.here.asid (s.cur.reg a) = true ∧ e.users ≠ []) →
      ∃ t, exec (.tlbinv a sel) s = .next t ∧ SameBytes s t ∧ t.cur = s.cur ∧
        ∀ e ∈ (t.core s.cid).tlb, e.selected sel.toNat s.here.asid (s.cur.reg a) = true → e.usable = false)

/-! ## From template to queue -/

/-- What the template in the image gives to an `enq` or `enq.g` of the slot: the completed record, the format word at the head of the queue for an opcode that
pops one, and the plan (R131, R143). -/
structure Sys2Proof.Claims.EnqPlan (s : State) (q : Queue) (xrec xp0 xp1 : Reg) (gang : Bool) (r : Record) (b : Built) (fw : Option Word) : Prop where
  aligned : (s.cur.reg xrec).toNat % 64 = 0
  inside : (s.cur.reg xrec).toNat + 64 ≤ s.here.imgLen
  word : fw = (if popsFormat r.opc.toNat then s.here.fmts.head? else none)
  plan : ∃ w, w = decodeRecord (BitVec.ofNat 512 (s.num (window s.cid + 0x300000 + (s.cur.reg xrec).toNat) 64)) ∧
    r = completeRecord w (s.cur.reg xp0) (s.cur.reg xp1) ∧ b = s.mach.plan ⟨s.cid, s.cur.rrb.toNat, q, w, r, fw, gang, s.mach.instrWord⟩

/-- The CXL home agent holds up the translation of no lead page of an `enq` (R364). -/
def Sys2Proof.Claims.LeadsFree (s : State) (b : Built) : Prop := ∀ l ∈ b.leads, s.mach.transBusy s.cid l.2.1 l.2.2 (s.dev.uid, l.1) = false

/-- R131, R143, R48, R55, R147, R148, R211, R238: `enq` completes the template with its two registers; when every check passes and the queue has room, the command enters
its queue with the next SEQ, its format word bound, what is visible to the context visible to it, and the context goes on; when the queue has none it waits
with the word bound. A template that is not aligned or lies outside the image traps, and so does a check that fails: fields first, then the resolution of
region registers, then alignment and spaces, in a step the lowest cause; a lead page that fails to translate raises its cause with the page's address; with no
format word outstanding `FQ_UNDERFLOW` comes next, and last `REGION_ALIAS`, where a source meets a destination without being in place; none of these traps takes
a format word or a place. A command that has passed its checks and waited enters as it is when its queue has room (that its checks are not made again is log
entry 28); an `enq` of which the CXL home agent holds a lead page's translation changes nothing (log entry 92). -/
def Obligations.Enqueue : Prop :=
  (∀ (x y : Word) (t : Record), (completeRecord t x y).dbase.toNat = t.dbase.toNat / 2 ^ 60 * 2 ^ 60 + (t.dbase.toNat + x.toNat) % 2 ^ 60 ∧
    (completeRecord t x y).sbase.toNat = t.sbase.toNat / 2 ^ 60 * 2 ^ 60 + (t.sbase.toNat + y.toNat) % 2 ^ 60) ∧
  (∀ (s : State) (q : Queue) (xrec xp0 xp1 : Reg) (g : Guard) (r : Record) (b : Built) (m : Mach) (fw : Option Word), s.cur.guard g = true →
    s.cur.wait = none → EnqPlan s q xrec xp0 xp1 false r b fw → LeadsFree s b → s.mach.leadPages s.cid s.dev.uid b.leads = (m, none) →
    (popsFormat r.opc.toNat = true → s.here.fmts ≠ []) → (∀ c ∈ b.conds, c.2 = .ok ()) → aliasBroken b.ops = false →
    (m.noEntry q = false →
      ∃ t d, exec (.enq q xrec xp0 xp1 g) s = .next t ∧ (∀ x, t.byte x = (s.mem.apply m.log).read x) ∧ SameCores s.cid s t ∧ SameCtxs s.cid [s.kid] s t ∧
        (t.core s.cid).queue q = s.here.queue q ++ [d] ∧ (∀ p, p ≠ q → (t.core s.cid).queue p = s.here.queue p) ∧
        (t.core s.cid).nextSeq = s.here.nextSeq + 1 ∧ (t.core s.cid).fmts = (if popsFormat r.opc.toNat then s.here.fmts.drop 1 else s.here.fmts) ∧
        Carries s.here (.ctx s.kid) (· = .cmd s.dev.uid) (t.core s.cid) ∧ 
        (t.core s.cid).inj = (if r.opc = 0x33 then s.here.inj + BitVec.ofNat 64 b.total else s.here.inj) ∧ d.uid = s.dev.uid ∧
        d.seq = s.here.nextSeq ∧ d.q = q ∧ d.work = .record { r with null := false } ∧ d.ctx = some s.kid ∧ d.phase = some s.here.phase ∧ d.fmtw = fw ∧
        d.ops = b.ops ∧ d.edges = buildEdges s.here b.ops ∧ d.total = b.total ∧ d.n = 0 ∧ d.issued = false ∧ d.null = false ∧
        Issued s.cur s.cur (s.cur.pc + 4) t.cur ∧ NoWrite s.cur t.cur) ∧
    (m.noEntry q = true →
      ∃ t d, exec (.enq q xrec xp0 xp1 g) s = .next t ∧ t.cur = { s.cur with wait := some (.enq d) } ∧ d.fmtw = fw ∧ d.ops = b.ops ∧ d.uid = s.dev.uid ∧
        (∀ p, (t.core s.cid).queue p = s.here.queue p) ∧
        (t.core s.cid).fmts = (if popsFormat r.opc.toNat then s.here.fmts.drop 1 else s.here.fmts))) ∧
  (∀ (s : State) (q : Queue) (xrec xp0 xp1 : Reg) (g : Guard), s.cur.guard g = true →
    ((s.cur.reg xrec).toNat % 64 ≠ 0 → CanTrap s.cur Cause.misalign →
      ∃ t, exec (.enq q xrec xp0 xp1 g) s = .next t ∧ Trapped Cause.misalign (s.cur.reg xrec) s.cur.pc s t) ∧
    ((s.cur.reg xrec).toNat % 64 = 0 → s.here.imgLen < (s.cur.reg xrec).toNat + 64 → CanTrap s.cur Cause.access →
      ∃ t, exec (.enq q xrec xp0 xp1 g) s = .next t ∧ Trapped Cause.access (s.cur.reg xrec) s.cur.pc s t) ∧
    (∀ (r : Record) (b : Built) (fw : Option Word) (st : Stage) (cause : Nat) (tval : Word), EnqPlan s q xrec xp0 xp1 false r b fw →
      (st, Except.error (cause, tval)) ∈ b.conds → CanTrap s.cur cause →
      (∀ p ∈ b.conds, ∀ e, p.2 = .error e → (p.1 = .fields → st = .fields) ∧ (p.1 = .resolve → st = .fields ∨ st = .resolve) ∧
        ((p.1 = st ∨ (st ∈ [Stage.spaces, .storage] ∧ p.1 ∈ [Stage.spaces, .storage])) → cause ≤ e.1)) →
      ∃ t p v, p ∈ b.conds ∧ p.2 = .error (cause, v) ∧ exec (.enq q xrec xp0 xp1 g) s = .next t ∧ Trapped cause v s.cur.pc s t) ∧
    (∀ (r : Record) (b : Built) (fw : Option Word), EnqPlan s q xrec xp0 xp1 false r b fw → (∀ c ∈ b.conds, c.2 = .ok ()) → s.cur.wait = none →
      ¬LeadsFree s b → exec (.enq q xrec xp0 xp1 g) s = .next s) ∧
    (∀ (r : Record) (b : Built) (m : Mach) (fw : Option Word) (op va cause : Nat) (write : Bool), EnqPlan s q xrec xp0 xp1 false r b fw →
      (∀ c ∈ b.conds, c.2 = .ok ()) → LeadsFree s b → b.leads = [(op, va, write)] → s.mach.translate s.cid va write (s.dev.uid, op) = (m, .error cause) →
      CanTrap s.cur cause →
      ∃ t, exec (.enq q xrec xp0 xp1 g) s = .next t ∧ t.cur = s.cur.enterHandler cause (BitVec.ofNat 64 va) s.cur.pc ∧ t.here.cmds = s.here.cmds ∧
        t.here.fmts = s.here.fmts) ∧
    (∀ (r : Record) (b : Built) (m : Mach) (fw : Option Word), EnqPlan s q xrec xp0 xp1 false r b fw → (∀ c ∈ b.conds, c.2 = .ok ()) → LeadsFree s b →
      s.mach.leadPages s.cid s.dev.uid b.leads = (m, none) → (popsFormat r.opc.toNat = true → s.here.fmts ≠ []) → aliasBroken b.ops = true →
      CanTrap s.cur Cause.regionAlias →
      ∃ t, exec (.enq q xrec xp0 xp1 g) s = .next t ∧ t.cur = s.cur.enterHandler 0x0A b.aliasVal s.cur.pc ∧ t.here.cmds = s.here.cmds ∧
        t.here.fmts = s.here.fmts) ∧
    (∀ (r : Record) (b : Built) (m : Mach), EnqPlan s q xrec xp0 xp1 false r b none → LeadsFree s b → s.mach.leadPages s.cid s.dev.uid b.leads = (m, none) →
      popsFormat r.opc.toNat = true → (∀ c ∈ b.conds, c.2 = .ok ()) → CanTrap s.cur Cause.fqUnderflow →
      ∃ t, exec (.enq q xrec xp0 xp1 g) s = .next t ∧ t.cur = s.cur.enterHandler Cause.fqUnderflow 0 s.cur.pc) ∧
    (∀ d, s.cur.wait = some (.enq d) → s.mach.noEntry d.q = false →
      ∃ t e, exec (.enq q xrec xp0 xp1 g) s = .next t ∧ SameBytes s t ∧ SameDevice s t ∧ SameCores s.cid s t ∧ SameCtxs s.cid [s.kid] s t ∧
        (t.core s.cid).queue d.q = s.here.queue d.q ++ [e] ∧ e.uid = d.uid ∧ e.seq = s.here.nextSeq ∧ e.work = d.work ∧ e.ops = d.ops ∧ e.fmtw = d.fmtw ∧
        (t.core s.cid).nextSeq = s.here.nextSeq + 1 ∧ Issued s.cur { s.cur with wait := none } (s.cur.pc + 4) t.cur ∧ NoWrite s.cur t.cur))

/-- The request of context `x` of core `k` comes before every other waiting `enq.g` that wants an entry of core `g`: it began to wait first, then by core,
then by context (R231). -/
def Sys2Proof.Claims.FirstAt (m : Mach) (g k x since : Nat) : Prop :=
  (∀ w ∈ m.gangWants g, w.2 = (k, x) → w.1 = since) ∧ (since, k, x) ∈ m.gangWants g ∧
  ∀ w ∈ m.gangWants g, since < w.1 ∨ (since = w.1 ∧ (k < w.2.1 ∨ (k = w.2.1 ∧ x ≤ w.2.2)))

/-- A member core of a gang's job: as it was saved, while it is pre-empted (R233). -/
def Sys2Proof.Claims.member (j : Option Nat) (h : Nat) (s : State) : Core :=
  match (j.bind s.job).bind fun b => b.saved.find? fun v => v.core.id == h with
  | some v => v.core
  | none => s.core h

/-- Some core, running or saved, holds a part of the gang. -/
def Sys2Proof.Claims.PartLeft (id : Nat) (s : State) : Prop :=
  (∃ p ∈ s.dev.cores, ∃ e ∈ p.2.mq, ∃ f, e.gang = some f ∧ f.id = id) ∨
  ∃ b ∈ s.dev.jobs, ∃ v ∈ b.saved, ∃ e ∈ v.core.mq, ∃ f, e.gang = some f ∧ f.id = id

/-- R183, R187, R231, R185: `enq.g` reserves an MQ entry on every member of its group, the request that began to wait first before others, and, when it holds
them all and every member's part passes its checks, one part enters each member's MQ and the context goes on; when GANGWAIT cycles pass before that, the
reservations are given back, those of pre-empted members too, and `GANG_TIMEOUT` is raised precisely. What is visible to the issuing context is visible to every
part (R238), and no translation stays held for the request (R147, R158). A part that waits for refetches continues when they have ended. A retired part pushes
nothing itself; with the last part of its gang, every member gets the tokens that the record names, which carry what was visible to that part. -/
def Obligations.Gangs : Prop :=
  (∀ (s : State) (xrec xp0 xp1 : Reg) (g : Guard) (d : Cmd) (r : Record) (grp since : Nat) (ms got : List Nat), s.cur.guard g = true →
    s.cur.wait = some (.gang d grp ms got since) → d.work = .record r → d.q = .mq → ms.Nodup →
    (∀ k ∈ ms, k ∈ got ∧ s.mach.gangLive s.here.job k = true) → (∀ j, s.jobOf s.cid = some j → ∀ v ∈ j.saved, v.core.id ∉ ms) → (∀ k ∈ ms, ∃ b, s.mach.gangPart d s.kid k s.mach.instrWord = .ok b) →
    ∃ t, exec (.enqG xrec xp0 xp1 g) s = .next t ∧ SameBytes s t ∧ (∀ k, k ∉ ms → k ≠ s.cid → t.core k = s.core k) ∧
      (∀ k ∈ ms, ∃ p b, s.mach.gangPart d s.kid k s.mach.instrWord = .ok b ∧ (t.core k).mq = (s.core k).mq ++ [p] ∧
        p.gang = some ⟨d.uid, s.here.job, s.cid, ms, r.push⟩ ∧ p.seq = (s.core k).nextSeq ∧ p.work = d.work ∧ p.ops = b.ops ∧ p.total = b.total ∧
        p.phase = none ∧ (t.core k).nextSeq = (s.core k).nextSeq + 1 ∧ (t.core k).reserved = (s.core k).reserved - 1 ∧
        ∀ w ∈ s.here.visible (.ctx s.kid), w ∈ (t.core k).visible (.cmd p.uid)) ∧
      (∀ e ∈ t.here.tlb, ∀ x ∈ e.users, x.1 ≠ d.uid) ∧
      Issued s.cur { s.cur with wait := none } (s.cur.pc + 4) t.cur ∧ NoWrite s.cur t.cur) ∧
  (∀ (s : State) (xrec xp0 xp1 : Reg) (g : Guard) (r : Record) (b : Built) (m : Mach) (fw : Option Word) (j : Job) (ms : List Nat), s.cur.guard g = true →
    s.cur.wait = none → EnqPlan s .mq xrec xp0 xp1 true r b fw → LeadsFree s b → s.mach.leadPages s.cid s.dev.uid b.leads = (m, none) →
    (popsFormat r.opc.toNat = true → s.here.fmts ≠ []) → (∀ c ∈ b.conds, c.2 = .ok ()) → aliasBroken b.ops = false → s.jobOf s.cid = some j →
    j.members (r.aux.extractLsb' 56 8).toNat = some ms →
    ∃ t d, exec (.enqG xrec xp0 xp1 g) s = .next t ∧ t.cur = { s.cur with wait := some (.gang d (r.aux.extractLsb' 56 8).toNat ms [] s.dev.now) } ∧
      d.fmtw = fw ∧ d.work = .record { r with null := false } ∧ d.members = ms ∧ (∀ p, (t.core s.cid).queue p = s.here.queue p) ∧
      (t.core s.cid).fmts = (if popsFormat r.opc.toNat then s.here.fmts.drop 1 else s.here.fmts)) ∧
  (∀ (s : State) (c g : CoreId) (k : CtxId) (d : Cmd) (grp since : Nat) (ms got : List Nat), (s.ctx c.toNat k).wait = some (.gang d grp ms got since) →
    g.toNat ∈ ms → g.toNat ∉ got → s.mach.gangFree (s.core c.toNat).job g.toNat = true → FirstAt s.mach g.toNat c.toNat (ctxNum k) since →
    ∃ t, exec (.gangReserve c k g) s = .next t ∧ SameBytes s t ∧ SameDevice s t ∧ (∀ h, h ≠ c.toNat → h ≠ g.toNat → t.core h = s.core h) ∧
      (t.core g.toNat).reserved = (s.core g.toNat).reserved + 1 ∧
      t.ctx c.toNat k = { s.ctx c.toNat k with wait := some (.gang d grp ms (got ++ [g.toNat]) since) }) ∧
  (∀ (s : State) (c : CoreId) (k : CtxId) (d : Cmd) (grp since : Nat) (ms got : List Nat), (s.ctx c.toNat k).wait = some (.gang d grp ms got since) →
    (s.core c.toNat).gangwait.toNat ≤ s.dev.now - since → (∃ g ∈ ms, g ∉ got) → (s.ctx c.toNat k).inh = false → (s.ctx c.toNat k).tvec ≠ 0 →
    ∃ t, exec (.gangTimeout c k) s = .next t ∧ SameBytes s t ∧ t.dev = { s.dev with cores := t.dev.cores, jobs := t.dev.jobs } ∧
      (∀ g, (member (s.core c.toNat).job g t).reserved = (member (s.core c.toNat).job g s).reserved - got.count g) ∧ (t.core c.toNat).fmts = d.fmtw.toList ++ (s.core c.toNat).fmts ∧
      t.ctx c.toNat k = { s.ctx c.toNat k with
        wait := none, savedPwb := (s.ctx c.toNat k).pwb, pwb := [], epc := (s.ctx c.toNat k).pc, cause := 0x0D, tval := BitVec.ofNat 64 grp,
        inh := true, done := false, pc := (s.ctx c.toNat k).tvec }) ∧
  (∀ (s : State) (c : CoreId) (u : Nat) (d : Cmd) (us : List Nat) (v : Word), s.cmd c.toNat u = some d → d.refetchWait = some (us, v) →
    (∀ w ∈ us, s.cmd c.toNat w = none) →
    ∃ t, exec (.gangPartContinue c u) s = .next t ∧ OnlyCore c.toNat s t ∧ t.cmd c.toNat u = some { d with refetchWait := none } ∧
      (∀ w, w ≠ u → t.cmd c.toNat w = s.cmd c.toNat w) ∧ (∀ k, t.ctx c.toNat k = s.ctx c.toNat k)) ∧
  (∀ (s : State) (c : CoreId) (u : Nat) (d : Cmd) (g : Gang), s.cmd c.toNat u = some d → d.gang = some g → s.mach.mayRetire c.toNat d = true →
    g.members.Nodup →
    ∃ t, exec (.commandRetire c u) s = .next t ∧ SameBytes s t ∧ (∀ h, ∀ e ∈ (t.core h).cmds, e ∈ (s.core h).cmds ∧ (h = c.toNat → e.uid ≠ u)) ∧
      (∀ h, ∀ e ∈ (s.core h).cmds, (h = c.toNat → e.uid ≠ u) → e ∈ (t.core h).cmds) ∧
      (PartLeft g.id t → ∀ h p q, (member g.job h t).tok p q = (member g.job h s).tok p q) ∧
      (¬PartLeft g.id t → ∀ h ∈ g.members, (member g.job h s).heldTokens = [] → (∀ q, q < 8 → (member g.job h s).tok 2 q < 15) →
        (∀ p q, (member g.job h t).tok p q = (member g.job h s).tok p q + if p = 2 ∧ q < 8 ∧ g.push.getLsbD q = true then 1 else 0) ∧
        ∀ q, q < 8 → g.push.getLsbD q = true → 0 ≤ (member g.job h s).tok 2 q → ∀ w ∈ (s.core c.toNat).visible (.cmd u),
          w ∈ (member g.job h t).visible (.token 2 q ((member g.job h s).tok 2 q).toNat)))

/-! ## Region registers and vector instructions -/

/-- The bits of a region register that a field takes (R273, R277): the lowest one and their number. -/
def Sys2Proof.Claims.fieldBits : VField → Nat × Nat
  | .base => (0, 20)
  | .peer => (20, 6)
  | .count => (27, 16)
  | .stride => (43, 24)
  | .fmt => (67, 5)

/-- The values that `vset` accepts for a field (R277). -/
def Sys2Proof.Claims.fieldFits : VField → Word → Bool
  | .stride, x => decide (-(2 ^ 23) ≤ x.toInt) && decide (x.toInt < 2 ^ 23)
  | .fmt, x => decide (x.toNat < 32) && (fmtBits x.toNat).isSome
  | f, x => decide (x.toNat < 2 ^ (fieldBits f).2)

/-- A register's value with a field replaced by the low bits of a word. -/
def Sys2Proof.Claims.FieldIs (f : VField) (x : Word) (v w : BitVec 128) : Prop :=
  ∀ k, k < 128 → w.getLsbD k = if (fieldBits f).1 ≤ k ∧ k < (fieldBits f).1 + (fieldBits f).2 then x.getLsbD (k - (fieldBits f).1) else v.getLsbD k

/-- A region register has been written whole by an instruction that writes nothing else (R278). -/
def Sys2Proof.Claims.WroteRegion (s : State) (n : Nat) (w : BitVec 128) (t : State) : Prop :=
  t.region s.cid n = w ∧ SameBytesBut (window s.cid + 0x200000 + 16 * n) 16 s t ∧ t.dev = { s.dev with cores := t.dev.cores, poison := t.dev.poison } ∧
  (∀ u, u ∈ t.dev.poison ↔ u ∈ s.dev.poison ∧ u ≠ window s.cid + 0x200000 + 16 * n) ∧ SameCores s.cid s t ∧ SameCoreBut s.cid s.kid s t ∧
  Issued s.cur s.cur (s.cur.pc + 8) t.cur ∧ NoWrite s.cur t.cur

/-- R274-R278, R289: `vset` replaces one field of a region register and `vaddb` adds to its base, or they raise `ILLEGAL` where the value does not fit;
`vcopy` copies a register whole; `vget` reads a field; `vpred` sets `PLEN` to the lesser of its register and the count, and its predicate when it is the
lesser. Names from `v1024` up are rotated by `RRB`. -/
def Obligations.RegionRegisters : Prop :=
  ∀ (s : State) (g : LGuard) (vd va : VReg) (xc : Reg) (d a : Nat) (v : BitVec 128), s.Inv → s.cur.lguard g = true →
    d = (if vd.toNat < 1024 then vd.toNat else 1024 + (vd.toNat - 1024 + s.cur.rrb.toNat) % 1024) →
    a = (if va.toNat < 1024 then va.toNat else 1024 + (va.toNat - 1024 + s.cur.rrb.toNat) % 1024) → v = s.region s.cid a →
    window s.cid + 0x200000 + 16 * a ∉ s.dev.poison → v.extractLsb' 72 56 = 0 → v.getLsbD 26 = false →
    (∀ f, fieldFits f (s.cur.reg xc) = true →
      ∃ t w, exec (.vset f vd va xc g) s = .next t ∧ FieldIs f (s.cur.reg xc) v w ∧ WroteRegion s d w t) ∧
    (∀ f, fieldFits f (s.cur.reg xc) = false → CanTrap s.cur Cause.illegal →
      ∃ t, exec (.vset f vd va xc g) s = .next t ∧ Trapped Cause.illegal s.mach.instrWord s.cur.pc s t) ∧
    (∀ b : Int, b = (v.extractLsb' 0 20).toNat + (s.cur.reg xc).toInt →
      (0 ≤ b → b < 2 ^ 20 → ∃ t w, exec (.vaddb vd va xc g) s = .next t ∧ FieldIs .base (BitVec.ofInt 64 b) v w ∧ WroteRegion s d w t) ∧
      ((b < 0 ∨ 2 ^ 20 ≤ b) → CanTrap s.cur Cause.illegal →
        ∃ t, exec (.vaddb vd va xc g) s = .next t ∧ Trapped Cause.illegal s.mach.instrWord s.cur.pc s t)) ∧
    (∃ t, exec (.vcopy vd va g) s = .next t ∧ WroteRegion s d v t) ∧
    (∀ (f : VField) (xd : Reg) (w : Word),
      w = (if f = .stride then BitVec.ofInt 64 (v.extractLsb' 43 24).toInt
           else BitVec.ofNat 64 (v.toNat / 2 ^ (fieldBits f).1 % 2 ^ (fieldBits f).2)) →
      ∃ t, exec (.vget f xd va g) s = .next t ∧ OnlyCtx s.cid s.kid s t ∧ Issued s.cur s.cur (s.cur.pc + 8) t.cur ∧ Wrote s.cur xd w t.cur) ∧
    (∀ (pd : BitVec 3) (n : Nat), n = Min.min (s.cur.reg xc).toNat (v.extractLsb' 27 16).toNat →
      ∃ t, exec (.vpred pd xc va g) s = .next t ∧ OnlyCtx s.cid s.kid s t ∧ NoWrite s.cur t.cur ∧
        Issued s.cur { s.cur with preds := t.cur.preds, plen := BitVec.ofNat 16 n } (s.cur.pc + 8) t.cur ∧
        ∀ p, t.cur.pred p = if p = pd ∧ pd ≠ 0 then decide (n < (v.extractLsb' 27 16).toNat) else s.cur.pred p)

/-- What a VQ instruction resolves to at its issue (R275, R279-R282, R317): its registers by name, its operands, its scalar. `live`: its guard holds. -/
def Sys2Proof.Claims.Resolves (live : Bool) (m : Mach) (i : Instr) (b : VBuilt) (x : Word) : Prop :=
  (∃ r d a e, rolesOf i = some r ∧ m.cur.lguard r.g = live ∧ m.named r.d = .ok d ∧ m.named r.a = .ok a ∧ m.named r.b = .ok e ∧
    b = m.vbuild i r d a e ∧ x = (match r.x with | some xc => m.cur.reg xc | none => 0)) ∨
  (∃ vd va h d a, (i = .vskq vd va h ∨ i = .vskh vd va h ∨ i = .vskd vd va h) ∧ m.cur.lguard h.g = live ∧ m.regionOf vd = .ok d ∧ m.regionOf va = .ok a ∧
    b = m.absorbBuild h.pl live d a ∧ x = 0) ∨
  (∃ vd va g d a, i = .smerge vd va g ∧ m.cur.lguard g = live ∧ m.regionOf vd = .ok d ∧ m.regionOf va = .ok a ∧ b = m.mergeBuild d a ∧ x = 0) ∨
  (∃ va xc g a, (i = .squeryQuant va xc g ∨ i = .squeryRank va xc g ∨ i = .squeryCount va xc g ∨ i = .squeryEntry va xc g) ∧ m.cur.lguard g = live ∧
    m.regionOf va = .ok a ∧ b = m.queryBuild a ∧ x = m.cur.reg xc) ∨
  (∃ va g a, i = .squeryEst va g ∧ m.cur.lguard g = live ∧ m.regionOf va = .ok a ∧ b = m.queryBuild a ∧ x = 0) ∨
  (∃ vd xc g d, i = .sinit vd xc g ∧ m.cur.lguard g = live ∧ m.regionOf vd = .ok d ∧ b = m.initBuild (m.cur.reg xc) d ∧ x = m.cur.reg xc) ∨
  (∃ vb dir line first v o ps, (i = .tload vb dir line first ∧ o = m.vop v (RegionReg.count v) false false false 1 ∧
      b.ops = ps.take 1 ++ o.2 ++ ps.drop 1 ∧ ps = lineParts m.cid dir line.toNat first.toNat (RegionReg.count v) true ∨
      i = .tstore vb dir line first ∧ RegionReg.remote v = false ∧ o = m.vop v (RegionReg.count v) false true false 1 ∧ b.ops = o.2 ++ ps ∧
      ps = lineParts m.cid dir line.toNat first.toNat (RegionReg.count v) false) ∧
    live = true ∧ m.regionOf vb = .ok v ∧ b.conds = o.1 ∧ 1 ≤ RegionReg.count v ∧ first.toNat + RegionReg.count v ≤ 256 ∧ b.d = v ∧ b.a = 0 ∧ b.b = 0 ∧
    b.e = RegionReg.count v ∧ x = 0)

/-- The guard of an instruction that enters VQ (R285). -/
def Sys2Proof.Claims.vqGuard (i : Instr) : Option LGuard :=
  match rolesOf i with
  | some r => some r.g
  | none => match i with
    | .vskq _ _ h => some h.g
    | .vskh _ _ h => some h.g
    | .vskd _ _ h => some h.g
    | .smerge _ _ g => some g
    | .squeryQuant _ _ g => some g
    | .squeryRank _ _ g => some g
    | .squeryCount _ _ g => some g
    | .squeryEntry _ _ g => some g
    | .squeryEst _ g => some g
    | .sinit _ _ g => some g
    | _ => none

/-- The guard of a long form that enters no queue. -/
def Sys2Proof.Claims.regionGuard : Instr → Option LGuard
  | .vset _ _ _ _ g => some g
  | .vget _ _ _ g => some g
  | .vaddb _ _ _ g => some g
  | .vcopy _ _ g => some g
  | .vpred _ _ _ g => some g
  | _ => none

/-- Command `d`, built of an instruction's parts, has entered VQ at its end with the next SEQ, and nothing else has changed but the issuing context: what is
visible to it has become visible to the command (R282, R238). -/
def Sys2Proof.Claims.EnteredVq (s : State) (i : Instr) (b : VBuilt) (x : Word) (null : Bool) (d : Cmd) (t : State) : Prop :=
  SameBytes s t ∧ t.dev = { s.dev with cores := t.dev.cores, uid := s.dev.uid + 1 } ∧ SameCores s.cid s t ∧ SameCtxs s.cid [s.kid] s t ∧
  t.core s.cid = withCtxs (t.core s.cid) { s.core s.cid with vq := s.here.vq ++ [d], nextSeq := s.here.nextSeq + 1, sees := (t.core s.cid).sees } ∧
  Carries s.here (.ctx s.kid) (· = .cmd s.dev.uid) (t.core s.cid) ∧
  d.uid = s.dev.uid ∧ d.seq = s.here.nextSeq ∧ d.q = .vq ∧ d.work = .vec i b.d b.a b.b x b.e (if toRq i && !null then some s.dev.uid else none) ∧
  d.ctx = some s.kid ∧ d.phase = some s.here.phase ∧ d.ops = b.ops ∧ d.edges = buildEdges s.here b.ops ∧ d.total = b.e ∧ d.n = 0 ∧ d.issued = false ∧
  d.null = null ∧ Issued s.cur { s.cur with rq := if toRq i && !null then s.cur.rq ++ [⟨s.dev.uid, none, none⟩] else s.cur.rq } (s.cur.pc + 8) t.cur ∧
  NoWrite s.cur t.cur

/-- The elements that a region operand of a VQ instruction walks: every one of `e`, or its element 0 for each where its COUNT is 1 and the others' is not
(R279, R280). Its `k`-th one lies at this nibble address. -/
def Sys2Proof.Claims.walked (v : BitVec 128) (bcast : Bool) (k : Nat) : Int :=
  2 * (v.extractLsb' 0 20).toNat + (if bcast = true then 0 else fmtNibs (v.extractLsb' 67 5).toNat * (k * (v.extractLsb' 43 24).toInt))

/-- A check of R282 that an elementwise instruction on the regions `v`, its destination, and `l`, its sources, over `e` elements fails: cause and `TVAL`. -/
def Sys2Proof.Claims.FailsVq (s : State) (v : BitVec 128) (l : List (BitVec 128)) (e cause : Nat) (tval : Word) : Prop :=
  let count (u : BitVec 128) : Nat := (u.extractLsb' 27 16).toNat
  (cause = 0x01 ∧ tval = s.mach.instrWord ∧ ((∃ u ∈ v :: l, fmtBits (u.extractLsb' 67 5).toNat = none) ∨ (∃ u ∈ l, count u ≠ count v ∧ count u ≠ 1) ∨
    v.getLsbD 25 = true ∨ (1 < e ∧ (v.extractLsb' 43 24).toInt ≤ 0))) ∨
  (cause = 0x04 ∧ ∃ u ∈ v :: l, (u.extractLsb' 0 20).toNat % Max.max 1 (fmtNibs (u.extractLsb' 67 5).toNat / 2) ≠ 0 ∧ tval = BitVec.ofNat 64 (u.extractLsb' 0 20).toNat) ∨
  (cause = 0x05 ∧ ∃ u ∈ v :: l, (∃ k, k < e ∧ (walked u (count u == 1 && count v != 1) k < 0 ∨
      2 * 0xC0000 < walked u (count u == 1 && count v != 1) k + fmtNibs (u.extractLsb' 67 5).toNat)) ∧ tval = BitVec.ofNat 64 (u.extractLsb' 0 20).toNat) ∨
  (cause = 0x05 ∧ ∃ u ∈ l, u.getLsbD 25 = true ∧ ∃ g, g = s.cid / 32 * 32 + (u.extractLsb' 20 5).toNat ∧ g ≠ s.cid ∧
    (s.mach.view s.cid g).runs s.here.job = false ∧ tval = BitVec.ofNat 64 (window g))

/-- R282, R22, R23, R227, R279, R280, R317, R55: a VQ instruction whose registers resolve, whose checks pass and whose queue has room puts its command at the end of VQ with the
next SEQ, carrying the values that it read; one that delivers a result allocates its return-queue entry; nothing else changes. One that has passed its checks
and waited enters as it is when there is room. A check that fails traps: of the operand checks the lowest cause, `ILLEGAL` for formats, counts and the
destination's form, `MISALIGN` for a base, `ACCESS` for a footprint outside the scratchpad or a peer that does not run the job; after them the seventeenth
return-queue entry, with the limit's code, and last `REGION_ALIAS` (that the operand checks are one step and these two follow it is log entry 79). A line
that is empty or runs past position 255, and a remote destination of `tstore`, are `ILLEGAL` (R227). An elementwise instruction that fails none of the operand checks of R282 passes them. -/
def Obligations.VectorInstructionsIssue : Prop :=
  (∀ (s : State) (i : Instr) (b : VBuilt) (x : Word), Resolves true s.mach i b x → s.cur.wait = none → (∀ c ∈ b.conds, c = .ok ()) →
    aliasBroken b.ops = false → s.here.queueFull .vq = false → (toRq i = true → s.cur.rq.length < 16) →
    ∃ t d, exec i s = .next t ∧ EnteredVq s i b x false d t) ∧
  (∀ (s : State) (i : Instr) (b : VBuilt) (x : Word), Resolves true s.mach i b x →
    (∀ cause tval, Except.error (cause, tval) ∈ b.conds → (∀ c e, c ∈ b.conds → c = .error e → cause ≤ e.1) → CanTrap s.cur cause →
      ∃ t v, Except.error (cause, v) ∈ b.conds ∧ exec i s = .next t ∧ Trapped cause v s.cur.pc s t) ∧
    ((∀ c ∈ b.conds, c = .ok ()) → toRq i = true → 16 ≤ s.cur.rq.length → CanTrap s.cur Cause.illegal →
      ∃ t, exec i s = .next t ∧ Trapped Cause.illegal 0x8000000000000011 s.cur.pc s t) ∧
    ((∀ c ∈ b.conds, c = .ok ()) → (toRq i = true → s.cur.rq.length < 16) → aliasBroken b.ops = true → CanTrap s.cur Cause.regionAlias →
      ∃ t v, exec i s = .next t ∧ Trapped 0x0A v s.cur.pc s t ∧ ∃ o ∈ b.ops, o.dst = true ∧ v = BitVec.ofInt 64 (o.nest.base / 2))) ∧
  (∀ (s : State) (i : Instr) (r : Roles) (vd va : VReg) (v w : BitVec 128) (l : List (BitVec 128)) (h : VHead) (e : Nat),
    (i = .vmove vd va h ∧ l = [w] ∧ (v.extractLsb' 67 5 = w.extractLsb' 67 5) ∨ ∃ vb z, s.mach.regionOf vb = .ok z ∧ l = [w, z] ∧
      (i = .vadd vd va (.reg vb) h ∨ i = .vsub vd va (.reg vb) h ∨ i = .vmul vd va (.reg vb) h ∨ i = .vfma vd va (.reg vb) h ∨
       i = .vmin vd va (.reg vb) h ∨ i = .vmax vd va (.reg vb) h ∨ ∃ cc, i = .vcmp vd va (.reg vb) cc h)) →
    s.mach.regionOf vd = .ok v → s.mach.regionOf va = .ok w → s.cur.lguard h.g = true → rolesOf i = some r →
    e = (if h.pl = true then Min.min (v.extractLsb' 27 16).toNat s.cur.plen.toNat else (v.extractLsb' 27 16).toNat) →
    (∀ cause tval, FailsVq s v l e cause tval → (∀ c x, FailsVq s v l e c x → cause ≤ c) → CanTrap s.cur cause →
      ∃ t x, FailsVq s v l e cause x ∧ exec i s = .next t ∧ Trapped cause x s.cur.pc s t) ∧
    ((∀ c x, ¬FailsVq s v l e c x) → ∃ b x, Resolves true s.mach i b x ∧ b.e = e ∧ ∀ c ∈ b.conds, c = .ok ())) ∧
  (∀ (s : State) (vb : VReg) (dir : LineDir) (line first : BitVec 8) (v : BitVec 128) (i : Instr), s.mach.regionOf vb = .ok v → CanTrap s.cur Cause.illegal →
    ((i = .tload vb dir line first ∨ i = .tstore vb dir line first) ∧ ((v.extractLsb' 27 16).toNat = 0 ∨ 256 < first.toNat + (v.extractLsb' 27 16).toNat) ∨
      i = .tstore vb dir line first ∧ v.getLsbD 25 = true) →
    ∃ t, exec i s = .next t ∧ Trapped Cause.illegal s.mach.instrWord s.cur.pc s t) ∧
  (∀ (s : State) (i : Instr) (d : Cmd), ((∃ g, vqGuard i = some g ∧ s.cur.lguard g = true) ∨ ∃ vb dir line first, i = .tload vb dir line first ∨
      i = .tstore vb dir line first) → s.cur.wait = some (.enq d) → d.q = .vq → s.here.queueFull .vq = false →
    ∃ t e, exec i s = .next t ∧ SameBytes s t ∧ SameDevice s t ∧ SameCores s.cid s t ∧ SameCtxs s.cid [s.kid] s t ∧
      (t.core s.cid).vq = s.here.vq ++ [e] ∧ e.seq = s.here.nextSeq ∧ e.uid = d.uid ∧ e.work = d.work ∧ e.ops = d.ops ∧
      (t.core s.cid).nextSeq = s.here.nextSeq + 1 ∧ t.cur.wait = none ∧ t.cur.pc = s.cur.pc + 8 ∧ t.cur.tick = s.cur.tick + 1)

/-- R84, R104, R285, R133, R351: a long form whose guard is false only issues, as `enq` does, in a job that is not FIXED; in a FIXED one, a VQ instruction and
an `enq` enter their queue nullified, with a SEQ and their footprints, an `enq` with its format word, and no return-queue entry is allocated. -/
def Obligations.FalseGuardOfCommands : Prop :=
  (∀ (s : State) (i : Instr) (g : LGuard), (regionGuard i = some g ∨ (vqGuard i = some g ∧ s.here.fixed = false)) → s.cur.lguard g = false →
    ∃ t, exec i s = .next t ∧ OnlyCtx s.cid s.kid s t ∧ Issued s.cur s.cur (s.cur.pc + 8) t.cur ∧ NoWrite s.cur t.cur) ∧
  (∀ (s : State) (q : Queue) (xrec xp0 xp1 : Reg) (g : Guard), s.cur.guard g = false → s.here.fixed = false →
    ∀ i, i ∈ [Instr.enq q xrec xp0 xp1 g, .enqG xrec xp0 xp1 g] → ∃ t, exec i s = .next t ∧ OnlyIssued s t) ∧
  (∀ (s : State) (i : Instr) (b : VBuilt) (x : Word), Resolves false s.mach i b x → s.here.fixed = true → s.cur.wait = none → (∀ c ∈ b.conds, c = .ok ()) →
    s.here.queueFull .vq = false → ∃ t d, exec i s = .next t ∧ EnteredVq s i b x true d t) ∧
  (∀ (s : State) (q : Queue) (xrec xp0 xp1 : Reg) (g : Guard) (r : Record) (b : Built) (fw : Option Word), s.cur.guard g = false →
    s.here.fixed = true → s.cur.wait = none → EnqPlan s q xrec xp0 xp1 false r b fw → (popsFormat r.opc.toNat = true → s.here.fmts ≠ []) →
    (∀ c ∈ b.conds, c.2 = .ok ()) → s.mach.noEntry q = false →
    ∃ t d, exec (.enq q xrec xp0 xp1 g) s = .next t ∧ SameBytes s t ∧ SameCores s.cid s t ∧ SameCtxs s.cid [s.kid] s t ∧
      (t.core s.cid).queue q = s.here.queue q ++ [d] ∧ (t.core s.cid).nextSeq = s.here.nextSeq + 1 ∧ (t.core s.cid).inj = s.here.inj ∧
      (t.core s.cid).fmts = (if popsFormat r.opc.toNat then s.here.fmts.drop 1 else s.here.fmts) ∧
      d.seq = s.here.nextSeq ∧ d.work = .record { r with null := true } ∧ d.null = true ∧ d.fmtw = fw ∧ d.ops = b.ops ∧ d.total = b.total ∧
      Issued s.cur s.cur (s.cur.pc + 4) t.cur ∧ NoWrite s.cur t.cur)

/-! ## Elements of the engines -/

/-- Command `u` of core `c` is in progress, is not nullified, and chases nothing. -/
def Sys2Proof.Claims.Working (s : State) (c u : Nat) (d : Cmd) : Prop :=
  s.cmd c u = some d ∧ d.working = true ∧ d.null = false ∧ d.edges = [] ∧ d.remote c = none

/-- The same, and nothing of it is to be sent again: it does its next element. -/
def Sys2Proof.Claims.Ready (s : State) (c u : Nat) (d : Cmd) : Prop := Working s c u d ∧ d.again = []

/-- The element of `nibs` nibbles at nibble address `a` of an operand's space can be reached, and lies at physical address `pa`: in the storage of a core
that is not pre-empted, or in memory whose page translates by `leaf`, is not replicated and holds bytes written under the page's key, while no store or atomic
that is visible to the command is in flight to it and the CXL home agent has it free. `m'` is the machine after the translation. -/
def Sys2Proof.Claims.ReachesBy (m : Mach) (c : Nat) (d : Cmd) (op : Nat) (sp : Space) (a : Int) (nibs : Nat) (write : Bool) (m' : Mach) (pa : Nat)
    (leaf : Word) : Prop :=
  1 ≤ nibs ∧ match sp with
  | .core g => m.reachable c g = true ∧ m' = m ∧ pa = window g + (a / 2).toNat
  | .virt => m.transBusy c (a / 2).toNat write (d.uid, op) = false ∧ m.translate c (a / 2).toNat write (d.uid, op) = (m', .ok (pa, leaf)) ∧
      (m'.dev.memKind pa ((nibs + 1) / 2)).isSome = true ∧ leaf.getLsbD 3 = false ∧ m'.dev.cxlBusy pa ((nibs + 1) / 2) = false ∧
      (∀ x ∈ m'.dev.flying, x.uid ∈ (m'.core c).visible (.cmd d.uid) → ¬(x.pa < pa + (nibs + 1) / 2 ∧ pa < x.pa + x.bytes)) ∧
      ∀ k, k < (nibs + 1) / 2 → m'.dev.sectorKey (pa + k) = m'.dev.keyId (leaf.extractLsb' 52 12).toNat

/-- The same by some leaf. -/
def Sys2Proof.Claims.Reaches (m : Mach) (c : Nat) (d : Cmd) (op : Nat) (sp : Space) (a : Int) (nibs : Nat) (write : Bool) (m' : Mach) (pa : Nat) : Prop :=
  ∃ leaf, ReachesBy m c d op sp a nibs write m' pa leaf

/-- The bits of the element of `nibs` nibbles: its bytes, or the half of its byte that its nibble address names (R146). -/
def Sys2Proof.Claims.bitsAt (m : Mach) (pa : Nat) (a : Int) (nibs : Nat) : Nat :=
  if nibs = 1 then (if a % 2 = 0 then m.le pa 1 % 16 else m.le pa 1 / 16) else m.le pa ((nibs + 1) / 2)

/-- The bytes that an element of `nibs` nibbles leaves at its place, as a number: a 4-bit one keeps the other half of its byte (R146). -/
def Sys2Proof.Claims.bytesLeft (m : Mach) (pa : Nat) (a : Int) (nibs bits : Nat) : Nat :=
  if nibs = 1 then (if a % 2 = 0 then m.le pa 1 / 16 * 16 + bits % 16 else bits % 16 * 16 + m.le pa 1 % 16) else bits

/-- The one element at `pa` has been written, and no other byte since machine `m`. -/
def Sys2Proof.Claims.OneWrite (s : State) (m : Mach) (pa : Nat) (a : Int) (nibs bits : Nat) (t : State) : Prop :=
  (∀ x, ¬(pa ≤ x ∧ x < pa + (nibs + 1) / 2) → t.byte x = (s.mem.apply m.log).read x) ∧
  ∀ k, k < (nibs + 1) / 2 → t.byte (pa + k) = BitVec.ofNat 8 (bytesLeft m pa a nibs bits / 2 ^ (8 * k))

/-- The command is now `d`, but for the substitution marks that it has moved: no other command of the core has changed, and of other cores at most the event
latches. -/
def Sys2Proof.Claims.Became (s : State) (c u : Nat) (d : Cmd) (t : State) : Prop :=
  (∃ e, t.cmd c u = some e ∧ e = { d with smarks := e.smarks }) ∧ (∀ v, v ≠ u → t.cmd c v = s.cmd c v) ∧
  ∀ g, g ≠ c → t.core g = s.core g ∨ t.core g = (s.core g).latchAll

/-- A command has done its next `adv` elements. -/
def Sys2Proof.Claims.Advanced (s : State) (c u : Nat) (d : Cmd) (adv : Nat) (t : State) : Prop := Became s c u { d with n := d.n + adv } t

/-- The command has faulted at its next element (R10): its context has the fault pending, and of the cores nothing else has changed but event latches. -/
def Sys2Proof.Claims.Faults (s : State) (c u : Nat) (d : Cmd) (k : CtxId) (sub : Nat) (tval : Word) (t : State) : Prop :=
  SameBytes s t ∧ SameButLatches c [k] s t ∧ t.cmd c u = some { d with fault := some ⟨d.q, d.seq, d.n, sub, tval⟩ } ∧
  (∀ v, v ≠ u → t.cmd c v = s.cmd c v) ∧
  t.ctx c k = { s.ctx c k with latch := true, efq := (s.ctx c k).efq ++ [⟨d.q, d.seq, d.n, sub, tval⟩] }

/-- The same, and nothing of the device has changed. -/
def Sys2Proof.Claims.FaultedAt (s : State) (c u : Nat) (d : Cmd) (k : CtxId) (sub : Nat) (tval : Word) (t : State) : Prop :=
  SameDevice s t ∧ Faults s c u d k sub tval t

/-- The command's fault can be delivered: it has a context, and no other command of its queue stands faulted or resumed (R152). -/
def Sys2Proof.Claims.CanFault (s : State) (c : Nat) (d : Cmd) (k : CtxId) : Prop :=
  d.handler = false ∧ (s.core c).queueFaulted d = false ∧ d.ctx = some k

/-- An element as a unit other than `copy` writes it (R191): the top bits of an E2M3 or E3M2 byte are zero. -/
def Sys2Proof.Claims.stored (f v : Nat) : Nat := if f = 0x0A ∨ f = 0x0B then v % 64 else v

/-- The contexts of the core are as before but for their event latches, which are set (R138). -/
def Sys2Proof.Claims.Latched (s : State) (c : Nat) (t : State) : Prop := ∀ k, t.ctx c k = { s.ctx c k with latch := true }

/-- R151, R163-R166, R177, R146, R191: an element of `copy`, `copyt`, `fill` or `mcast` moves its bits, widened by `copyt`, or the VALUE of `fill`, to its
place in every destination, with the top bits of a 6-bit format zero but by `copy`, changes no other byte, and the frontier advances by one. -/
def Obligations.CopyElements : Prop :=
  ∀ (s : State) (c : CoreId) (u : Nat) (d : Cmd), s.Inv → Ready s c.toNat u d → s.dev.poison = [] →
    (∀ (i : Instr) (o p : Operand) (m1 m2 : Mach) (ps pd v : Nat), d.ops = [o, p] → o.dst = true → p.dst = false →
      Reaches s.mach c.toNat d 1 p.nest.space (p.nest.addr d.n) p.nest.esz false m1 ps →
      Reaches m1 c.toNat d 0 o.nest.space (o.nest.addr d.n) o.nest.esz true m2 pd → v = bitsAt m1 ps (p.nest.addr d.n) p.nest.esz →
      ((i = .copy c u ∧ d.isOpc 0x10 = true) ∨ (i = .copyt c u ∧ d.isOpc 0x11 = true)) →
      ∃ t, exec i s = .next t ∧ Advanced s c.toNat u d 1 t ∧ Latched s c.toNat t ∧
        OneWrite s m2 pd (o.nest.addr d.n) o.nest.esz (if d.opc = 0x11 then widen (d.aux 5 5) v else v) t) ∧
    (∀ (o : Operand) (m2 : Mach) (pd : Nat), d.ops = [o] → o.dst = true → d.isOpc 0x16 = true →
      Reaches s.mach c.toNat d 0 o.nest.space (o.nest.addr d.n) o.nest.esz true m2 pd →
      ∃ t, exec (.fill c u) s = .next t ∧ Advanced s c.toNat u d 1 t ∧ Latched s c.toNat t ∧
        OneWrite s m2 pd (o.nest.addr d.n) o.nest.esz (stored (d.aux 0 5) (d.aux 32 32)) t) ∧
    (∀ (o p : Operand) (gs : List Nat) (m1 : Mach) (ps : Nat) (a : Int), d.ops = gs.map (fun g => { o with nest := { o.nest with space := .core g } }) ++ [p] →
      gs.Nodup → o.dst = true → p.dst = false → d.isOpc 0x17 = true →
      Reaches s.mach c.toNat d gs.length p.nest.space (p.nest.addr d.n) p.nest.esz false m1 ps → (∀ g ∈ gs, m1.reachable c.toNat g = true) →
      a = o.nest.addr d.n → 0 ≤ a → 1 ≤ o.nest.esz → (a / 2).toNat + (o.nest.esz + 1) / 2 ≤ 2 ^ 22 →
      ∃ t, exec (.mcast c u) s = .next t ∧ Advanced s c.toNat u d 1 t ∧ Latched s c.toNat t ∧
        (∀ x, (∀ g ∈ gs, ¬(window g + (a / 2).toNat ≤ x ∧ x < window g + (a / 2).toNat + (o.nest.esz + 1) / 2)) → t.byte x = (s.mem.apply m1.log).read x) ∧
        ∀ g ∈ gs, ∀ k, k < (o.nest.esz + 1) / 2 → t.byte (window g + (a / 2).toNat + k) =
          BitVec.ofNat 8 (bytesLeft m1 (window g + (a / 2).toNat) a o.nest.esz (stored (d.aux 0 5) (bitsAt m1 ps (p.nest.addr d.n) p.nest.esz)) / 2 ^ (8 * k)))

/-- The word of the index list that the next iteration of an indexed command reads, as a signed index (R169). -/
def Sys2Proof.Claims.IndexIs (s : State) (c : Nat) (d : Cmd) (i : Int) : Prop :=
  ∃ l, d.ops[2]? = some l ∧ l.nest.space = .core c ∧ l.nest.esz = 8 ∧
    i = (BitVec.ofNat 32 (s.num (window c + (l.nest.addr d.n / 2).toNat) 4)).toInt

/-- The nibble address of the element of an index (R170): base + index × stride 0, in elements. -/
def Sys2Proof.Claims.placed (base f : Nat) (stride : BitVec 24) (i : Int) : Int := 2 * base + fmtNibs f * (i * stride.toInt)

/-- The `scattera` row of an operation of MOD (R172). -/
def Sys2Proof.Claims.ScatteraRow (c : CoreId) (u op : Nat) (x : Instr) : Prop :=
  (op = 0 ∧ x = .scatteraAdd c u) ∨ (op = 1 ∧ x = .scatteraMax c u) ∨ (op = 2 ∧ x = .scatteraMin c u) ∨ (op = 3 ∧ x = .scatteraBor c u) ∨
  (op = 4 ∧ x = .scatteraBand c u)

/-- The value that `scattera` leaves (R172): modulo 2^32 or by signed or unsigned value in INT32 and UINT32, bits in any format, otherwise rounded. -/
def Sys2Proof.Claims.combined (op f a b : Nat) : Nat :=
  let less (x y : Nat) : Bool := if f = 0x06 then decide (signed 32 x < signed 32 y) else decide (x < y)
  match op with
  | 3 => a ||| b
  | 4 => a &&& b
  | _ => if f = 0x06 ∨ f = 0x07 then
      (if op = 0 then (a + b) % 2 ^ 32 else if op = 1 then (if less a b then b else a) else if less b a then b else a)
    else convert f (if op = 0 then (decodeNum f a).add (decodeNum f b) else if op = 1 then (decodeNum f a).max (decodeNum f b) else (decodeNum f a).min (decodeNum f b))

/-- R168-R173, R178: an element of an indexed command whose index is within [LO, HI]: `gather` and `gatherff` read at the index's place, `scatter` writes
there, `scattera` combines there. Out of range: with ZOOB a gather writes zeros, a scatter nothing, and `SUBCNT` counts; without it the command faults with
`OOB_INDEX` at its position, and `gatherff` ends at its iteration instead, as it does where the page of its element does not translate. -/
def Obligations.IndexedElements : Prop :=
  ∀ (s : State) (c : CoreId) (u : Nat) (d : Cmd) (r : Record) (o p : Operand) (bb : BitVec 128) (f : Nat) (i : Int) (inside : Bool), s.Inv →
    Ready s c.toNat u d → s.dev.poison = [] → d.work = .record r → d.ops.take 2 = [o, p] → d.regions.getLast? = some bb → IndexIs s c.toNat d i →
    f = (r.aux.extractLsb' 11 5).toNat → inside = (decide ((r.aux.extractLsb' 18 23).toInt ≤ i) && decide (i ≤ (r.aux.extractLsb' 41 23).toInt)) →
    (∀ (m1 m2 : Mach) (ps pd : Nat) (a : Int) (x : Instr), inside = true → a = placed bb.toNat f r.ss0 i →
      Reaches s.mach c.toNat d 1 p.nest.space a (fmtNibs f) false m1 ps → Reaches m1 c.toNat d 0 o.nest.space (o.nest.addr d.n) o.nest.esz true m2 pd →
      ((x = .gather c u ∧ d.isOpc 0x12 = true) ∨ (x = .gatherff c u ∧ d.isOpc 0x13 = true)) →
      ∃ t, exec x s = .next t ∧ Advanced s c.toNat u d 1 t ∧ Latched s c.toNat t ∧
        OneWrite s m2 pd (o.nest.addr d.n) o.nest.esz (stored f (bitsAt m1 ps a (fmtNibs f))) t) ∧
    (∀ (m1 : Mach) (a : Int) (e : Nat), inside = true → a = placed bb.toNat f r.ss0 i → p.nest.space = .virt → d.isOpc 0x13 = true →
      s.mach.transBusy c.toNat (a / 2).toNat false (u, 1) = false → s.mach.translate c.toNat (a / 2).toNat false (u, 1) = (m1, .error e) →
      ∃ t, exec (.gatherff c u) s = .next t ∧ (∀ x, t.byte x = (s.mem.apply m1.log).read x) ∧ t.cmd c.toNat u = some { d with stopAt := some d.n }) ∧
    (∀ (m1 m2 : Mach) (ps pd : Nat) (a : Int), inside = true → a = placed bb.toNat f r.ds0 i →
      Reaches s.mach c.toNat d 1 p.nest.space (p.nest.addr d.n) p.nest.esz false m1 ps → Reaches m1 c.toNat d 0 o.nest.space a (fmtNibs f) true m2 pd →
      (d.isOpc 0x14 = true → ∃ t, exec (.scatter c u) s = .next t ∧ Advanced s c.toNat u d 1 t ∧ Latched s c.toNat t ∧
        OneWrite s m2 pd a (fmtNibs f) (stored f (bitsAt m1 ps (p.nest.addr d.n) p.nest.esz)) t) ∧
      (∀ x op, d.isOpc 0x15 = true → op = r.mod.toNat % 8 → ScatteraRow c u op x → f ∈ [0x06, 0x07, 0x0E, 0x0F, 0x10] →
        ∃ t, exec x s = .next t ∧ Advanced s c.toNat u d 1 t ∧ Latched s c.toNat t ∧
          OneWrite s m2 pd a (fmtNibs f) (combined op f (m2.le pd (fmtNibs f / 2)) (bitsAt m1 ps (p.nest.addr d.n) p.nest.esz)) t)) ∧
    (∀ (k : CtxId) (x : Instr), inside = false → d.ctx = some k →
      ((x = .gather c u ∧ d.isOpc 0x12 = true) ∨ (x = .gatherff c u ∧ d.isOpc 0x13 = true) ∨ (x = .scatter c u ∧ d.isOpc 0x14 = true) ∨
        (d.isOpc 0x15 = true ∧ ScatteraRow c u (r.mod.toNat % 8) x)) →
      (r.aux.getLsbD 16 = true → (x = .scatter c u ∨ d.isOpc 0x15 = true) →
        ∃ t, exec x s = .next t ∧ Advanced s c.toNat u d 1 t ∧ SameBytes s t ∧
          t.ctx c.toNat k = { s.ctx c.toNat k with
            latch := true, subcnt := if (s.ctx c.toNat k).subcnt = BitVec.allOnes 64 then BitVec.allOnes 64 else (s.ctx c.toNat k).subcnt + 1 }) ∧
      (∀ (m2 : Mach) (pd : Nat), r.aux.getLsbD 16 = true → (x = .gather c u ∨ x = .gatherff c u) →
        Reaches s.mach c.toNat d 0 o.nest.space (o.nest.addr d.n) o.nest.esz true m2 pd →
        ∃ t, exec x s = .next t ∧ Advanced s c.toNat u d 1 t ∧ OneWrite s m2 pd (o.nest.addr d.n) o.nest.esz 0 t ∧
          t.ctx c.toNat k = { s.ctx c.toNat k with
            latch := true, subcnt := if (s.ctx c.toNat k).subcnt = BitVec.allOnes 64 then BitVec.allOnes 64 else (s.ctx c.toNat k).subcnt + 1 }) ∧
      (r.aux.getLsbD 16 = false → x = .gatherff c u →
        ∃ t, exec x s = .next t ∧ OnlyCore c.toNat s t ∧ t.cmd c.toNat u = some { d with stopAt := some d.n } ∧ (∀ j, t.ctx c.toNat j = s.ctx c.toNat j)) ∧
      (r.aux.getLsbD 16 = false → x ≠ .gatherff c u → CanFault s c.toNat d k → ∃ t, exec x s = .next t ∧ FaultedAt s c.toNat u d k 0x0F (BitVec.ofInt 64 i) t))

/-- An operand that lies in the storages of cores: the element of index `n` is at this physical address. -/
def Sys2Proof.Claims.OnChip (s : State) (c : Nat) (o : Operand) (n pa : Nat) : Prop :=
  ∃ g, o.nest.space = .core g ∧ s.mach.reachable c g = true ∧ pa = window g + (o.nest.addr n / 2).toNat ∧ 1 ≤ o.nest.esz

/-- Where entry (group `g`, index `j`) of the scale or zero-point map in region `v` stands (R213): the column named by SCSEL of the format word. -/
def Sys2Proof.Claims.mapAt (c : Nat) (v : BitVec 128) (w : Word) (g j : Nat) : Nat :=
  window c + ((v.extractLsb' 0 20).toNat + 128 * (16 * g + j / 16) + 8 * (j % 16) + (w.extractLsb' 19 3).toNat)

/-- The encoding of the scale of (group `g`, index `j`): a byte of UE8M0, or two of FP16 (R213). -/
def Sys2Proof.Claims.scaleAt (s : State) (c : Nat) (v : BitVec 128) (w : Word) (g j : Nat) : Nat :=
  s.num (mapAt c v w g j) (if RegionReg.fmt v = 0x11 then 1 else 2)

/-- The zero point of (group `g`, index `j`) of an operand of format `f`: of UINT4 the low half of its byte (R213). -/
def Sys2Proof.Claims.zeroAt (s : State) (c : Nat) (v : BitVec 128) (w : Word) (f g j : Nat) : Nat :=
  if f = 0x01 then s.num (mapAt c v w g j) 1 % 16 else s.num (mapAt c v w g j) 1

/-- Positions of a group (R196): 32, 64 or 128; 0 without groups. -/
def Sys2Proof.Claims.groupOf (w : Word) : Nat := match (w.extractLsb' 15 2).toNat with | 0 => 0 | 1 => 32 | 2 => 64 | _ => 128

/-- The seat that `seat` or `seats` loads at its last element (R218, R219): column j is the j-th run of T0 stored values, spread over twice as many positions
by the metadata when `sp`, and each column has the scales and zero points of its groups. `stored k` is position and bits of the k-th value; `regs` are the
registers of the scales, 0 for none, and of the zero points. -/
def Sys2Proof.Claims.SeatIs (s : State) (c : Nat) (w : Word) (sp : Bool) (regs : List (BitVec 128)) (t0 t1 : Nat) (stored : Nat → Nat × Nat) (z : Seat) : Prop :=
  ∃ (cols zeros : List (List Nat)) (scales : List (List (BitVec 16))) (depth ng : Nat), depth = (if sp = true then 2 * t0 else t0) ∧
    ng = (if groupOf w = 0 then 0 else (depth + groupOf w - 1) / groupOf w) ∧
    z = buildSeat w sp depth cols scales (RegionReg.fmt (regs.headD 0) == 0x11) zeros ∧ cols.length = t1 ∧
    (∀ j, j < t1 → (cols.getD j []).length = depth ∧ ∀ p, p < depth → (cols.getD j []).getD p 0 =
      if sp = true then (if (stored (j * t0 + p / 4 * 2)).1 % 4 = p % 4 then (stored (j * t0 + p / 4 * 2)).2
        else if (stored (j * t0 + p / 4 * 2 + 1)).1 % 4 = p % 4 then (stored (j * t0 + p / 4 * 2 + 1)).2 else 0)
      else (stored (j * t0 + p)).2) ∧
    (regs.headD 0 = 0 → scales = []) ∧ (regs.headD 0 ≠ 0 → scales.length = t1 ∧ ∀ j, j < t1 → (scales.getD j []).length = ng ∧
      ∀ g, g < ng → (scales.getD j []).getD g 0 = BitVec.ofNat 16 (scaleAt s c (regs.headD 0) w g j)) ∧
    (regs[1]? = none → zeros = []) ∧ ∀ v, regs[1]? = some v → zeros.length = t1 ∧ ∀ j, j < t1 → (zeros.getD j []).length = ng ∧
      ∀ g, g < ng → (zeros.getD j []).getD g 0 = zeroAt s c v w (w.extractLsb' 5 5).toNat g j

/-- R214-R224, R229, R200-R205, R213: elements of the matrix engine. `tzero` writes zeros, or the status word and clears OVF; `tcopy` copies a word; `drain`
converts a word into the output format, quantises it by the scale of its group, or keeps it until the MX block of 32 is whole, whose elements and scale byte it
then writes, and an element of it whose page does not translate faults at its own position (R10, R159); `seat` and `seats` take their values in order, with their positions, and load the seat at the last one; metadata whose positions do not rise is
the fault `SPARSE_META`; an `mmul` whose seat is EMPTY, of another record or too shallow at its start is the fault `ILLEGAL`; a row of `mmul` replaces its outputs by the K-step of its row and the seat's columns, with the scales and zero points of both. -/
def Obligations.MatrixElements : Prop :=
  ∀ (s : State) (c : CoreId) (u : Nat) (d : Cmd) (o : Operand) (rest : List Operand) (pd : Nat), s.Inv → Ready s c.toNat u d → s.dev.poison = [] →
    d.ops = o :: rest →
    (OnChip s c.toNat o d.n pd → d.isOpc 0x24 = true →
      (d.mod / 4 % 2 = 0 → ∃ t, exec (.tzero c u) s = .next t ∧ Advanced s c.toNat u d 1 t ∧ Latched s c.toNat t ∧
        OneWrite s s.mach pd (o.nest.addr d.n) o.nest.esz 0 t) ∧
      (d.mod / 4 % 2 = 1 → ∃ t, exec (.tzeroStat c u) s = .next t ∧ Advanced s c.toNat u d 1 t ∧ Latched s c.toNat t ∧
        OneWrite s s.mach pd (o.nest.addr d.n) o.nest.esz (if (s.core c.toNat).ovf then 1 else 0) t ∧ (t.core c.toNat).ovf = false)) ∧
    (∀ (p : Operand) (ps v : Nat), rest.head? = some p → OnChip s c.toNat o d.n pd → OnChip s c.toNat p d.n ps →
      v = bitsAt s.mach ps (p.nest.addr d.n) p.nest.esz →
      (d.isOpc 0x25 = true → ∃ t, exec (.tcopy c u) s = .next t ∧ Advanced s c.toNat u d 1 t ∧ Latched s c.toNat t ∧
        OneWrite s s.mach pd (o.nest.addr d.n) o.nest.esz v t) ∧
      (∀ (w : Word) (x sc : Machine.Num), d.isOpc 0x23 = true → d.fmtw = some w → w.getLsbD 46 = false →
        x = (if w.extractLsb' 0 5 = 6 then Num.ofInt (signed 32 (v % 2 ^ 32)) else decodeNum 0x10 v) →
        (w.extractLsb' 15 2 ≠ 0 → sc = if d.regions.headD 0 = 0 then Num.ofInt 1 else decodeNum (RegionReg.fmt (d.regions.headD 0))
          (scaleAt s c.toNat (d.regions.headD 0) w ((o.nest.iter d.n).getD 0 0 / groupOf w) ((o.nest.iter d.n).getD 1 0))) →
        ∃ t, exec (.drain c u) s = .next t ∧ Advanced s c.toNat u d 1 t ∧ Latched s c.toNat t ∧ OneWrite s s.mach pd (o.nest.addr d.n) o.nest.esz
          (if w.extractLsb' 15 2 = 0 then convert (w.extractLsb' 10 5).toNat x else quant (w.extractLsb' 10 5).toNat x sc 0) t)) ∧
    (∀ (w : Word) (p q : Operand) (ps v : Nat), d.isOpc 0x23 = true → d.fmtw = some w → w.getLsbD 46 = true → rest = [q, p] → OnChip s c.toNat p d.n ps →
      v = bitsAt s.mach ps (p.nest.addr d.n) p.nest.esz →
      (∀ (m2 : Mach) (pq : Nat), d.n % 32 ≠ 31 → Reaches s.mach c.toNat d 0 o.nest.space (o.nest.addr d.n) o.nest.esz true m2 pq →
        ∃ t, exec (.drain c u) s = .next t ∧ (∀ x, t.byte x = (s.mem.apply m2.log).read x) ∧ Latched s c.toNat t ∧
          Became s c.toNat u { d with n := d.n + 1, acc := d.acc ++ [BitVec.ofNat 64 v] } t) ∧
      (∀ (m2 : Mach) (va e : Nat) (k : CtxId), o.nest.space = .virt → va = (o.nest.addr d.n / 2).toNat → s.mach.transBusy c.toNat va true (u, 0) = false →
        s.mach.translate c.toNat va true (u, 0) = (m2, .error e) → CanFault s c.toNat d k →
        ∃ t, exec (.drain c u) s = .next t ∧ (∀ x, t.byte x = (s.mem.apply m2.log).read x) ∧
          t.cmd c.toNat u = some { d with fault := some ⟨d.q, d.seq, d.n, e, BitVec.ofNat 64 va⟩ }) ∧
      (∀ (out nib : Nat → Nat) (at_ : Nat) (xs : List Machine.Num), d.n % 32 = 31 → d.acc.length = 31 → v < 2 ^ 32 →
        (∀ i, i < 32 → OnChip s c.toNat o (d.n / 32 * 32 + i) (out i) ∧
          nib i = 2 * out i + (if o.nest.esz = 1 then (o.nest.addr (d.n / 32 * 32 + i) % 2).toNat else 0)) →
        (∀ i j, i < j → j < 32 → nib i + o.nest.esz ≤ nib j ∨ nib j + o.nest.esz ≤ nib i) → OnChip s c.toNat q (d.n / 32) at_ → q.nest.esz = 2 →
        (∀ i, i < 32 → at_ < out i ∨ out i + (o.nest.esz + 1) / 2 ≤ at_) → o.nest.esz ∈ [1, 2, 4, 8] →
        xs = ((d.acc.map (·.toNat)) ++ [v]).map (fun b => if w.extractLsb' 0 5 = 6 then Num.ofInt (signed 32 (b % 2 ^ 32)) else decodeNum 0x10 b) →
        ∃ t, exec (.drain c u) s = .next t ∧ Latched s c.toNat t ∧ Became s c.toNat u { d with n := d.n + 1, acc := [] } t ∧
          (∀ i, i < 32 → bitsAt t.mach (out i) (o.nest.addr (d.n / 32 * 32 + i)) o.nest.esz =
            (mxBlock (w.extractLsb' 10 5).toNat xs).2.getD i 0 % 2 ^ (4 * o.nest.esz)) ∧
          t.num at_ 1 = (mxBlock (w.extractLsb' 10 5).toNat xs).1 % 256 ∧
          ∀ x, x ≠ at_ → (∀ i, i < 32 → ¬(out i ≤ x ∧ x < out i + (o.nest.esz + 1) / 2)) → t.byte x = s.byte x)) ∧
    (∀ (w : Word) (sp : Bool) (pos b t0 t1 : Nat) (i : Instr) (regs : List (BitVec 128)) (stored : Nat → Nat × Nat), OnChip s c.toNat o d.n pd →
      d.fmtw = some w → o.nest.esz ≤ 8 → d.acc.length = d.n → b = bitsAt s.mach pd (o.nest.addr d.n) o.nest.esz → t0 = o.nest.trip 0 → t1 = o.nest.trip 1 →
      ((i = .seat c u ∧ d.isOpc 0x20 = true ∧ sp = false ∧ pos = 0 ∧ regs = d.regions) ∨
        (i = .seats c u ∧ d.isOpc 0x21 = true ∧ sp = true ∧ t0 % 2 = 0 ∧ regs = d.regions.drop 1 ∧ ∃ p ps q, rest.head? = some p ∧
          OnChip s c.toNat p (d.n / 2) ps ∧ q = bitsAt s.mach ps (p.nest.addr (d.n / 2)) p.nest.esz ∧ q % 4 < q / 4 ∧
          pos = (if d.n % 2 = 0 then q % 4 else q / 4) ∧ pos < 2 ^ 32)) →
      (∀ k, stored k = if k < d.n then ((d.acc.getD k 0).toNat / 2 ^ 32, (d.acc.getD k 0).toNat % 2 ^ 32) else (pos, b)) →
      ∃ t, exec i s = .next t ∧ SameBytes s t ∧ Latched s c.toNat t ∧
        Became s c.toNat u { d with n := d.n + 1, acc := d.acc ++ [BitVec.ofNat 64 (pos * 2 ^ 32 + b)] } t ∧
        (d.n + 1 < d.total → (t.core c.toNat).seatOf (d.mod % 2) = if d.n = 0 then Seat.empty else (s.core c.toNat).seatOf (d.mod % 2)) ∧
        (d.n + 1 = d.total → d.total = t0 * t1 → 1 ≤ t0 → SeatIs s c.toNat w sp regs t0 t1 stored ((t.core c.toNat).seatOf (d.mod % 2))) ∧
        (t.core c.toNat).seatOf (1 - d.mod % 2) = (s.core c.toNat).seatOf (1 - d.mod % 2)) ∧
    (∀ (p : Operand) (ps q : Nat) (k : CtxId), d.isOpc 0x21 = true → rest.head? = some p → OnChip s c.toNat p (d.n / 2) ps →
      q = bitsAt s.mach ps (p.nest.addr (d.n / 2)) p.nest.esz → q / 4 ≤ q % 4 → CanFault s c.toNat d k →
      ∃ t, exec (.seats c u) s = .next t ∧ FaultedAt s c.toNat u d k 0x10 (BitVec.ofNat 64 ((p.nest.addr (d.n / 2) / 2).toNat / 32 * 32)) t) ∧
    (∀ (w : Word) (z : Seat) (k : CtxId), d.isOpc 0x22 = true → d.fmtw = some w → d.n = 0 → z = (s.core c.toNat).seatOf (d.mod % 2) →
      (z.full = false ∨ z.record ≠ w.extractLsb' 0 19 ∨ z.kd < d.aux 16 9) → CanFault s c.toNat d k →
      ∃ t, exec (.mmul c u) s = .next t ∧ FaultedAt s c.toNat u d k 0x01 (BitVec.ofNat 64 (d.mod % 2)) t) ∧
    (∀ (w : Word) (p : Operand) (kd row t0 ng : Nat) (z : Seat) (a : Side) (src out : Nat → Nat) (raw old : Nat → Nat) (res : Nat → Nat × Bool),
      d.isOpc 0x22 = true → d.fmtw = some w → rest.head? = some p → t0 = o.nest.trip 0 → kd = d.aux 16 9 → row = d.n / t0 →
      z = (s.core c.toNat).seatOf (d.mod % 2) → z.poisoned = false → (d.n = 0 → z.full = true ∧ z.record = w.extractLsb' 0 19 ∧ kd ≤ z.kd) →
      (∀ i, i < kd → OnChip s c.toNat p (row * kd + i) (src i) ∧ raw i = bitsAt s.mach (src i) (p.nest.addr (row * kd + i)) p.nest.esz) →
      o.nest.esz = 8 → (∀ j, j < t0 → OnChip s c.toNat o (d.n + j) (out j)) → (∀ j k, j < t0 → k < t0 → j ≠ k → out j + 4 ≤ out k ∨ out k + 4 ≤ out j) →
      (∀ j, old j = if d.mod / 2 % 2 = 1 then s.num (out j) 4 else 0) → ng = (if groupOf w = 0 then 0 else kd / groupOf w) →
      a = rowSide w kd ((List.range kd).map raw)
        (if d.regions.headD 0 = 0 then [] else (List.range ng).map fun g => decodeNum (RegionReg.fmt (d.regions.headD 0)) (scaleAt s c.toNat (d.regions.headD 0) w g row))
        (match d.regions[1]? with | none => [] | some v => (List.range ng).map fun g => zeroAt s c.toNat v w (w.extractLsb' 0 5).toNat g row) →
      (∀ j, res j = if (w.extractLsb' 10 5).toNat = 6 then outInt32 w kd a (z.side w kd j) (signed 32 (old j))
        else (outFp32 w kd a (z.side w kd j) (decodeNum 0x10 (old j)), false)) →
      ∃ t, exec (.mmul c u) s = .next t ∧ Advanced s c.toNat u d t0 t ∧ Latched s c.toNat t ∧
        (∀ x, (∀ j, j < t0 → ¬(out j ≤ x ∧ x < out j + 4)) → t.byte x = s.byte x) ∧
        (∀ j, j < t0 → ∀ k, k < 4 → t.byte (out j + k) = BitVec.ofNat 8 ((res j).1 / 2 ^ (8 * k))) ∧
        (t.core c.toNat).ovf = ((s.core c.toNat).ovf || (List.range t0).any fun j => (res j).2))

/-- A region operand of a vector command that the engine may read or write now (R286). -/
def Sys2Proof.Claims.Lane (s : State) (c : Nat) (o : Operand) (n pa : Nat) : Prop :=
  OnChip s c o n pa ∧ (o.nest.space = .core c ∨ ∀ g, o.nest.space = .core g → (s.mach.view c g).runs (s.core c).job = true)

/-- R286, R291-R305: an element of an elementwise VQ command writes the instruction's result on the encodings of its sources, or leaves the
destination where there is none; `vclip` keeps its value within two bounds; `vscan` writes its running value; `vperm` permutes a chunk of 128 bytes through the
network; `vpset` loads its control word with its last byte; a census or a reduction takes its elements in order and, with the last one, fills its return-queue
entry with its result. -/
def Obligations.VectorElements : Prop :=
  ∀ (s : State) (c : CoreId) (u : Nat) (d : Cmd) (i : Instr) (vd va vb : BitVec 128) (x : Word) (n : Nat) (rq : Option Nat), s.Inv → Ready s c.toNat u d →
    s.dev.poison = [] → d.q = .vq → d.work = .vec i vd va vb x n rq →
    (∀ (vd' va' : VReg) (b : VOperand) (h : VHead) (o p : Operand) (rest : List Operand) (k pd pa : Nat) (q : Nat) (bits old : Nat),
      ((i = .vadd vd' va' b h ∨ i = .vsub vd' va' b h ∨ i = .vmul vd' va' b h ∨ i = .vfma vd' va' b h ∨ i = .vdiv vd' va' b h ∨ i = .vmin vd' va' b h ∨
        i = .vmax vd' va' b h ∨ i = .vand vd' va' b h ∨ i = .vor vd' va' b h ∨ i = .vxor vd' va' b h ∨ i = .vshl vd' va' b h ∨ i = .vshr vd' va' b h ∨
        i = .vsar vd' va' b h ∨ i = .vsel vd' va' b h) ∨ (∃ cc, i = .vcmp vd' va' b cc h)) →
      d.ops = o :: p :: rest → k = d.n → Lane s c.toNat o k pd → Lane s c.toNat p k pa →
      ((∃ xc, b = .scalar xc ∧ bits = 0) ∨ (∃ v r, b = .reg v ∧ rest = [r] ∧ Lane s c.toNat r k q ∧ bits = bitsAt s.mach q (r.nest.addr k) r.nest.esz)) →
      (old = if (match i with | .vfma .. => true | _ => false) then bitsAt s.mach pd (o.nest.addr k) o.nest.esz else 0) →
      ∃ t, exec (.engineElement c u) s = .next t ∧ Advanced s c.toNat u d 1 t ∧ Latched s c.toNat t ∧
        match vresult i (RegionReg.fmt vd) (RegionReg.fmt va) (RegionReg.fmt vb) x (match b with | .scalar _ => true | .reg _ => false) k
          (bitsAt s.mach pa (p.nest.addr k) p.nest.esz) bits old with
        | some v => OneWrite s s.mach pd (o.nest.addr k) o.nest.esz v t
        | none => SameBytes s t) ∧
    (∀ (w : VReg) (a : VReg) (h : VHead) (o p : Operand) (pd pa : Nat),
      (i = .vabs w a h ∨ i = .vneg w a h ∨ i = .vnot w a h ∨ i = .vcvt w a h ∨ i = .vmove w a h ∨ ∃ fn, i = .vsf w a fn h) →
      d.ops = [o, p] → Lane s c.toNat o d.n pd → Lane s c.toNat p d.n pa →
      ∃ t v, exec (.engineElement c u) s = .next t ∧ Advanced s c.toNat u d 1 t ∧ Latched s c.toNat t ∧
        vresult i (RegionReg.fmt vd) (RegionReg.fmt va) (RegionReg.fmt vb) x true d.n (bitsAt s.mach pa (p.nest.addr d.n) p.nest.esz) 0 0 = some v ∧
        OneWrite s s.mach pd (o.nest.addr d.n) o.nest.esz v t) ∧
    (∀ (w : VReg) (xc : Reg) (h : VHead) (o : Operand) (pd : Nat), (i = .vfill w xc h ∨ ∃ step, i = .viota w xc step h) → d.ops = [o] → Lane s c.toNat o d.n pd →
      ∃ t v, exec (.engineElement c u) s = .next t ∧ Advanced s c.toNat u d 1 t ∧ Latched s c.toNat t ∧
        vresult i (RegionReg.fmt vd) (RegionReg.fmt va) (RegionReg.fmt vb) x true d.n 0 0 0 = some v ∧ OneWrite s s.mach pd (o.nest.addr d.n) o.nest.esz v t) ∧
    (∀ (w a b : VReg) (xc : Reg) (grp : BitVec 2) (h : VHead) (o p r : Operand) (pd pa pb j : Nat), (i = .vquant w a b xc grp h ∨ i = .vdeq w a b xc grp h) →
      d.ops = [o, p, r] → j = (if grp = 0 then d.n else d.n / (16 * 2 ^ grp.toNat)) → Lane s c.toNat o d.n pd → Lane s c.toNat p d.n pa → Lane s c.toNat r j pb →
      ∃ t v, exec (.engineElement c u) s = .next t ∧ Advanced s c.toNat u d 1 t ∧ Latched s c.toNat t ∧
        vresult i (RegionReg.fmt vd) (RegionReg.fmt va) (RegionReg.fmt vb) x false d.n (bitsAt s.mach pa (p.nest.addr d.n) p.nest.esz)
          (bitsAt s.mach pb (r.nest.addr j) r.nest.esz) 0 = some v ∧ OneWrite s s.mach pd (o.nest.addr d.n) o.nest.esz v t) ∧
    (∀ (w a b : VReg) (h : VHead) (o p r : Operand) (pd pa lo hi : Nat), i = .vclip w a b h → d.ops = [o, p, r] → Lane s c.toNat o d.n pd → Lane s c.toNat p d.n pa →
      Lane s c.toNat r 0 lo → Lane s c.toNat r 1 hi →
      ∃ t, exec (.engineElement c u) s = .next t ∧ Advanced s c.toNat u d 1 t ∧ Latched s c.toNat t ∧
        OneWrite s s.mach pd (o.nest.addr d.n) o.nest.esz (convert (RegionReg.fmt vd) (vclipped (decodeNum (RegionReg.fmt va)
          (bitsAt s.mach pa (p.nest.addr d.n) p.nest.esz)) (decodeNum (RegionReg.fmt vb) (bitsAt s.mach lo (r.nest.addr 0) r.nest.esz))
          (decodeNum (RegionReg.fmt vb) (bitsAt s.mach hi (r.nest.addr 1) r.nest.esz)))) t) ∧
    (∀ (w a : VReg) (op : ScanOp) (h : VHead) (o p : Operand) (pd pa : Nat) (z : Word), i = .vscan w a op h → d.ops = [o, p] → Lane s c.toNat o d.n pd →
      Lane s c.toNat p d.n pa → z = scanNext op (RegionReg.fmt va) d.acc.head? (bitsAt s.mach pa (p.nest.addr d.n) p.nest.esz) →
      ∃ t, exec (.engineElement c u) s = .next t ∧ Became s c.toNat u { d with n := d.n + 1, acc := [z] } t ∧ Latched s c.toNat t ∧
        OneWrite s s.mach pd (o.nest.addr d.n) o.nest.esz
          (convert (RegionReg.fmt vd) (if fmtInt (RegionReg.fmt va) = true then Num.ofInt z.toInt else decodeNum 0x10 z.toNat)) t) ∧
    (∀ (a : VReg) (k : BitVec 3) (g : LGuard) (p : Operand) (pa : Nat) (acc : List Word), i = .vpset a k g → d.ops = [p] → Lane s c.toNat p d.n pa →
      acc = d.acc ++ [BitVec.ofNat 64 (bitsAt s.mach pa (p.nest.addr d.n) p.nest.esz)] → (∀ b ∈ acc, b.toNat < 256) →
      ∃ t, exec (.engineElement c u) s = .next t ∧ SameBytes s t ∧ Became s c.toNat u { d with n := d.n + 1, acc := acc } t ∧ Latched s c.toNat t ∧
        (d.n + 1 < d.total → (t.core c.toNat).pcw = (s.core c.toNat).pcw) ∧
        (d.n + 1 = d.total → (t.core c.toNat).pcw = (s.core c.toNat).pcw.set k.toNat
          (BitVec.ofNat 352 (payload (acc.map fun b => BitVec.ofNat 8 b.toNat) 0 acc.length)))) ∧
    (∀ (w a : VReg) (k : BitVec 3) (g : LGuard) (o p : Operand) (wd m : Nat) (pd pa : Nat → Nat) (out : List Nat), i = .vperm w a k g → d.ops = [o, p] →
      wd = 4 * fmtNibs (RegionReg.fmt va) → (wd = 8 ∨ wd = 16 ∨ wd = 32) → m = 1024 / wd → o.nest.esz = wd / 4 → p.nest.esz = wd / 4 →
      (∀ j, j < m → Lane s c.toNat o (d.n + j) (pd j) ∧ Lane s c.toNat p (d.n + j) (pa j)) →
      (∀ j l, j < l → l < m → pd j + wd / 8 ≤ pd l ∨ pd l + wd / 8 ≤ pd j) →
      out = unlanes wd (benes ((s.core c.toNat).pcw.getD k.toNat 0) (lanes wd ((List.range m).map fun j => s.num (pa j) (wd / 8)))) →
      ∃ t, exec (.engineElement c u) s = .next t ∧ Advanced s c.toNat u d m t ∧ Latched s c.toNat t ∧
        (∀ j, j < m → t.num (pd j) (wd / 8) = stored (RegionReg.fmt va) (out.getD j 0)) ∧
        ∀ x, (∀ j, j < m → ¬(pd j ≤ x ∧ x < pd j + wd / 8)) → t.byte x = s.byte x) ∧
    (∀ (a : VReg) (h : VHead) (p : Operand) (pa g : Nat) (b : Int × Int) (acc : List Word), i = .vzcnt a h → d.ops = [p] → Lane s c.toNat p d.n pa →
      p.nest.space = .core g → b = p.nest.elemBytes d.n →
      acc = d.acc ++ s.mach.censusWords d.acc (window g + b.1.toNat) (window g + b.2.toNat) →
      ∃ t, exec (.engineElement c u) s = .next t ∧ SameBytes s t ∧ Became s c.toNat u { d with n := d.n + 1, acc := acc } t ∧
        (∀ k, (t.ctx c.toNat k).latch = true) ∧
        ∀ k e, d.ctx = some k → rq = some e → (t.ctx c.toNat k).rq = (s.ctx c.toNat k).rq.map fun y =>
          if y.id = e ∧ d.n + 1 = d.total then { y with val := some (BitVec.ofNat 64 (acc.length * 2 ^ 32 + (acc.filter fun v => v.getLsbD 0).length)), poison := none }
          else y) ∧
    (∀ (a : VReg) (h : VHead) (p : Operand) (pa : Nat) (acc : List Word), (i = .vrsum a h ∨ i = .vrmax a h ∨ i = .vrmin a h) → d.ops = [p] →
      Lane s c.toNat p d.n pa → acc = d.acc ++ [BitVec.ofNat 64 (bitsAt s.mach pa (p.nest.addr d.n) p.nest.esz)] →
      ∃ t, exec (.engineElement c u) s = .next t ∧ SameBytes s t ∧ Became s c.toNat u { d with n := d.n + 1, acc := acc } t ∧
        (∀ k, (t.ctx c.toNat k).latch = true) ∧
        ∀ k e, d.ctx = some k → rq = some e → (t.ctx c.toNat k).rq = (s.ctx c.toNat k).rq.map fun y =>
          if y.id = e ∧ d.n + 1 = d.total then { y with val := some (reduceResult i (RegionReg.fmt va) acc), poison := none } else y)

/-- R226, R227, R164, R193: element k of `tload` goes, widened, to the word of position FIRST + k of its line, and that word, converted, to element k of the
region of `tstore`; the words of a line stand where R226 puts them. A line that wraps has its second run of words in operand 2. -/
def Obligations.LineElements : Prop :=
  (∀ (s : State) (c : CoreId) (u : Nat) (d : Cmd) (i : Instr) (v da db : BitVec 128) (x : Word) (n : Nat) (rq : Option Nat) (vb : VReg) (dir : LineDir)
    (line first : BitVec 8) (o p l r : Operand) (j k pl pr : Nat), s.Inv → Ready s c.toNat u d → s.dev.poison = [] → d.q = .vq →
    d.work = .vec i v da db x n rq → d.ops.take 2 = [o, p] → k = d.n →
    ((i = .tload vb dir line first ∧ (l, r, j) = (if k < o.nest.total then (o, p, k) else (d.ops.getD 2 o, p, k - o.nest.total)) ∧
        (o.nest.total ≤ k → 3 ≤ d.ops.length)) ∨
      (i = .tstore vb dir line first ∧ (l, r, j) = (if k < p.nest.total then (p, o, k) else (d.ops.getD 2 p, o, k - p.nest.total)) ∧
        (p.nest.total ≤ k → 3 ≤ d.ops.length))) →
    OnChip s c.toNat l j pl → Lane s c.toNat r k pr →
    ∃ t, exec (.engineElement c u) s = .next t ∧ Advanced s c.toNat u d 1 t ∧ Latched s c.toNat t ∧
      (i = .tload vb dir line first → OneWrite s s.mach pl (l.nest.addr j) l.nest.esz
        (widen (RegionReg.fmt v) (bitsAt s.mach pr (r.nest.addr k) r.nest.esz)) t) ∧
      (i = .tstore vb dir line first → OneWrite s s.mach pr (r.nest.addr k) r.nest.esz
        (convert (RegionReg.fmt v) (decodeNum (wideFmt (RegionReg.fmt v)) (bitsAt s.mach pl (l.nest.addr j) l.nest.esz))) t)) ∧
  (∀ (g n first count k p : Nat) (dir : LineDir) (dst : Bool) (word : Nat × Nat) (o q : Operand), n < 256 → first + count ≤ 256 → k < count → p = first + k →
    word = (match dir with | .row => (n, p) | .col => (p, n) | .dia => (p, (p + n) % 256) | .adi => (p, (256 + n - p) % 256)) →
    o = (lineParts g dir n first count dst).getD 0 q →
    (if k < o.nest.total then o.nest.addr k else ((lineParts g dir n first count dst).getD 1 q).nest.addr (k - o.nest.total)) =
      2 * (0x100000 + 4 * (256 * word.1 + word.2) : Nat))

/-- The `n` bytes from a physical address up. -/
def Sys2Proof.Claims.bytesAt (s : State) (pa n : Nat) : List Byte := (List.range n).map fun i => s.byte (pa + i)

/-- Region `v` of core `g` holds the summary `z`, which its extent takes (R308). -/
def Sys2Proof.Claims.SummaryAt (s : State) (g : Nat) (v : BitVec 128) (z : Summary) : Prop :=
  ∃ pa ext size, pa = window g + (v.extractLsb' 0 20).toNat ∧ ext = (v.extractLsb' 27 16).toNat * (fmtNibs (v.extractLsb' 67 5).toNat / 2) ∧ 64 ≤ ext ∧
    headerSize (bytesAt s pa 64) = some size ∧ size ≤ ext ∧ readSummary (bytesAt s pa size) = some z

/-- A command of VQ that draws its coins from the same value as `d`, which the same write of `COIN` has left to both (R310). -/
def Sys2Proof.Claims.SharesCoin (d e : Cmd) : Prop :=
  (match e.work with | .vec (.vskq ..) .. | .vec (.vskh ..) .. | .vec (.vskd ..) .. | .vec (.smerge ..) .. => true | _ => false) = true ∧
  e.acc ≠ [] ∧ e.acc.tail = d.acc.tail

/-- The command has written its summary over region `vd` of its own core, its compactions have drawn their coins from `COIN`, or from the value that a later
write of `COIN` has left to the command and to those that share it (R310), and it has done its element. -/
def Sys2Proof.Claims.WroteSummary (s : State) (c u : Nat) (d : Cmd) (vd : BitVec 128) (r : Word × Summary) (t : State) : Prop :=
  SameBytesBut (window c + (vd.extractLsb' 0 20).toNat) r.2.bytes.length s t ∧
  (∀ i, i < r.2.bytes.length → t.byte (window c + (vd.extractLsb' 0 20).toNat + i) = r.2.bytes.getD i 0) ∧ Latched s c t ∧
  (∃ m, t.cmd c u = some { d with n := d.n + 1, acc := if d.acc = [] then [] else r.1 :: d.acc.tail, smarks := m }) ∧
  (t.core c).coin = (if d.acc = [] then r.1 else (s.core c).coin) ∧ (d.acc = [] → ∀ v, v ≠ u → t.cmd c v = s.cmd c v) ∧
  (∀ e ∈ (s.core c).vq, e.uid ≠ u → d.acc ≠ [] → (SharesCoin d e → { e with acc := r.1 :: e.acc.tail } ∈ (t.core c).vq) ∧
    (¬SharesCoin d e → e ∈ (t.core c).vq)) ∧
  ∀ g, g ≠ c → t.core g = s.core g ∨ t.core g = (s.core g).latchAll

/-- R307-R314, R316, R318-R321: `vskq`, `vskh` and `vskd` absorb their next element, of a 6-bit format its six bits (log entry 87), into the summary of their
kind, which is read again at each element; what a valid summary is follows log entries 20 and 37; `smerge` merges the summary of va into that
of vd; a query keeps its answer for its retirement, and changes nothing else; `sinit` writes a fresh summary of the kind its operand names. A region of the core
that holds no valid summary, or one of another kind, is the engine fault `ILLEGAL` with the region's BASE. -/
def Obligations.CabinetElements : Prop :=
  ∀ (s : State) (c : CoreId) (u : Nat) (d : Cmd) (i : Instr) (vd va vb : BitVec 128) (x coin : Word) (n : Nat) (rq : Option Nat), s.Inv →
    Ready s c.toNat u d → s.dev.poison = [] → d.q = .vq → d ∈ (s.core c.toNat).vq →
    (∀ e ∈ (s.core c.toNat).lq ++ (s.core c.toNat).sq ++ (s.core c.toNat).mq, e.uid ≠ u) → d.work = .vec i vd va vb x n rq → vd.getLsbD 25 = false →
    coin = d.acc.headD (s.core c.toNat).coin →
    (∀ (w a : VReg) (h : VHead) (kind pa : Nat) (o p : Operand), (i = .vskq w a h ∧ kind = 1 ∨ i = .vskh w a h ∧ kind = 2 ∨ i = .vskd w a h ∧ kind = 3) →
      (∀ z bits, d.ops = [o, p] → Lane s c.toNat p d.n pa → SummaryAt s c.toNat vd z → z.kind = kind → z.vfmt = RegionReg.fmt va →
        bits = stored (RegionReg.fmt va) (bitsAt s.mach pa (p.nest.addr d.n) p.nest.esz) →
        ∃ t, exec (.engineElement c u) s = .next t ∧ WroteSummary s c.toNat u d vd (absorb (coin, z) bits (s.dev.substAt pa)) t) ∧
      (∀ k, CanFault s c.toNat d k → ((∀ z, ¬SummaryAt s c.toNat vd z) ∨ ∃ z, SummaryAt s c.toNat vd z ∧ (z.kind ≠ kind ∨ z.vfmt ≠ RegionReg.fmt va)) →
        ∃ t, exec (.engineElement c u) s = .next t ∧ FaultedAt s c.toNat u d k 0x01 (BitVec.ofNat 64 (vd.extractLsb' 0 20).toNat) t)) ∧
    (∀ (w a : VReg) (g : LGuard) (from_ : Nat) (z q : Summary), i = .smerge w a g →
      from_ = (if va.getLsbD 25 = true then c.toNat / 32 * 32 + (va.extractLsb' 20 5).toNat else c.toNat) → s.mach.reachable c.toNat from_ = true →
      (from_ = c.toNat ∨ (s.mach.view c.toNat from_).runs (s.core c.toNat).job = true) → SummaryAt s c.toNat vd z → SummaryAt s from_ va q →
      z.kind = q.kind → z.param = q.param → z.vfmt = q.vfmt →
      ∃ t, exec (.engineElement c u) s = .next t ∧ WroteSummary s c.toNat u d vd (merge coin z q) t) ∧
    (∀ (w a : VReg) (g : LGuard) (k : CtxId), i = .smerge w a g → CanFault s c.toNat d k → (∀ z, ¬SummaryAt s c.toNat vd z) →
      ∃ t, exec (.engineElement c u) s = .next t ∧ FaultedAt s c.toNat u d k 0x01 (BitVec.ofNat 64 (vd.extractLsb' 0 20).toNat) t) ∧
    (∀ (a : VReg) (xc : Reg) (g : LGuard) (kind : Nat) (z : Summary) (v : Word), va.getLsbD 25 = false → SummaryAt s c.toNat va z → z.kind = kind →
      ((i = .squeryQuant a xc g ∧ kind = 1 ∧ v = BitVec.ofNat 64 (z.quantile (decodeNum 0x10 (x.toNat % 2 ^ 32)))) ∨
        (i = .squeryRank a xc g ∧ kind = 1 ∧ v = BitVec.ofNat 64 (z.rank (decodeNum 0x10 (x.toNat % 2 ^ 32)))) ∨
        (i = .squeryCount a xc g ∧ kind = 2 ∧ v = z.count (x.toNat % 2 ^ 32)) ∨ (i = .squeryEntry a xc g ∧ kind = 2 ∧ v = z.entry x.toNat) ∨
        (i = .squeryEst a g ∧ kind = 3 ∧ v = BitVec.ofNat 64 z.estimate)) →
      ∃ t, exec (.engineElement c u) s = .next t ∧ SameBytes s t ∧ Latched s c.toNat t ∧ Became s c.toNat u { d with n := d.n + 1, acc := [v] } t ∧
        (t.core c.toNat).coin = (s.core c.toNat).coin) ∧
    (∀ (w : VReg) (xc : Reg) (g : LGuard) (f : Summary) (at_ : Nat), i = .sinit w xc g → d.acc = [] → x.toNat < 2 ^ 32 →
      f = Summary.fresh (x.toNat % 256) (x.toNat / 256 % 256) (x.toNat / 65536 % 256) (x.toNat / 2 ^ 24 % 256) →
      at_ = window c.toNat + (vd.extractLsb' 0 20).toNat →
      ∃ t, exec (.engineElement c u) s = .next t ∧ WroteSummary s c.toNat u d vd (coin, f) t ∧ t.num at_ 4 = x.toNat ∧ t.num (at_ + 8) 8 = 0 ∧
        t.num (at_ + 16) 4 = 0x7F800000 ∧ t.num (at_ + 20) 4 = 0xFF800000 ∧ t.num (at_ + 24) 8 = 0)

/-- A floating-point format with a sign, as the table of R188 has it: exponent and mantissa bits, bias, the magnitude of the largest finite value as an
encoding without its sign; `ieee`: the magnitudes above it are infinity and the NaNs (R192). -/
structure Sys2Proof.Claims.FpRow where
  code : Nat
  e : Nat
  m : Nat
  bias : Nat
  top : Nat
  ieee : Bool

/-- The rows of R188 and R192. -/
def Sys2Proof.Claims.fpRows : List FpRow :=
  [⟨0x09, 2, 1, 1, 0x7, false⟩, ⟨0x0A, 2, 3, 1, 0x1F, false⟩, ⟨0x0B, 3, 2, 3, 0x1F, false⟩, ⟨0x0C, 4, 3, 7, 0x7E, false⟩, ⟨0x0D, 5, 2, 15, 0x7B, true⟩,
   ⟨0x0E, 5, 10, 15, 0x7BFF, true⟩, ⟨0x0F, 8, 7, 127, 0x7F7F, true⟩, ⟨0x10, 8, 23, 127, 0x7F7FFFFF, true⟩]

/-- The row of FP32. -/
def Sys2Proof.Claims.fp32 : FpRow := ⟨0x10, 8, 23, 127, 0x7F7FFFFF, true⟩

/-- The value of the sign's bit. -/
def Sys2Proof.Claims.FpRow.half (r : FpRow) : Nat := 2 ^ (r.e + r.m)

/-- An encoding without its sign. -/
def Sys2Proof.Claims.FpRow.mag (r : FpRow) (b : Nat) : Nat := b % r.half

/-- An encoding's sign is set. -/
def Sys2Proof.Claims.FpRow.neg (r : FpRow) (b : Nat) : Bool := b / r.half % 2 == 1

/-- The exponent field that an encoding counts with: 1 for a zero and a subnormal. -/
def Sys2Proof.Claims.FpRow.up (r : FpRow) (b : Nat) : Nat := Max.max 1 (r.mag b / 2 ^ r.m)

/-- The significand with its hidden bit, as an integer. -/
def Sys2Proof.Claims.FpRow.sig (r : FpRow) (b : Nat) : Nat := if r.mag b / 2 ^ r.m = 0 then r.mag b else 2 ^ r.m + r.mag b % 2 ^ r.m

/-- The magnitude of a finite encoding's value in units of 2^-149, of which every finite value is a multiple. -/
def Sys2Proof.Claims.FpRow.units (r : FpRow) (b : Nat) : Nat := r.sig b * 2 ^ (149 + r.up b - r.bias - r.m)

/-- A finite encoding's value in those units. -/
def Sys2Proof.Claims.FpRow.val (r : FpRow) (b : Nat) : Int := (if r.neg b then -1 else 1) * (r.units b : Int)

/-- An encoding is an infinity. -/
def Sys2Proof.Claims.FpRow.infinite (r : FpRow) (b : Nat) : Bool := r.ieee && r.mag b == r.top + 1

/-- An encoding is a NaN. -/
def Sys2Proof.Claims.FpRow.nan (r : FpRow) (b : Nat) : Bool := decide (r.top < r.mag b) && !r.infinite b

/-- `b` is an encoding of a finite value. -/
def Sys2Proof.Claims.FpRow.Finite (r : FpRow) (b : Nat) : Prop := b < 2 * r.half ∧ r.mag b ≤ r.top

/-- A magnitude p / q is beyond the format's range after rounding: at the largest finite value or above for a saturating one, from half a last place above it
on for IEEE's (R193). -/
def Sys2Proof.Claims.FpRow.Over (r : FpRow) (sat : Bool) (p q : Nat) : Prop :=
  (sat = true ∧ r.units r.top * q ≤ p) ∨ (sat = false ∧ (3 * r.units r.top - r.units (r.top - 1)) * q ≤ 2 * p)

/-- How far a magnitude of the format is from p / q, times q. -/
def Sys2Proof.Claims.FpRow.gap (r : FpRow) (p q m : Nat) : Nat := (((r.units m * q : Nat) : Int) - p).natAbs

/-- `o` is the nonzero value P / Q, in units of 2^-149, rounded to the nearest value of the format, to the even one of two equally near; `sat`: a larger value
gives the largest finite one, else infinity (R193). -/
def Sys2Proof.Claims.FpRow.Rounds (r : FpRow) (sat : Bool) (P : Int) (Q o : Nat) : Prop :=
  ∃ m, o = m + (if P < 0 then r.half else 0) ∧
    ((r.Over sat P.natAbs Q ∧ m = r.top + (if sat then 0 else 1)) ∨
     (¬r.Over sat P.natAbs Q ∧ m ≤ r.top ∧
       ∀ n, n ≤ r.top → n ≠ m → r.gap P.natAbs Q m < r.gap P.natAbs Q n ∨ (r.gap P.natAbs Q m = r.gap P.natAbs Q n ∧ m % 2 = 0)))

/-- `o` is P / Q converted to the format: a zero with either sign where it is zero, and the format's own rule for values beyond its range (R193). -/
def Sys2Proof.Claims.FpRow.Gives (r : FpRow) (P : Int) (Q : Nat) (o : Option Nat) : Prop :=
  ∃ x, o = some x ∧ (P = 0 → r.mag x = 0) ∧ (P ≠ 0 → r.Rounds (!r.ieee) P Q x)

/-- `z` is P / Q rounded to the nearest integer, to the even one of two equally near. -/
def Sys2Proof.Claims.Nearest (P : Int) (Q : Nat) (z : Int) : Prop := (2 * (z * Q - P)).natAbs ≤ Q ∧ ((2 * (z * Q - P)).natAbs = Q → z % 2 = 0)

/-- Cell bits c of a matrix operand's format (R195). -/
def Sys2Proof.Claims.FpRow.cell (r : FpRow) : Nat := if r.code = 0x09 then 6 else if r.code ≤ 0x0B then 8 else if r.code ≤ 0x0D then 12 else 16

/-- The largest exponent field of a block (R194). -/
def Sys2Proof.Claims.FpRow.peak (r : FpRow) (xs : List Nat) : Nat := (xs.map r.up).foldl Max.max 1

/-- The integer of an element of a finite block (R194). -/
def Sys2Proof.Claims.FpRow.aligned (r : FpRow) (xs : List Nat) (b : Nat) : Int :=
  (if r.neg b then -1 else 1) * ((r.sig b * 2 ^ (r.cell - 2 + r.up b) / 2 ^ (r.m + r.peak xs) : Nat) : Int)

/-- The term of one block of 32 K positions, without scales, in units of 2^-400 (R194, R197, R200). -/
def Sys2Proof.Claims.blockTerm (p q : FpRow) (xs ys : List Nat) : Int :=
  ((xs.zip ys).map fun z => p.aligned xs z.1 * q.aligned ys z.2).sum *
    2 ^ (400 + p.peak xs + q.peak ys - p.bias - q.bias - (p.cell - 2) - (q.cell - 2))

/-- The sum of the terms of a K-step in its window, with the sticky half bit: the value that is rounded once (R201). -/
def Sys2Proof.Claims.windowSum (ts : List Int) : Int :=
  let w := (ts.map fun t => Nat.log2 t.natAbs).foldl Max.max 0 - 88
  let s := (ts.map fun t => t.tdiv (2 ^ w)).sum
  if ts.all fun t => t % 2 ^ w == 0 then s * 2 ^ w else (2 * s + s.sign) * 2 ^ (w - 1)

/-- R188-R194, R197, R200-R202, R204, R207, R291-R296, R302, R305: what lanes of an integer format hold after an operation on whole registers of that format: the exact result, saturated to
the format's range for the arithmetic ones, and every bit for the logical ones; the network of `vperm` with no switch set leaves its lanes as they are, and with one
set exchanges that switch's two; a sum of integers is
exact modulo 2^64. Of the floating-point formats, by the table of R188 and without the model's arithmetic: a conversion, a sum, a difference, a product, a
quotient and a fused multiply-add are the exact value rounded once; an integer destination takes the nearest integer, saturated; E8M0 takes the power of two
below; infinities and NaNs convert as R193 says. An output of an FP32 K-step without groups is the default NaN, the infinity or the rounded window sum of
R194, R201 and R202. An MX block has the scale and the elements of R204. -/
def Obligations.IntegerLanes : Prop :=
  (∀ (vd va vb : VReg) (h : VHead) (f : Nat) (x : Word) (k a b c w : Nat) (lo hi : Int), f ≤ 7 → w = (fmtBits f).getD 0 → a < 2 ^ w → b < 2 ^ w →
    (lo, hi) = (if f % 2 = 0 then (-(2 ^ (w - 1) : Int), (2 ^ (w - 1) : Int) - 1) else (0, (2 ^ w : Int) - 1)) →
    ∀ (val : Nat → Int) (enc : Int → Nat), (∀ n, val n = if f % 2 = 0 then signed w n else (n : Int)) →
      (∀ z : Int, enc z = (Max.max lo (Min.min hi z) % 2 ^ w).toNat) →
      vresult (.vadd vd va (.reg vb) h) f f f x false k a b c = some (enc (val a + val b)) ∧
      vresult (.vsub vd va (.reg vb) h) f f f x false k a b c = some (enc (val a - val b)) ∧
      vresult (.vmul vd va (.reg vb) h) f f f x false k a b c = some (enc (val a * val b)) ∧
      vresult (.vmin vd va (.reg vb) h) f f f x false k a b c = some (enc (Min.min (val a) (val b))) ∧
      vresult (.vmax vd va (.reg vb) h) f f f x false k a b c = some (enc (Max.max (val a) (val b))) ∧
      vresult (.vabs vd va h) f f f x false k a b c = some (enc |val a|) ∧
      vresult (.vneg vd va h) f f f x false k a b c = some (enc (-(val a))) ∧
      vresult (.vand vd va (.reg vb) h) f f f x false k a b c = some (a &&& b) ∧
      vresult (.vor vd va (.reg vb) h) f f f x false k a b c = some (a ||| b) ∧
      vresult (.vxor vd va (.reg vb) h) f f f x false k a b c = some (a ^^^ b) ∧
      vresult (.vnot vd va h) f f f x false k a b c = some (2 ^ w - 1 - a) ∧
      vresult (.vmove vd va h) f f f x false k a b c = some a) ∧
  (∀ l : List Nat, benes 0 l = l) ∧
  (∀ (st j b a z : Nat) (l : List Nat), st < 11 → j < 32 → l.length = 64 → b = (if st ≤ 5 then 5 - st else st - 5) → a = j / 2 ^ b * 2 ^ (b + 1) + j % 2 ^ b →
    z = a + 2 ^ b → benes (BitVec.ofNat 352 (2 ^ (32 * st + j))) l = (l.set a (l.getD z 0)).set z (l.getD a 0)) ∧
  (∀ (va : VReg) (h : VHead) (f : Nat) (acc : List Word), f ≤ 7 →
    reduceResult (.vrsum va h) f acc = BitVec.ofInt 64 ((acc.map fun v => if f % 2 = 0 then signed ((fmtBits f).getD 0) (v.toNat % 2 ^ (fmtBits f).getD 0)
      else ((v.toNat % 2 ^ (fmtBits f).getD 0 : Nat) : Int)).sum)) ∧
  (∀ (p q r : FpRow) (vd va vb : VReg) (h : VHead) (x : Word) (k a b c f : Nat), p ∈ fpRows → q ∈ fpRows → r ∈ fpRows → p.Finite a → q.Finite b → r.Finite c →
    r.Gives (p.val a) 1 (vresult (.vcvt vd va h) r.code p.code f x false k a b c) ∧
    (p.val a = 0 → vresult (.vcvt vd va h) r.code p.code f x false k a b c = some (if p.neg a then r.half else 0)) ∧
    r.Gives (p.val a + q.val b) 1 (vresult (.vadd vd va (.reg vb) h) r.code p.code q.code x false k a b c) ∧
    r.Gives (p.val a - q.val b) 1 (vresult (.vsub vd va (.reg vb) h) r.code p.code q.code x false k a b c) ∧
    r.Gives (p.val a * q.val b) (2 ^ 149) (vresult (.vmul vd va (.reg vb) h) r.code p.code q.code x false k a b c) ∧
    r.Gives (p.val a * q.val b + r.val c * 2 ^ 149) (2 ^ 149) (vresult (.vfma vd va (.reg vb) h) r.code p.code q.code x false k a b c) ∧
    (q.val b ≠ 0 → r.Gives (p.val a * (q.val b).sign * 2 ^ 149) (q.val b).natAbs (vresult (.vdiv vd va (.reg vb) h) r.code p.code q.code x false k a b c)) ∧
    (∃ o, vresult (.vcvt vd va h) 0x11 p.code f x false k a b c = some o ∧ (p.val a ≤ 0 → o = 0xFF) ∧
      (0 < p.val a → o ≤ 0xFE ∧ p.val a < 2 ^ (o + 23) ∧ (o = 0 ∨ 2 ^ (o + 22) ≤ p.val a)))) ∧
  (∀ (p r : FpRow) (vd va : VReg) (h : VHead) (x : Word) (k a b c f : Nat), p ∈ fpRows → r ∈ fpRows → a < 2 * p.half →
    (p.infinite a = true → vresult (.vcvt vd va h) r.code p.code f x false k a b c =
      some (r.top + (if r.ieee then 1 else 0) + if p.neg a then r.half else 0)) ∧
    (p.nan a = true → vresult (.vcvt vd va h) r.code p.code f x false k a b c =
      some (if r.ieee then r.top + 1 + 2 ^ (r.m - 1) else if r.code = 0x0C then 0x7F else 0)) ∧
    (p.infinite a = true ∨ p.nan a = true → vresult (.vcvt vd va h) 0x11 p.code f x false k a b c = some 0xFF)) ∧
  (∀ (p : FpRow) (vd va : VReg) (h : VHead) (x : Word) (k a b c f g w : Nat) (lo hi : Int), p ∈ fpRows → a < 2 * p.half → g ≤ 7 → w = (fmtBits g).getD 0 →
    (lo, hi) = (if g % 2 = 0 then (-(2 ^ (w - 1) : Int), (2 ^ (w - 1) : Int) - 1) else (0, (2 ^ w : Int) - 1)) →
    (p.mag a ≤ p.top → ∃ z, Nearest (p.val a) (2 ^ 149) z ∧
      vresult (.vcvt vd va h) g p.code f x false k a b c = some (Max.max lo (Min.min hi z) % 2 ^ w).toNat) ∧
    (p.infinite a = true → vresult (.vcvt vd va h) g p.code f x false k a b c = some ((if p.neg a then lo else hi) % 2 ^ w).toNat) ∧
    (p.nan a = true → vresult (.vcvt vd va h) g p.code f x false k a b c = some 0) ∧
    (∀ n, n < 2 ^ w → p.Gives ((if g % 2 = 0 then signed w n else (n : Int)) * 2 ^ 149) 1 (vresult (.vcvt vd va h) p.code g f x false k n b c)) ∧
    ∀ n, n < 255 → p.Gives (2 ^ (n + 22)) 1 (vresult (.vcvt vd va h) p.code 0x11 f x false k n b c)) ∧
  (∀ (p q : FpRow) (w : Word) (n acc o : Nat) (xs ys : List Nat) (ts : List Int), p ∈ fpRows → q ∈ fpRows → p.code ≠ 0x10 → q.code ≠ 0x10 →
    (w.extractLsb' 0 5).toNat = p.code → (w.extractLsb' 5 5).toNat = q.code → w.extractLsb' 15 2 = 0 → n ≤ 12 → xs.length = 32 * n → ys.length = 32 * n →
    (∀ x ∈ xs, x < 2 * p.half) → (∀ y ∈ ys, y < 2 * q.half) → acc < 2 ^ 32 →
    o = outFp32 w (32 * n) (rowSide w (32 * n) xs [] []) ((buildSeat w false (32 * n) [ys] [] false []).side w (32 * n) 0) (decodeNum 0x10 acc) →
    ∀ (bad : Prop) (inf : Bool → Prop),
      (bad ↔ (∃ x ∈ xs, p.nan x = true) ∨ (∃ y ∈ ys, q.nan y = true) ∨ fp32.nan acc = true ∨
        ∃ z ∈ xs.zip ys, (p.infinite z.1 = true ∧ q.mag z.2 = 0) ∨ (q.infinite z.2 = true ∧ p.mag z.1 = 0)) →
      (∀ sg, inf sg ↔ (fp32.infinite acc = true ∧ fp32.neg acc = sg) ∨
        ∃ z ∈ xs.zip ys, (p.infinite z.1 = true ∨ q.infinite z.2 = true) ∧ (p.neg z.1 != q.neg z.2) = sg) →
      (bad ∨ (inf true ∧ inf false) → o = 0x7FC00000) ∧
      (¬bad → inf true → ¬inf false → o = 0xFF800000) ∧ (¬bad → inf false → ¬inf true → o = 0x7F800000) ∧
      (¬bad → ¬inf true → ¬inf false →
        ts = fp32.val acc * 2 ^ 251 :: (List.range n).map (fun k => blockTerm p q ((xs.drop (32 * k)).take 32) ((ys.drop (32 * k)).take 32)) →
        (windowSum ts = 0 → o = 0) ∧ (windowSum ts ≠ 0 → fp32.Rounds false (windowSum ts) (2 ^ 251) o))) ∧
  (∀ (f emax sc : Nat) (bs : List Nat), ((f = 0x0C ∧ emax = 8) ∨ (f = 0x0D ∧ emax = 15) ∨ (f = 0x0A ∧ emax = 2) ∨ (f = 0x0B ∧ emax = 4) ∨ (f = 0x09 ∧ emax = 2) ∨
      (f = 0x02 ∧ emax = 0)) → (∀ b ∈ bs, b < 2 ^ 32) →
    ((∃ b ∈ bs, fp32.top < fp32.mag b) → mxBlock f (bs.map (decodeNum 0x10)) = (0xFF, bs.map fun _ => 0)) ∧
    ((∀ b ∈ bs, fp32.mag b ≤ fp32.top) → sc = Min.min 254 (Nat.log2 ((bs.map fp32.units).foldl Max.max 0) - (22 + emax)) →
      ∃ es, mxBlock f (bs.map (decodeNum 0x10)) = (sc, es) ∧ es.length = bs.length ∧
        ∀ i, i < bs.length → (f = 0x02 → ∃ z, Nearest (fp32.val (bs.getD i 0) * 2 ^ 133) (2 ^ (149 + sc)) z ∧
            es.getD i 0 = (Max.max (-128) (Min.min 127 z) % 256).toNat) ∧
          ∀ r ∈ fpRows, r.code = f → (fp32.val (bs.getD i 0) = 0 → es.getD i 0 = if fp32.neg (bs.getD i 0) then r.half else 0) ∧
            (fp32.val (bs.getD i 0) ≠ 0 → r.Rounds true (fp32.val (bs.getD i 0) * 2 ^ 127) (2 ^ sc) (es.getD i 0))))

/-! ## Sending commands -/

/-- One message has left a command for its receiver, and joins those on their way (R398). -/
def Sys2Proof.Claims.Sent (s t : State) (c u dst n size : Nat) (kind : MsgKind) : Prop :=
  t.dev.net = s.dev.net ++ [{ id := s.dev.uid, job := (s.core c).job.getD 0, src := c, cmd := u, dst := dst, kind := kind, n := n, size := size, refused := false, arrived := none }]

/-- R326, R327, R372-R374, R378-R382, R385, R390-R392, R402: an element of `cput`, `tsend` or a `cred` of class FAST is read and sent to its peer, or to its
receiver; a `cred` of class EXACT sends a block's exponent byte ahead, and a value as the wire integer under the exponent that was returned; `smrg` reads its
summary with its first transfer, and sends it to the next peer with each; `amsg` sends its one message. Each message but an exponent byte counts as injected, and those of a `tsend` were counted before.
`rxpost` posts its window with its counters at zero and unclaimed, and zeroes the slots of a staging area. A refused transfer is sent again before the next
element, and counts again. -/
def Obligations.SendingCommands : Prop :=
  (∀ (s : State) (c : CoreId) (u : Nat) (d : Cmd) (r : Record) (it : List Nat), s.Inv → Ready s c.toNat u d → s.dev.poison = [] → d.work = .record r →
    it = d.iteration d.n →
    (∀ (p : Operand) (m1 : Mach) (ps v : Nat), d.ops = [p] →
      Reaches s.mach c.toNat d 0 p.nest.space (p.nest.addr d.n) p.nest.esz false m1 ps → v = bitsAt m1 ps (p.nest.addr d.n) p.nest.esz →
      (d.isOpc 0x30 = true → ∃ t, exec (.cput c u) s = .next t ∧ (∀ x, t.byte x = (s.mem.apply m1.log).read x) ∧ Advanced s c.toNat u d 1 t ∧
        Sent s t c.toNat u (d.peer it) (2 * d.n) (fmtNibs (d.mod / 8) / 2)
          (.elem 0 (d.aux 48 8) (d.destAt (fmtNibs (d.mod / 8) / 2) it) (d.mod / 8) (BitVec.ofNat 64 v) false) ∧
        (t.core c.toNat).inj = (s.core c.toNat).inj + 1) ∧
      (d.isOpc 0x33 = true → ∃ t, exec (.tsend c u) s = .next t ∧ (∀ x, t.byte x = (s.mem.apply m1.log).read x) ∧ Advanced s c.toNat u d 1 t ∧
        Sent s t c.toNat u (d.members.headD 0) (2 * d.n) (fmtNibs (d.aux 11 5) / 2)
          (.elem 0 (d.aux 48 8) (d.destAt (fmtNibs (d.aux 11 5) / 2) it) (d.aux 11 5) (BitVec.ofNat 64 v) false) ∧
        (t.core c.toNat).inj = (s.core c.toNat).inj) ∧
      (d.isOpc 0x31 = true → d.mod % 8 ≠ 0 → ∃ t, exec (.credFast c u) s = .next t ∧ (∀ x, t.byte x = (s.mem.apply m1.log).read x) ∧
        Advanced s c.toNat u d 1 t ∧
        Sent s t c.toNat u (d.peer it) (2 * d.n) 2
          (.elem 2 (d.aux 48 8) (d.destAt 4 it) 0x0F (BitVec.ofNat 64 (convert 0x0F (decodeNum (d.mod / 8) v))) false) ∧
        (t.core c.toNat).inj = (s.core c.toNat).inj + 1) ∧
      (∀ e : Int, d.isOpc 0x31 = true → d.mod % 8 = 0 → d.total ≤ 32 * d.pre → (d.exps.find? fun q => q.1 == d.n / 32) = some (d.n / 32, e) →
        ∃ t, exec (.credExact c u) s = .next t ∧ (∀ x, t.byte x = (s.mem.apply m1.log).read x) ∧
          t.cmd c.toNat u = some { d with n := d.n + 1, since := none, paused := none } ∧
          Sent s t c.toNat u (d.peer it) (2 * d.n) 4
            (.elem 1 (d.aux 48 8) (d.destAt 4 it) 0x10 (wireWord (decodeNum 0x10 (convert 0x10 (decodeNum (d.mod / 8) v))) e) false) ∧
          (t.core c.toNat).inj = (s.core c.toNat).inj + 1)) ∧
    (∀ (p : Operand) (src val : Nat → Nat) (whole : Bool), d.ops = [p] → d.isOpc 0x31 = true → d.mod % 8 = 0 → 32 * d.pre < d.total →
      (whole = true ↔ ∀ i, i < 32 → d.peer (d.iteration (32 * d.pre + i)) = d.peer (d.iteration (32 * d.pre)) ∧
        d.destAt 4 (d.iteration (32 * d.pre + i)) = d.destAt 4 (d.iteration (32 * d.pre)) + 4 * i) →
      (∀ i, i < 32 → OnChip s c.toNat p (32 * d.pre + i) (src i) ∧ val i = bitsAt s.mach (src i) (p.nest.addr (32 * d.pre + i)) p.nest.esz) →
      ∃ t, exec (.credExact c u) s = .next t ∧ SameBytes s t ∧ t.cmd c.toNat u = some { d with pre := d.pre + 1 } ∧
        Sent s t c.toNat u (d.peer (d.iteration (32 * d.pre))) (64 * d.pre + 1) 1
          (.expByte (d.aux 48 8) (d.destAt 4 (d.iteration (32 * d.pre)))
            (exponentByte ((List.range 32).map fun i => convert 0x10 (decodeNum (d.mod / 8) (val i)))) d.pre whole) ∧
        (t.core c.toNat).inj = (s.core c.toNat).inj) ∧
    (d.isOpc 0x34 = true → ∃ t, exec (.amsg c u) s = .next t ∧ SameBytes s t ∧ Advanced s c.toNat u d 1 t ∧
      Sent s t c.toNat u (d.members.headD 0) 0 0 (.amsg ⟨d.aux 59 5, d.destBase, r.sbase.toNat % 2 ^ 60⟩) ∧
      (t.core c.toNat).inj = (s.core c.toNat).inj + 1) ∧
    (∀ data : List Byte, d.isOpc 0x35 = true → d.acc ≠ [] → data = d.acc.flatMap (fun w => leBytes 8 w.toNat) →
      ∃ t, exec (.smrg c u) s = .next t ∧ SameBytes s t ∧ Advanced s c.toNat u d 1 t ∧
        Sent s t c.toNat u (d.peer it) (2 * d.n) ((headerSize data).getD 64) (.merge (d.aux 48 8) d.destBase (data.take ((headerSize data).getD 64))) ∧
        (t.core c.toNat).inj = (s.core c.toNat).inj + 1) ∧
    (∀ (v : BitVec 128) (z : Summary) (data : List Byte) (k : Nat), d.isOpc 0x35 = true → d.acc = [] → v = d.regions.headD 0 → v.getLsbD 25 = false →
      SummaryAt s c.toNat v z → data = z.bytes ++ List.replicate k 0 → k < 8 → data.length % 8 = 0 →
      ∃ t y, exec (.smrg c u) s = .next t ∧ SameBytes s t ∧ t.cmd c.toNat u = some { d with n := d.n + 1, acc := y } ∧
        y.flatMap (fun w => leBytes 8 w.toNat) = data ∧
        Sent s t c.toNat u (d.peer it) (2 * d.n) ((headerSize data).getD 64) (.merge (d.aux 48 8) d.destBase (data.take ((headerSize data).getD 64)))) ∧
    (∀ (w : Window), d.isOpc 0x32 = true → (∀ j, s.jobOf c.toNat = some j → j.parked = []) → w.base = d.destBase → w.tile = d.aux 44 20 →
      w.tiles = d.aux 35 9 → w.expect = d.aux 24 11 → w.ac = d.aux 16 8 → w.fmt = d.aux 11 5 → w.op = d.aux 8 3 → w.staging = r.sbase.toNat % 2 ^ 60 →
      w.err = false → w.finishing = [] → w.counts = List.replicate w.tiles 0 → w.pre = [] → w.exps = [] → w.cover = [] → w.moved = [] →
      ∃ t n, exec (.rxpost c u) s = .next t ∧ t.cmd c.toNat u = some { d with n := 1 } ∧ n = 8 * (w.tile / Max.max 1 (fmtNibs w.fmt / 2)) * w.tiles ∧
        (w.op ≤ 5 → SameBytes s t) ∧
        (6 ≤ w.op → SameBytesBut (window c.toNat + w.staging) n s t ∧ ∀ k, k < n → t.byte (window c.toNat + w.staging + k) = 0) ∧
        (t.core c.toNat).windows = (s.core c.toNat).windows ++ [w] ∧
        (∀ k, w.ac ≤ k → k < w.ac + w.tiles → natAt (t.core c.toNat).acs k = 0 ∧ k ∉ (t.core c.toNat).claims) ∧
        ∀ k, ¬(w.ac ≤ k ∧ k < w.ac + w.tiles) → natAt (t.core c.toNat).acs k = natAt (s.core c.toNat).acs k)) ∧
  (∀ (s : State) (c : CoreId) (u : Nat) (d : Cmd) (k : Nat) (l : List Nat) (p : Operand) (m1 : Mach) (ps v : Nat), s.Inv → Working s c.toNat u d →
    s.dev.poison = [] → d.again = 2 * k :: l → d.isOpc 0x30 = true → d.ops = [p] →
    Reaches s.mach c.toNat d 0 p.nest.space (p.nest.addr k) p.nest.esz false m1 ps → v = bitsAt m1 ps (p.nest.addr k) p.nest.esz →
    ∃ t, exec (.cput c u) s = .next t ∧ t.cmd c.toNat u = some { d with again := l } ∧
      Sent s t c.toNat u (d.peer (d.iteration k)) (2 * k) (fmtNibs (d.mod / 8) / 2)
        (.elem 0 (d.aux 48 8) (d.destAt (fmtNibs (d.mod / 8) / 2) (d.iteration k)) (d.mod / 8) (BitVec.ofNat 64 v) false) ∧
      (t.core c.toNat).inj = (s.core c.toNat).inj + 1)

/-! ## From issue to retirement -/

/-- The row of the table that a command's record stands for, with the queue that takes it (R94). -/
def Sys2Proof.Claims.RowOf (c : CoreId) (u : Nat) (d : Cmd) (i : Instr) : Prop :=
  (d.q ≠ .kq ∧
    ((i = .copy c u ∧ d.isOpc 0x10 = true) ∨ (i = .copyt c u ∧ d.isOpc 0x11 = true) ∨ (i = .gather c u ∧ d.isOpc 0x12 = true) ∨
     (i = .gatherff c u ∧ d.isOpc 0x13 = true) ∨ (i = .scatter c u ∧ d.isOpc 0x14 = true) ∨ (d.isOpc 0x15 = true ∧ ScatteraRow c u (d.mod % 8) i) ∨
     (i = .fill c u ∧ d.isOpc 0x16 = true) ∨ (i = .mcast c u ∧ d.isOpc 0x17 = true) ∨ (i = .seat c u ∧ d.isOpc 0x20 = true) ∨
     (i = .seats c u ∧ d.isOpc 0x21 = true) ∨ (i = .mmul c u ∧ d.isOpc 0x22 = true) ∨ (i = .drain c u ∧ d.isOpc 0x23 = true) ∨
     (i = .tzero c u ∧ d.isOpc 0x24 = true ∧ d.mod / 4 % 2 = 0) ∨ (i = .tzeroStat c u ∧ d.isOpc 0x24 = true ∧ d.mod / 4 % 2 = 1) ∨
     (i = .tcopy c u ∧ d.isOpc 0x25 = true))) ∨
  (d.q = .kq ∧
    ((i = .cput c u ∧ d.isOpc 0x30 = true) ∨ (i = .credExact c u ∧ d.isOpc 0x31 = true ∧ d.mod % 8 = 0) ∨
     (i = .credFast c u ∧ d.isOpc 0x31 = true ∧ d.mod % 8 ≠ 0) ∨ (i = .rxpost c u ∧ d.isOpc 0x32 = true) ∨ (i = .tsend c u ∧ d.isOpc 0x33 = true) ∨
     (i = .amsg c u ∧ d.isOpc 0x34 = true) ∨ (i = .smrg c u ∧ d.isOpc 0x35 = true)))

/-- An armed `tsend` that is due: its counter has come to its threshold (R391). -/
def Sys2Proof.Claims.Due (k : Core) (d : Cmd) : Prop :=
  d.isOpc 0x33 = true ∧ d.null = false ∧ d.issued = true ∧ d.fired = false ∧ d.stopped = false ∧ d.aux 16 32 ≤ natAt k.acs (d.aux 56 8)

/-- R149-R152, R45, R58, R61, R62, R154, R173, R186, R214, R391, R56, R57: a command that may issue pops its tokens, binds its publish slot and is in progress; the next
element of any record command is its row's; a command that may retire leaves its queue, completes its slot and pushes its tokens, a `gatherff` lowers its
context's PLEN to where it ended, and a `seat` or `seats` leaves its seat FULL; a token that a squash left held enters its FIFO when there is room; of the armed
`tsend`s that have come to their thresholds the first in SEQ order fires; a page walk fills the translation buffer, unless that holds an entry; the oldest command of a cycle of waits that has stood for
256 cycles faults with its SEQ, or waits to where its queue has a faulted command. -/
def Obligations.CommandLife : Prop :=
  (∀ (s : State) (c : CoreId) (u : Nat) (d : Cmd) (i : Instr), s.cmd c.toNat u = some d → s.mach.mayIssue c.toNat d = true →
    (s.core c.toNat).waitsFinish d = false → (i = .commandIssue c u ∨ (i = .refetch c u ∧ d.refetch = true)) →
    ∃ t, exec i s = .next t ∧ SameBytes s t ∧
      t.cmd c.toNat u = some { d with issued := true, since := none, acc := if d.isOpc 0x32 = true ∧ d.null = false then [] else d.acc } ∧
      (∀ v, v ≠ u → t.cmd c.toNat v = s.cmd c.toNat v) ∧
      (∀ p q, (t.core c.toNat).tok p q = (s.core c.toNat).tok p q - (if q = queueNum d.q ∧ d.refetch = false then d.pops.count p else 0)) ∧
      (∀ k, d.pub = some k → (∃ z, (t.core c.toNat).slot k = some z ∧ z.seq = d.seq ∧ z.complete = false) ∧ ∀ x, (t.ctx c.toNat x).latch = true) ∧
      (d.opc ≠ 0x32 → (t.core c.toNat).windows = (s.core c.toNat).windows)) ∧
  (∀ (s : State) (c : CoreId) (u : Nat) (d : Cmd) (i : Instr), s.cmd c.toNat u = some d → (i = .commandIssue c u ∨ (i = .refetch c u ∧ d.refetch = true)) →
    (s.mach.mayIssue c.toNat d = false → d.issued = false → exec i s = .next s) ∧
    (s.mach.mayIssue c.toNat d = true → (s.core c.toNat).waitsFinish d = true →
      ∃ t z, exec i s = .next t ∧ OnlyCore c.toNat s t ∧ (t.core c.toNat).windows = (s.core c.toNat).windows ∧
        t.cmd c.toNat u = some (if d.since.isSome then d else { d with since := some s.dev.now, acc := z }) ∧ (∀ v, v ≠ u → t.cmd c.toNat v = s.cmd c.toNat v) ∧
        (∀ k, t.ctx c.toNat k = s.ctx c.toNat k) ∧ ∀ p q, (t.core c.toNat).tok p q = (s.core c.toNat).tok p q)) ∧
  (∀ (s : State) (c : CoreId) (u : Nat) (d : Cmd) (i : Instr), s.cmd c.toNat u = some d → RowOf c u d i → exec (.engineElement c u) s = exec i s) ∧
  (∀ (s : State) (c : CoreId) (u : Nat) (d : Cmd), s.cmd c.toNat u = some d → s.mach.mayRetire c.toNat d = true → d.gang = none →
    ∃ t, exec (.commandRetire c u) s = .next t ∧ SameBytes s t ∧ t.cmd c.toNat u = none ∧ (∀ v, v ≠ u → t.cmd c.toNat v = s.cmd c.toNat v) ∧
      (∀ p q, (t.core c.toNat).tok p q = (s.core c.toNat).tok p q + (if p = queueNum d.q ∧ q ∈ d.push ∧ d.refetch = false then 1 else 0)) ∧
      (∀ k z, (s.core c.toNat).slot k = some z → z.uid = u → z.complete = false →
        ∃ y, (t.core c.toNat).slot k = some y ∧ y.complete = true ∧ y.f = d.total ∧ y.seq = z.seq) ∧
      ∀ k, (t.ctx c.toNat k).latch = true) ∧
  (∀ (s : State) (c : CoreId) (u : Nat) (d : Cmd), s.cmd c.toNat u = some d → s.mach.mayRetire c.toNat d = true → d.gang = none → d.null = false →
    ∃ t, exec (.commandRetire c u) s = .next t ∧
      (∀ k, d.isOpc 0x13 = true → d.ctx = some k → (t.ctx c.toNat k).plen.toNat = Min.min (s.ctx c.toNat k).plen.toNat (d.stopAt.getD d.total)) ∧
      ∀ n, (d.isOpc 0x20 = true ∨ d.isOpc 0x21 = true) → n < 2 →
        (t.core c.toNat).seatOf n = if n = d.mod % 2 then { (s.core c.toNat).seatOf n with full := true } else (s.core c.toNat).seatOf n) ∧
  (∀ (s : State) (c : CoreId) (p q : BitVec 3) (ph : Option Nat), (s.core c.toNat).heldTokens.find? (fun h => h.1 == p.toNat && h.2.1 == q.toNat) =
    some (p.toNat, q.toNat, ph) → (s.core c.toNat).tok p.toNat q.toNat < 15 →
    ∃ t, exec (.heldTokenPush c p q) s = .next t ∧ OnlyCore c.toNat s t ∧
      (t.core c.toNat).heldTokens = (s.core c.toNat).heldTokens.erase (p.toNat, q.toNat, ph) ∧
      (∀ x y, (t.core c.toNat).tok x y = (s.core c.toNat).tok x y + (if x = p.toNat ∧ y = q.toNat then 1 else 0)) ∧
      ((∃ r ∈ (s.core c.toNat).phases, r.ckpt.isSome = true) → (t.core c.toNat).tokLog = (s.core c.toNat).tokLog ++
        [⟨ph, p.toNat, q.toNat, true, (s.core c.toNat).visible (.token p.toNat q.toNat ((s.core c.toNat).tok p.toNat q.toNat).toNat)⟩])) ∧
  (∀ (s : State) (c : CoreId) (u : Nat) (d : Cmd) (l r : List Cmd), (s.core c.toNat).kq = l ++ d :: r → s.cmd c.toNat u = some d →
    ((∀ e ∈ l, ¬Due (s.core c.toNat) e) → Due (s.core c.toNat) d →
      ∃ t, exec (.tsendFire c u) s = .next t ∧ OnlyCore c.toNat s t ∧ t.cmd c.toNat u = some { d with fired := true } ∧
        (∀ v, v ≠ u → t.cmd c.toNat v = s.cmd c.toNat v) ∧ ∀ k, t.ctx c.toNat k = s.ctx c.toNat k) ∧
    ((∃ e ∈ l, Due (s.core c.toNat) e ∧ e.uid ≠ u) → (∀ e ∈ l, e.uid ≠ u) → exec (.tsendFire c u) s = .next s)) ∧
  (∀ (s : State) (c : CoreId) (va : Word) (write : Bool) (e : TlbEntry), e ∈ (s.core c.toNat).tlb → e.maps (s.core c.toNat) (va.toNat % 2 ^ 57) = true →
    e.usable = true → ∃ t, exec (.pageWalk c va write) s = .next t ∧ SameBytes s t ∧ ∀ g, t.core g = s.core g) ∧
  (∀ (s : State) (c : CoreId) (va : Word) (write : Bool) (m : Mach),
    (∀ e ∈ (s.core c.toNat).tlb, e.maps (s.core c.toNat) (va.toNat % 2 ^ 57) = true → e.usable = false) →
    (∀ e, s.mach.walk c.toNat (va.toNat % 2 ^ 57) write = (m, .ok e) →
      ∃ t, exec (.pageWalk c va write) s = .next t ∧ (∀ x, t.byte x = (s.mem.apply m.log).read x) ∧ SameCores c.toNat s t ∧
        (∀ k, t.ctx c.toNat k = s.ctx c.toNat k) ∧
        ∃ f ∈ (t.core c.toNat).tlb, f.usable = true ∧ f.asid = e.asid ∧ f.va = e.va ∧ f.size = e.size ∧ f.pa = e.pa ∧ f.leaf = e.leaf) ∧
    (∀ x, s.mach.walk c.toNat (va.toNat % 2 ^ 57) write = (m, .error x) →
      ∃ t, exec (.pageWalk c va write) s = .next t ∧ SameBytes s t ∧ ∀ g, t.core g = s.core g)) ∧
  (∀ (s : State) (c : CoreId) (arcs : List (Nat × Nat × Nat)), arcs = s.mach.agedArcs c.toNat →
    ((s.mach.onCore c.toNat fun k => { k with arcs := arcs }).chaseVictims c.toNat = [] →
      ∃ t, exec (.chaseCycle c) s = .next t ∧ OnlyCore c.toNat s t ∧ t.core c.toNat = { s.core c.toNat with arcs := arcs }) ∧
    (∀ d k, (s.mach.onCore c.toNat fun k => { k with arcs := arcs }).chaseVictims c.toNat = [d] → s.cmd c.toNat d.uid = some d → d.again = [] →
      CanFault s c.toNat d k → ∃ t, exec (.chaseCycle c) s = .next t ∧ FaultedAt s c.toNat d.uid d k 0x0B (d.seq.zeroExtend 64) t) ∧
    ∀ d, d ∈ (s.mach.onCore c.toNat fun k => { k with arcs := arcs }).chaseVictims c.toNat → (s.core c.toNat).queueFaulted d = true →
      (∃ e, (s.mach.onCore c.toNat fun k => { k with arcs := arcs }).chaseVictims c.toNat = [e]) → d.handler = false →
      ∃ t, exec (.chaseCycle c) s = .next t ∧ OnlyCore c.toNat s t ∧ t.core c.toNat = { s.core c.toNat with arcs := arcs })

/-! ## Phases, checking and errors -/

/-- The records that the error log has taken, by kind; it had room for them (R264). -/
def Sys2Proof.Claims.Logged (s t : State) (kinds : List Nat) : Prop :=
  s.dev.errlog.length + kinds.length ≤ 4096 → ∃ l, t.dev.errlog = s.dev.errlog ++ l ∧ l.map (·.kind) = kinds

/-- Context `y` is as checkpoint context `k` holds it, and no instruction of it waits (R251). -/
def Sys2Proof.Claims.Restored (k y : Ctx) : Prop :=
  y.pc = k.pc ∧ y.regs = k.regs ∧ y.preds = k.preds ∧ y.kmask = k.kmask ∧ y.rrb = k.rrb ∧ y.lc = k.lc ∧ y.ec = k.ec ∧ y.plen = k.plen ∧
  y.subcnt = k.subcnt ∧ y.pwb = k.pwb ∧ y.savedPwb = k.savedPwb ∧ y.done = k.done ∧ y.inh = k.inh ∧ y.epc = k.epc ∧ y.cause = k.cause ∧ y.tval = k.tval ∧
  y.rq = k.rq ∧ y.wait = none

/-- Phase `n` of a core and every later one can be cancelled: `p` is its record and `k` its checkpoint (R254, R255). -/
def Sys2Proof.Claims.CanCancel (c : Core) (n : Nat) (p : Phase) (k : Ckpt) : Prop :=
  c.phaseRec n = some p ∧ p.ckpt = some k ∧ ∀ q ∈ c.phases, n ≤ q.num → c.guarded q.num = true ∧ q.irrevocable = false

/-- A core of which no context waits in an instruction, whose commands have different identifiers, and which has cancelled nothing in this cycle (R257). -/
def Sys2Proof.Claims.Settled (s : State) (c : Nat) : Prop :=
  (∀ x, (s.ctx c x).wait = none) ∧ (∀ z, (s.core c).cancelled = some z → z.1 ≠ s.dev.now) ∧ ∀ d ∈ (s.core c).cmds, ∀ e ∈ (s.core c).cmds, d.uid = e.uid → d = e

/-- Pushes (or pops) from `q` to `r` since the checkpoint by commands that a cancellation of phase `n` leaves alone (R255). -/
def Sys2Proof.Claims.tokensMoved (c : Core) (k : Ckpt) (n q r : Nat) (push : Bool) : Nat :=
  ((c.tokLog.drop k.tokAt).filter fun e => (match e.phase with | none => true | some x => decide (x < n)) && e.prod == q && e.cons == r && e.push == push).length

/-- Phases `n` and later of core `c` have been cancelled (R255, R256, R186): their commands and accesses are gone, every context and the core's state are
as the checkpoint holds them, the token FIFOs hold what the checkpoint has with the pushes and pops of other commands since, the records of kept commands
whose destinations hold poison run again, and the current phase is `n`, open, with what has cancelled it. -/
def Sys2Proof.Claims.CancelledTo (s : State) (c n : Nat) (k : Ckpt) (units : List Nat) (mismatches : Nat) (t : State) : Prop :=
  SameBytes s t ∧ SameCores c s t ∧ Restored k.a (t.ctx c .a) ∧ Restored k.x (t.ctx c .x) ∧ Restored k.s (t.ctx c .s) ∧ (t.core c).rings = k.rings ∧
  (t.core c).fmts = k.fmts ∧ (t.core c).coin = k.coin ∧ (t.core c).phase = n ∧ (t.core c).accs = (s.core c).accs.filter (fun a => decide (a.phase < n)) ∧
  (∀ e ∈ (t.core c).cmds, (e ∈ (s.core c).cmds ∧ ∀ x, e.phase = some x → x < n) ∨ (e.refetch = true ∧ e.n = 0 ∧ e.issued = false ∧
    ∃ r ∈ (s.core c).kept, e.work = r.work ∧ e.ops = r.ops ∧ ∃ o ∈ r.ops, ∃ u ∈ s.dev.poison, s.mach.contains c o u = true)) ∧
  (∀ e ∈ (s.core c).cmds, (∀ x, e.phase = some x → x < n) → e ∈ (t.core c).cmds) ∧ (∀ x, ∀ f ∈ (t.ctx c x).efq, f ∈ (s.ctx c x).efq) ∧
  (∃ z, (t.core c).phases = (s.core c).phases.filter (fun q => decide (q.num < n)) ++ [z] ∧ z.num = n ∧ z.ended = false ∧ z.irrevocable = false ∧
    z.ckpt = some k ∧ z.units = units ∧ z.mismatches = mismatches) ∧
  ∀ q r, (t.core c).tok q r = tokFind k.tokens q r + tokensMoved (s.core c) k n q r true - tokensMoved (s.core c) k n q r false

/-- What R260 does with a check mismatch of phase `n` of core `c`: the first one of a phase that can be cancelled cancels it, and counts; any other one
quarantines the core and ends its job with status 3. -/
def Sys2Proof.Claims.MismatchOf (s : State) (c n : Nat) (t : State) : Prop :=
  (∀ p k, CanCancel (s.core c) n p k → p.mismatches = 0 → Settled s c → CancelledTo s c n k p.units 1 t ∧ Logged s t [6, 5]) ∧
  (∀ p, (s.core c).phaseRec n = some p → (p.mismatches ≠ 0 ∨ p.irrevocable = true) → SameBytes s t ∧ SameCores c s t ∧ Logged s t [7] ∧
    t.core c = { s.core c with quarantined := true } ∧
    ∀ j, s.jobOf c = some j → j.ending = none → ∃ j', t.jobOf c = some j' ∧ j' = { j with ending := some ⟨3, 0, 0, c, 0⟩ })

/-- The units that an error of a storage strikes, where the storage has the place (R246). -/
def Sys2Proof.Claims.struck (s : State) (c : Nat) : ErrSite → List Nat → Prop
  | .spad n, us => 32 * n < 0xC0000 ∧ us = [window c + 32 * n]
  | .trf w, us => w < 65536 ∧ us = [window c + 0x100000 + 8 * (w / 2), window c + 0x100000 + 8 * (w / 2) + 4]
  | .region n, us => n < 2048 ∧ us = [window c + 0x200000 + 16 * n]
  | .istore w, us => w < 16384 ∧ us = [window c + 0x300000 + 8 * (w / 2), window c + 0x300000 + 8 * (w / 2) + 4]
  | .mem n, us => (s.dev.memKind (32 * n) 32).isSome = true ∧ us = [32 * n]
  | .seat _, _ => False
  | .control, _ => False

/-- R246, R252, R258-R263, R265, R350, R409: a phase that may commit leaves the uncommitted ones; a command at the head of its queue, and an access
whose elders are ready, is compared and may go on, and a mismatch, or
an error of the control core where it is checked, cancels its phase the first time and otherwise quarantines its core and ends the job with status 3; a paired
core's phase without stores has the signature 0, and equal
signatures resolve both phases; of two that differ the spare's decides: it runs the phase from the even core's checkpoint, and where its signature matches
neither, or it takes an engine fault, the job ends with status 4; a held fetch is released with the word of the image; a
job over its budget ends with status 5; an error that cannot be corrected poisons its units, or marks its seat, and is logged; a failed bridge ends every job
with status 3. -/
def Obligations.Recovery : Prop :=
  (∀ (s : State) (c : CoreId) (p : Phase) (rest : List Phase), (s.core c.toNat).phases = p :: rest → p.ended = true → (s.core c.toNat).paired = false →
    (∀ d ∈ (s.core c.toNat).cmds, d.phase = some p.num → d.q = .sq) → (∀ q, ∀ d ∈ (s.core c.toNat).queue q, d.q = q) →
    ∃ t, exec (.phaseCommit c) s = .next t ∧ OnlyCore c.toNat s t ∧ (∀ x, x ∈ (t.core c.toNat).phases ↔ x ∈ (s.core c.toNat).phases ∧ x.num ≠ p.num) ∧
      (t.core c.toNat).cmds = (s.core c.toNat).cmds ∧ (∀ k, t.ctx c.toNat k = s.ctx c.toNat k) ∧
      (t.core c.toNat).kept = p.lqDone.filter fun r => r.ops.any fun o => !o.dst && o.nest.space == .virt) ∧
  (∀ (s : State) (c : CoreId) (u : Nat) (d : Cmd) (l r : List Cmd), s.cmd c.toNat u = some d → (s.core c.toNat).checked = true → d.ready = false →
    d.born + 4 ≤ s.dev.now → (s.core c.toNat).queue d.q = l ++ d :: r → (∀ e ∈ l, e.uid ≠ u) →
    ((∃ e ∈ l, e.issued = false) → ∀ b, exec (.footstoolCompare c u b) s = .next s) ∧ ((∀ e ∈ l, e.issued = true) →
    (∃ t, exec (.footstoolCompare c u false) s = .next t ∧ OnlyCore c.toNat s t ∧ t.cmd c.toNat u = some { d with ready := true } ∧
      ∀ v, v ≠ u → t.cmd c.toNat v = s.cmd c.toNat v) ∧
    ((s.core c.toNat).cancelled = none → ∃ t, exec (.footstoolCompare c u true) s = .next t ∧ MismatchOf s c.toNat d.during t))) ∧
  (∀ (s : State) (c : CoreId) (u : Nat) (a : Acc) (l r : List Acc), s.cmd c.toNat u = none → (s.core c.toNat).acc u = some a →
    (s.core c.toNat).checked = true → a.ready = false → a.born + 4 ≤ s.dev.now → (s.core c.toNat).accs = l ++ a :: r →
    (∀ b ∈ l, b.uid ≠ u ∧ b.ready = true) →
    (∃ t, exec (.footstoolCompare c u false) s = .next t ∧ OnlyCore c.toNat s t ∧ (t.core c.toNat).acc u = some { a with ready := true } ∧
      ∀ v, v ≠ u → (t.core c.toNat).acc v = (s.core c.toNat).acc v) ∧
    ((s.core c.toNat).cancelled = none → ∃ t, exec (.footstoolCompare c u true) s = .next t ∧ MismatchOf s c.toNat a.phase t)) ∧
  (∀ (s : State) (c : CoreId), (s.core c.toNat).checked = true ∨ (s.core c.toNat).paired = true → (s.core c.toNat).cancelled = none →
    ∃ t, exec (.softError c .control false) s = .next t ∧ MismatchOf s c.toNat (s.core c.toNat).phase t) ∧
  (∀ (s : State) (c : CoreId), (s.core c.toNat).checked = false → (s.core c.toNat).paired = false →
    ∃ t, exec (.softError c .control false) s = .next t ∧ SameBytes s t ∧ (∀ g, t.core g = s.core g) ∧
      t.dev.outbox = s.dev.outbox ++ [.machineCheck c.toNat] ∧
      ∀ j, s.jobOf c.toNat = some j → j.ending = none → ∃ j', t.jobOf c.toNat = some j' ∧ j' = { j with ending := some ⟨3, 0, 0, c.toNat, 0⟩ }) ∧
  (∀ (s : State) (c : CoreId) (p : Phase) (o : Nat), (s.core c.toNat).signable = some p → (s.core c.toNat).phaseStores p.num = [] →
    o = (if c.toNat % 2 = 0 then c.toNat + 1 else c.toNat - 1) →
    ((s.core o).signature = none → ∃ t, exec (.signaturePass c) s = .next t ∧ OnlyCore c.toNat s t ∧
      t.core c.toNat = (s.core c.toNat).onPhase p.num fun q => { q with sig := some 0 }) ∧
    ((s.core o).signature = some (p.num, 0) → (∀ k ∈ [s.core c.toNat, s.core o], k.phaseStores p.num = []) →
      ∃ t, exec (.signaturePass c) s = .next t ∧ SameBytes s t ∧ SameDevice s t ∧
        (∀ g, g = c.toNat ∨ g = o → ∀ q ∈ (t.core g).phases, q.num = p.num → q.resolved = true))) ∧
  (∀ (s : State) (e : CoreId) (n sp : Nat) (a b : BitVec 64), e.toNat % 2 = 0 → a ≠ b → (s.core e.toNat).signature = some (n, a) →
    (s.core (e.toNat + 1)).signature = some (n, b) → sp = e.toNat / 32 * 32 + 30 → e.toNat ≠ sp →
    (∀ k p, s.Inv → s.mach.spareFree sp = true → (s.core e.toNat).phaseRec n = some p → p.ckpt = some k → k.filled = true →
      ∃ t, exec (.tieBreak e) s = .next t ∧ (t.core sp).tie = some e.toNat ∧ (t.core sp).life = .running ∧ (t.core sp).phase = n ∧
        (∀ x y, (x = (t.core sp).a ∧ y = k.a) ∨ (x = (t.core sp).x ∧ y = k.x) ∨ (x = (t.core sp).s ∧ y = k.s) →
          x.pc = y.pc ∧ x.regs = y.regs ∧ x.preds = y.preds ∧ x.pwb = y.pwb ∧ x.lc = y.lc ∧ x.done = y.done) ∧
        (t.core sp).fmts = k.fmts ∧ (t.core sp).seat0.full = false ∧ (t.core sp).seat1.full = false ∧
        (t.core sp).lq.length = (s.core e.toNat).kept.length ∧ (∀ d ∈ (t.core sp).lq, d.refetch = true) ∧
        (∀ i, i < 0xC0000 → t.byte (window sp + i) = 0) ∧
        ∀ i, i < 0x8000 → t.byte (window sp + 0x200000 + i) = s.byte (window e.toNat + 0x200000 + i)) ∧
    (∀ v, (s.core sp).tie = some e.toNat → (s.core sp).spareVerdict = some v → s.dev.waving = none →
      (v ≠ some a → v ≠ some b → ∃ t, exec (.tieBreak e) s = .next t ∧ SameBytes s t ∧ (t.core sp).tie = none ∧
        ∀ j, s.jobOf e.toNat = some j → j.ending = none → ∃ j' x, t.jobOf e.toNat = some j' ∧ j'.ending = some x ∧ x.status = 4 ∧ x.cause = 0x13) ∧
      (∀ w l, ((v = some a ∧ w = e.toNat ∧ l = e.toNat + 1) ∨ (v = some b ∧ w = e.toNat + 1 ∧ l = e.toNat)) →
        ∃ t, exec (.tieBreak e) s = .next t ∧ SameBytes s t ∧ (t.core sp).tie = none ∧ (∀ q ∈ (t.core w).phases, q.num = n → q.resolved = true) ∧
          (t.core l).phase = n + 1 ∧ (∀ q ∈ (t.core l).phases, q.num < n ∨ q.num = n + 1)))) ∧
  (∀ (s : State) (c : CoreId) (k : CtxId) (o at_ : Nat) (j : Job) (m : Mach) (image : List Byte), s.Inv → (s.ctx c.toNat k).fetchHeld = some o →
    s.jobOf c.toNat = some j → s.mach.jobImage j = (m, image) → m.held = false → at_ = window c.toNat + (0x300000 + o) →
    ∃ t, exec (.instructionStoreRewrite c k) s = .next t ∧ (∀ x, ¬(at_ ≤ x ∧ x < at_ + 4) → t.byte x = (s.mem.apply m.log).read x) ∧
      (∀ i, i < 4 → t.byte (at_ + i) = image.getD (o + i) 0) ∧ at_ ∉ t.dev.poison ∧ t.ctx c.toNat k = { s.ctx c.toNat k with fetchHeld := none }) ∧
  (∀ (s : State) (c : CoreId) (j : Job), s.jobOf c.toNat = some j → j.ending = none → (s.core c.toNat).fixed = true → (s.core c.toNat).freeAt = none →
    (s.core c.toNat).life = .running → (s.core c.toNat).tie = none → (s.core c.toNat).budget.toNat < (s.core c.toNat).budgetUsed s.dev.now →
    ∃ t, exec (.watchdog c) s = .next t ∧ SameBytes s t ∧ (∀ g, t.core g = s.core g) ∧ ∃ j' x, t.jobOf c.toNat = some j' ∧ j'.ending = some x ∧
      x.status = 5 ∧ x.cause = 0x18 ∧ x.core = c.toNat ∧ x.tval = BitVec.ofNat 64 ((s.core c.toNat).budgetUsed s.dev.now)) ∧
  (∀ (s : State) (c : CoreId) (site : ErrSite) (us : List Nat), struck s c.toNat site us →
    (∃ t, exec (.softError c site false) s = .next t ∧ SameBytes s t ∧ (∀ g, t.core g = s.core g) ∧ Logged s t [2] ∧
      ∀ x, x ∈ t.dev.poison ↔ x ∈ us ∨ x ∈ s.dev.poison) ∧
    (∃ t, exec (.softError c site true) s = .next t ∧ SameBytes s t ∧ (∀ g, t.core g = s.core g) ∧ t.dev.poison = s.dev.poison ∧
      t.dev.corrected = s.dev.corrected + 1)) ∧
  (∀ (s : State) (c : CoreId) (n : Bool), ∃ t, exec (.softError c (.seat n) false) s = .next t ∧ SameBytes s t ∧ SameCores c.toNat s t ∧ Logged s t [2] ∧
    t.core c.toNat = if n = true then { s.core c.toNat with seat1 := { (s.core c.toNat).seat1 with poisoned := true } }
      else { s.core c.toNat with seat0 := { (s.core c.toNat).seat0 with poisoned := true } }) ∧
  (∀ (s : State) (c : CoreId), ∃ t, exec (.quarantineClear c) s = .next t ∧ OnlyCore c.toNat s t ∧
    t.core c.toNat = { s.core c.toNat with quarantined := false }) ∧
  (∀ s : State, ∃ t, exec .bridgeFailure s = .next t ∧ SameBytes s t ∧ (∀ g, t.core g = s.core g) ∧ t.dev.jobs.length = s.dev.jobs.length ∧
    ∀ j ∈ t.dev.jobs, ∃ b ∈ s.dev.jobs, j = { b with ending := some (b.ending.getD ⟨3, 0, 0, 0, 0⟩) })

/-- A consumption of unit `u` in phase `n` of a core is absorbed (R256): the phase can be cancelled, and this unit has not cancelled it before. -/
def Sys2Proof.Claims.Absorbed (c : Core) (n u : Nat) (p : Phase) (k : Ckpt) : Prop := CanCancel c n p k ∧ u ∉ p.units

/-- The context of the slot has trapped with `UNCORRECTABLE`, as context `x` stood, and the log has the record of it (R248, R264). -/
def Sys2Proof.Claims.TrappedPoison (s : State) (x : Ctx) (tval : Word) (t : State) : Prop :=
  SameBytes s t ∧ SameCores s.cid s t ∧ SameCoreBut s.cid s.kid s t ∧ Logged s t [4] ∧ t.dev.poison = s.dev.poison ∧
  t.cur = { x with savedPwb := x.pwb, pwb := [], epc := x.pc, cause := 0x11, tval := tval, inh := true, done := false, pc := x.tvec }

/-- The unit of poison at a physical address, base and size (R246, R247): a TRF word or a word of the instruction store, a region register, or a sector. -/
def Sys2Proof.Claims.unit (pa : Nat) : Nat × Nat :=
  let o := (pa - 0x7F0000000000) % 2 ^ 22
  if 0x7F0000000000 ≤ pa ∧ ((0x100000 ≤ o ∧ o < 0x140000) ∨ (0x300000 ≤ o ∧ o < 0x310000)) then (pa / 4 * 4, 4)
  else if 0x7F0000000000 ≤ pa ∧ 0x200000 ≤ o ∧ o < 0x208000 then (pa / 16 * 16, 16)
  else (pa / 32 * 32, 32)

/-- No byte of the `n` from a physical address lies in a marked unit. -/
def Sys2Proof.Claims.Clean (marks : List Nat) (pa n : Nat) : Prop := ∀ k, k < n → (unit (pa + k)).1 ∉ marks

/-- `u` is the first marked unit that the `n` bytes from a physical address touch. -/
def Sys2Proof.Claims.Marked (marks : List Nat) (pa n u : Nat) : Prop := u ∈ marks ∧ ∃ k, k < n ∧ (unit (pa + k)).1 = u ∧ Clean marks pa k

/-- The element of an operand at index `n`, which lies in the storage of a core, touches the marked unit `u` first. -/
def Sys2Proof.Claims.MarkedElem (s : State) (c : Nat) (o : Operand) (n u : Nat) : Prop :=
  ∃ pa, OnChip s c o n pa ∧ Marked s.dev.poison pa ((o.nest.esz + 1) / 2) u

/-- It touches none. -/
def Sys2Proof.Claims.CleanElem (s : State) (c : Nat) (o : Operand) (n : Nat) : Prop :=
  ∃ pa, OnChip s c o n pa ∧ Clean s.dev.poison pa ((o.nest.esz + 1) / 2)

/-- The element that instruction `i` does for command `v` consumes unit `u` (R248): the command's phase is cancelled with every later one, where it can be and
the unit has not cancelled it before; otherwise the command faults at its position with `UNCORRECTABLE` and `tval`; the log has the record. -/
def Sys2Proof.Claims.Consumes (s : State) (c : CoreId) (v : Nat) (d : Cmd) (i : Instr) (u : Nat) (tval : Word) : Prop :=
  d.gang = none → ∀ n, d.phase = some n →
    (∀ p k, Absorbed (s.core c.toNat) n u p k → Settled s c.toNat →
      ∃ t, exec i s = .next t ∧ CancelledTo s c.toNat n k (p.units ++ [u]) p.mismatches t ∧ Logged s t [3, 5]) ∧
    (∀ x, (∀ p k, ¬Absorbed (s.core c.toNat) n u p k) → CanFault s c.toNat d x →
      ∃ t, exec i s = .next t ∧ Faults s c.toNat v d x 0x11 tval t ∧ Logged s t [4])

/-- What `TVAL` holds of a unit on chip: its address in local space (R229; log entry 10). -/
def Sys2Proof.Claims.localTval (u : Nat) : Word := BitVec.ofNat 64 ((u - 0x7F0000000000) % 2 ^ 22)

/-- The marks are as before, and the unit at `pa` is marked too. -/
def Sys2Proof.Claims.MarksToo (marks : List Nat) (pa : Nat) (t : State) : Prop := ∀ x, x ∈ t.dev.poison ↔ x ∈ marks ∨ x = (unit pa).1

/-- The command has done its element, and has noted what it has marked, covered and substituted. -/
def Sys2Proof.Claims.DidOne (s : State) (c u : Nat) (d : Cmd) (t : State) : Prop :=
  (∃ e, t.cmd c u = some e ∧ e = { d with n := d.n + 1, moved := e.moved, cover := e.cover, smarks := e.smarks, subs := e.subs }) ∧
  ∀ v, v ≠ u → t.cmd c v = s.cmd c v

/-- The instructions of the vector engine that take their elements from operand `op` first. -/
def Sys2Proof.Claims.takesFrom (op : Nat) : Instr → Bool
  | .vadd .. | .vsub .. | .vmul .. | .vfma .. | .vdiv .. | .vmin .. | .vmax .. | .vand .. | .vor .. | .vxor .. | .vshl .. | .vshr .. | .vsar ..
  | .vcmp .. | .vsel .. | .vabs .. | .vneg .. | .vnot .. | .vcvt .. | .vsf .. | .vmove .. | .vquant .. | .vdeq .. | .vclip .. | .vscan .. => op == 1
  | .vrsum .. | .vrmax .. | .vrmin .. | .vpset .. => op == 0
  | _ => false

/-- R248, R254-R258, R264, R186, R174, R224, R227, R247: a `popq` of a poisoned return-queue entry and a local load of a poisoned unit consume it: the current
phase is cancelled with every later one, where it can be and this unit has not cancelled it before; otherwise the scalar traps with `UNCORRECTABLE`, a `popq`
with its entry gone; a consumption that a cancellation of the same cycle serves is only logged. The same of the elements of `seat`, `seats`, `mmul` (its seat,
its A rows, its destination when it accumulates), `drain`, `scattera`, the vector engine and the Cabinet, and of index lists, whose command faults. `copy`,
`copyt`, `gather`, `scatter`, `tcopy`, `tload` and `tstore` move a mark to the destination's unit; a sector of an error-tolerant page reads as zeros, moves no
mark and counts in `SUBCNT` once for the command; a unit is clean once one command has covered each of its nibbles. (The address of a local unit that `TVAL`
holds, the tokens of commands that are not squashed, and `SAVED_PWB`, which a cancellation restores too, are log entries 10, 13 and 26.) -/
def Obligations.PoisonAndCancellation : Prop :=
  (∀ (s : State) (d : Reg) (g : Guard) (e : RqEntry) (rest : List RqEntry) (v u : Word) (n : Nat), s.cur.guard g = true → s.cur.rq = e :: rest →
    e.val = some v → e.poison = some u → n = s.here.phase →
    (∀ p k, Absorbed s.here n u.toNat p k → Settled s s.cid →
      ∃ t, exec (.popq d 0 g) s = .next t ∧ CancelledTo s s.cid n k (p.units ++ [u.toNat]) p.mismatches t ∧ Logged s t [3, 5]) ∧
    ((∀ p k, ¬Absorbed s.here n u.toNat p k) → CanTrap s.cur Cause.uncorrectable →
      ∃ t, exec (.popq d 0 g) s = .next t ∧ TrappedPoison s { s.cur with rq := rest } u t)) ∧
  (∀ (s : State) (i : Instr) (r : LocalRow) (u n : Nat), loadRow i = some r → s.cur.guard r.g = true → r.ea s.cur % r.size = 0 →
    (oneStorage (r.ea s.cur) (r.ea s.cur + r.size)).isSome = true → s.here.scalarOk (r.ea s.cur) (r.ea s.cur + r.size) false = true →
    s.dev.poisonIn (r.pa s) r.size = some u → n = s.here.phase →
    (∀ p k, Absorbed s.here n u p k → Settled s s.cid →
      ∃ t, exec i s = .next t ∧ CancelledTo s s.cid n k (p.units ++ [u]) p.mismatches t ∧ Logged s t [3, 5]) ∧
    ((∀ p k, ¬Absorbed s.here n u p k) → CanTrap s.cur Cause.uncorrectable → window s.cid ≤ u → u < window s.cid + 2 ^ 22 →
      ∃ t, exec i s = .next t ∧ TrappedPoison s s.cur (BitVec.ofNat 64 (u - window s.cid)) t)) ∧
  (∀ (s : State) (d : Reg) (g : Guard) (e : RqEntry) (rest : List RqEntry) (v u : Word) (n : Nat) (us : List Nat) (p : Phase) (k : Ckpt),
    s.cur.guard g = true → s.cur.rq = e :: rest → e.val = some v → e.poison = some u → Absorbed s.here s.here.phase u.toNat p k →
    s.here.cancelled = some (s.dev.now, n, us) → n ≤ s.here.phase →
    ∃ t, exec (.popq d 0 g) s = .next t ∧ SameBytes s t ∧ (∀ h, t.core h = s.core h) ∧ Logged s t [3]) ∧
  (∀ (s : State) (c : CoreId) (v u : Nat) (d : Cmd) (o : Operand) (rest : List Operand), Ready s c.toNat v d → d.ops = o :: rest → u < 2 ^ 60 →
    (d.isOpc 0x20 = true → MarkedElem s c.toNat o d.n u → Consumes s c v d (.seat c v) u (localTval u)) ∧
    (∀ p ps q, d.isOpc 0x21 = true → rest.head? = some p →
      (MarkedElem s c.toNat p (d.n / 2) u → Consumes s c v d (.seats c v) u (localTval u)) ∧
      (OnChip s c.toNat p (d.n / 2) ps → Clean s.dev.poison ps ((p.nest.esz + 1) / 2) → q = bitsAt s.mach ps (p.nest.addr (d.n / 2)) p.nest.esz →
        q % 4 < q / 4 → MarkedElem s c.toNat o d.n u → Consumes s c v d (.seats c v) u (localTval u))) ∧
    (∀ (w : Word) (p : Operand), d.isOpc 0x23 = true → d.fmtw = some w →
      (w.getLsbD 46 = false ∧ rest.head? = some p ∨ w.getLsbD 46 = true ∧ rest[1]? = some p) →
      MarkedElem s c.toNat p d.n u → Consumes s c v d (.drain c v) u (localTval u)) ∧
    (∀ (w : Word) (p : Operand) (kd row t0 : Nat) (z : Seat), d.isOpc 0x22 = true → d.fmtw = some w → rest.head? = some p → t0 = o.nest.trip 0 →
      kd = d.aux 16 9 → row = d.n / t0 → z = (s.core c.toNat).seatOf (d.mod % 2) →
      (d.n = 0 → z.full = true ∧ z.record = w.extractLsb' 0 19 ∧ kd ≤ z.kd) →
      (z.poisoned = true → Consumes s c v d (.mmul c v) (2 ^ 60 + d.mod % 2) (BitVec.ofNat 64 (d.mod % 2))) ∧
      (∀ i, i < kd → z.poisoned = false → (∀ j, j < i → CleanElem s c.toNat p (row * kd + j)) → MarkedElem s c.toNat p (row * kd + i) u →
        Consumes s c v d (.mmul c v) u (localTval u)) ∧
      (∀ i, i < t0 → d.mod / 2 % 2 = 1 → z.poisoned = false → d.regions = [0] → (∀ j, j < kd → CleanElem s c.toNat p (row * kd + j)) →
        (∀ j, j < i → CleanElem s c.toNat o (d.n + j)) → MarkedElem s c.toNat o (d.n + i) u → Consumes s c v d (.mmul c v) u (localTval u))) ∧
    (∀ (l : Operand) (x : Instr), d.ops[2]? = some l → MarkedElem s c.toNat l d.n u →
      ((x = .gather c v ∧ d.isOpc 0x12 = true) ∨ (x = .gatherff c v ∧ d.isOpc 0x13 = true) ∨ (x = .scatter c v ∧ d.isOpc 0x14 = true) ∨
        (d.isOpc 0x15 = true ∧ ScatteraRow c v (d.mod % 8) x)) → Consumes s c v d x u (localTval u)) ∧
    (∀ (r : Record) (p l : Operand) (bb : BitVec 128) (f g : Nat) (i a : Int) (x : Instr), d.work = .record r → d.isOpc 0x15 = true →
      ScatteraRow c v (d.mod % 8) x → rest.head? = some p → d.ops[2]? = some l → CleanElem s c.toNat l d.n → d.regions.getLast? = some bb →
      IndexIs s c.toNat d i → (r.aux.extractLsb' 18 23).toInt ≤ i → i ≤ (r.aux.extractLsb' 41 23).toInt → f = (r.aux.extractLsb' 11 5).toNat →
      a = placed bb.toNat f r.ds0 i →
      (MarkedElem s c.toNat p d.n u → Consumes s c v d x u (localTval u)) ∧
      (CleanElem s c.toNat p d.n → o.nest.space = .core g → s.mach.reachable c.toNat g = true →
        Marked s.dev.poison (window g + (a / 2).toNat) (fmtNibs f / 2) u → Consumes s c v d x u (localTval u)))) ∧
  (∀ (s : State) (c : CoreId) (v u n op pa : Nat) (d : Cmd) (i : Instr) (vd va vb : BitVec 128) (x : Word) (rq : Option Nat) (o : Operand), Ready s c.toNat v d →
    d.q = .vq → d.work = .vec i vd va vb x n rq → u < 2 ^ 60 →
    (takesFrom op i = true → d.ops[op]? = some o → Lane s c.toNat o d.n pa → Marked s.dev.poison pa ((o.nest.esz + 1) / 2) u →
      Consumes s c v d (.engineElement c v) u (localTval u)) ∧
    (∀ (w a : VReg) (h : VHead) (g : LGuard) (b : Reg) (reg : BitVec 128),
      (((i = .vskq w a h ∨ i = .vskh w a h ∨ i = .vskd w a h ∨ i = .smerge w a g) ∧ reg = vd) ∨
        ((i = .squeryQuant a b g ∨ i = .squeryRank a b g ∨ i = .squeryCount a b g ∨ i = .squeryEntry a b g ∨ i = .squeryEst a g) ∧ reg = va)) →
      reg.getLsbD 25 = false → 64 ≤ (reg.extractLsb' 27 16).toNat * (fmtNibs (reg.extractLsb' 67 5).toNat / 2) →
      Marked s.dev.poison (window c.toNat + (reg.extractLsb' 0 20).toNat) 64 u → Consumes s c v d (.engineElement c v) u (localTval u)) ∧
    (∀ (w a : VReg) (h : VHead) (kind : Nat) (z : Summary) (p : Operand),
      (i = .vskq w a h ∧ kind = 1 ∨ i = .vskh w a h ∧ kind = 2 ∨ i = .vskd w a h ∧ kind = 3) → vd.getLsbD 25 = false → SummaryAt s c.toNat vd z →
      Clean s.dev.poison (window c.toNat + (vd.extractLsb' 0 20).toNat) ((vd.extractLsb' 27 16).toNat * (fmtNibs (vd.extractLsb' 67 5).toNat / 2)) →
      z.kind = kind → z.vfmt = RegionReg.fmt va → d.ops = [o, p] → Lane s c.toNat p d.n pa → Marked s.dev.poison pa ((p.nest.esz + 1) / 2) u →
      Consumes s c v d (.engineElement c v) u (localTval u))) ∧
  (∀ (s : State) (c : CoreId) (v : Nat) (d : Cmd) (o : Operand) (rest : List Operand), s.Inv → Ready s c.toNat v d → d.ops = o :: rest →
    (∀ (i : Instr) (p : Operand) (pd ps u b : Nat), rest = [p] → OnChip s c.toNat o d.n pd → OnChip s c.toNat p d.n ps →
      Marked s.dev.poison ps ((p.nest.esz + 1) / 2) u → b = bitsAt s.mach ps (p.nest.addr d.n) p.nest.esz → o.dst = true → p.dst = false →
      ((i = .copy c v ∧ d.isOpc 0x10 = true) ∨ (i = .copyt c v ∧ d.isOpc 0x11 = true) ∨ (i = .tcopy c v ∧ d.isOpc 0x25 = true)) →
      ∃ t, exec i s = .next t ∧ DidOne s c.toNat v d t ∧ Latched s c.toNat t ∧ MarksToo s.dev.poison pd t ∧
        OneWrite s s.mach pd (o.nest.addr d.n) o.nest.esz (if d.opc = 0x11 then widen (d.aux 5 5) b else b) t) ∧
    (∀ (i : Instr) (r : Record) (p l : Operand) (bb : BitVec 128) (f g pd ps u b : Nat) (ix a : Int), d.work = .record r → rest.head? = some p →
      d.ops[2]? = some l → CleanElem s c.toNat l d.n → d.regions.getLast? = some bb → IndexIs s c.toNat d ix → (r.aux.extractLsb' 18 23).toInt ≤ ix →
      ix ≤ (r.aux.extractLsb' 41 23).toInt → f = (r.aux.extractLsb' 11 5).toNat → 1 ≤ fmtNibs f →
      (d.isOpc 0x12 = true → i = .gather c v → a = placed bb.toNat f r.ss0 ix → p.nest.space = .core g → s.mach.reachable c.toNat g = true →
        ps = window g + (a / 2).toNat → Marked s.dev.poison ps ((fmtNibs f + 1) / 2) u → OnChip s c.toNat o d.n pd →
        ∃ t, exec i s = .next t ∧ DidOne s c.toNat v d t ∧ Latched s c.toNat t ∧ MarksToo s.dev.poison pd t ∧
          OneWrite s s.mach pd (o.nest.addr d.n) o.nest.esz (stored f (bitsAt s.mach ps a (fmtNibs f))) t) ∧
      (d.isOpc 0x14 = true → i = .scatter c v → a = placed bb.toNat f r.ds0 ix → o.nest.space = .core g → s.mach.reachable c.toNat g = true →
        pd = window g + (a / 2).toNat → MarkedElem s c.toNat p d.n u → OnChip s c.toNat p d.n ps → b = bitsAt s.mach ps (p.nest.addr d.n) p.nest.esz →
        ∃ t, exec i s = .next t ∧ DidOne s c.toNat v d t ∧ Latched s c.toNat t ∧ MarksToo s.dev.poison pd t ∧
          OneWrite s s.mach pd a (fmtNibs f) (stored f b) t) ∧
      (d.isOpc 0x13 = true → i = .gatherff c v → a = placed bb.toNat f r.ss0 ix → p.nest.space = .core g → s.mach.reachable c.toNat g = true →
        ps = window g + (a / 2).toNat → Marked s.dev.poison ps ((fmtNibs f + 1) / 2) u →
        ∃ t, exec i s = .next t ∧ SameBytes s t ∧ t.dev.poison = s.dev.poison ∧ t.cmd c.toNat v = some { d with stopAt := some d.n })) ∧
    (∀ (i : Instr) (x da db : BitVec 128) (y : Word) (n : Nat) (rq : Option Nat) (vb : VReg) (dir : LineDir) (line first : BitVec 8) (p : Operand)
      (pd ps u : Nat), d.q = .vq → d.work = .vec i x da db y n rq → (i = .tload vb dir line first ∨ i = .tstore vb dir line first) → rest = [p] →
      d.n < o.nest.total → d.n < p.nest.total → Lane s c.toNat o d.n pd → Lane s c.toNat p d.n ps → Marked s.dev.poison ps ((p.nest.esz + 1) / 2) u →
      ∃ t, exec (.engineElement c v) s = .next t ∧ DidOne s c.toNat v d t ∧ Latched s c.toNat t ∧ MarksToo s.dev.poison pd t) ∧
    (∀ (i : Instr) (p : Operand) (m1 : Mach) (ps pd u b : Nat) (leaf : Word) (k : CtxId), rest = [p] → o.dst = true → p.dst = false → p.nest.space = .virt →
      ReachesBy s.mach c.toNat d 1 .virt (p.nest.addr d.n) p.nest.esz false m1 ps leaf → leaf.getLsbD 2 = true → OnChip s c.toNat o d.n pd →
      s.dev.poison = [u] → Marked s.dev.poison ps ((p.nest.esz + 1) / 2) u → k = d.ctx.getD .a → b = (if d.opc = 0x11 then widen (d.aux 5 5) 0 else 0) →
      ((i = .copy c v ∧ d.isOpc 0x10 = true) ∨ (i = .copyt c v ∧ d.isOpc 0x11 = true)) →
      ∃ t, exec i s = .next t ∧ DidOne s c.toNat v d t ∧ OneWrite s m1 pd (o.nest.addr d.n) o.nest.esz b t ∧ t.dev.poison = [u] ∧
        (∃ e, t.cmd c.toNat v = some e ∧ u ∈ e.subs) ∧
        t.ctx c.toNat k = { s.ctx c.toNat k with
          latch := true, subcnt := if u ∈ d.subs then (s.ctx c.toNat k).subcnt else counted1 (s.ctx c.toNat k).subcnt }) ∧
    (∀ (i : Instr) (pd lo : Nat), rest = [] → OnChip s c.toNat o d.n pd → o.dst = true → (unit pd).1 ∉ d.moved →
      ((i = .fill c v ∧ d.isOpc 0x16 = true) ∨ (i = .tzero c v ∧ d.isOpc 0x24 = true ∧ d.mod / 4 % 2 = 0)) →
      (unit pd).1 ∈ s.dev.poison → lo = 2 * pd + (if o.nest.esz = 1 then (o.nest.addr d.n % 2).toNat else 0) →
      lo + o.nest.esz ≤ 2 * ((unit pd).1 + (unit pd).2) →
      ∃ t, exec i s = .next t ∧ DidOne s c.toNat v d t ∧ Latched s c.toNat t ∧ (∀ x, x ≠ (unit pd).1 → (x ∈ t.dev.poison ↔ x ∈ s.dev.poison)) ∧
        ((unit pd).1 ∈ t.dev.poison ↔
          ∃ h, 2 * (unit pd).1 ≤ h ∧ h < 2 * ((unit pd).1 + (unit pd).2) ∧ h ∉ d.cover ∧ ¬(lo ≤ h ∧ h < lo + o.nest.esz))))

/-! ## Messages -/

/-- Message `x` of identifier `id` can reach its receiver now, which runs the message's job (R355, R379). -/
def Sys2Proof.Claims.Arrives (s : State) (id : Nat) (x : Msg) : Prop :=
  s.mach.msg id = some x ∧ s.mach.msgReady x = true ∧ (s.job x.job).isSome = true ∧ (s.core x.dst).life = .running ∧ (s.core x.dst).job = some x.job

/-- The message has left those on their way. -/
def Sys2Proof.Claims.Left (s : State) (id : Nat) (t : State) : Prop := t.dev.net = s.dev.net.filter fun y => y.id != id

/-- A merge's turn at the Cabinet of its receiver (R271, R316): the Cabinet is in the middle of no operation and has begun nothing in this cycle that comes after
this merge, no merge accepted before this one waits, and none of the same sender that left before it. -/
def Sys2Proof.Claims.MergeTurn (s : State) (x : Msg) : Prop :=
  (∀ d ∈ (s.core x.dst).vq, d.cabinet = true → d.working = true → d.n = 0) ∧ (∀ r, (s.core x.dst).cabinetAt = some (s.dev.now, r) → r ≤ x.src) ∧
  (∀ y ∈ s.dev.net, y.id ≠ x.id → y.dst = x.dst → ∀ a, y.arrived = some a → ∃ b, x.arrived = some b ∧ (b < a ∨ (b = a ∧ x.src ≤ y.src))) ∧
  ∀ y ∈ s.mach.sentBefore x, y.src = x.src → y.dst = x.dst → y.arrived = none

/-- R271, R331, R358, R359, R375-R377, R382-R385, R398, R403-R405: an element that its window can take is combined in place, or in its slot of the staging area, and
counted consumed, E of them counting a contribution, whose last one of a staged tile begins the tile's finish; one for a ready tile, or of another kind than
the window's, sets ERR; one without a window is parked within the quota, or refused. The last exponent byte of a block decides its exponent, which goes back to
every sender; a finish rounds a tile's slots into it, zeroes them and counts the contribution that was held back. An active message becomes a handler record,
or ends abandoned; the record enters its queue when there is room, and the place goes to the oldest parked message, or to the next when it is abandoned. A merge
is accepted, and is made in its turn. A sender that is refused stops, and faults with `PARK_FULL` when nothing of it is in flight;
a returned exponent that is refused is returned again (log entry 21). One whose block's exponent stays away for 2^30 cycles faults. -/
def Obligations.Arrivals : Prop :=
  (∀ (s : State) (id cls ac off f t e sz n a i : Nat) (bits : BitVec 64) (x : Msg) (w : Window), s.Inv → Arrives s id x →
    x.kind = .elem cls ac off f bits false → (s.core x.dst).window ac = some w → (s.core x.dst).postPending ac = false → sz = fmtNibs w.fmt / 2 → 1 ≤ sz →
    w.tile % sz = 0 → off = w.base + w.tile * t + sz * e → t < w.tiles → sz * e < w.tile → i = w.tile / sz * t + e → n = w.counts.getD t 0 + 1 →
    (∀ v, cls = 0 → w.op ≤ 5 → f = w.fmt → natAt (s.core x.dst).acs (w.ac + t) < w.expect → t ∉ w.finishing → a = window x.dst + off →
      v = windowCombine w.op w.fmt (s.num a sz) bits.toNat →
      ∃ z, exec (.messageApply id) s = .next z ∧ Left s id z ∧ SameBytesBut a sz s z ∧ (∀ k, k < sz → z.byte (a + k) = BitVec.ofNat 8 (v / 2 ^ (8 * k))) ∧
        (z.core x.dst).con = (s.core x.dst).con + 1 ∧
        natAt (z.core x.dst).acs (w.ac + t) = natAt (s.core x.dst).acs (w.ac + t) + (if n % (w.tile / sz) = 0 then 1 else 0)) ∧
    (∀ old, (cls = 1 ∧ w.op = 6 ∧ ∃ p ∈ w.exps, p.1 = i / 32) ∨ (cls = 2 ∧ w.op = 7) → natAt (s.core x.dst).acs (w.ac + t) < w.expect → t ∉ w.finishing →
      a = window x.dst + (w.staging + 8 * i) → old = s.num a 8 →
      ∃ z y, exec (.messageApply id) s = .next z ∧ Left s id z ∧ SameBytesBut a 8 s z ∧ (z.core x.dst).con = (s.core x.dst).con + 1 ∧
        (cls = 1 → z.num a 8 % 2 ^ 61 = (((old % 2 ^ 61 : Nat) : Int) + signed 32 (bits.toNat % 2 ^ 32)) % 2 ^ 61 ∧
          z.num a 8 / 2 ^ 61 = old / 2 ^ 61 ||| bits.toNat / 2 ^ 61) ∧
        (cls = 2 → z.num a 8 = 2 ^ 32 + (if old / 2 ^ 32 % 2 = 0 then convert 0x10 (decodeNum 0x0F bits.toNat)
          else convert 0x10 ((decodeNum 0x10 (old % 2 ^ 32)).add (decodeNum 0x0F bits.toNat)))) ∧
        (z.core x.dst).window ac = some y ∧ y.counts = w.counts.set t n ∧
        (n % (w.tile / sz) ≠ 0 → y.finishing = w.finishing ∧ natAt (z.core x.dst).acs (w.ac + t) = natAt (s.core x.dst).acs (w.ac + t)) ∧
        (n % (w.tile / sz) = 0 → w.expect ≤ natAt (s.core x.dst).acs (w.ac + t) + 1 →
          y.finishing = w.finishing ++ [t] ∧ natAt (z.core x.dst).acs (w.ac + t) = natAt (s.core x.dst).acs (w.ac + t)) ∧
        (n % (w.tile / sz) = 0 → natAt (s.core x.dst).acs (w.ac + t) + 1 < w.expect →
          y.finishing = w.finishing ∧ natAt (z.core x.dst).acs (w.ac + t) = natAt (s.core x.dst).acs (w.ac + t) + 1)) ∧
    ((w.expect ≤ natAt (s.core x.dst).acs (w.ac + t) ∨ t ∈ w.finishing ∨ (cls = 0 ∧ (5 < w.op ∨ f ≠ w.fmt)) ∨ (cls = 1 ∧ w.op ≠ 6) ∨
        (2 ≤ cls ∧ w.op ≠ 7) ∨ (w.op = 6 ∧ ∀ p ∈ w.exps, p.1 ≠ i / 32)) →
      ∃ z, exec (.messageApply id) s = .next z ∧ Left s id z ∧ SameBytes s z ∧ (z.core x.dst).con = (s.core x.dst).con + 1 ∧
        (z.core x.dst).window ac = some { w with err := true } ∧ (z.core x.dst).acs = (s.core x.dst).acs)) ∧
  (∀ (s : State) (id cls ac off f : Nat) (bits : BitVec 64) (poison : Bool) (x : Msg) (j : Job), Arrives s id x → x.kind = .elem cls ac off f bits poison →
    (s.core x.dst).window ac = none → s.job x.job = some j →
    ((j.parked.map Msg.area).foldl (· + ·) 0 + x.area ≤ j.quota →
      ∃ z j', exec (.messageApply id) s = .next z ∧ Left s id z ∧ SameBytes s z ∧ (∀ g, z.core g = s.core g) ∧ z.job x.job = some j' ∧
        j' = { j with parked := j.parked ++ [{ x with arrived := none }] }) ∧
    (j.quota < (j.parked.map Msg.area).foldl (· + ·) 0 + x.area →
      ∃ z, exec (.messageApply id) s = .next z ∧ z.dev.net = (s.dev.net.filter fun y => y.id != id) ++ [{ x with refused := true }] ∧ SameBytes s z ∧
        (∀ g, z.core g = s.core g) ∧ z.dev.jobs = s.dev.jobs)) ∧
  (∀ (s : State) (id : Nat) (x : Msg), s.mach.msg id = some x → x.refused = true → (s.core x.src).life = .running → (s.core x.src).job = some x.job →
    (∃ block v, x.kind = .expReturn block v) → s.mach.mayReturn x = true →
    ∃ z, exec (.parkFull id) s = .next z ∧ SameBytes s z ∧ (∀ g, z.core g = s.core g) ∧
      z.dev.net = (s.dev.net.filter fun y => y.id != id) ++ [{ x with refused := false }]) ∧
  (∀ (s : State) (c : CoreId) (u : Nat) (d : Cmd) (k : CtxId) (r : Nat × Nat) (f : EFault), s.cmd c.toNat u = some d → d.isOpc 0x30 = true →
    d.refused = [r] → d.fault = none → s.mach.inFlight c.toNat u = false → CanFault s c.toNat d k → f = ⟨d.q, d.seq, r.1 / 2, 0x0E, BitVec.ofNat 64 r.2⟩ →
    ∃ z, exec (.cput c u) s = .next z ∧ SameBytes s z ∧ SameDevice s z ∧ SameButLatches c.toNat [k] s z ∧ z.cmd c.toNat u = some { d with fault := some f } ∧
      z.ctx c.toNat k = { s.ctx c.toNat k with latch := true, efq := (s.ctx c.toNat k).efq ++ [f] }) ∧
  (∀ (s : State) (id : Nat) (x : Msg) (d : Cmd), s.mach.msg id = some x → x.refused = true → (s.core x.src).life = .running →
    (s.core x.src).job = some x.job → (∀ block v, x.kind ≠ .expReturn block v) → s.cmd x.src x.cmd = some d →
    ∃ z, exec (.parkFull id) s = .next z ∧ Left s id z ∧ SameBytes s z ∧ SameCores x.src s z ∧
      z.cmd x.src x.cmd = some { d with refused := d.refused ++ [(x.n, x.dst)] } ∧
      (z.core x.src).inj = (s.core x.src).inj - (if x.kind.counted then 1 else 0)) ∧
  (∀ (s : State) (id ac off byte block t e b : Nat) (x : Msg) (w : Window) (mine : List (Nat × Nat × Nat × Nat × Nat)), Arrives s id x →
    x.kind = .expByte ac off byte block true → (s.core x.dst).window ac = some w → (s.core x.dst).postPending ac = false → w.op = 6 →
    w.place off = some (t, e) → e % 32 = 0 → (s.core x.dst).tileReady w t = false → b = (w.perTile * t + e) / 32 → (∀ p ∈ w.exps, p.1 ≠ b) →
    mine = (w.pre ++ [(b, byte, x.src, x.cmd, block)]).filter (fun p => p.1 == b) →
    (mine.length < w.expect → ∃ z, exec (.exponentByteArrive id) s = .next z ∧ Left s id z ∧ SameBytes s z ∧
      (z.core x.dst).window ac = some { w with pre := w.pre ++ [(b, byte, x.src, x.cmd, block)] }) ∧
    (w.expect ≤ mine.length → ∃ z y, exec (.exponentByteArrive id) s = .next z ∧ SameBytes s z ∧ (z.core x.dst).window ac = some y ∧
      y.exps = w.exps ++ [(b, (((mine.map fun p => p.2.1).foldl max 0 : Nat) : Int) - 127)] ∧
      ∀ p ∈ mine, ∃ r ∈ z.dev.net, r.dst = p.2.2.1 ∧ r.cmd = p.2.2.2.1 ∧ r.src = x.dst ∧
        r.kind = .expReturn p.2.2.2.2 ((((mine.map fun p => p.2.1).foldl max 0 : Nat) : Int) - 127))) ∧
  (∀ (s : State) (id block : Nat) (v : Int) (x : Msg) (d : Cmd), Arrives s id x → x.kind = .expReturn block v → s.cmd x.dst x.cmd = some d →
    ∃ z, exec (.exponentReturnArrive id) s = .next z ∧ Left s id z ∧ SameBytes s z ∧ SameCores x.dst s z ∧
      z.cmd x.dst x.cmd = some { d with exps := d.exps ++ [(block, v)] }) ∧
  (∀ (s : State) (id ac off : Nat) (data : List Byte) (x : Msg), Arrives s id x → x.kind = .merge ac off data → x.arrived = none → ¬MergeTurn s x →
    ∃ z, exec (.arrivalMerge id) s = .next z ∧ z.mem = s.mem ∧
      z.dev = { s.dev with net := s.dev.net.map fun y => if y.id = id then { y with arrived := some s.dev.now } else y }) ∧
  (∀ (s : State) (id ac off : Nat) (data : List Byte) (x : Msg) (r q : Summary), s.Inv → s.mach.msg id = some x → s.mach.msgReady x = true → MergeTurn s x →
    (s.job x.job).isSome = true → (s.core x.dst).job = some x.job →
    ((s.core x.dst).life = .running ∨ ((s.core x.dst).life = .stopping ∧ x.arrived.isSome = true)) → x.kind = .merge ac off data →
    s.mach.receiving x.dst off = .ok (some r) → readSummary data = some q → r.agrees q = true →
    ∃ z bs, exec (.arrivalMerge id) s = .next z ∧ Left s id z ∧ bs = (merge (s.core x.dst).coin r q).2.bytes ∧
      SameBytesBut (window x.dst + off) bs.length s z ∧ (∀ i, i < bs.length → z.byte (window x.dst + off + i) = bs.getD i 0) ∧
      (z.core x.dst).coin = (merge (s.core x.dst).coin r q).1 ∧ (z.core x.dst).con = (s.core x.dst).con + 1 ∧
      natAt (z.core x.dst).acs ac = natAt (s.core x.dst).acs ac + 1) ∧
  (∀ (s : State) (id : Nat) (x : Msg) (a : Amsg) (m : Mach), Arrives s id x → x.kind = .amsg a → (s.core x.dst).amsgs.length < 64 → s.mach.amsgParked x = false →
    (((s.mach.dropMsg id).buildHandler x.dst a).1.held = true → exec (.amsgDeliver id) s = .next s) ∧
    (∀ h, m.held = false → (s.mach.dropMsg id).buildHandler x.dst a = (m, some h) →
      ∃ z, exec (.amsgDeliver id) s = .next z ∧ Left s id z ∧ (z.core x.dst).amsgs = (s.core x.dst).amsgs ++ [h] ∧ (z.core x.dst).con = (s.core x.dst).con) ∧
    (m.held = false → (s.mach.dropMsg id).buildHandler x.dst a = (m, none) →
      ∃ z, exec (.amsgDeliver id) s = .next z ∧ Left s id z ∧ (z.core x.dst).amsgs = (s.core x.dst).amsgs ∧
        (z.core x.dst).con = (s.core x.dst).con + 1 ∧ (z.core x.dst).abandoned = (s.core x.dst).abandoned + 1)) ∧
  (∀ (s : State) (c : CoreId) (d : Cmd) (rest : List Cmd), (s.core c.toNat).amsgs = d :: rest → (s.core c.toNat).life = .running →
    (s.core c.toNat).queueFull d.q = false → (∀ j, s.jobOf c.toNat = some j → j.parked = []) →
    ∃ z h, exec (.amsgHandlerEnqueue c) s = .next z ∧ SameBytes s z ∧ SameCores c.toNat s z ∧ (z.core c.toNat).amsgs = rest ∧
      (z.core c.toNat).queue d.q = (s.core c.toNat).queue d.q ++ [h] ∧ h.work = d.work ∧ h.ops = d.ops ∧ h.seq = (s.core c.toNat).nextSeq ∧ h.phase = none ∧
      (z.core c.toNat).freeAt = none) ∧
  (∀ (s : State) (c : CoreId) (d : Cmd) (rest : List Cmd) (n : Nat) (j : Job), (s.core c.toNat).amsgs = d :: rest → (s.core c.toNat).life = .running →
    (s.core c.toNat).queueFull d.q = false → (s.core c.toNat).job = some n → s.job n = some j → rest.length < 64 →
    (∀ x ∈ j.parked, x.dst = c.toNat ∧ x.job = n ∧ ∃ a, x.kind = .amsg a ∧ j.handlers.getD a.slot 0xFFFF = 0xFFFF) →
    j.parked.Pairwise (fun x y => x.id ≠ y.id) →
    ∃ z b, exec (.amsgHandlerEnqueue c) s = .next z ∧ SameBytes s z ∧ (z.core c.toNat).amsgs = rest ∧ z.job n = some b ∧ b.parked = [] ∧
      (z.core c.toNat).con = (s.core c.toNat).con + BitVec.ofNat 64 j.parked.length ∧
      (z.core c.toNat).abandoned = (s.core c.toNat).abandoned + BitVec.ofNat 64 j.parked.length) ∧
  (∀ (s : State) (c : CoreId) (ac : BitVec 8) (w : Window) (t n : Nat) (i : Instr), s.Inv → (s.core c.toNat).window ac.toNat = some w → t = ac.toNat - w.ac →
    t ∈ w.finishing → 1 ≤ w.expect → n = w.tile / max 1 (fmtNibs w.fmt / 2) →
    (w.base + w.tile * t + 4 * n ≤ w.staging + 8 * (n * t) ∨ w.staging + 8 * (n * t) + 8 * n ≤ w.base + w.tile * t) →
    ((i = .exactTileFinish c ac ∧ w.op = 6) ∨ (i = .fastTileFinish c ac ∧ w.op = 7)) →
    ∃ z, exec i s = .next z ∧ natAt (z.core c.toNat).acs ac.toNat = natAt (s.core c.toNat).acs ac.toNat + 1 ∧
      (∀ k, k < n → z.num (window c.toNat + w.base + w.tile * t + 4 * k) 4 =
        (if w.op = 6 then exactValue (s.num (window c.toNat + w.staging + 8 * (n * t + k)) 8)
            (((w.exps.find? fun p => p.1 == (n * t + k) / 32).map (·.2)).getD 0)
         else s.num (window c.toNat + w.staging + 8 * (n * t + k)) 8) % 2 ^ 32) ∧
      (∀ k, k < 8 * n → z.byte (window c.toNat + w.staging + 8 * (n * t) + k) = 0) ∧
      ∃ y, (z.core c.toNat).window ac.toNat = some y ∧ y.finishing = w.finishing.filter (· != t)) ∧
  (∀ (s : State) (c : CoreId) (u : Nat) (d : Cmd) (k : CtxId), s.cmd c.toNat u = some d → d.collExpired s.dev.now = true → d.again = [] →
    CanFault s c.toNat d k → ∃ z, exec (.collTimeout c u) s = .next z ∧ FaultedAt s c.toNat u d k 0x14 (BitVec.ofNat 64 (d.aux 56 8)) z)

/-- The counters of the interfaces of a job on this device (R400): INJ, CON, LOST, ABANDONED. -/
def Sys2Proof.Claims.sumsOf (s : State) (j : Job) : Sums := s.dev.sums j

/-- An answer leaves on the fabric in a frame of a class: on the lowest port that is up, where it takes a credit of its class and the next sequence number and
stays in the replay buffer, or waits for a credit (R414, R425; log entry 69). The link is rekeyed before the number reaches 2^48. -/
def Sys2Proof.Claims.Transmitted (s t : State) (cls : Nat) (r : Reply) : Prop :=
  t.dev = { s.dev with outbox := s.dev.outbox ++ [r], ports := t.dev.ports, uid := t.dev.uid } ∧
  ((∀ p ∈ s.dev.ports, p.up = false) → t.dev.ports = s.dev.ports ∧ t.dev.uid = s.dev.uid) ∧
  ∀ p, s.dev.ports.find? (fun p => p.up) = some p → s.dev.port p.num = p → p.waiting = [] →
    t.dev.uid = s.dev.uid + 1 ∧ (∀ k, k ≠ p.num → t.dev.port k = s.dev.port k) ∧
    (p.credits.getD cls 0 = 0 → t.dev.port p.num = { p with waiting := [⟨s.dev.uid, cls, 0, 0, []⟩] }) ∧
    (0 < p.credits.getD cls 0 → ∃ q, t.dev.port p.num = q ∧ q.up = true ∧ q.waiting = [] ∧ q.frames = p.frames ++ [⟨s.dev.uid, cls, p.seq, 0, []⟩] ∧
      q.credits = p.credits.modify cls (· - 1) ∧ (p.seq + 2 < 2 ^ 48 → q.seq = p.seq + 1 ∧ q.epoch = p.epoch) ∧
      (2 ^ 48 ≤ p.seq + 2 → q.seq = 0 ∧ q.epoch = p.epoch + 1))

/-- Another device leads the quiet domain of job `j` (R413). -/
def Sys2Proof.Claims.Led (s : State) (j : Nat) : Prop := ∃ q ∈ s.dev.quietDomains, (0, j) ∈ q ∧ q.head?.map (·.1) ≠ some 0

/-- Answers leave on the fabric in frames of a class, none or several; of one, `Transmitted` says how. -/
def Sys2Proof.Claims.Framed (s t : State) (cls : Nat) (l : List Reply) : Prop :=
  t.dev.outbox = s.dev.outbox ++ l ∧ (l = [] → t.dev.ports = s.dev.ports) ∧
  ∀ r, l = [r] → Transmitted { t with dev := { t.dev with outbox := s.dev.outbox, ports := s.dev.ports, uid := s.dev.uid } } t cls r

/-- The other members of the quiet domain that this device leads for a job, device and job there (R413). -/
def Sys2Proof.Claims.followers (s : State) (n : Nat) : List (Nat × Nat) := ((s.dev.quietDomains.find? fun q => q.head? == some (0, n)).getD []).drop 1

/-- The first quiet domain that holds this device's job `n` and that device `dev` leads names `lead` as its leading member (R413). -/
def Sys2Proof.Claims.LedBy (s : State) (dev n : Nat) (lead : Nat × Nat) : Prop :=
  dev ≠ 0 ∧ ∃ a q b, s.dev.quietDomains = a ++ q :: b ∧ q.head? = some lead ∧ lead.1 = dev ∧ (0, n) ∈ q ∧
    ∀ x ∈ a, (0, n) ∈ x → ∀ p, x.head? = some p → p.1 ≠ dev

/-- Four sums as a frame holds them. -/
def Sys2Proof.Claims.fourOf (z : Sums) : List Nat := [z.1.toNat, z.2.1.toNat, z.2.2.1.toNat, z.2.2.2.toNat]

/-- By what a wait knows a wave that was in progress for its job when it began (R396): the wave's number plus 1, and 0 where no wave was. -/
def Sys2Proof.Claims.InProgress (s : State) (job : Option Nat) (start : Nat) : Prop :=
  (job = none ∧ start = 0) ∨
  ∃ j, job = some j ∧
    ((¬Led s j ∧ ((∃ w, s.dev.waving = some w ∧ j ∈ w.jobs ∧ start = w.began + 1) ∨ ((∀ w, s.dev.waving = some w → j ∉ w.jobs) ∧ start = 0))) ∨
     (Led s j ∧ ((∃ p, s.dev.ledWaves.find? (fun p => p.1 == j) = some p ∧ start = p.2 + 1) ∨
       (s.dev.ledWaves.find? (fun p => p.1 == j) = none ∧ start = 0))))

/-- The sums of a job in a pass of a wave: this device's interfaces, and what the agents of the pass have returned (R406, R413). -/
def Sys2Proof.Claims.passTotal (s : State) (w : Wave) (n : Nat) (j : Job) : Sums :=
  let as := w.agents.filter fun a => a.job == n && a.pass == w.pass
  ((sumsOf s j).1 + (as.map (·.inj)).sum, (sumsOf s j).2.1 + (as.map (·.con)).sum, (sumsOf s j).2.2.1 + (as.map (·.lost)).sum,
    (sumsOf s j).2.2.2 + (as.map (·.abandoned)).sum)

/-- What a wave says of a job by the sums of its two passes (R396, R406, R412). -/
def Sys2Proof.Claims.verdict (n : Nat) (f z : Sums) : Word :=
  BitVec.ofNat 64 (n * 2 ^ 32 + (if z.2.2.1 ≠ 0 then 2 else 0) + (if f.2.1 = z.1 ∧ z.1 = z.2.1 then 1 else 0))

/-- A wave's result has reached job `n` (R396, R406, R412): its registers hold it; a wait that began before the wave ends by it or counts it, and one that the
wave was in progress at waits on for a later one. -/
def Sys2Proof.Claims.ResultAt (s t : State) (n wave : Nat) (j : Job) (f z : Sums) : Prop :=
  (∃ b, t.job n = some b ∧ b = { j with waved := true, qlost := z.2.2.1, qabandon := z.2.2.2, qwave := verdict wave f z }) ∧
  ∀ c k lim start seen, (s.dev.cores.any fun p => p.1 == c) = true → (s.core c).job = some n → (s.ctx c k).wait = some (.quiet lim start seen none) →
    (t.ctx c k).latch = true ∧
    (t.ctx c k).wait = some (if start = wave + 1 then .quiet lim 0 seen none
      else if f.2.1 = z.1 ∧ z.1 = z.2.1 then .quiet lim start seen (some (verdict wave f z))
      else if lim = 0 then .quiet lim start seen none
      else .quiet lim start (seen + 1) (if lim ≤ seen + 1 then some (verdict wave f z) else none))

/-- R333, R377, R386, R387, R396, R406, R412, R413: `acwait` returns when its counter has reached its value, and traps where the counter's window has ERR;
`acany` allocates its return-queue entry, which takes the lowest ready counter of its range that nobody has claimed. `wquiet` waits for a wave that begins
after it. A wave reads the sums of its jobs twice, once every agent of a pass has answered; a job is quiet when what was consumed in the first pass, injected
in the second and consumed in the second are equal, and each wait that began before the wave ends or counts it. The agents are asked for each pass and told the
result in frames. For a lead of another device this device is the agent: it returns its sums, and takes the result. Two choices are the model's: that the interfaces of this device are read at one moment of a pass (log
entry 53), and what the frames of a wave hold (log entry 77). -/
def Obligations.WaitsAndQuiet : Prop :=
  (∀ (s : State) (a : Reg) (n : BitVec 8) (g : Guard), s.cur.guard g = true → (s.cur.reg a).extractLsb' 32 32 = 0 →
    (s.here.acError n.toNat = none → (s.cur.reg a).toNat ≤ natAt s.here.acs n.toNat → ∃ t, exec (.acwait a n g) s = .next t ∧ OnlyIssued s t) ∧
    (s.here.acError n.toNat = none → natAt s.here.acs n.toNat < (s.cur.reg a).toNat → exec (.acwait a n g) s = .next s) ∧
    (∀ w, s.here.window n.toNat = some w → w.err = true → CanTrap s.cur Cause.access →
      ∃ t, exec (.acwait a n g) s = .next t ∧ Trapped Cause.access (BitVec.ofNat 64 w.base) s.cur.pc s t)) ∧
  (∀ (s : State) (a : Reg) (n : BitVec 8) (g : Guard) (m : Nat), s.cur.guard g = true → m = (s.cur.reg a).toNat → 1 ≤ m → n.toNat + m ≤ 256 →
    s.cur.rq.length < 16 → (∀ k, n.toNat ≤ k → k < n.toNat + m → s.here.acError k = none) → (∀ p ∈ s.here.anys, s.here.readyAc p.first p.count = none) →
    (∀ e ∈ s.cur.rq, e.id ≠ s.dev.uid) →
    (s.here.readyAc n.toNat m = none → ∃ t, exec (.acany a n g) s = .next t ∧ SameBytes s t ∧ SameCores s.cid s t ∧ SameCtxs s.cid [s.kid] s t ∧
      (t.core s.cid).anys = s.here.anys ++ [⟨s.kid, n.toNat, m, s.dev.uid⟩] ∧
      Issued s.cur { s.cur with rq := s.cur.rq ++ [⟨s.dev.uid, none, none⟩] } (s.cur.pc + 4) t.cur ∧ NoWrite s.cur t.cur) ∧
    (∀ k, s.here.readyAc n.toNat m = some k → ∃ t, exec (.acany a n g) s = .next t ∧ SameBytes s t ∧ SameCores s.cid s t ∧ SameCtxs s.cid [s.kid] s t ∧
      (t.core s.cid).claims = s.here.claims ++ [k] ∧ n.toNat ≤ k ∧ k < n.toNat + m ∧ k ∉ s.here.claims ∧
      Issued s.cur { s.cur with latch := true, rq := s.cur.rq ++ [⟨s.dev.uid, some (BitVec.ofNat 64 k), none⟩] } (s.cur.pc + 4) t.cur ∧
      NoWrite s.cur t.cur)) ∧
  (∀ (s : State) (d a : Reg) (g : Guard), s.cur.guard g = true →
    (∀ start, s.cur.wait = none → (s.cur.reg a).extractLsb' 32 32 = 0 → InProgress s s.here.job start →
      ∃ t, exec (.wquiet d a g) s = .next t ∧ OnlyCtx s.cid s.kid s t ∧ t.cur = { s.cur with wait := some (.quiet (s.cur.reg a).toNat start 0 none) }) ∧
    (∀ lim start seen, s.cur.wait = some (.quiet lim start seen none) → exec (.wquiet d a g) s = .next s) ∧
    (∀ lim start seen v, s.cur.wait = some (.quiet lim start seen (some v)) → ∃ t, exec (.wquiet d a g) s = .next t ∧ OnlyCtx s.cid s.kid s t ∧
      Issued s.cur { s.cur with wait := none } (s.cur.pc + 4) t.cur ∧ Wrote s.cur d v t.cur)) ∧
  (∀ s : State, s.dev.waving = none → s.dev.now % 6144 = 0 → s.dev.waveAt ≠ some s.dev.now → s.dev.quietJobs ≠ [] →
    ∃ t, exec .quietWave s = .next t ∧ SameBytes s t ∧ (∀ g, t.core g = s.core g) ∧ t.dev.wave = (s.dev.wave + 1) % 2 ^ 32 ∧
      t.dev.waving = some ⟨s.dev.quietJobs, 1, (s.dev.wave + 1) % 2 ^ 32, [], []⟩ ∧
      Framed s t 3 (s.dev.quietJobs.flatMap fun n => (followers s n).map fun a => .wave a.1 [a.2, (s.dev.wave + 1) % 2 ^ 32])) ∧
  (∀ (s : State) (n : Nat), n ∈ s.dev.quietJobs ↔ (∃ j ∈ s.dev.jobs, j.id = n) ∧ ¬Led s n ∧
    ∃ p ∈ s.dev.cores, p.2.job = some n ∧ ∃ k lim start seen, (p.2.ctx k).wait = some (.quiet lim start seen none)) ∧
  (∀ (s : State) (w : Wave) (n : Nat) (j : Job), s.dev.waving = some w → w.jobs = [n] → s.job n = some j →
    ((∃ a ∈ s.dev.agentsOf n, ∀ x ∈ w.agents, ¬(x.device = a ∧ x.job = n ∧ x.pass = w.pass)) → exec .wavePassEnd s = .next s) ∧
    ((∀ a ∈ s.dev.agentsOf n, ∃ x ∈ w.agents, x.device = a ∧ x.job = n ∧ x.pass = w.pass) →
      (w.pass = 1 → ∃ t, exec .wavePassEnd s = .next t ∧ SameBytes s t ∧ (∀ g, t.core g = s.core g) ∧
        t.dev.waving = some { w with pass := 2, first := [(n, passTotal s w n j)] } ∧
        Framed s t 3 ((followers s n).map fun a => .wave a.1 [a.2, w.began])) ∧
      (∀ f : Sums, w.pass = 2 → w.first = [(n, f)] →
        ∃ t, exec .wavePassEnd s = .next t ∧ SameBytes s t ∧ t.dev.waving = none ∧ ResultAt s t n w.began j f (passTotal s w n j) ∧
          Framed s t 3 ((followers s n).map fun a => .wave a.1 ([a.2, w.began] ++ fourOf f ++ fourOf (passTotal s w n j)))))) ∧
  (∀ (s : State) (dev : BitVec 6) (z : Sums) (w : Wave) (n : Nat),
    (∀ q ∈ s.dev.quietDomains, (0, n) ∈ q → ∀ p, q.head? = some p → p.1 ≠ dev.toNat ∨ dev = 0) → s.dev.waving = some w → w.jobs = [n] →
    dev.toNat ∈ s.dev.agentsOf n → (∀ a ∈ w.agents, ¬(a.device = dev.toNat ∧ a.job = n ∧ a.pass = w.pass)) →
    ∃ t, exec (.waveAgentGather dev ([n] ++ fourOf z)) s = .next t ∧ SameBytes s t ∧
      t.dev = { s.dev with waving := some { w with agents := w.agents ++ [⟨dev.toNat, n, w.pass, z.1, z.2.1, z.2.2.1, z.2.2.2⟩] } }) ∧
  (∀ (s : State) (n a : Nat), a ∈ s.dev.agentsOf n ↔ ∃ p ∈ followers s n, p.1 = a) ∧
  (∀ (s : State) (dev : BitVec 6) (lead : Nat × Nat) (n wn : Nat) (j : Job), LedBy s dev.toNat n lead → s.job n = some j →
    (∃ t, exec (.waveAgentGather dev [n, wn]) s = .next t ∧ SameBytes s t ∧
      Transmitted { s with dev := { s.dev with ledWaves := (s.dev.ledWaves.filter fun p => p.1 != n) ++ [(n, wn)] } } t 3
        (.wave lead.1 ([lead.2] ++ fourOf (sumsOf s j)))) ∧
    (∀ f z : Sums, ∃ t, exec (.waveAgentGather dev ([n, wn] ++ fourOf f ++ fourOf z)) s = .next t ∧ SameBytes s t ∧ ResultAt s t n wn j f z ∧
      t.dev.ledWaves = s.dev.ledWaves.filter fun p => p.1 != n))

/-! ## Launch, dealing, pre-emption -/

/-- The level of a launch after a wait (R343): one more every 10 ms, to level 6; level 7 never changes, and level 6 has nowhere to go. -/
def Sys2Proof.Claims.levelAfter (start waited : Nat) : Nat := if start ≤ 5 then Min.min 6 (start + waited / 27000000) else start

/-- A transaction of a node on [pa, pa + n) waits (R364, R368): an earlier one of the node is held; one that is not performed everywhere overlaps it or is an
acquire, or this one is a release; the CXL home agent holds the bytes. -/
def Sys2Proof.Claims.Held (s : State) (node pa n : Nat) (rel : Bool) : Prop :=
  (∃ p ∈ s.dev.deferred, p.1 = node) ∨
  (∃ p ∈ s.dev.pendingMem, p.node = node ∧ (rel = true ∨ p.acq = true ∨ (p.pa < pa + n ∧ pa < p.pa + p.bytes))) ∨
  ∃ p ∈ s.dev.cores, ∃ b ∈ p.2.accs, b.stage = .cxl ∧ b.pa < pa + n ∧ pa < b.pa + b.bytes

/-- The pages that the supervisor takes for a pool of `n` (R342; log entry 68): those given back first, then those of HBM from the top down. -/
def Sys2Proof.Claims.PoolOf (d e : Dev) (n : Nat) (pool : List Nat) : Prop :=
  pool.length = n ∧ e.freePages = d.freePages.drop n ∧
  (∀ k, k < n → pool.getD k 0 = if k < d.freePages.length then d.freePages.getD k 0
    else d.topPage / 4096 * 4096 - 4096 * (k - d.freePages.length + 1)) ∧
  (n ≤ d.freePages.length → e.topPage = d.topPage) ∧
  (d.freePages.length < n → e.topPage = d.topPage / 4096 * 4096 - 4096 * (n - d.freePages.length))

/-- R334, R335, R337, R339-R343, R345-R349, R352, R353, R411, R417: a queue-put waits for the earlier transactions of its node, is answered with the first
status that applies, and accepted with 0 alone; a queue holds what the supervisor programs; a head's level ages; a launch that fits is admitted with the lowest
free job ID and its clusters, and one whose record is malformed is rejected with status 6; dealing sets the contexts to their entries, parameters and grid
indices; the end of a job releases its cores and its counters, leaves it out of the wave in progress and writes its end record; an abort ends with status 7. -/
def Obligations.LaunchAndDealing : Prop :=
  (∀ (s : State) (src tag : BitVec 16) (h : PutHdr) (rec : List Byte) (w : WorkQueue) (st : Nat), w = s.dev.queue h.addr.toNat →
    st = (if h.clean = false ∨ h.ord = 3 ∨ 65536 ≤ h.addr.toNat then 8 else if h.len ≠ 256 ∨ rec.length ≠ 256 then 4 else if w.en = false then 3
      else if s.dev.nodeDomain src.toNat = none ∨ s.dev.nodeDomain src.toNat ≠ w.domain then 2 else if w.depth ≤ w.recs.length then 1 else 0) →
    ¬Held s src.toNat 0 0 true →
    ∃ t u, exec (.queuePut src tag h rec) s = .next t ∧ SameBytes s t ∧ Transmitted s u 1 (.put src tag st) ∧ t.dev = { u.dev with queues := t.dev.queues } ∧
      (st ≠ 0 → t.dev.queues = s.dev.queues) ∧ (st = 0 → (t.dev.queue h.addr.toNat).recs = w.recs ++ [rec])) ∧
  (∀ (s : State) (q : BitVec 16) (p : QueueProg), s.dev.inRom = false → ∃ t, exec (.programQueue q p) s = .next t ∧ SameBytes s t ∧
    t.dev = { s.dev with queues := t.dev.queues } ∧
    t.dev.queue q.toNat = { s.dev.queue q.toNat with en := p.en, domain := p.domain, prio := p.prio % 8, depth := Max.max 1 (Min.min p.depth 256), done := p.done }) ∧
  (∀ (s : State) (q : BitVec 16), (s.dev.queue q.toNat).recs ≠ [] → ∃ t, exec (.levelAging q) s = .next t ∧ SameBytes s t ∧
    t.dev = { s.dev with queues := t.dev.queues } ∧
    (t.dev.queue q.toNat).level = levelAfter (s.dev.queue q.toNat).startLevel (s.dev.now - (s.dev.queue q.toNat).since)) ∧
  (∀ (s : State) (d : Dev) (q since id : Nat) (r : List Byte) (rest : List (List Byte)) (m : Mach) (j : Job), d = s.dev.choose →
    d.topChosen = some ((q, none), since) → (d.queue q).recs = r :: rest →
    (d.recordOk (d.queue q) r = false → ∃ t, exec .admitHead s = .next t ∧ SameBytes s t ∧ t.dev.jobs = s.dev.jobs ∧ (t.dev.queue q).recs = rest ∧
      ∀ a, (d.queue q).done = some a → ∃ rec, t.dev.outbox = s.dev.outbox ++ [.endRecord a rec] ∧ rec.length = 32 ∧ rec.head? = some 6) ∧
    (d.recordOk (d.queue q) r = true → Mach.readTables ⟨s.mem, [], d, false⟩ (mkJob d (d.queue q) r (d.freeId.getD 0)) = (m, some j) → m.held = false → m.dev.fits r = true →
      m.dev.freeId = some id → j.launch = r → j.queue = q → m.dev.jobs = s.dev.jobs → (m.dev.queue q).recs = r :: rest →
      ∃ t b, exec .admitHead s = .next t ∧ (∀ x, t.byte x = (s.mem.apply m.log).read x) ∧ t.dev.jobs = s.dev.jobs ++ [b] ∧ b.id = id ∧
        b.clusters = m.dev.partition r ∧ b.clusters.length = Launch.clusters r ∧ b.image = j.image ∧ b.groups = j.groups ∧
        PoolOf m.dev t.dev (Launch.poolPages r) b.pool ∧ (t.dev.queue q).recs = rest)) ∧
  (∀ s : State, ∃ t, exec .preemptDecision s = .next t ∧ SameBytes s t ∧ t.dev = { s.dev with agenda := t.dev.agenda } ∧
    t.dev.agenda = s.dev.agenda ++ s.dev.toPreempt.map fun q => Move.event (.preemptRequest (BitVec.ofNat 5 q))) ∧
  (∀ (s : State) (job : BitVec 12) (c : CoreId) (j : Job) (k n : Nat), s.job job.toNat = some j → j.id = job.toNat → j.walker c.toNat = some (k, n) →
    j.ending = none → Launch.paired j.launch = false → j.parked = [] → (∀ p ∈ s.dev.cores, ∀ b ∈ p.2.accs, b.stage ≠ .cxl) → s.mach.dealTarget j (clusterOf c.toNat) n = some c.toNat →
    ∃ t, exec (.dealIteration job c) s = .next t ∧
      (∀ g, g ≠ c.toNat → t.core g = { withCtxs (t.core g) (s.core g) with kq := (t.core g).kq } ∧
        (∀ k, t.ctx g k = { s.ctx g k with latch := (t.ctx g k).latch }) ∧ ((∀ e ∈ (s.core g).kq, e.paused = none) → (t.core g).kq = (s.core g).kq) ∧
        ((s.core c.toNat).slots = [] → ∀ k, (t.ctx g k).latch = (s.ctx g k).latch)) ∧
      ((∃ p ∈ (s.core c.toNat).acs, p.2 ≠ 0) ∨ ((s.core c.toNat).slots ≠ [] ∧ ∃ p ∈ s.dev.cores, p.1 = c.toNat) → ∀ k, (t.ctx c.toNat k).latch = true) ∧ (t.core c.toNat).job = some j.id ∧ (t.core c.toNat).life = .running ∧
      (t.core c.toNat).busy = true ∧ (t.core c.toNat).phase = 0 ∧ ((s.core c.toNat).cmds = [] → (t.core c.toNat).cmds = []) ∧ (t.core c.toNat).rings = [] ∧
      (t.ctx c.toNat .a).pc.toNat = Launch.entry j.launch 0 ∧ (t.ctx c.toNat .x).pc.toNat = Launch.entry j.launch 1 ∧
      (t.ctx c.toNat .s).pc.toNat = Launch.entry j.launch 2 ∧
      (∀ x, (t.ctx c.toNat x).reg 25 = BitVec.ofNat 64 (Launch.params j.launch) ∧ (t.ctx c.toNat x).tick = 0 ∧ (t.ctx c.toNat x).done = false ∧
        (∀ l, l < 6 → (t.ctx c.toNat x).reg (BitVec.ofNat 5 (26 + l)) = BitVec.ofNat 64 ((gridIndices j.launch n).getD l 0)) ∧
        ∀ r : Reg, r.toNat < 25 → (t.ctx c.toNat x).reg r = 0) ∧
      ∃ b, t.job j.id = some b ∧ b.next = j.next.set k (nextIteration j.launch j.clusters.length n)) ∧
  (∀ (s : State) (job : BitVec 12) (j : Job) (e : Ending), s.job job.toNat = some j → j.id = job.toNat → j.ending = some e →
    (∀ p ∈ s.dev.cores, ∀ b ∈ p.2.accs, b.stage ≠ .cxl) →
    ∃ t, exec (.jobEnd job) s = .next t ∧ t.dev.jobs = s.dev.jobs.filter (fun b => b.id != j.id) ∧
      (∀ g l, l = (if s.dev.jobs.any (fun b => b.id != j.id && b.saved.any fun v => v.core.id == g) then Life.saved else .idle) →
        ((s.core g).job ≠ some j.id → t.core g = { s.core g with life := if (s.core g).life = .saved then l else (s.core g).life }) ∧
        ((s.dev.cores.any fun p => p.1 == g) = true → (s.core g).job = some j.id →
          (t.core g).life = l ∧ (t.core g).job = none ∧ (t.core g).cmds = [] ∧ (t.core g).accs = [])) ∧
      (∀ w, t.dev.waving = some w → j.id ∉ w.jobs ∧ ∀ p ∈ w.first, p.1 ≠ j.id) ∧
      (∀ a, (s.dev.queue j.queue).done = some a → ∃ rec, Reply.endRecord a rec ∈ t.dev.outbox ∧ rec.length = 32 ∧
        rec.head? = some (BitVec.ofNat 8 e.status)) ∧
      (∀ p ∈ t.dev.ports, ∀ x ∈ p.inj ++ p.lost, x.1 ≠ j.id) ∧ (∀ q ∈ t.dev.quietDomains, (0, j.id) ∉ q) ∧ ∀ x ∈ t.dev.net, x.job ≠ j.id) ∧
  (∀ (s : State) (job : BitVec 12) (j : Job), s.job job.toNat = some j → j.ending = none →
    ∃ t j', exec (.jobAbort job) s = .next t ∧ SameBytes s t ∧ (∀ g, t.core g = s.core g) ∧ t.job job.toNat = some j' ∧
      j' = { j with ending := some ⟨7, 0, 0, 0, 0⟩ })

/-- The image of a core keeps the place: one of its window outside the instruction store, which the job's image fills again (R355). -/
def Sys2Proof.Claims.Kept (c x : Nat) : Prop :=
  window c ≤ x ∧ x < window (c + 1) ∧ ¬(window c + 0x300000 ≤ x ∧ x < window c + 0x310000)

/-- R180, R233, R345, R355, R356, R358, R401: the cores of a pre-empted cluster that run the job enter STOPPING, and no other core does where no gang is open;
after DRAINLIM the issued commands stop, and the core is saved once no access of it can be performed and it owes no merge; its image holds the core, its bytes
and its marks, and its own state is that of an idle core; a core saved when its job's clusters are all back goes back at once; a restored core is as it was
saved, with the job's image in its instruction store. The counters of a saved core go to the job, but not during a pass of a wave. Four points are the model's
readings: that every register of the image comes back, what a handler saved among them (log entry 26); that the accesses of the system port which the core holds
are saved with it (log entry 51); that a core saved when its job's clusters are all back goes back at once, and that cores stopped only for a gang come back with
the job's last cluster (log entry 52). -/
def Obligations.PreemptionAndRestoration : Prop :=
  (∀ (s : State) (q : BitVec 5) (j : Job), (s.dev.jobs.find? fun j => j.clusters.contains q.toNat && !j.away.contains q.toNat) = some j → j.level < 7 →
    j.ending = none → (∀ g, (s.core g).gangs = []) → s.job j.id = some j →
    ∃ t b, exec (.preemptRequest q) s = .next t ∧ SameBytes s t ∧ t.job j.id = some b ∧ b.away = j.away ++ [q.toNat] ∧
      ∀ g, (∀ p ∈ s.dev.cores, p.1 = g → p.2 = s.core g) →
        (t.core g).life = if clusterOf g = q.toNat ∧ (s.core g).life = .running ∧ (s.core g).job = some j.id then .stopping else (s.core g).life) ∧
  (∀ (s : State) (c : CoreId), (s.core c.toNat).life = .stopping → (s.core c.toNat).drainlim.toNat ≤ s.dev.now - (s.core c.toNat).stopAt →
    (∀ d ∈ (s.core c.toNat).cmds, d.cabinet = false) → s.dev.accessing c.toNat = false → (∀ x ∈ s.dev.net, x.dst = c.toNat → x.arrived = none) →
    ∃ t, exec (.drainlimExpiry c) s = .next t ∧ OnlyCore c.toNat s t ∧ (t.core c.toNat).life = .saving ∧
      (t.core c.toNat).cmds = (s.core c.toNat).cmds.map (fun d => if d.issued then { d with stopped := true } else d) ∧
      ∀ k, t.ctx c.toNat k = s.ctx c.toNat k) ∧
  (∀ (s : State) (c : CoreId) (j : Job), (s.core c.toNat).life = .saving → s.jobOf c.toNat = some j →
    ∃ t b v, exec (.saveComplete c) s = .next t ∧ SameBytes s t ∧ SameCores c.toNat s t ∧ (t.core c.toNat).life = .saved ∧ (t.core c.toNat).job = none ∧
      (t.core c.toNat).cmds = [] ∧ t.job j.id = some b ∧ b = { j with saved := j.saved ++ [v] } ∧
      t.dev.agenda = s.dev.agenda ++ (if j.away = [] then [.event (.restoreStart (BitVec.ofNat 5 (c.toNat / 32)))] else []) ∧
      v.core = { s.core c.toNat with tlb := [], life := .saved } ∧
      (∀ x n, (x, n) ∈ v.bytes ↔ ((x, n) : Host.Cell) ∈ s.mem ∧ Kept c.toNat x) ∧ (∀ u, u ∈ v.poison ↔ u ∈ s.dev.poison ∧ Kept c.toNat u)) ∧
  (∀ (s : State) (q : BitVec 5) (j : Job) (since : Nat), s.dev.chosen = [(j.queue, some j.id, since)] → s.job j.id = some j → q.toNat ∈ j.away →
    s.dev.clusterFree q.toNat = true →
    ∃ t b, exec (.restoreStart q) s = .next t ∧ SameBytes s t ∧ t.job j.id = some b ∧ b = { j with away := j.away.filter (· != q.toNat) } ∧
      ((∀ x ∈ j.away, x = q.toNat) → t.dev.chosen = [] ∧ t.dev.lastServed = j.queue) ∧
      ∀ v ∈ j.saved, (s.core v.core.id).life = .saved → (clusterOf v.core.id = q.toNat ∨ ∀ x ∈ j.away, x = q.toNat) →
        (t.core v.core.id).life = .restoring ∧ (t.core v.core.id).job = some j.id) ∧
  (∀ (s : State) (c : CoreId) (j : Job) (v : Saved) (m : Mach) (image : List Byte), s.Inv → (s.core c.toNat).life = .restoring → s.jobOf c.toNat = some j →
    j.parked = [] → (j.saved.find? fun z => z.core.id == c.toNat) = some v → v.core.job = some j.id → clusterOf c.toNat ∉ j.away →
    (∀ d ∈ v.core.cmds, d.gang = none) → (∀ d ∈ v.core.kq, d.since = none) →
    (s.dev.waving = none ∨ (v.core.inj = 0 ∧ v.core.con = 0 ∧ v.core.lost = 0 ∧ v.core.abandoned = 0)) →
    (v.bytes.foldl (fun m b => m.wr b.1 b.2) (s.mach.clearWindow c.toNat)).jobImage j = (m, image) → m.held = false → image.length ≤ 0x10000 →
    ∃ t b, exec (.restoreComplete c) s = .next t ∧ (t.core c.toNat).life = .running ∧ (∀ k, t.ctx c.toNat k = v.core.ctx k) ∧
      (∀ q, (t.core c.toNat).queue q = (v.core.queue q).map fun d => { d with stopped := false }) ∧ (t.core c.toNat).accs = v.core.accs ∧
      (∀ i, i < image.length → t.byte (window c.toNat + 0x300000 + i) = image.getD i 0) ∧
      (∀ x, window c.toNat ≤ x → x < window (c.toNat + 1) → ¬(window c.toNat + 0x300000 ≤ x ∧ x < window c.toNat + 0x300000 + image.length) →
        t.byte x = (v.bytes.foldl (fun (m : Mem) b => m.write b.1 b.2) []).read x) ∧
      t.job j.id = some b ∧ b.inj = j.inj + v.core.inj ∧ b.con = j.con + v.core.con ∧ b.lost = j.lost + v.core.lost ∧
      b.abandoned = j.abandoned + v.core.abandoned ∧ (t.core c.toNat).inj = 0 ∧ (t.core c.toNat).con = 0) ∧
  (∀ (s : State) (c : CoreId), (s.dev.waving ≠ none → exec (.counterFold c) s = .next s) ∧
    (s.dev.waving = none → ∃ t, exec (.counterFold c) s = .next t ∧ SameBytes s t ∧ (∀ g, t.core g = s.core g) ∧
      ∀ n j v, s.job n = some j → (j.saved.find? fun z => z.core.id == c.toNat) = some v → ∃ b, t.job n = some b ∧ b.inj = j.inj + v.core.inj ∧
        b.con = j.con + v.core.con ∧ b.lost = j.lost + v.core.lost ∧ b.abandoned = j.abandoned + v.core.abandoned))

/-! ## The fabric -/

/-- Every byte of [a, a + n) is HBM or CXL memory (R361, R419). -/
def Sys2Proof.Claims.InMemory (s : State) (a n : Nat) : Prop :=
  a + n ≤ 8 * 48 * 2 ^ 30 ∨ (0x100000000000 ≤ a ∧ a + n ≤ 0x100000000000 + s.dev.cxlBytes)

/-- The key slot belongs to the source's domain, holds a key and is bound to no CONFIDENTIAL job (R416, R341). -/
def Sys2Proof.Claims.MayUse (s : State) (node slot : Nat) : Prop :=
  ∃ v, s.dev.keySlot slot = some v ∧ s.dev.nodeDomain node = some v.domain ∧ v.key ≠ none ∧ v.job = none

/-- A header without a fault of its form (R415, R416). -/
def Sys2Proof.Claims.Formed (h : MemHdr) (lenOk : Prop) : Prop := h.clean = true ∧ h.ord ≠ 3 ∧ lenOk

/-- A byte that a read of [a, a + n) reaches, of two pages at most, is in a poisoned unit: of die 0's replica, where a page is replicated (R366, R416). -/
def Sys2Proof.Claims.Poisoned (s : State) (a n : Nat) : Prop :=
  s.dev.poisonIn (s.dev.replicaPa 0 a) (Min.min n (4096 - a % 4096)) ≠ none ∨
  s.dev.poisonIn (s.dev.replicaPa 0 (a + (4096 - a % 4096))) (n - (4096 - a % 4096)) ≠ none

/-- The transaction on `n` bytes is refused with a status (R416). -/
def Sys2Proof.Claims.RefusedWith (s : State) (h : MemHdr) (lenOk : Prop) (n : Nat) (reads : Prop) (st : Nat) : Prop :=
  (st = 8 ∧ ¬Formed h lenOk) ∨
  (st = 5 ∧ Formed h lenOk ∧ ¬InMemory s h.addr.toNat (Max.max 1 n)) ∨
  (st = 6 ∧ Formed h lenOk ∧ InMemory s h.addr.toNat (Max.max 1 n) ∧ ¬MayUse s h.src.toNat h.key.toNat) ∨
  (st = 7 ∧ Formed h lenOk ∧ InMemory s h.addr.toNat (Max.max 1 n) ∧ MayUse s h.src.toNat h.key.toNat ∧ reads ∧
    Poisoned s h.addr.toNat n)

/-- Nothing stands against the transaction. -/
def Sys2Proof.Claims.Served (s : State) (h : MemHdr) (lenOk : Prop) (n : Nat) (reads : Prop) : Prop :=
  Formed h lenOk ∧ InMemory s h.addr.toNat (Max.max 1 n) ∧ MayUse s h.src.toNat h.key.toNat ∧ (reads → ¬Poisoned s h.addr.toNat n)

/-- No byte of [a, a + n) is in a replicated page. -/
def Sys2Proof.Claims.Single (s : State) (a n : Nat) : Prop := ∀ r ∈ s.dev.replicas, ∀ x, a ≤ x → x < a + n → ¬(r.page ≤ x ∧ x < r.page + r.size)

/-- [a, a + n) is in one page, and that page is replicated. -/
def Sys2Proof.Claims.Replicated (s : State) (a n : Nat) : Prop :=
  0 < n ∧ a % 4096 + n ≤ 4096 ∧ ∃ r ∈ s.dev.replicas, r.page ≤ a ∧ a < r.page + r.size

/-- The device has changed in nothing but the answer that leaves it. -/
def Sys2Proof.Claims.Answered (s t : State) (r : Reply) : Prop := t.dev = { s.dev with outbox := s.dev.outbox ++ [r] }

/-- The atomics of R415 with their operations. -/
def Sys2Proof.Claims.memAtomic : Instr → Option (AccOp × MemHdr × List Byte)
  | .memAmoadd h d => some (.add, h, d)
  | .memAmoand h d => some (.and, h, d)
  | .memAmoor h d => some (.or, h, d)
  | .memAmoxor h d => some (.xor, h, d)
  | .memAmomin h d => some (.min, h, d)
  | .memAmomax h d => some (.max, h, d)
  | .memAmominu h d => some (.minu, h, d)
  | .memAmomaxu h d => some (.maxu, h, d)
  | .memAmoswap h d => some (.swap, h, d)
  | .memAmocas h d => some (.cas, h, d)
  | _ => none

/-- The node of a transaction, its bytes, and whether it is a release: a queue-put always is (R417), and the transport engine's accesses count with their
queue pair (R418; log entry 70). -/
def Sys2Proof.Claims.turnOf : Instr → Option (Nat × Nat × Nat × Bool)
  | .memRead h => some (h.src.toNat, h.addr.toNat, h.len.toNat, h.ord == 1)
  | .memWrite h _ => some (h.src.toNat, h.addr.toNat, h.len.toNat, h.ord == 1)
  | .memAmocas h _ => some (h.src.toNat, h.addr.toNat, h.len.toNat / 2, h.ord == 1)
  | .queuePut src _ _ _ => some (src.toNat, 0, 0, true)
  | .rdmaWrite qp a data => some (65536 + qp, a.toNat, data.length, false)
  | .rdmaRead qp a n => some (65536 + qp, a.toNat, n, false)
  | i => match memAtomic i with
    | some (_, h, _) => some (h.src.toNat, h.addr.toNat, h.len.toNat, h.ord == 1)
    | none => none

/-- The write of a transaction of `n` bytes has, for its part at `b` in a replicated page, a position of the update order, and its answer waits until every
replica has applied it (R365, R368). -/
def Sys2Proof.Claims.InOrder (s t : State) (h : MemHdr) (n b : Nat) (part : List Byte) (r : Reply) : Prop :=
  t.dev = { s.dev with updates := s.dev.updates ++ [⟨s.dev.nextUpdate, b, part, h.key.toNat, 1024, 0⟩], nextUpdate := s.dev.nextUpdate + 1,
                       pendingMem := s.dev.pendingMem ++ [⟨s.dev.nextUpdate, h.src.toNat, h.addr.toNat, n, h.ord == 2, some r⟩] }

/-- R364, R365, R368, R415, R416: a transaction of another node that may not be performed yet is held. Else it is refused with the first status that applies,
and nothing changes; a read that is served answers with the bytes; a write puts its payload at the address; an atomic puts the new value and answers with the
old one; a write or an atomic to a replicated page takes its place in the update order, and is answered when every replica has applied it; of a write that runs
into or out of a replicated page, each page's part goes its own way. -/
def Obligations.MemTransactions : Prop :=
  (∀ (s : State) (i : Instr) (node pa n : Nat) (rel : Bool), turnOf i = some (node, pa, n, rel) → Held s node pa n rel →
    ∃ t, exec i s = .next t ∧ SameBytes s t ∧ t.dev = { s.dev with deferred := s.dev.deferred ++ [(node, i)] }) ∧
  (∀ (s : State) (h : MemHdr) (n a : Nat), n = h.len.toNat → a = h.addr.toNat → ¬Held s h.src.toNat a n (h.ord == 1) →
    (∀ st, RefusedWith s h (n ≤ 4096) n True st → ∃ t, exec (.memRead h) s = .next t ∧ SameBytes s t ∧ Transmitted s t 0 (.nolham h.src h.tag st [])) ∧
    (Served s h (n ≤ 4096) n True → ∃ t bs, exec (.memRead h) s = .next t ∧ SameBytes s t ∧ Transmitted s t 0 (.nolham h.src h.tag 0 bs) ∧ bs.length = n ∧
      (Single s a n → KeyFits s a n h.key.toNat → ∀ k, k < n → bs.getD k 0 = s.byte (a + k)) ∧
      (Replicated s a n → KeyFits s (s.dev.replicaPa 0 a) n h.key.toNat → ∀ k, k < n → bs.getD k 0 = s.byte (s.dev.replicaPa 0 a + k)))) ∧
  (∀ (s : State) (h : MemHdr) (data : List Byte) (n a k : Nat), s.Inv → n = h.len.toNat → a = h.addr.toNat → ¬Held s h.src.toNat a n (h.ord == 1) →
    k = 4096 - a % 4096 →
    (∀ st, RefusedWith s h (n ≤ 4096 ∧ data.length = n) n False st →
      ∃ t, exec (.memWrite h data) s = .next t ∧ SameBytes s t ∧ Transmitted s t 0 (.nolham h.src h.tag st [])) ∧
    (Served s h (n ≤ 4096 ∧ data.length = n) n False →
      (Single s a n → KeyFits s a n h.key.toNat → ∃ t, exec (.memWrite h data) s = .next t ∧ SameBytesBut a n s t ∧
        (∀ x, x < n → t.byte (a + x) = data.getD x 0) ∧ Transmitted s t 0 (.nolham h.src h.tag 0 [])) ∧
      (Replicated s a n → ∃ t, exec (.memWrite h data) s = .next t ∧ SameBytes s t ∧ InOrder s t h n a data (.nolham h.src h.tag 0 [])) ∧
      (k < n → Replicated s a k → Single s (a + k) (n - k) → KeyFits s (a + k) (n - k) h.key.toNat →
        ∃ t, exec (.memWrite h data) s = .next t ∧ SameBytesBut (a + k) (n - k) s t ∧ (∀ x, k ≤ x → x < n → t.byte (a + x) = data.getD x 0) ∧
          InOrder s t h n a (data.take k) (.nolham h.src h.tag 0 [])) ∧
      (k < n → Single s a k → KeyFits s a k h.key.toNat → Replicated s (a + k) (n - k) →
        ∃ t, exec (.memWrite h data) s = .next t ∧ SameBytesBut a k s t ∧ (∀ x, x < k → t.byte (a + x) = data.getD x 0) ∧
          InOrder s t h n (a + k) (data.drop k) (.nolham h.src h.tag 0 [])))) ∧
  (∀ (s : State) (i : Instr) (op : AccOp) (h : MemHdr) (data : List Byte) (w a old new : Nat) (lenOk : Prop), s.Inv → memAtomic i = some (op, h, data) →
    a = h.addr.toNat → w = (if op = .cas then h.len.toNat / 2 else h.len.toNat) → old = s.num a w →
    (lenOk ↔ (w = 4 ∨ w = 8) ∧ data.length = h.len.toNat ∧ h.len.toNat = if op = .cas then 2 * w else w) →
    new = atomicNew op (8 * w) old (payload data 0 w) (payload data w w) → ¬Held s h.src.toNat a w (h.ord == 1) →
    (∀ st, RefusedWith s h lenOk w True st → ∃ t, exec i s = .next t ∧ SameBytes s t ∧ Transmitted s t 0 (.nolham h.src h.tag st [])) ∧
    (Served s h lenOk w True →
      (Single s a w → KeyFits s a w h.key.toNat → ∃ t bs, exec i s = .next t ∧ SameBytesBut a w s t ∧
        (∀ k, k < w → t.byte (a + k) = BitVec.ofNat 8 (new / 2 ^ (8 * k))) ∧ Transmitted s t 0 (.nolham h.src h.tag 0 bs) ∧ bs.length = w ∧
        ∀ k, k < w → bs.getD k 0 = s.byte (a + k)) ∧
      (Replicated s a w → ∃ t bs out, exec i s = .next t ∧ SameBytes s t ∧ out.length = w ∧ bs.length = w ∧
        InOrder s t h w a out (.nolham h.src h.tag 0 bs) ∧
        (s.dev.updates = [] → KeyFits s (s.dev.replicaPa 0 a) w h.key.toNat → (∀ k, k < w → bs.getD k 0 = s.byte (s.dev.replicaPa 0 a + k)) ∧
          ∀ k, k < w → out.getD k 0 = BitVec.ofNat 8 (atomicNew op (8 * w) (s.num (s.dev.replicaPa 0 a) w) (payload data 0 w) (payload data w w) / 2 ^ (8 * k))))))

/-- What a port counts for a job (R410). -/
def Sys2Proof.Claims.tagged (l : List (Nat × Word)) (j : Nat) : Word := ((l.find? fun p => p.1 == j).map (·.2)).getD 0

/-- The counted messages of a job in some frames. -/
def Sys2Proof.Claims.carried (fs : List Frame) (j : Nat) : Nat := ((fs.flatMap (·.counted)).filter fun c => c.1 == j).foldr (fun c n => c.2 + n) 0

/-- No sector of [a, a + n) is under the key of a slot that a CONFIDENTIAL job holds (R341, R426). -/
def Sys2Proof.Claims.Unbound (s : State) (a n : Nat) : Prop :=
  ∀ u v, a / 32 * 32 ≤ u → u < a + n → s.dev.keySlot (s.dev.rdmaKey u) = some v → v.job = none

/-- Port `n` is `p` now, and no other port has changed. -/
def Sys2Proof.Claims.PortIs (s t : State) (n : Nat) (p : Port) : Prop :=
  SameBytes s t ∧ (∀ g, t.core g = s.core g) ∧ t.dev.port n = p ∧ ∀ k, k ≠ n → t.dev.port k = s.dev.port k

/-- R365, R368, R410, R414, R418, R425: a frame whose eighth replay has failed, and every frame when the link goes down, leaves the replay buffer, and its counts go from
INJ to LOST with a record in the job's log; an acknowledged frame leaves it; a replay request sends the frame again; credits add up; a new key begins a new
epoch. The transport engine serves queue pairs that exist, on memory under no CONFIDENTIAL job's key (R341, R426); its write to a replicated page takes its
place in the update order. (Which key slot an RDMA access uses is the
model's choice, log entry 70.) -/
def Obligations.LinksAndEthernet : Prop :=
  (∀ (s : State) (p : BitVec 4) (id : Nat) (f : Frame), (s.dev.port p.toNat).frames.find? (fun g => g.id == id) = some f →
    (8 ≤ f.replays → ∃ t q, exec (.frameLoss p id) s = .next t ∧ PortIs s t p.toNat q ∧
      q.frames = (s.dev.port p.toNat).frames.filter (fun g => g.id != id) ∧ q.up = (s.dev.port p.toNat).up ∧
      (∀ j, tagged q.inj j = tagged (s.dev.port p.toNat).inj j - BitVec.ofNat 64 (carried [f] j) ∧
        tagged q.lost j = tagged (s.dev.port p.toNat).lost j + BitVec.ofNat 64 (carried [f] j)) ∧
      ∀ j n b, f.counted = [(j, n)] → s.job j = some b → b.log.length < 65536 →
        ∃ b', t.job j = some b' ∧ b' = { b with log := b.log ++ [⟨BitVec.ofNat 64 n, 0x15, BitVec.ofNat 64 j, 0, 0, 0⟩] }) ∧
    (f.replays < 8 → ∃ t, exec (.replayRequest p id) s = .next t ∧ t.dev.outbox = s.dev.outbox ++ [.resend p.toNat id] ∧
      PortIs s t p.toNat { s.dev.port p.toNat with
        frames := (s.dev.port p.toNat).frames.map fun g => if g.id = id then { g with replays := g.replays + 1 } else g })) ∧
  (∀ (s : State) (p : BitVec 4), ∃ t q, exec (.linkDown p) s = .next t ∧ PortIs s t p.toNat q ∧ q.frames = [] ∧ q.waiting = [] ∧ q.up = false ∧
    ∀ j, tagged q.inj j = tagged (s.dev.port p.toNat).inj j - BitVec.ofNat 64 (carried (s.dev.port p.toNat).frames j) ∧
      tagged q.lost j = tagged (s.dev.port p.toNat).lost j + BitVec.ofNat 64 (carried (s.dev.port p.toNat).frames j)) ∧
  (∀ (s : State) (p : BitVec 4) (id : Nat), ∃ t, exec (.linkAck p id) s = .next t ∧ t.dev.outbox = s.dev.outbox ∧
    PortIs s t p.toNat { s.dev.port p.toNat with frames := (s.dev.port p.toNat).frames.filter fun g => g.id != id }) ∧
  (∀ (s : State) (p : BitVec 4) (cls : BitVec 3) (n : Nat) (o : Port), o = s.dev.port p.toNat →
    (o.waiting = [] → ∃ t q, exec (.creditReturn p cls n) s = .next t ∧ PortIs s t p.toNat q ∧ q = { o with credits := q.credits } ∧
      q.credits.length = o.credits.length ∧ ∀ k, k < q.credits.length → q.credits.getD k 0 = o.credits.getD k 0 + if k = cls.toNat then n else 0) ∧
    (∀ f, o.waiting = [f] → f.cls = cls.toNat → f.cls < o.credits.length → 0 < n → o.seq + 2 < 2 ^ 48 →
      ∃ t, exec (.creditReturn p cls n) s = .next t ∧ PortIs s t p.toNat { o with
        credits := o.credits.modify cls.toNat (fun x => x + n - 1), waiting := [], frames := o.frames ++ [{ f with seq := o.seq }], seq := o.seq + 1 })) ∧
  (∀ p : Port, (∀ f, p.next = some f → f ∈ p.waiting ∧ 0 < p.credits.getD f.cls 0 ∧
      (f.cls ≠ 3 → ∀ g ∈ p.waiting, g.cls = 3 → p.credits.getD 3 0 = 0)) ∧
    (p.next = none → ∀ f ∈ p.waiting, p.credits.getD f.cls 0 = 0)) ∧
  (∀ (s : State) (p : BitVec 4), ((s.dev.port p.toNat).up = true → ∃ t, exec (.linkRekey p) s = .next t ∧
      PortIs s t p.toNat { s.dev.port p.toNat with epoch := (s.dev.port p.toNat).epoch + 1, seq := 0 }) ∧
    ((s.dev.port p.toNat).up = false → ∃ t e, exec (.linkBringUp p) s = .next t ∧
      PortIs s t p.toNat { s.dev.port p.toNat with up := true, epoch := e, seq := 0, frames := [], waiting := [] })) ∧
  (∀ (s : State) (qp : Nat) (data : List Byte) (a : Word), s.Inv →
    ((∃ x ∈ s.dev.pairs, x.num = qp) →
      (∃ t, exec (.roceSend qp data) s = .next t ∧ SameBytes s t ∧
        t.dev = { s.dev with pairs := s.dev.pairs.map fun x => if x.num = qp then { x with received := x.received ++ [data] } else x }) ∧
      (∀ n, n = data.length → ¬Held s (65536 + qp) a.toNat n false → InMemory s a.toNat (Max.max 1 n) → Replicated s a.toNat n → Unbound s a.toNat n →
        ∃ t, exec (.rdmaWrite qp a data) s = .next t ∧ SameBytes s t ∧
          t.dev = { s.dev with updates := s.dev.updates ++ [⟨s.dev.nextUpdate, a.toNat, data, s.dev.rdmaKey a.toNat, 1024, 0⟩], nextUpdate := s.dev.nextUpdate + 1,
                               pendingMem := s.dev.pendingMem ++ [⟨s.dev.nextUpdate, 65536 + qp, a.toNat, n, false, none⟩] }) ∧
      (∀ n, n = data.length → ¬Held s (65536 + qp) a.toNat n false → InMemory s a.toNat (Max.max 1 n) → Single s a.toNat n → Unbound s a.toNat n →
        KeyFits s a.toNat n (s.dev.rdmaKey a.toNat) →
        (∃ t, exec (.rdmaWrite qp a data) s = .next t ∧ SameBytesBut a.toNat n s t ∧ (∀ k, k < n → t.byte (a.toNat + k) = data.getD k 0) ∧ t.dev = s.dev) ∧
        (s.dev.poisonIn a.toNat n = none → ∃ t bs, exec (.rdmaRead qp a n) s = .next t ∧ SameBytes s t ∧ Answered s t (.roce qp bs) ∧ bs.length = n ∧
          ∀ k, k < n → bs.getD k 0 = s.byte (a.toNat + k))) ∧
      (∀ n u, ¬Held s (65536 + qp) a.toNat n false → u < n → (∃ v, s.dev.keySlot (s.dev.rdmaKey ((a.toNat + u) / 32 * 32)) = some v ∧ v.job ≠ none) →
        (∃ t, exec (.rdmaRead qp a n) s = .next t ∧ SameBytes s t ∧ Answered s t (.refused qp)) ∧
        (n = data.length → ∃ t, exec (.rdmaWrite qp a data) s = .next t ∧ SameBytes s t ∧ Answered s t (.refused qp))) ∧
      (∀ m, ∃ t, exec (.congestionNotification qp m) s = .next t ∧ SameBytes s t ∧
        t.dev = { s.dev with pairs := s.dev.pairs.map fun x => if x.num = qp then { x with slow := m } else x }) ∧
      (s.dev.inRom = false → ∃ t, exec (.queuePairCreate qp false) s = .next t ∧ SameBytes s t ∧ t.dev = { s.dev with pairs := s.dev.pairs.filter fun x => x.num != qp })) ∧
    ((∀ x ∈ s.dev.pairs, x.num ≠ qp) →
      (∃ t, exec (.roceSend qp data) s = .next t ∧ SameBytes s t ∧ Answered s t (.refused qp)) ∧
      (s.dev.inRom = false → ∃ t, exec (.queuePairCreate qp true) s = .next t ∧ SameBytes s t ∧ t.dev = { s.dev with pairs := s.dev.pairs ++ [⟨qp, [], false⟩] })))

/-! ## Trust and supervision -/

/-- MR4 has been extended by some record of the change (R421); its bytes are a free value. -/
def Sys2Proof.Claims.MeasuredIn (s t : State) : Prop := ∃ x, t.dev.mr = s.dev.mr.modify 4 fun v => extend v x

/-- An answer leaves in a frame of class 4 (R414), whatever else the step changes. -/
def Sys2Proof.Claims.Mgmt (s t : State) (r : Reply) : Prop := ∃ u, Transmitted s u 4 r ∧ t.dev.outbox = u.dev.outbox ∧ t.dev.ports = u.dev.ports

/-- An SPDM answer of a code whose bytes the manual leaves open (R422). -/
def Sys2Proof.Claims.SpdmAnswer (code : Nat) (s t : State) : Prop := SameBytes s t ∧ ∃ bs, Mgmt s t (.spdm code bs)

/-- Every job is ending, a job that nothing had ended with status 3 (R429). -/
def Sys2Proof.Claims.AllFail (s t : State) : Prop :=
  t.dev.jobs.length = s.dev.jobs.length ∧ ∀ j ∈ t.dev.jobs, ∃ b ∈ s.dev.jobs, j = { b with ending := some (b.ending.getD ⟨3, 0, 0, 0, 0⟩) }

/-- A change that the management session asks of the supervisor, and that the boot ROM refuses while it is what runs (R420, R427). -/
def Sys2Proof.Claims.asked : Instr → Bool
  | .programQueue .. => true
  | .queuePairCreate .. => true
  | .setPowerCap .. => true
  | .setDrainlim .. => true
  | .setGangwait .. => true
  | .reserveClusters .. => true
  | .nodeDomainBind .. => true
  | _ => false

/-- R264, R341, R344, R413-R415, R419-R424, R427, R429, R431, R433: a reset or a power-cycle clears memory and cores, boots the staged images and measures them, and
writes no end record; a device that stays in the boot ROM refuses changes; the messages of SPDM are answered, in frames of class 4, once the negotiation has come to them (the codes are PRESUMED, log entry 45); a session loads and clears
keys only in a free slot of its own domain; changes of configuration are made and measured; the dies switch off and every job fails, and the hub carries its end
out; expanders that no page table maps can be removed; a link that goes down poisons what it held (the capacities that a boot finds, the refusals in the ROM, the
ends at a power-down and the one record of a link that goes down are the model's choices, log entries 75, 78, 76 and 71; the memory that a reset leaves is
log entries 54 and 2). -/
def Obligations.TrustAndSupervision : Prop :=
  (∀ (s : State) (i : Instr) (fs : List Firmware), (i = .deviceReset ∨ i = .powerCycle) →
    fs = (s.dev.firmware.filter fun f => s.dev.staged.all fun g => g.image != f.image) ++ s.dev.staged →
    ∃ t, exec i s = .next t ∧ (∀ a, a < 2 ^ 57 → t.byte a = 0) ∧ t.dev.cores = [] ∧ t.dev.jobs = [] ∧ t.dev.net = [] ∧ t.dev.firmware = fs ∧ t.dev.staged = [] ∧
      t.dev.mr.length = 8 ∧ (∀ k, 4 ≤ k → t.dev.mr.getD k 0 = 0) ∧ t.dev.mr.getD 0 0 = extend 0 Config.romIdentity ∧
      ((∀ f ∈ fs, sha3 f.key = Config.fusedKeyHash ∧ Config.mldsaVerify f.key (leBytes 32 (sha3 f.body).toNat) f.signature = true ∧
          Config.fusedMinVersion f.image ≤ f.version) →
        t.dev.inRom = false ∧ t.dev.outbox = s.dev.outbox ∧ natAt t.dev.cxlPorts 0 + natAt t.dev.cxlPorts 1 = t.dev.cxlBytes ∧
        t.dev.cxlBytes ≤ 4 * 2 ^ 40 ∧ natAt t.dev.cxlPorts 0 % 4096 = 0 ∧ natAt t.dev.cxlPorts 1 % 4096 = 0 ∧
        ∀ f, (f.image = 1 ∨ f.image = 2 ∨ f.image = 3) → fs.filter (fun g => g.image == f.image) = [f] → t.dev.mr.getD f.image 0 = extend 0 f.body) ∧
      (∀ f ∈ fs, (sha3 f.key ≠ Config.fusedKeyHash ∨ Config.mldsaVerify f.key (leBytes 32 (sha3 f.body).toNat) f.signature = false ∨
          f.version < Config.fusedMinVersion f.image) →
        t.dev.inRom = true ∧ t.dev.cxlBytes = 0 ∧ t.dev.outbox = s.dev.outbox ++ [.bootFailed])) ∧
  (∀ (s : State) (i : Instr) (domain : Nat) (slot : BitVec 12) (jobs : List (BitVec 6 × BitVec 12)), s.dev.inRom = true →
    (asked i = true ∨ (i = .keySlotAssign domain slot ∧ slot ≠ 0 ∧ ∀ v, s.dev.keySlot slot.toNat = some v → v.job = none) ∨
      (i = .bindQuietDomain jobs true ∧ jobs.length ≤ 64 ∧ (jobs.map (·.1)).Nodup)) →
    (∃ t, exec i s = .next t ∧ SameBytes s t ∧ Answered s t (.refused 0)) ∧ s.mach.autoEvent = none ∧ ∀ c k, s.mach.slotOf c k = .empty) ∧
  (∀ (s : State) (image version : Nat) (key body signature : List Byte), ∃ t, exec (.stageFirmware image version key body signature) s = .next t ∧ SameBytes s t ∧
    t.dev = { s.dev with staged := (s.dev.staged.filter fun f => f.image != image) ++ [⟨image, version, key, body, signature⟩] }) ∧
  (∀ s : State, (∃ t, exec .thermalTrip s = .next t ∧ SameBytes s t ∧ (∀ g, t.core g = s.core g) ∧ t.dev.diesOn = false ∧ AllFail s t) ∧
    (∃ t, exec (.computeDiePower false) s = .next t ∧ SameBytes s t ∧ (∀ g, t.core g = s.core g) ∧ t.dev.diesOn = false ∧ AllFail s t) ∧
    (∃ t, exec (.computeDiePower true) s = .next t ∧ SameBytes s t ∧ t.dev = { s.dev with diesOn := true })) ∧
  (∀ (s : State) (j : Job) (rest : List Job), s.dev.diesOn = false → s.dev.inRom = false → s.dev.jobs = j :: rest → j.ending ≠ none →
    s.mach.autoEvent = some (.jobEnd (BitVec.ofNat 12 j.id)) ∧ ∀ c k, s.mach.slotOf c k = .empty) ∧
  (∀ (s : State) (n : Nat), s.dev.inRom = false → (1200 ≤ n → n ≤ 2400 → ∃ t, exec (.setPowerCap n) s = .next t ∧ SameBytes s t ∧ t.dev = { s.dev with powerCap := n }) ∧
    (¬(1200 ≤ n ∧ n ≤ 2400) → ∃ t, exec (.setPowerCap n) s = .next t ∧ SameBytes s t ∧ Answered s t (.refused n))) ∧
  (∀ s : State, (∃ t vs, exec .telemetryRead s = .next t ∧ SameBytes s t ∧ t.dev.outbox = s.dev.outbox ++ [.telemetry vs s.dev.corrected
      ((List.range 16).map fun k => (s.dev.port k).up) ((List.range 2).map fun k => decide (natAt s.dev.cxlPorts k ≠ 0 ∧ k ∉ s.dev.cxlDown))]) ∧
    (∃ t, exec .errorLogRead s = .next t ∧ SameBytes s t ∧ Answered s t (.errorLog s.dev.errlog s.dev.errOver))) ∧
  (∀ (s : State) (node : BitVec 16) (id : Nat) (job : BitVec 12) (j : Job), s.job job.toNat = some j →
    ((∃ x, s.dev.sessions.find? (fun y => y.id == id && y.established) = some x ∧ j.domain = some x.domain) →
      ∃ t, exec (.jobLogRead node (some id) job) s = .next t ∧ SameBytes s t ∧ Answered s t (.jobLog j.log)) ∧
    (Launch.conf j.launch = false → j.domain ≠ none → s.dev.nodeDomain node.toNat = j.domain →
      ∃ t, exec (.jobLogRead node none job) s = .next t ∧ SameBytes s t ∧ Answered s t (.jobLog j.log)) ∧
    (Launch.conf j.launch = true → ∃ t, exec (.jobLogRead node none job) s = .next t ∧ SameBytes s t ∧ Answered s t (.refused job.toNat))) ∧
  (∀ (s : State) (cs : List (BitVec 5)), s.dev.inRom = false → ∃ t, exec (.reserveClusters cs) s = .next t ∧ SameBytes s t ∧ MeasuredIn s t ∧
    ∀ q, q ∈ t.dev.reservedClusters ↔ ∃ c ∈ cs, c.toNat = q) ∧
  (∀ (s : State) (node : BitVec 16) (domain : Nat), s.dev.inRom = false → ∃ t, exec (.nodeDomainBind node domain) s = .next t ∧ SameBytes s t ∧ MeasuredIn s t ∧
    t.dev.nodeDomain node.toNat = some domain ∧ ∀ n, n ≠ node.toNat → t.dev.nodeDomain n = s.dev.nodeDomain n) ∧
  (∀ (s : State) (domain : Nat) (slot : BitVec 12), (s.dev.inRom = false → slot ≠ 0 → (∀ v, s.dev.keySlot slot.toNat = some v → v.job = none) →
      ∃ t, exec (.keySlotAssign domain slot) s = .next t ∧ SameBytes s t ∧ MeasuredIn s t ∧ t.dev.keySlot slot.toNat = some ⟨slot.toNat, domain, none, none⟩ ∧
        ∀ n, n ≠ slot.toNat → t.dev.keySlot n = s.dev.keySlot n) ∧
    ((slot = 0 ∨ ∃ v, s.dev.keySlot slot.toNat = some v ∧ v.job ≠ none) →
      ∃ t, exec (.keySlotAssign domain slot) s = .next t ∧ SameBytes s t ∧ Answered s t (.refused slot.toNat))) ∧
  (∀ (s : State) (jobs : List (BitVec 6 × BitVec 12)) (q : List (Nat × Nat)), q = jobs.map (fun p => (p.1.toNat, p.2.toNat)) →
    (s.dev.inRom = false → (jobs.map (·.1)).Nodup → jobs.length ≤ 64 → ∃ t, exec (.bindQuietDomain jobs true) s = .next t ∧ SameBytes s t ∧
      MeasuredIn s t ∧ t.dev.quietDomains = (s.dev.quietDomains.filter fun e => decide (∀ p ∈ e, p ∉ q)) ++ [q]) ∧
    (∀ agents, (agents = false ∨ 64 < jobs.length ∨ ¬(jobs.map (·.1)).Nodup) →
      ∃ t, exec (.bindQuietDomain jobs agents) s = .next t ∧ SameBytes s t ∧ Answered s t (.refused jobs.length))) ∧
  (∀ (s : State) (v : Word), s.dev.inRom = false → (∃ t, exec (.setDrainlim v) s = .next t ∧ SameBytes s t ∧ t.dev.drainlim = v ∧
      ∀ g, (s.dev.cores.any fun p => p.1 == g) = true → t.core g = { s.core g with drainlim := v }) ∧
    (∃ t, exec (.setGangwait v) s = .next t ∧ SameBytes s t ∧ t.dev.gangwait = v ∧
      ∀ g, (s.dev.cores.any fun p => p.1 == g) = true → t.core g = { s.core g with gangwait := v })) ∧
  (∀ (s : State) (port : Bool) (lo hi : Nat), lo = 0x100000000000 + (if port = true then natAt s.dev.cxlPorts 0 else 0) →
    hi = Min.min (lo + natAt s.dev.cxlPorts (if port = true then 1 else 0)) (0x100000000000 + 4 * 2 ^ 40) →
    (∃ t, exec (.cxlLinkDown port) s = .next t ∧ SameBytes s t ∧ (∀ g, t.core g = s.core g) ∧
      (∀ u, u ∈ t.dev.poison ↔ u ∈ s.dev.poison ∨ ∃ k, k < (hi - lo) / 32 ∧ u = lo + 32 * k) ∧ (if port = true then 1 else 0) ∈ t.dev.cxlDown ∧
      (lo < hi → s.dev.errlog.length < 4096 → ∃ e, t.dev.errlog = s.dev.errlog ++ [e] ∧ e.kind = 2 ∧ e.addr = BitVec.ofNat 64 lo) ∧
      (hi ≤ lo → t.dev.errlog = s.dev.errlog)) ∧
    ((∃ r ∈ s.dev.allRoots, s.mach.mapsRange lo hi 5 r = true) →
      ∃ t, exec (.cxlExpanderRemove port) s = .next t ∧ SameBytes s t ∧ Answered s t (.refused (if port = true then 1 else 0))) ∧
    (s.Inv → (∀ r ∈ s.dev.allRoots, s.mach.mapsRange lo hi 5 r = false) → lo ≤ hi → hi ≤ 0x100000000000 + s.dev.cxlBytes →
      ∃ t, exec (.cxlExpanderRemove port) s = .next t ∧ t.dev.cxlBytes = s.dev.cxlBytes - (hi - lo) ∧
        (∀ x, x < lo ∨ 0x100000000000 + s.dev.cxlBytes ≤ x → t.byte x = s.byte x) ∧
        ∀ x, hi ≤ x → x < 0x100000000000 + s.dev.cxlBytes → t.byte (x - (hi - lo)) = s.byte x)) ∧
  (∀ s : State, ∃ t, exec .getVersion s = .next t ∧ SameBytes s t ∧ Mgmt s t (.spdm 4 [0x13]) ∧ t.dev.negotiated = 1) ∧
  (∀ s : State, (1 ≤ s.dev.negotiated → ∃ t, exec .getCapabilities s = .next t ∧ SpdmAnswer 0x61 s t ∧ t.dev.negotiated = 2) ∧
    (s.dev.negotiated = 0 → ∃ t, exec .getCapabilities s = .next t ∧ SpdmAnswer 0x7F s t ∧ t.dev.negotiated = 0) ∧
    (2 ≤ s.dev.negotiated → ∃ t bs, exec .negotiateAlgorithms s = .next t ∧ SameBytes s t ∧ t.dev.negotiated = 3 ∧
      Mgmt s t (.algorithms .mlDsa44 .sha3With256 .sha3With256 .secp384r1 .aes256Gcm bs))) ∧
  (∀ (s : State) (nonce : List Byte), 3 ≤ s.dev.negotiated →
    (∃ t, exec .getDigests s = .next t ∧ SameBytes s t ∧ Transmitted s t 4 (.spdm 1 (leBytes 32 (sha3 Config.certificate).toNat))) ∧
    (∃ t, exec .getCertificate s = .next t ∧ SameBytes s t ∧ Transmitted s t 4 (.spdm 2 Config.certificate)) ∧
    (∃ t, exec (.challenge nonce) s = .next t ∧ SameBytes s t ∧ Transmitted s t 4 (.spdm 3 (nonce ++ Config.aliasSign ((s.dev.mr.drop 1).take 3) nonce))) ∧
    (∃ t bs, exec (.getMeasurements nonce) s = .next t ∧ SameBytes s t ∧ bs = ((s.dev.mr.take 5).flatMap fun v => leBytes 32 v.toNat) ++ nonce ∧
      Transmitted s t 4 (.spdm 0x60 (bs ++ Config.aliasSign ((s.dev.mr.drop 1).take 3) bs))) ∧
    (∀ domain, ∃ t, exec (.keyExchange domain) s = .next t ∧ SpdmAnswer 0x64 s t ∧ t.dev.sessions = s.dev.sessions ++ [⟨s.dev.uid, domain, false⟩])) ∧
  (∀ (s : State) (id : Nat) (x : Session), x ∈ s.dev.sessions → x.id = id →
    (∃ t, exec (.finish id) s = .next t ∧ SpdmAnswer 0x65 s t ∧
      t.dev.sessions = s.dev.sessions.map fun y => if y.id = id then { y with established := true } else y) ∧
    (x.established = true → (∃ t, exec (.heartbeat id) s = .next t ∧ SpdmAnswer 0x68 s t ∧ t.dev.sessions = s.dev.sessions) ∧
      (∃ t, exec (.endSession id) s = .next t ∧ SpdmAnswer 0x6C s t ∧ t.dev.sessions = s.dev.sessions.filter fun y => y.id != id))) ∧
  (∀ (s : State) (id : Nat) (x : Session) (slot : BitVec 12) (key : BitVec 512) (v : KeySlot),
    s.dev.sessions.find? (fun y => y.id == id && y.established) = some x → s.dev.keySlot slot.toNat = some v →
    (v.domain = x.domain → v.job = none →
      (∃ t, exec (.keySet id slot key) s = .next t ∧ SpdmAnswer 0x7E s t ∧ t.dev.keySlot slot.toNat = some { v with key := some key } ∧
        ∀ n, n ≠ slot.toNat → t.dev.keySlot n = s.dev.keySlot n) ∧
      (∃ t, exec (.keyClear id slot) s = .next t ∧ SpdmAnswer 0x7E s t ∧ t.dev.keySlot slot.toNat = some { v with key := none } ∧
        ∀ n, n ≠ slot.toNat → t.dev.keySlot n = s.dev.keySlot n)) ∧
    ((v.domain ≠ x.domain ∨ v.job ≠ none) → ∀ i, (i = .keySet id slot key ∨ i = .keyClear id slot) →
      ∃ t, exec i s = .next t ∧ SameBytes s t ∧ Answered s t (.refused slot.toNat)))

/-! ## The machine as a whole -/

/-- The next step of `s` is an issue slot, and `z` is `s` without the entry of the agenda that says so (log entry 4). -/
def Sys2Proof.Claims.SlotNext (s z : State) : Prop :=
  (∃ rest, s.dev.agenda = .slot :: rest ∧ z = s.withAgenda rest) ∨ (s.dev.agenda = [] ∧ s.mach.autoEvent = none ∧ z = s)

/-- The context of the slot issues: its core runs an iteration, and nothing of R19 keeps the slot empty. -/
def Sys2Proof.Claims.Issues (s : State) : Prop :=
  s.dev.diesOn = true ∧ s.dev.inRom = false ∧ s.here.life = .running ∧ s.here.busy = true ∧ s.cur.held = none ∧ (s.cur.efq = [] ∨ s.cur.inh = true) ∧ s.cur.done = false ∧
  s.cur.fetchHeld = none ∧ s.here.spareDone = false

/-- Where the context fetches, in the physical map (R35, R37). -/
def Sys2Proof.Claims.fetchPa (s : State) : Nat := window s.cid + (0x300000 + s.cur.pc.toNat)

/-- The `n` bytes at the PC lie in the image, and none of them is in a poisoned unit (R37, R246). -/
def Sys2Proof.Claims.CanFetch (s : State) (n : Nat) : Prop := s.cur.pc.toNat + n ≤ s.here.imgLen ∧ s.dev.poisonIn (fetchPa s) n = none

/-- What a step adds to the meaning that it runs in a slot: what follows every step at once, and the slot passes to the next running core, or to the first one
in the next cycle (R4, R17). -/
def Sys2Proof.Claims.AfterSlot (t u : State) : Prop := u = t.followed.slotOver

/-- The core has run to the end of its iteration and is free, and has not noted it yet (R350). -/
def Sys2Proof.Claims.freed (k : Core) : Bool := k.freeAt.isNone && k.job.isSome && k.life == .running && k.isFree

/-- R4, R13, R19, R37, R80, R96-R99: when the bytes at the PC decode to an instruction, a step is that instruction at that state; when they decode to none, it
is the trap that R96 and R98 give; outside the image it is the `ACCESS` trap of R37; where they are poisoned the fetch is held (R246); what the agenda names, or a step of the machine's own, comes before the
slot (which of the steps that can be taken comes first is the model's choice, log entry 4). What follows a step at once is stated at the end: armed sends that
are due fire (R391), the chase monitor notes the waits that hold (R57), and the cores that have become free are noted (R350). -/
def Obligations.StepRunsTheDecodedInstruction : Prop :=
  (∀ (s z : State) (bs : List Byte), SlotNext s z → Issues z → bs = (List.range 8).map (fun k => z.byte (fetchPa z + k)) →
    (∀ i rest, decode bs = .ok (i, rest) → CanFetch z (8 - rest.length) → ∀ t, exec i z = .next t → ∃ u, step s = .next u ∧ AfterSlot t u) ∧
    (∀ w0 w1, w0 = BitVec.ofNat 32 (z.num (fetchPa z) 4) → w1 = BitVec.ofNat 32 (z.num (fetchPa z + 4) 4) →
      CanFetch z (if isLong w0 = true then 8 else 4) →
      (decode bs = .error .illegal → ∀ t, exec (.illegalEncoding 0x01 (w0.zeroExtend 64)) z = .next t → ∃ u, step s = .next u ∧ AfterSlot t u) ∧
      (decode bs = .error .reserved → ∀ t, exec (.illegalEncoding 0x02 (if isLong w0 = true then w1 ++ w0 else w0.zeroExtend 64)) z = .next t →
        ∃ u, step s = .next u ∧ AfterSlot t u)) ∧
    (∀ w0, w0 = BitVec.ofNat 32 (z.num (fetchPa z) 4) → isLong w0 = true → CanFetch z 4 → z.here.imgLen < z.cur.pc.toNat + 8 →
      ∀ t, exec (.illegalEncoding 0x05 (z.cur.pc + 4)) z = .next t → ∃ u, step s = .next u ∧ AfterSlot t u) ∧
    (z.here.imgLen < z.cur.pc.toNat + 4 → ∀ t, exec (.illegalEncoding 0x05 z.cur.pc) z = .next t → ∃ u, step s = .next u ∧ AfterSlot t u) ∧
    (∀ o, (o = z.cur.pc.toNat ∧ o + 4 ≤ z.here.imgLen ∧ z.dev.poisonIn (fetchPa z) 4 ≠ none) ∨
        (o = z.cur.pc.toNat + 4 ∧ o + 4 ≤ z.here.imgLen ∧ z.dev.poisonIn (fetchPa z) 4 = none ∧ isLong (BitVec.ofNat 32 (z.num (fetchPa z) 4)) = true ∧
          z.dev.poisonIn (fetchPa z + 4) 4 ≠ none) →
      ∃ t, step s = .next t.slotOver ∧ OnlyCtx z.cid z.kid z t ∧ t.ctx z.cid z.kid = { z.cur with fetchHeld := some o })) ∧
  (∀ s z : State, SlotNext s z → z.dev.diesOn = true → z.dev.inRom = false → z.here.life = .running → z.here.busy = true → z.cur.held = none →
    z.here.spareDone = false → z.cur.efq ≠ [] → z.cur.inh = false →
    ∀ t, exec (.engineFault (BitVec.ofNat _ z.cid) z.kid) z = .next t → ∃ u, step s = .next u ∧ AfterSlot t u) ∧
  (∀ s z : State, SlotNext s z → (z.dev.diesOn = false ∨ z.dev.inRom = true ∨ z.here.life ≠ .running ∨ z.here.busy = false ∨ z.cur.held ≠ none ∨
      z.here.spareDone = true ∨ ((z.cur.efq = [] ∨ z.cur.inh = true) ∧ (z.cur.done = true ∨ z.cur.fetchHeld ≠ none))) → step s = .next z.slotOver) ∧
  (∀ (s : State) (i : Instr) (rest : List Move), s.dev.agenda = .event i :: rest →
    ∀ t, exec i (s.withAgenda rest) = .next t → step s = .next t.followed) ∧
  (∀ (s : State) (i : Instr), s.dev.agenda = [] → s.mach.autoEvent = some i → ∀ t, exec i s = .next t → step s = .next t.followed) ∧
  (∀ s : State, s.followed.mem = s.mem ∧ s.followed.dev = { s.dev with cores := s.followed.dev.cores } ∧
    (s.followed.dev.cores.map (·.1)) = s.dev.cores.map (·.1) ∧
    ∀ g k, k = s.core g → (s.dev.cores.any fun p => p.1 == g) = true → ∃ a, s.followed.core g = { k with
      kq := k.kq.map (fun d => if k.engines = true ∧ k.mayFire d = true then { d with fired := true } else d), arcs := a,
      busy := if freed k = true then false else k.busy, freeAt := if freed k = true then some s.dev.now else k.freeAt }) ∧
  (∀ s : State, s.slotOver.mem = s.mem ∧ s.slotOver.dev = s.dev.nextSlot) ∧
  (∀ d : Dev, d.nextSlot = { d with now := d.nextSlot.now, turn := d.nextSlot.turn } ∧
    ((∀ c ∈ d.runningCores, c ≤ d.turn.toNat) → d.nextSlot.now = d.now + 1) ∧
    ((∃ c ∈ d.runningCores, d.turn.toNat < c) → d.nextSlot.now = d.now ∧ ∃ c ∈ d.runningCores, d.turn.toNat < c ∧ d.nextSlot.turn = BitVec.ofNat _ c))

/-- R80-R92: words written out field by field from the formats of 05_encoding decode to the instructions that they stand for. A sanity statement. -/
def Obligations.DecodedWords : Prop :=
  -- add x7, x5, x6: maj 0x01, xd 7, xa 5, xb 6, pd 0, pn 0, fn 0
  decodeTableWord 32 0b000001_00111_00101_00110_000_0_0000000 = some (.add 7 5 6 ⟨0, false⟩) ∧
  -- cmpi.ne p1, x5, 0x0C: maj 0x0D, xd 1, xa 5, cc 1, pn 0, imm 0x00C
  decodeTableWord 32 0b001101_00001_00101_001_0_000000001100 = some (.cmpi 1 5 .ne 12) ∧
  -- (!p3) std x9, [x2 - 8]: maj 0x1A, xt 9, xa 2, pd 3, pn 1, off -1
  decodeTableWord 32 0b011010_01001_00010_011_1_111111111111 = some (.std 9 2 0xFFF ⟨3, true⟩) ∧
  -- amocas.d.acq.sys [x4], x6: maj 0x1C, code 9, xa 4, xb 6, no guard, scope 3, size 3, acq, 0
  decodeTableWord 32 0b011100_01001_00100_00110_000_0_11_11_1_0_0 = some (.amocas 4 3 .system true true false ⟨0, false⟩) ∧
  -- (p1) br +24: maj 0x1F, pd 1, pn 0, off 6
  decodeTableWord 32 0b011111_001_0_0000000000000000000110 = some (.br 6 ⟨1, false⟩) ∧
  -- the enq of a chain's first copy: maj 0x25, q 0, xrec 24, xp0 0, xp1 10
  decodeTableWord 32 0b100101_000_11000_00000_01010_000_0_0_000 = some (.enq .lq 24 0 10 ⟨0, false⟩) ∧
  -- csrr x5, CAUSE: maj 0x26, xd 5, xa 0, csr 0x002, fn 0
  decodeTableWord 32 0b100110_00101_00000_000000000010_0000 = some (.csrr 5 2) ∧
  -- (k2) vadd.p v1024, v3, v4: word 1 above word 0
  decodeTableWord 64 0b00000000100_00000_010_0_1_00000_000000_11_000000_10000000000_00000000011_01 = some (.vadd 1024 3 (.reg 4) ⟨true, .stage 2⟩)

/-- R9, R214, R303, R334, R406, R421: right after reset the measurement registers and the wave number are zero, both seats are empty, `pcw0` to `pcw7` are
the identity, `p0` is true and `x0` zero, no queue is enabled and each has depth 1, and memory is in its canonical form with nothing listed (what an unlisted
byte reads as is the model's choice, log entry 2). -/
def Obligations.ResetState : Prop :=
  State.reset.Inv ∧ State.reset.mem = [] ∧ State.reset.dev.mr = List.replicate 8 0 ∧ State.reset.dev.wave = 0 ∧ State.reset.dev.waving = none ∧
  (∀ g, (State.reset.core g).seat0 = Seat.empty ∧ (State.reset.core g).seat1 = Seat.empty ∧ (State.reset.core g).ovf = false ∧
    (State.reset.core g).pcw = List.replicate 8 0 ∧ (State.reset.core g).cmds = [] ∧ (State.reset.core g).id = g) ∧
  (∀ g k, (State.reset.ctx g k).reg 0 = 0 ∧ (State.reset.ctx g k).pred 0 = true ∧ (State.reset.ctx g k).pwb = [] ∧ (State.reset.ctx g k).inh = false ∧
    (State.reset.ctx g k).done = false) ∧
  (∀ q, (State.reset.dev.queue q).en = false ∧ (State.reset.dev.queue q).depth = 1 ∧ (State.reset.dev.queue q).recs = [])

/-- R80-R92: for every well-formed instruction with any operands, and any bytes after it, the decoder reads back that instruction from the bytes of its words,
and leaves what follows; a word ends where its first two bits say. -/
def Obligations.DecodeReadsBackEncode : Prop :=
  ∀ (i : Instr) (rest : List Byte), i.wf = true →
    decode ((encode i).flatMap (fun w => bytesOf 4 w.toNat) ++ rest) = .ok (i, rest) ∧
    ∃ w, (encode i).head? = some w ∧ (encode i).length = (if 3 * 2 ^ 30 ≤ w.toNat then 2 else 1)

/-- Every step keeps memory in its canonical form, whatever the state, and no step stops (the form is the model's choice, log entry 2). -/
def Obligations.StepKeepsTheInvariant : Prop :=
  ∀ s : State, s.Inv → ∃ t, step s = .next t ∧ t.Inv
end

