-- ==== Sys2Proof/Laws/Decode.lean ====
section
/-! SUPPORT. What the decoder reads from the words that the encoder packs: one lemma per format of 05_encoding (R82, R86, R88) gives every field, and
the lemmas on bytes and routing carry a word to its group's decoder. -/

namespace Sys2Proof

/-! ### Numbers of packed words -/

theorem append_toNat {n m : Nat} (x : BitVec n) (y : BitVec m) : (x ++ y).toNat = x.toNat * 2 ^ m + y.toNat := by
  rw [BitVec.toNat_append, ← Nat.shiftLeft_add_eq_or_of_lt y.isLt, Nat.shiftLeft_eq]

theorem bit_toNat (b : Bool) : (bit b).toNat = if b = true then 1 else 0 := by cases b <;> rfl

/-- A field of a word, by arithmetic on the word's number. -/
theorem fld_eq (w : BitVec 32) (lo n : Nat) (v : BitVec n) (h : w.toNat / 2 ^ lo % 2 ^ n = v.toNat) : fld w lo n = v := by
  apply BitVec.eq_of_toNat_eq
  simpa [fld, BitVec.extractLsb', Nat.shiftRight_eq_div_pow] using h

theorem bitAt_eq (w : BitVec 32) (k : Nat) (b : Bool) (h : w.toNat / 2 ^ k % 2 = if b = true then 1 else 0) : bitAt w k = b := by
  cases b <;> simp_all [bitAt, BitVec.getLsbD, Nat.testBit_eq_decide_div_mod_eq]

theorem isLong_eq (w : BitVec 32) : isLong w = decide (w.toNat / 2 ^ 30 = 3) := by
  have hw := w.isLt
  have h : fld w 30 2 = BitVec.ofNat 2 (w.toNat / 2 ^ 30) := by
    apply fld_eq
    simp only [BitVec.toNat_ofNat]
  unfold isLong
  rw [h, Bool.eq_iff_iff]
  simp [← BitVec.toNat_inj]
  omega

/-! ### The 32-bit formats (R82) -/

theorem packRR_toNat (maj : BitVec 6) (d a b : Reg) (g : Guard) (fn : BitVec 7) : (packRR maj d a b g fn).toNat =
    maj.toNat * 2 ^ 26 + d.toNat * 2 ^ 21 + a.toNat * 2 ^ 16 + b.toNat * 2 ^ 11 + g.p.toNat * 2 ^ 8 + (if g.n = true then 1 else 0) * 2 ^ 7 + fn.toNat := by
  unfold packRR
  simp only [append_toNat, bit_toNat]
  split <;> omega

theorem packRR_fields (maj : BitVec 6) (d a b : Reg) (g : Guard) (fn : BitVec 7) :
    fld (packRR maj d a b g fn) 26 6 = maj ∧ fld (packRR maj d a b g fn) 21 5 = d ∧ fld (packRR maj d a b g fn) 16 5 = a ∧
    fld (packRR maj d a b g fn) 11 5 = b ∧ guardRR (packRR maj d a b g fn) = g ∧ fld (packRR maj d a b g fn) 0 7 = fn ∧
    isLong (packRR maj d a b g fn) = decide (48 ≤ maj.toNat) := by
  have e := packRR_toNat maj d a b g fn
  have := maj.isLt; have := d.isLt; have := a.isLt; have := b.isLt; have := g.p.isLt; have := fn.isLt
  refine ⟨?_, ?_, ?_, ?_, ?_, ?_, ?_⟩
  case refine_5 =>
    have h1 : fld (packRR maj d a b g fn) 8 3 = g.p := by apply fld_eq; rw [e]; split <;> omega
    have h2 : bitAt (packRR maj d a b g fn) 7 = g.n := by apply bitAt_eq; rw [e]; split <;> omega
    unfold guardRR; rw [h1, h2]
  case refine_7 => rw [isLong_eq, e, decide_eq_decide]; split <;> omega
  all_goals (apply fld_eq; rw [e]; split <;> omega)

theorem packRI_toNat (maj : BitVec 6) (d a : Reg) (g : Guard) (imm : BitVec 12) : (packRI maj d a g imm).toNat =
    maj.toNat * 2 ^ 26 + d.toNat * 2 ^ 21 + a.toNat * 2 ^ 16 + g.p.toNat * 2 ^ 13 + (if g.n = true then 1 else 0) * 2 ^ 12 + imm.toNat := by
  unfold packRI
  simp only [append_toNat, bit_toNat]
  split <;> omega

theorem packRI_fields (maj : BitVec 6) (d a : Reg) (g : Guard) (imm : BitVec 12) :
    fld (packRI maj d a g imm) 26 6 = maj ∧ fld (packRI maj d a g imm) 21 5 = d ∧ fld (packRI maj d a g imm) 16 5 = a ∧
    guardRI (packRI maj d a g imm) = g ∧ fld (packRI maj d a g imm) 0 12 = imm ∧ fld (packRI maj d a g imm) 13 3 = g.p ∧
    bitAt (packRI maj d a g imm) 12 = g.n ∧ isLong (packRI maj d a g imm) = decide (48 ≤ maj.toNat) := by
  have e := packRI_toNat maj d a g imm
  have := maj.isLt; have := d.isLt; have := a.isLt; have := g.p.isLt; have := imm.isLt
  have h1 : fld (packRI maj d a g imm) 13 3 = g.p := by apply fld_eq; rw [e]; split <;> omega
  have h2 : bitAt (packRI maj d a g imm) 12 = g.n := by apply bitAt_eq; rw [e]; split <;> omega
  refine ⟨?_, ?_, ?_, ?_, ?_, h1, h2, ?_⟩
  case refine_4 => unfold guardRI; rw [h1, h2]
  case refine_6 => rw [isLong_eq, e, decide_eq_decide]; split <;> omega
  all_goals (apply fld_eq; rw [e]; split <;> omega)

theorem packB_toNat (maj : BitVec 6) (g : Guard) (off : BitVec 22) : (packB maj g off).toNat =
    maj.toNat * 2 ^ 26 + g.p.toNat * 2 ^ 23 + (if g.n = true then 1 else 0) * 2 ^ 22 + off.toNat := by
  unfold packB
  simp only [append_toNat, bit_toNat]
  split <;> omega

theorem packB_fields (maj : BitVec 6) (g : Guard) (off : BitVec 22) :
    fld (packB maj g off) 26 6 = maj ∧ guardB (packB maj g off) = g ∧ fld (packB maj g off) 0 22 = off ∧
    isLong (packB maj g off) = decide (48 ≤ maj.toNat) := by
  have e := packB_toNat maj g off
  have := maj.isLt; have := g.p.isLt; have := off.isLt
  refine ⟨?_, ?_, ?_, ?_⟩
  case refine_2 =>
    have h1 : fld (packB maj g off) 23 3 = g.p := by apply fld_eq; rw [e]; split <;> omega
    have h2 : bitAt (packB maj g off) 22 = g.n := by apply bitAt_eq; rw [e]; split <;> omega
    unfold guardB; rw [h1, h2]
  case refine_4 => rw [isLong_eq, e, decide_eq_decide]; split <;> omega
  all_goals (apply fld_eq; rw [e]; split <;> omega)

theorem packU_fields (maj : BitVec 6) (d : Reg) (imm : BitVec 21) :
    fld (packU maj d imm) 26 6 = maj ∧ fld (packU maj d imm) 21 5 = d ∧ fld (packU maj d imm) 0 21 = imm ∧
    isLong (packU maj d imm) = decide (48 ≤ maj.toNat) := by
  have e : (packU maj d imm).toNat = maj.toNat * 2 ^ 26 + d.toNat * 2 ^ 21 + imm.toNat := by
    unfold packU
    simp only [append_toNat]
    omega
  have := maj.isLt; have := d.isLt; have := imm.isLt
  refine ⟨?_, ?_, ?_, ?_⟩
  case refine_4 => rw [isLong_eq, e, decide_eq_decide]; omega
  all_goals (apply fld_eq; rw [e]; omega)

theorem packE_fields (maj : BitVec 6) (q : BitVec 3) (x p0 p1 : Reg) (g : Guard) (gang : Bool) :
    fld (packE maj q x p0 p1 g gang) 26 6 = maj ∧ fld (packE maj q x p0 p1 g gang) 23 3 = q ∧ fld (packE maj q x p0 p1 g gang) 18 5 = x ∧
    fld (packE maj q x p0 p1 g gang) 13 5 = p0 ∧ fld (packE maj q x p0 p1 g gang) 8 5 = p1 ∧ guardQ (packE maj q x p0 p1 g gang) = g ∧
    bitAt (packE maj q x p0 p1 g gang) 3 = gang ∧ fld (packE maj q x p0 p1 g gang) 0 3 = 0 ∧
    isLong (packE maj q x p0 p1 g gang) = decide (48 ≤ maj.toNat) := by
  have e : (packE maj q x p0 p1 g gang).toNat = maj.toNat * 2 ^ 26 + q.toNat * 2 ^ 23 + x.toNat * 2 ^ 18 + p0.toNat * 2 ^ 13 + p1.toNat * 2 ^ 8 +
      g.p.toNat * 2 ^ 5 + (if g.n = true then 1 else 0) * 2 ^ 4 + (if gang = true then 1 else 0) * 2 ^ 3 := by
    unfold packE
    simp only [append_toNat, bit_toNat, BitVec.toNat_ofNat]
    split <;> split <;> omega
  have := maj.isLt; have := q.isLt; have := x.isLt; have := p0.isLt; have := p1.isLt; have := g.p.isLt
  refine ⟨?_, ?_, ?_, ?_, ?_, ?_, ?_, ?_, ?_⟩
  case refine_6 =>
    have h1 : fld (packE maj q x p0 p1 g gang) 5 3 = g.p := by apply fld_eq; rw [e]; split <;> split <;> omega
    have h2 : bitAt (packE maj q x p0 p1 g gang) 4 = g.n := by apply bitAt_eq; rw [e]; split <;> split <;> omega
    unfold guardQ; rw [h1, h2]
  case refine_7 => apply bitAt_eq; rw [e]; split <;> split <;> omega
  case refine_8 => apply fld_eq; rw [e]; show _ = 0; split <;> split <;> omega
  case refine_9 => rw [isLong_eq, e, decide_eq_decide]; split <;> split <;> omega
  all_goals (apply fld_eq; rw [e]; split <;> split <;> omega)

theorem packS_fields (d a : Reg) (csr : BitVec 12) (fn : BitVec 4) :
    fld (packS d a csr fn) 26 6 = 0x26 ∧ fld (packS d a csr fn) 21 5 = d ∧ fld (packS d a csr fn) 16 5 = a ∧ fld (packS d a csr fn) 4 12 = csr ∧
    fld (packS d a csr fn) 0 4 = fn ∧ fld (packS d a csr fn) 6 10 = csr.extractLsb' 2 10 ∧ fld (packS d a csr fn) 4 2 = csr.extractLsb' 0 2 ∧
    isLong (packS d a csr fn) = false := by
  have e : (packS d a csr fn).toNat = 0x26 * 2 ^ 26 + d.toNat * 2 ^ 21 + a.toNat * 2 ^ 16 + csr.toNat * 2 ^ 4 + fn.toNat := by
    unfold packS
    simp only [append_toNat, BitVec.toNat_ofNat]
    omega
  have := d.isLt; have := a.isLt; have := csr.isLt; have := fn.isLt
  refine ⟨?_, ?_, ?_, ?_, ?_, ?_, ?_, ?_⟩
  case refine_8 => rw [isLong_eq, e, decide_eq_false_iff_not]; omega
  all_goals (apply fld_eq; rw [e]; simp [BitVec.extractLsb'_toNat, Nat.shiftRight_eq_div_pow]; try omega)

theorem packQ_fields (maj : BitVec 6) (d a : Reg) (sel : BitVec 8) (g : Guard) (fn : BitVec 4) :
    fld (packQ maj d a sel g fn) 26 6 = maj ∧ fld (packQ maj d a sel g fn) 21 5 = d ∧ fld (packQ maj d a sel g fn) 16 5 = a ∧
    fld (packQ maj d a sel g fn) 8 8 = sel ∧ guardQ (packQ maj d a sel g fn) = g ∧ fld (packQ maj d a sel g fn) 0 4 = fn ∧
    isLong (packQ maj d a sel g fn) = decide (48 ≤ maj.toNat) ∧
    ∀ lo n, lo + n ≤ 8 → fld (packQ maj d a sel g fn) (8 + lo) n = sel.extractLsb' lo n := by
  have e : (packQ maj d a sel g fn).toNat = maj.toNat * 2 ^ 26 + d.toNat * 2 ^ 21 + a.toNat * 2 ^ 16 + sel.toNat * 2 ^ 8 + g.p.toNat * 2 ^ 5 +
      (if g.n = true then 1 else 0) * 2 ^ 4 + fn.toNat := by
    unfold packQ
    simp only [append_toNat, bit_toNat]
    split <;> omega
  have := maj.isLt; have := d.isLt; have := a.isLt; have := sel.isLt; have := g.p.isLt; have := fn.isLt
  have hs : fld (packQ maj d a sel g fn) 8 8 = sel := by apply fld_eq; rw [e]; split <;> omega
  refine ⟨?_, ?_, ?_, hs, ?_, ?_, ?_, ?_⟩
  case refine_4 =>
    have h1 : fld (packQ maj d a sel g fn) 5 3 = g.p := by apply fld_eq; rw [e]; split <;> omega
    have h2 : bitAt (packQ maj d a sel g fn) 4 = g.n := by apply bitAt_eq; rw [e]; split <;> omega
    unfold guardQ; rw [h1, h2]
  case refine_6 => rw [isLong_eq, e, decide_eq_decide]; split <;> omega
  case refine_7 =>
    intro lo n hn
    conv => rhs; rw [← hs]
    unfold fld
    ext i hi
    simp only [BitVec.getElem_extractLsb', BitVec.getLsbD_extractLsb']
    rw [show decide (lo + i < 8) = true by simp; omega, Bool.true_and, Nat.add_assoc]
  all_goals (apply fld_eq; rw [e]; split <;> omega)

/-! ### The long form (R86, R87, R88) -/

/-- Whether the guard is a stage predicate, as ext says (R87). -/
def LGuard.isStage : LGuard → Bool
  | .pred _ => false
  | .stage _ => true

theorem packL0_fields (lop : BitVec 6) (vd va : VReg) (g : LGuard) :
    fld (packL0 lop vd va g) 24 6 = lop ∧ fld (packL0 lop vd va g) 13 11 = vd ∧ fld (packL0 lop vd va g) 2 11 = va ∧
    fld (packL0 lop vd va g) 0 2 = (if g.isStage = true then 1 else 0) ∧ isLong (packL0 lop vd va g) = true := by
  have e : (packL0 lop vd va g).toNat = 3 * 2 ^ 30 + lop.toNat * 2 ^ 24 + vd.toNat * 2 ^ 13 + va.toNat * 2 ^ 2 + (if g.isStage = true then 1 else 0) := by
    have h : packL0 lop vd va g = 3#2 ++ lop ++ vd ++ va ++ 0#1 ++ bit g.isStage := by cases g <;> rfl
    rw [h]
    simp only [append_toNat, bit_toNat, BitVec.toNat_ofNat]
    omega
  have := lop.isLt; have := vd.isLt; have := va.isLt
  refine ⟨?_, ?_, ?_, ?_, ?_⟩
  case refine_4 => apply fld_eq; rw [e]; split <;> simp only [BitVec.ofNat_eq_ofNat, BitVec.toNat_ofNat] <;> omega
  case refine_5 => rw [isLong_eq, e, decide_eq_true_iff]; split <;> omega
  all_goals (apply fld_eq; rw [e]; split <;> omega)

theorem packL1_fields (vb : VReg) (xc : Reg) (g : LGuard) (pl : Bool) (f5 : BitVec 5) (m6 : BitVec 6) :
    fld (packL1 vb xc g pl f5 m6) 21 11 = vb ∧ fld (packL1 vb xc g pl f5 m6) 16 5 = xc ∧ fld (packL1 vb xc g pl f5 m6) 12 4 = lguardBits g ∧
    bitAt (packL1 vb xc g pl f5 m6) 11 = pl ∧ fld (packL1 vb xc g pl f5 m6) 6 5 = f5 ∧ fld (packL1 vb xc g pl f5 m6) 0 6 = m6 := by
  have e : (packL1 vb xc g pl f5 m6).toNat = vb.toNat * 2 ^ 21 + xc.toNat * 2 ^ 16 + (lguardBits g).toNat * 2 ^ 12 + (if pl = true then 1 else 0) * 2 ^ 11 +
      f5.toNat * 2 ^ 6 + m6.toNat := by
    unfold packL1
    simp only [append_toNat, bit_toNat]
    split <;> omega
  have := vb.isLt; have := xc.isLt; have := (lguardBits g).isLt; have := f5.isLt; have := m6.isLt
  refine ⟨?_, ?_, ?_, ?_, ?_, ?_⟩
  case refine_4 => apply bitAt_eq; rw [e]; split <;> omega
  all_goals (apply fld_eq; rw [e]; split <;> omega)

theorem lineWord_fields (vb : VReg) (dir : BitVec 2) (line first : BitVec 8) :
    fld (vb ++ dir ++ line ++ first ++ 0#3) 21 11 = vb ∧ fld (vb ++ dir ++ line ++ first ++ 0#3) 19 2 = dir ∧
    fld (vb ++ dir ++ line ++ first ++ 0#3) 11 8 = line ∧ fld (vb ++ dir ++ line ++ first ++ 0#3) 3 8 = first ∧
    fld (vb ++ dir ++ line ++ first ++ 0#3) 0 3 = 0 := by
  have e : (vb ++ dir ++ line ++ first ++ 0#3 : BitVec 32).toNat =
      vb.toNat * 2 ^ 21 + dir.toNat * 2 ^ 19 + line.toNat * 2 ^ 11 + first.toNat * 2 ^ 3 := by
    simp only [append_toNat, BitVec.toNat_ofNat]
    omega
  have := vb.isLt; have := dir.isLt; have := line.isLt; have := first.isLt
  refine ⟨?_, ?_, ?_, ?_, ?_⟩
  case refine_5 => apply fld_eq; rw [e]; show _ = 0; omega
  all_goals (apply fld_eq; rw [e]; omega)

/-! ### From bytes to words -/

/-- A word is the four bytes that hold it, lowest first (R1). -/
theorem word32_bytesOf (w : BitVec 32) (rest : List Byte) : ∃ b0 b1 b2 b3, bytesOf 4 w.toNat ++ rest = b0 :: b1 :: b2 :: b3 :: rest ∧ word32 b0 b1 b2 b3 = w := by
  refine ⟨_, _, _, _, rfl, ?_⟩
  apply BitVec.eq_of_toNat_eq
  have := w.isLt
  simp only [word32, append_toNat, BitVec.toNat_ofNat]
  omega

/-- A 32-bit instruction is decoded from its four bytes, and the rest of the list is left (R80). -/
theorem decode_word (w : BitVec 32) (rest : List Byte) (hl : isLong w = false) : decode (bytesOf 4 w.toNat ++ rest) = (decode32 w).map (·, rest) := by
  obtain ⟨b0, b1, b2, b3, he, hw⟩ := word32_bytesOf w rest
  rw [he]
  simp only [decode, hw, hl, Bool.false_eq_true, if_false]

/-- A long form is decoded from its eight bytes (R80). -/
theorem decode_long (w0 w1 : BitVec 32) (rest : List Byte) (hl : isLong w0 = true) :
    decode (bytesOf 4 w0.toNat ++ (bytesOf 4 w1.toNat ++ rest)) = (decodeLong w0 w1).map (·, rest) := by
  obtain ⟨b0, b1, b2, b3, he, hw⟩ := word32_bytesOf w0 (bytesOf 4 w1.toNat ++ rest)
  obtain ⟨c0, c1, c2, c3, he', hw'⟩ := word32_bytesOf w1 rest
  rw [he, he']
  simp only [decode, hw, hw', hl, if_true]

end Sys2Proof
end

