-- ==== Sys2Proof/Laws/State.lean ====
section
/-! SUPPORT. Laws of the state: lookups after updates of cores and contexts, and what each named update leaves alone. -/

namespace Sys2Proof.Machine

/-! ### Cores and contexts -/

@[simp] theorem coreGet_coreSet (l : List (Nat × Core)) (c : Nat) (v : Core) : coreGet (coreSet l c v) c = v := by
  induction l with
  | nil => simp [coreSet, coreGet]
  | cons p l ih =>
    obtain ⟨k, w⟩ := p
    simp only [coreSet]
    split
    · simp [coreGet]
    · split
      · simp [coreGet]
      · rename_i h
        simp [coreGet, h, ih]

theorem coreGet_coreSet_other (l : List (Nat × Core)) (c g : Nat) (v : Core) (h : g ≠ c) : coreGet (coreSet l c v) g = coreGet l g := by
  have h' : c ≠ g := fun e => h e.symm
  induction l with
  | nil => simp [coreSet, coreGet, h']
  | cons p l ih =>
    obtain ⟨k, w⟩ := p
    simp only [coreSet]
    split
    · simp [coreGet, h']
    · split
      · rename_i e
        subst e
        simp [coreGet, h']
      · simp only [coreGet, ih]

@[simp] theorem Core.ctx_setCtx (c : Core) (k : CtxId) (v : Ctx) : (c.setCtx k v).ctx k = v := by cases k <;> rfl

theorem Core.ctx_setCtx_other (c : Core) (k j : CtxId) (v : Ctx) (h : j ≠ k) : (c.setCtx k v).ctx j = c.ctx j := by
  cases k <;> cases j <;> first | rfl | exact absurd rfl h

@[simp] theorem Core.setCtx_setCtx (c : Core) (k : CtxId) (v w : Ctx) : (c.setCtx k v).setCtx k w = c.setCtx k w := by cases k <;> rfl

@[simp] theorem Core.setCtx_ctx (c : Core) (k : CtxId) : c.setCtx k (c.ctx k) = c := by cases k <;> rfl

/-! ### Fields of the device that an update of a core leaves alone -/

@[simp] theorem Mach.core_setCore (m : Mach) (c : Nat) (v : Core) : (m.setCore c v).core c = v := coreGet_coreSet _ _ _

theorem Mach.core_setCore_other (m : Mach) (c g : Nat) (v : Core) (h : g ≠ c) : (m.setCore c v).core g = m.core g := coreGet_coreSet_other _ _ _ _ h

@[simp] theorem Mach.core_onCore (m : Mach) (c : Nat) (f : Core → Core) : (m.onCore c f).core c = f (m.core c) := coreGet_coreSet _ _ _

theorem Mach.core_onCore_other (m : Mach) (c g : Nat) (f : Core → Core) (h : g ≠ c) : (m.onCore c f).core g = m.core g := coreGet_coreSet_other _ _ _ _ h

@[simp] theorem Mach.onCore_base (m : Mach) (c : Nat) (f : Core → Core) : (m.onCore c f).base = m.base := rfl

@[simp] theorem Mach.onCore_log (m : Mach) (c : Nat) (f : Core → Core) : (m.onCore c f).log = m.log := rfl

@[simp] theorem Mach.onCtx_base (m : Mach) (c : Nat) (k : CtxId) (f : Ctx → Ctx) : (m.onCtx c k f).base = m.base := rfl

@[simp] theorem Mach.onCtx_log (m : Mach) (c : Nat) (k : CtxId) (f : Ctx → Ctx) : (m.onCtx c k f).log = m.log := rfl

@[simp] theorem Mach.onDev_base (m : Mach) (f : Dev → Dev) : (m.onDev f).base = m.base := rfl

@[simp] theorem Mach.onDev_log (m : Mach) (f : Dev → Dev) : (m.onDev f).log = m.log := rfl

@[simp] theorem Mach.onDev_dev (m : Mach) (f : Dev → Dev) : (m.onDev f).dev = f m.dev := rfl

@[simp] theorem Mach.cid_onCore (m : Mach) (c : Nat) (f : Core → Core) : (m.onCore c f).cid = m.cid := rfl

@[simp] theorem Mach.kid_onCore (m : Mach) (c : Nat) (f : Core → Core) : (m.onCore c f).kid = m.kid := rfl

@[simp] theorem Mach.cid_onCtx (m : Mach) (c : Nat) (k : CtxId) (f : Ctx → Ctx) : (m.onCtx c k f).cid = m.cid := rfl

@[simp] theorem Mach.kid_onCtx (m : Mach) (c : Nat) (k : CtxId) (f : Ctx → Ctx) : (m.onCtx c k f).kid = m.kid := rfl

@[simp] theorem Mach.ctx_onCtx (m : Mach) (c : Nat) (k : CtxId) (f : Ctx → Ctx) : ((m.onCtx c k f).core c).ctx k = f ((m.core c).ctx k) := by
  simp [Mach.onCtx, Core.onCtx]

/-- Setting a core changes nothing of the device but its list of cores. -/
theorem Dev.setCore_only (d : Dev) (c : Nat) (v : Core) : d.setCore c v = { d with cores := (d.setCore c v).cores } := by
  unfold Dev.setCore
  rfl

theorem sameDevice_setCore (s : State) (b : Mem) (c : Nat) (v : Core) : SameDevice s ⟨b, s.dev.setCore c v⟩ := by
  unfold SameDevice
  exact Dev.setCore_only s.dev c v

/-! ### One context changed -/

/-- The core of the slot after a change of its context. -/
theorem onCur_core (m : Mach) (f : Ctx → Ctx) : (m.onCur f).core m.cid = (m.core m.cid).setCtx m.kid (f m.cur) := coreGet_coreSet _ _ _

/-- The state after `lift` of a change of the current context. -/
theorem lift_onCur (s : State) (f : Ctx → Ctx) :
    ∃ t, lift (·.onCur f) s = .next t ∧ OnlyCtx s.cid s.kid s t ∧ t.cur = f s.cur := by
  let m : Mach := ⟨s.mem, [], s.dev, false⟩
  have hc : (m.onCur f).core s.cid = (s.core s.cid).setCtx s.kid (f s.cur) := onCur_core m f
  have hx : ((m.onCur f).core s.cid).ctx s.kid = f s.cur := by rw [hc, Core.ctx_setCtx]
  refine ⟨⟨s.mem, (m.onCur f).dev⟩, rfl, ⟨fun a => rfl, sameDevice_setCore s s.mem s.cid _, fun g h => coreGet_coreSet_other _ _ _ _ h, ?_⟩, hx⟩
  show (m.onCur f).core s.cid = (s.core s.cid).setCtx s.kid (((m.onCur f).core s.cid).ctx s.kid)
  rw [hx, hc]

/-- `Mach.onCur` on the machine of a state is `Mach.onCtx` of the slot's core and context. -/
theorem lift_eq (f : Mach → Mach) (s : State) :
    lift f s = .next ⟨s.mem.apply (f ⟨s.mem, [], s.dev, false⟩).log, (f ⟨s.mem, [], s.dev, false⟩).dev⟩ := rfl

/-! ### Registers -/

theorem Ctx.setReg_zero (x : Ctx) (v : Word) : x.setReg 0 v = x := rfl

theorem Ctx.setReg_of_ne (x : Ctx) (d : Reg) (v : Word) (h : d ≠ 0) : x.setReg d v = { x with regs := x.regs.set d.toNat v } := if_neg h

theorem Ctx.reg_setReg (x : Ctx) (d r : Reg) (v : Word) : (x.setReg d v).reg r = if r = d ∧ d ≠ 0 then v else x.reg r := by
  by_cases hd : d = 0
  · subst hd
    exact (if_neg (fun h => h.2 rfl)).symm
  · rw [Ctx.setReg_of_ne x d v hd]
    by_cases hr : r = d
    · subst hr
      rw [if_pos ⟨rfl, hd⟩]
      unfold Ctx.reg
      rw [if_neg hd]
      simp
    · rw [if_neg (fun h => hr h.1)]
      have hn : d.toNat ≠ r.toNat := fun e => hr (BitVec.eq_of_toNat_eq e.symm)
      unfold Ctx.reg
      by_cases h0 : r = 0
      · rw [if_pos h0, if_pos h0]
      · rw [if_neg h0, if_neg h0]
        exact Vector.getElem_set_ne (xs := x.regs) d.isLt r.isLt hn

@[simp] theorem Ctx.reg_zero (x : Ctx) : x.reg 0 = 0 := rfl

/-- Setting a register changes nothing but the registers. -/
theorem Ctx.setReg_eq (x : Ctx) (d : Reg) (v : Word) : ∃ rs, x.setReg d v = { x with regs := rs } := by
  by_cases h : d = 0
  · exact ⟨x.regs, by rw [h]; rfl⟩
  · exact ⟨_, Ctx.setReg_of_ne x d v h⟩

/-- A run of register writes changes nothing but the registers. -/
theorem foldl_setReg_eq (l : List Pend) (x : Ctx) : ∃ rs, l.foldl (fun y p => y.setReg p.dest p.val) x = { x with regs := rs } := by
  induction l generalizing x with
  | nil => exact ⟨x.regs, rfl⟩
  | cons p l ih =>
    obtain ⟨r1, h1⟩ := Ctx.setReg_eq x p.dest p.val
    obtain ⟨r2, h2⟩ := ih (x.setReg p.dest p.val)
    exact ⟨r2, by rw [List.foldl_cons, h2, h1]⟩

/-- The landings of an issue change nothing but the registers and the pending entries (R25). -/
theorem Ctx.landDue_eq (x : Ctx) : ∃ rs, x.landDue = { x with regs := rs, pwb := pendStay x.pwb } := by
  obtain ⟨rs, h⟩ := foldl_setReg_eq (x.pwb.filter fun p => p.rem ≤ 1) { x with pwb := pendStay x.pwb }
  exact ⟨rs, h⟩

@[simp] theorem Ctx.landDue_pwb (x : Ctx) : x.landDue.pwb = pendStay x.pwb := by
  obtain ⟨rs, h⟩ := x.landDue_eq
  rw [h]

/-- What an issue leaves when the instruction's own effect changes other fields only. -/
theorem Ctx.retire_issued (x : Ctx) (pc : Word) (eff : Ctx → Ctx) (y : Ctx) (h : ∀ rs pw, ∃ rs' pw', eff { x with regs := rs, pwb := pw } = { y with regs := rs', pwb := pw' })
    (ht : y.tick = x.tick) : Issued x y pc (x.retire pc eff) := by
  obtain ⟨rs, hl⟩ := x.landDue_eq
  obtain ⟨rs', pw', he⟩ := h rs (pendStay x.pwb)
  unfold Ctx.retire Issued
  simp only [hl, he, ht]

/-- An issue that writes no register. -/
theorem Ctx.retire_id (x : Ctx) (pc : Word) : Issued x x pc (x.retire pc id) ∧ NoWrite x (x.retire pc id) :=
  ⟨Ctx.retire_issued x pc id x (fun rs pw => ⟨rs, pw, rfl⟩) rfl, rfl, by simp [Ctx.retire]⟩

/-- Scheduling a write changes the registers and pending entries only. -/
theorem Ctx.put_eq (x : Ctx) (d : Reg) (v : Word) (lat : Nat) : ∃ rs pw, x.put d v lat = { x with regs := rs, pwb := pw } := by
  unfold Ctx.put
  split
  · exact ⟨x.regs, x.pwb, rfl⟩
  · split
    · obtain ⟨rs, h⟩ := Ctx.setReg_eq x d v
      exact ⟨rs, x.pwb, h⟩
    · exact ⟨x.regs, _, rfl⟩

/-- An issue that writes a register. -/
theorem Ctx.retire_put (x : Ctx) (pc : Word) (d : Reg) (v : Word) (lat : Nat) : Issued x x pc (x.retire pc fun y => y.put d v lat) :=
  Ctx.retire_issued x pc _ x (fun rs pw => by
    obtain ⟨r, w, h⟩ := Ctx.put_eq { x with regs := rs, pwb := pw } d v lat
    exact ⟨r, w, h⟩) rfl

/-- With latency 1 the write lands at once. -/
theorem Ctx.put_one (x : Ctx) (d : Reg) (v : Word) (lat : Nat) (h : lat ≤ 1) : x.put d v lat = x.setReg d v := by
  unfold Ctx.put Ctx.setReg
  by_cases hd : d = 0
  · rw [if_pos hd, if_pos hd]
  · rw [if_neg hd, if_neg hd, if_pos h]

theorem Ctx.retire_put_wrote (x : Ctx) (pc : Word) (d : Reg) (v : Word) (lat : Nat) (h : lat ≤ 1) :
    Wrote x d v (x.retire pc fun y => y.put d v lat) := by
  obtain ⟨rs, he⟩ := Ctx.setReg_eq x.landDue d v
  have hr : (x.retire pc fun y => y.put d v lat) = { x.landDue.setReg d v with pc := pc, tick := (x.landDue.setReg d v).tick + 1 } := by
    show { x.landDue.put d v lat with pc := pc, tick := (x.landDue.put d v lat).tick + 1 } = _
    rw [Ctx.put_one _ _ _ _ h]
  rw [hr]
  refine ⟨fun r => Ctx.reg_setReg x.landDue d r v, ?_⟩
  rw [he]
  exact x.landDue_pwb

/-- With a greater latency it is the youngest pending entry. -/
theorem Ctx.retire_put_pends (x : Ctx) (pc : Word) (d : Reg) (v : Word) (lat : Nat) (h : 1 < lat) :
    Pends x d v lat (x.retire pc fun y => y.put d v lat) := by
  have hl : ¬ lat ≤ 1 := by omega
  by_cases hd : d = 0
  · have hp : x.landDue.put d v lat = x.landDue := if_pos hd
    unfold Ctx.retire Pends
    simp only [hp, if_pos hd, List.append_nil]
    exact ⟨trivial, x.landDue_pwb⟩
  · have hp : x.landDue.put d v lat = { x.landDue with pwb := x.landDue.pwb ++ [⟨d, lat - 1, v⟩] } := by
      unfold Ctx.put
      rw [if_neg hd, if_neg hl]
    unfold Ctx.retire Pends
    simp only [hp, if_neg hd, x.landDue_pwb, and_self]

end Sys2Proof.Machine
end

