-- ==== Sys2Proof/Laws/Fields.lean ====
section
/-! SUPPORT. One law per field per named update of State: what each update of a context, a core and the machine leaves as it was. -/

namespace Sys2Proof.Machine

/-! ### A core whose context is set -/

@[simp] theorem Core.setCtx_id (c : Core) (k : CtxId) (v : Ctx) : (c.setCtx k v).id = c.id := by cases k <;> rfl

@[simp] theorem Core.setCtx_imgLen (c : Core) (k : CtxId) (v : Ctx) : (c.setCtx k v).imgLen = c.imgLen := by cases k <;> rfl

@[simp] theorem Core.setCtx_rings (c : Core) (k : CtxId) (v : Ctx) : (c.setCtx k v).rings = c.rings := by cases k <;> rfl

@[simp] theorem Core.setCtx_tokens (c : Core) (k : CtxId) (v : Ctx) : (c.setCtx k v).tokens = c.tokens := by cases k <;> rfl

@[simp] theorem Core.setCtx_heldTokens (c : Core) (k : CtxId) (v : Ctx) : (c.setCtx k v).heldTokens = c.heldTokens := by cases k <;> rfl

@[simp] theorem Core.setCtx_lq (c : Core) (k : CtxId) (v : Ctx) : (c.setCtx k v).lq = c.lq := by cases k <;> rfl

@[simp] theorem Core.setCtx_sq (c : Core) (k : CtxId) (v : Ctx) : (c.setCtx k v).sq = c.sq := by cases k <;> rfl

@[simp] theorem Core.setCtx_mq (c : Core) (k : CtxId) (v : Ctx) : (c.setCtx k v).mq = c.mq := by cases k <;> rfl

@[simp] theorem Core.setCtx_vq (c : Core) (k : CtxId) (v : Ctx) : (c.setCtx k v).vq = c.vq := by cases k <;> rfl

@[simp] theorem Core.setCtx_kq (c : Core) (k : CtxId) (v : Ctx) : (c.setCtx k v).kq = c.kq := by cases k <;> rfl

@[simp] theorem Core.setCtx_reserved (c : Core) (k : CtxId) (v : Ctx) : (c.setCtx k v).reserved = c.reserved := by cases k <;> rfl

@[simp] theorem Core.setCtx_accs (c : Core) (k : CtxId) (v : Ctx) : (c.setCtx k v).accs = c.accs := by cases k <;> rfl

@[simp] theorem Core.setCtx_sees (c : Core) (k : CtxId) (v : Ctx) : (c.setCtx k v).sees = c.sees := by cases k <;> rfl

@[simp] theorem Core.setCtx_nextSeq (c : Core) (k : CtxId) (v : Ctx) : (c.setCtx k v).nextSeq = c.nextSeq := by cases k <;> rfl

@[simp] theorem Core.setCtx_slots (c : Core) (k : CtxId) (v : Ctx) : (c.setCtx k v).slots = c.slots := by cases k <;> rfl

@[simp] theorem Core.setCtx_fmts (c : Core) (k : CtxId) (v : Ctx) : (c.setCtx k v).fmts = c.fmts := by cases k <;> rfl

@[simp] theorem Core.setCtx_seat0 (c : Core) (k : CtxId) (v : Ctx) : (c.setCtx k v).seat0 = c.seat0 := by cases k <;> rfl

@[simp] theorem Core.setCtx_seat1 (c : Core) (k : CtxId) (v : Ctx) : (c.setCtx k v).seat1 = c.seat1 := by cases k <;> rfl

@[simp] theorem Core.setCtx_ovf (c : Core) (k : CtxId) (v : Ctx) : (c.setCtx k v).ovf = c.ovf := by cases k <;> rfl

@[simp] theorem Core.setCtx_pcw (c : Core) (k : CtxId) (v : Ctx) : (c.setCtx k v).pcw = c.pcw := by cases k <;> rfl

@[simp] theorem Core.setCtx_acs (c : Core) (k : CtxId) (v : Ctx) : (c.setCtx k v).acs = c.acs := by cases k <;> rfl

@[simp] theorem Core.setCtx_claims (c : Core) (k : CtxId) (v : Ctx) : (c.setCtx k v).claims = c.claims := by cases k <;> rfl

@[simp] theorem Core.setCtx_windows (c : Core) (k : CtxId) (v : Ctx) : (c.setCtx k v).windows = c.windows := by cases k <;> rfl

@[simp] theorem Core.setCtx_anys (c : Core) (k : CtxId) (v : Ctx) : (c.setCtx k v).anys = c.anys := by cases k <;> rfl

@[simp] theorem Core.setCtx_freads (c : Core) (k : CtxId) (v : Ctx) : (c.setCtx k v).freads = c.freads := by cases k <;> rfl

@[simp] theorem Core.setCtx_arr (c : Core) (k : CtxId) (v : Ctx) : (c.setCtx k v).arr = c.arr := by cases k <;> rfl

@[simp] theorem Core.setCtx_coin (c : Core) (k : CtxId) (v : Ctx) : (c.setCtx k v).coin = c.coin := by cases k <;> rfl

@[simp] theorem Core.setCtx_cabinetAt (c : Core) (k : CtxId) (v : Ctx) : (c.setCtx k v).cabinetAt = c.cabinetAt := by cases k <;> rfl

@[simp] theorem Core.setCtx_seed (c : Core) (k : CtxId) (v : Ctx) : (c.setCtx k v).seed = c.seed := by cases k <;> rfl

@[simp] theorem Core.setCtx_job (c : Core) (k : CtxId) (v : Ctx) : (c.setCtx k v).job = c.job := by cases k <;> rfl

@[simp] theorem Core.setCtx_jobid (c : Core) (k : CtxId) (v : Ctx) : (c.setCtx k v).jobid = c.jobid := by cases k <;> rfl

@[simp] theorem Core.setCtx_gmap (c : Core) (k : CtxId) (v : Ctx) : (c.setCtx k v).gmap = c.gmap := by cases k <;> rfl

@[simp] theorem Core.setCtx_fixed (c : Core) (k : CtxId) (v : Ctx) : (c.setCtx k v).fixed = c.fixed := by cases k <;> rfl

@[simp] theorem Core.setCtx_checked (c : Core) (k : CtxId) (v : Ctx) : (c.setCtx k v).checked = c.checked := by cases k <;> rfl

@[simp] theorem Core.setCtx_paired (c : Core) (k : CtxId) (v : Ctx) : (c.setCtx k v).paired = c.paired := by cases k <;> rfl

@[simp] theorem Core.setCtx_conf (c : Core) (k : CtxId) (v : Ctx) : (c.setCtx k v).conf = c.conf := by cases k <;> rfl

@[simp] theorem Core.setCtx_budget (c : Core) (k : CtxId) (v : Ctx) : (c.setCtx k v).budget = c.budget := by cases k <;> rfl

@[simp] theorem Core.setCtx_startAt (c : Core) (k : CtxId) (v : Ctx) : (c.setCtx k v).startAt = c.startAt := by cases k <;> rfl

@[simp] theorem Core.setCtx_dealtAt (c : Core) (k : CtxId) (v : Ctx) : (c.setCtx k v).dealtAt = c.dealtAt := by cases k <;> rfl

@[simp] theorem Core.setCtx_counted (c : Core) (k : CtxId) (v : Ctx) : (c.setCtx k v).counted = c.counted := by cases k <;> rfl

@[simp] theorem Core.setCtx_excluded (c : Core) (k : CtxId) (v : Ctx) : (c.setCtx k v).excluded = c.excluded := by cases k <;> rfl

@[simp] theorem Core.setCtx_freeAt (c : Core) (k : CtxId) (v : Ctx) : (c.setCtx k v).freeAt = c.freeAt := by cases k <;> rfl

@[simp] theorem Core.setCtx_drainlim (c : Core) (k : CtxId) (v : Ctx) : (c.setCtx k v).drainlim = c.drainlim := by cases k <;> rfl

@[simp] theorem Core.setCtx_gangwait (c : Core) (k : CtxId) (v : Ctx) : (c.setCtx k v).gangwait = c.gangwait := by cases k <;> rfl

@[simp] theorem Core.setCtx_ptbase (c : Core) (k : CtxId) (v : Ctx) : (c.setCtx k v).ptbase = c.ptbase := by cases k <;> rfl

@[simp] theorem Core.setCtx_asid (c : Core) (k : CtxId) (v : Ctx) : (c.setCtx k v).asid = c.asid := by cases k <;> rfl

@[simp] theorem Core.setCtx_tlbctl (c : Core) (k : CtxId) (v : Ctx) : (c.setCtx k v).tlbctl = c.tlbctl := by cases k <;> rfl

@[simp] theorem Core.setCtx_tlb (c : Core) (k : CtxId) (v : Ctx) : (c.setCtx k v).tlb = c.tlb := by cases k <;> rfl

@[simp] theorem Core.setCtx_phase (c : Core) (k : CtxId) (v : Ctx) : (c.setCtx k v).phase = c.phase := by cases k <;> rfl

@[simp] theorem Core.setCtx_phases (c : Core) (k : CtxId) (v : Ctx) : (c.setCtx k v).phases = c.phases := by cases k <;> rfl

@[simp] theorem Core.setCtx_lapsed (c : Core) (k : CtxId) (v : Ctx) : (c.setCtx k v).lapsed = c.lapsed := by cases k <;> rfl

@[simp] theorem Core.setCtx_cancelled (c : Core) (k : CtxId) (v : Ctx) : (c.setCtx k v).cancelled = c.cancelled := by cases k <;> rfl

@[simp] theorem Core.setCtx_kept (c : Core) (k : CtxId) (v : Ctx) : (c.setCtx k v).kept = c.kept := by cases k <;> rfl

@[simp] theorem Core.setCtx_tokLog (c : Core) (k : CtxId) (v : Ctx) : (c.setCtx k v).tokLog = c.tokLog := by cases k <;> rfl

@[simp] theorem Core.setCtx_inj (c : Core) (k : CtxId) (v : Ctx) : (c.setCtx k v).inj = c.inj := by cases k <;> rfl

@[simp] theorem Core.setCtx_con (c : Core) (k : CtxId) (v : Ctx) : (c.setCtx k v).con = c.con := by cases k <;> rfl

@[simp] theorem Core.setCtx_lost (c : Core) (k : CtxId) (v : Ctx) : (c.setCtx k v).lost = c.lost := by cases k <;> rfl

@[simp] theorem Core.setCtx_abandoned (c : Core) (k : CtxId) (v : Ctx) : (c.setCtx k v).abandoned = c.abandoned := by cases k <;> rfl

@[simp] theorem Core.setCtx_amsgs (c : Core) (k : CtxId) (v : Ctx) : (c.setCtx k v).amsgs = c.amsgs := by cases k <;> rfl

@[simp] theorem Core.setCtx_life (c : Core) (k : CtxId) (v : Ctx) : (c.setCtx k v).life = c.life := by cases k <;> rfl

@[simp] theorem Core.setCtx_busy (c : Core) (k : CtxId) (v : Ctx) : (c.setCtx k v).busy = c.busy := by cases k <;> rfl

@[simp] theorem Core.setCtx_stopAt (c : Core) (k : CtxId) (v : Ctx) : (c.setCtx k v).stopAt = c.stopAt := by cases k <;> rfl

@[simp] theorem Core.setCtx_quarantined (c : Core) (k : CtxId) (v : Ctx) : (c.setCtx k v).quarantined = c.quarantined := by cases k <;> rfl

@[simp] theorem Core.setCtx_arcs (c : Core) (k : CtxId) (v : Ctx) : (c.setCtx k v).arcs = c.arcs := by cases k <;> rfl

@[simp] theorem Core.setCtx_tie (c : Core) (k : CtxId) (v : Ctx) : (c.setCtx k v).tie = c.tie := by cases k <;> rfl

/-! ### A core whose queue is set (R7) -/

@[simp] theorem Core.setQueue_id (c : Core) (q : Queue) (l : List Cmd) : (c.setQueue q l).id = c.id := by cases q <;> rfl

@[simp] theorem Core.setQueue_a (c : Core) (q : Queue) (l : List Cmd) : (c.setQueue q l).a = c.a := by cases q <;> rfl

@[simp] theorem Core.setQueue_x (c : Core) (q : Queue) (l : List Cmd) : (c.setQueue q l).x = c.x := by cases q <;> rfl

@[simp] theorem Core.setQueue_s (c : Core) (q : Queue) (l : List Cmd) : (c.setQueue q l).s = c.s := by cases q <;> rfl

@[simp] theorem Core.setQueue_imgLen (c : Core) (q : Queue) (l : List Cmd) : (c.setQueue q l).imgLen = c.imgLen := by cases q <;> rfl

@[simp] theorem Core.setQueue_rings (c : Core) (q : Queue) (l : List Cmd) : (c.setQueue q l).rings = c.rings := by cases q <;> rfl

@[simp] theorem Core.setQueue_tokens (c : Core) (q : Queue) (l : List Cmd) : (c.setQueue q l).tokens = c.tokens := by cases q <;> rfl

@[simp] theorem Core.setQueue_heldTokens (c : Core) (q : Queue) (l : List Cmd) : (c.setQueue q l).heldTokens = c.heldTokens := by cases q <;> rfl

@[simp] theorem Core.setQueue_reserved (c : Core) (q : Queue) (l : List Cmd) : (c.setQueue q l).reserved = c.reserved := by cases q <;> rfl

@[simp] theorem Core.setQueue_accs (c : Core) (q : Queue) (l : List Cmd) : (c.setQueue q l).accs = c.accs := by cases q <;> rfl

@[simp] theorem Core.setQueue_sees (c : Core) (q : Queue) (l : List Cmd) : (c.setQueue q l).sees = c.sees := by cases q <;> rfl

@[simp] theorem Core.setQueue_nextSeq (c : Core) (q : Queue) (l : List Cmd) : (c.setQueue q l).nextSeq = c.nextSeq := by cases q <;> rfl

@[simp] theorem Core.setQueue_slots (c : Core) (q : Queue) (l : List Cmd) : (c.setQueue q l).slots = c.slots := by cases q <;> rfl

@[simp] theorem Core.setQueue_fmts (c : Core) (q : Queue) (l : List Cmd) : (c.setQueue q l).fmts = c.fmts := by cases q <;> rfl

@[simp] theorem Core.setQueue_seat0 (c : Core) (q : Queue) (l : List Cmd) : (c.setQueue q l).seat0 = c.seat0 := by cases q <;> rfl

@[simp] theorem Core.setQueue_seat1 (c : Core) (q : Queue) (l : List Cmd) : (c.setQueue q l).seat1 = c.seat1 := by cases q <;> rfl

@[simp] theorem Core.setQueue_ovf (c : Core) (q : Queue) (l : List Cmd) : (c.setQueue q l).ovf = c.ovf := by cases q <;> rfl

@[simp] theorem Core.setQueue_pcw (c : Core) (q : Queue) (l : List Cmd) : (c.setQueue q l).pcw = c.pcw := by cases q <;> rfl

@[simp] theorem Core.setQueue_acs (c : Core) (q : Queue) (l : List Cmd) : (c.setQueue q l).acs = c.acs := by cases q <;> rfl

@[simp] theorem Core.setQueue_claims (c : Core) (q : Queue) (l : List Cmd) : (c.setQueue q l).claims = c.claims := by cases q <;> rfl

@[simp] theorem Core.setQueue_windows (c : Core) (q : Queue) (l : List Cmd) : (c.setQueue q l).windows = c.windows := by cases q <;> rfl

@[simp] theorem Core.setQueue_anys (c : Core) (q : Queue) (l : List Cmd) : (c.setQueue q l).anys = c.anys := by cases q <;> rfl

@[simp] theorem Core.setQueue_freads (c : Core) (q : Queue) (l : List Cmd) : (c.setQueue q l).freads = c.freads := by cases q <;> rfl

@[simp] theorem Core.setQueue_arr (c : Core) (q : Queue) (l : List Cmd) : (c.setQueue q l).arr = c.arr := by cases q <;> rfl

@[simp] theorem Core.setQueue_coin (c : Core) (q : Queue) (l : List Cmd) : (c.setQueue q l).coin = c.coin := by cases q <;> rfl

@[simp] theorem Core.setQueue_cabinetAt (c : Core) (q : Queue) (l : List Cmd) : (c.setQueue q l).cabinetAt = c.cabinetAt := by cases q <;> rfl

@[simp] theorem Core.setQueue_seed (c : Core) (q : Queue) (l : List Cmd) : (c.setQueue q l).seed = c.seed := by cases q <;> rfl

@[simp] theorem Core.setQueue_job (c : Core) (q : Queue) (l : List Cmd) : (c.setQueue q l).job = c.job := by cases q <;> rfl

@[simp] theorem Core.setQueue_jobid (c : Core) (q : Queue) (l : List Cmd) : (c.setQueue q l).jobid = c.jobid := by cases q <;> rfl

@[simp] theorem Core.setQueue_gmap (c : Core) (q : Queue) (l : List Cmd) : (c.setQueue q l).gmap = c.gmap := by cases q <;> rfl

@[simp] theorem Core.setQueue_fixed (c : Core) (q : Queue) (l : List Cmd) : (c.setQueue q l).fixed = c.fixed := by cases q <;> rfl

@[simp] theorem Core.setQueue_checked (c : Core) (q : Queue) (l : List Cmd) : (c.setQueue q l).checked = c.checked := by cases q <;> rfl

@[simp] theorem Core.setQueue_paired (c : Core) (q : Queue) (l : List Cmd) : (c.setQueue q l).paired = c.paired := by cases q <;> rfl

@[simp] theorem Core.setQueue_conf (c : Core) (q : Queue) (l : List Cmd) : (c.setQueue q l).conf = c.conf := by cases q <;> rfl

@[simp] theorem Core.setQueue_budget (c : Core) (q : Queue) (l : List Cmd) : (c.setQueue q l).budget = c.budget := by cases q <;> rfl

@[simp] theorem Core.setQueue_startAt (c : Core) (q : Queue) (l : List Cmd) : (c.setQueue q l).startAt = c.startAt := by cases q <;> rfl

@[simp] theorem Core.setQueue_dealtAt (c : Core) (q : Queue) (l : List Cmd) : (c.setQueue q l).dealtAt = c.dealtAt := by cases q <;> rfl

@[simp] theorem Core.setQueue_counted (c : Core) (q : Queue) (l : List Cmd) : (c.setQueue q l).counted = c.counted := by cases q <;> rfl

@[simp] theorem Core.setQueue_excluded (c : Core) (q : Queue) (l : List Cmd) : (c.setQueue q l).excluded = c.excluded := by cases q <;> rfl

@[simp] theorem Core.setQueue_freeAt (c : Core) (q : Queue) (l : List Cmd) : (c.setQueue q l).freeAt = c.freeAt := by cases q <;> rfl

@[simp] theorem Core.setQueue_drainlim (c : Core) (q : Queue) (l : List Cmd) : (c.setQueue q l).drainlim = c.drainlim := by cases q <;> rfl

@[simp] theorem Core.setQueue_gangwait (c : Core) (q : Queue) (l : List Cmd) : (c.setQueue q l).gangwait = c.gangwait := by cases q <;> rfl

@[simp] theorem Core.setQueue_ptbase (c : Core) (q : Queue) (l : List Cmd) : (c.setQueue q l).ptbase = c.ptbase := by cases q <;> rfl

@[simp] theorem Core.setQueue_asid (c : Core) (q : Queue) (l : List Cmd) : (c.setQueue q l).asid = c.asid := by cases q <;> rfl

@[simp] theorem Core.setQueue_tlbctl (c : Core) (q : Queue) (l : List Cmd) : (c.setQueue q l).tlbctl = c.tlbctl := by cases q <;> rfl

@[simp] theorem Core.setQueue_tlb (c : Core) (q : Queue) (l : List Cmd) : (c.setQueue q l).tlb = c.tlb := by cases q <;> rfl

@[simp] theorem Core.setQueue_phase (c : Core) (q : Queue) (l : List Cmd) : (c.setQueue q l).phase = c.phase := by cases q <;> rfl

@[simp] theorem Core.setQueue_phases (c : Core) (q : Queue) (l : List Cmd) : (c.setQueue q l).phases = c.phases := by cases q <;> rfl

@[simp] theorem Core.setQueue_lapsed (c : Core) (q : Queue) (l : List Cmd) : (c.setQueue q l).lapsed = c.lapsed := by cases q <;> rfl

@[simp] theorem Core.setQueue_cancelled (c : Core) (q : Queue) (l : List Cmd) : (c.setQueue q l).cancelled = c.cancelled := by cases q <;> rfl

@[simp] theorem Core.setQueue_kept (c : Core) (q : Queue) (l : List Cmd) : (c.setQueue q l).kept = c.kept := by cases q <;> rfl

@[simp] theorem Core.setQueue_tokLog (c : Core) (q : Queue) (l : List Cmd) : (c.setQueue q l).tokLog = c.tokLog := by cases q <;> rfl

@[simp] theorem Core.setQueue_inj (c : Core) (q : Queue) (l : List Cmd) : (c.setQueue q l).inj = c.inj := by cases q <;> rfl

@[simp] theorem Core.setQueue_con (c : Core) (q : Queue) (l : List Cmd) : (c.setQueue q l).con = c.con := by cases q <;> rfl

@[simp] theorem Core.setQueue_lost (c : Core) (q : Queue) (l : List Cmd) : (c.setQueue q l).lost = c.lost := by cases q <;> rfl

@[simp] theorem Core.setQueue_abandoned (c : Core) (q : Queue) (l : List Cmd) : (c.setQueue q l).abandoned = c.abandoned := by cases q <;> rfl

@[simp] theorem Core.setQueue_amsgs (c : Core) (q : Queue) (l : List Cmd) : (c.setQueue q l).amsgs = c.amsgs := by cases q <;> rfl

@[simp] theorem Core.setQueue_life (c : Core) (q : Queue) (l : List Cmd) : (c.setQueue q l).life = c.life := by cases q <;> rfl

@[simp] theorem Core.setQueue_busy (c : Core) (q : Queue) (l : List Cmd) : (c.setQueue q l).busy = c.busy := by cases q <;> rfl

@[simp] theorem Core.setQueue_stopAt (c : Core) (q : Queue) (l : List Cmd) : (c.setQueue q l).stopAt = c.stopAt := by cases q <;> rfl

@[simp] theorem Core.setQueue_quarantined (c : Core) (q : Queue) (l : List Cmd) : (c.setQueue q l).quarantined = c.quarantined := by cases q <;> rfl

@[simp] theorem Core.setQueue_arcs (c : Core) (q : Queue) (l : List Cmd) : (c.setQueue q l).arcs = c.arcs := by cases q <;> rfl

@[simp] theorem Core.setQueue_tie (c : Core) (q : Queue) (l : List Cmd) : (c.setQueue q l).tie = c.tie := by cases q <;> rfl

@[simp] theorem Core.queue_setQueue (c : Core) (q : Queue) (l : List Cmd) : (c.setQueue q l).queue q = l := by cases q <;> rfl

theorem Core.queue_setQueue_other (c : Core) (q p : Queue) (l : List Cmd) (h : p ≠ q) : (c.setQueue q l).queue p = c.queue p := by
  cases q <;> cases p <;> first | rfl | exact absurd rfl h

/-! ### A context of which a register or a predicate is written (R20) -/

@[simp] theorem Ctx.setReg_pc (x : Ctx) (d : Reg) (v : Word) : (x.setReg d v).pc = x.pc := by unfold Ctx.setReg; split <;> rfl

@[simp] theorem Ctx.setReg_preds (x : Ctx) (d : Reg) (v : Word) : (x.setReg d v).preds = x.preds := by unfold Ctx.setReg; split <;> rfl

@[simp] theorem Ctx.setReg_kmask (x : Ctx) (d : Reg) (v : Word) : (x.setReg d v).kmask = x.kmask := by unfold Ctx.setReg; split <;> rfl

@[simp] theorem Ctx.setReg_pwb (x : Ctx) (d : Reg) (v : Word) : (x.setReg d v).pwb = x.pwb := by unfold Ctx.setReg; split <;> rfl

@[simp] theorem Ctx.setReg_savedPwb (x : Ctx) (d : Reg) (v : Word) : (x.setReg d v).savedPwb = x.savedPwb := by unfold Ctx.setReg; split <;> rfl

@[simp] theorem Ctx.setReg_pwbSel (x : Ctx) (d : Reg) (v : Word) : (x.setReg d v).pwbSel = x.pwbSel := by unfold Ctx.setReg; split <;> rfl

@[simp] theorem Ctx.setReg_rq (x : Ctx) (d : Reg) (v : Word) : (x.setReg d v).rq = x.rq := by unfold Ctx.setReg; split <;> rfl

@[simp] theorem Ctx.setReg_epc (x : Ctx) (d : Reg) (v : Word) : (x.setReg d v).epc = x.epc := by unfold Ctx.setReg; split <;> rfl

@[simp] theorem Ctx.setReg_cause (x : Ctx) (d : Reg) (v : Word) : (x.setReg d v).cause = x.cause := by unfold Ctx.setReg; split <;> rfl

@[simp] theorem Ctx.setReg_tval (x : Ctx) (d : Reg) (v : Word) : (x.setReg d v).tval = x.tval := by unfold Ctx.setReg; split <;> rfl

@[simp] theorem Ctx.setReg_tvec (x : Ctx) (d : Reg) (v : Word) : (x.setReg d v).tvec = x.tvec := by unfold Ctx.setReg; split <;> rfl

@[simp] theorem Ctx.setReg_scratch (x : Ctx) (d : Reg) (v : Word) : (x.setReg d v).scratch = x.scratch := by unfold Ctx.setReg; split <;> rfl

@[simp] theorem Ctx.setReg_inh (x : Ctx) (d : Reg) (v : Word) : (x.setReg d v).inh = x.inh := by unfold Ctx.setReg; split <;> rfl

@[simp] theorem Ctx.setReg_done (x : Ctx) (d : Reg) (v : Word) : (x.setReg d v).done = x.done := by unfold Ctx.setReg; split <;> rfl

@[simp] theorem Ctx.setReg_efq (x : Ctx) (d : Reg) (v : Word) : (x.setReg d v).efq = x.efq := by unfold Ctx.setReg; split <;> rfl

@[simp] theorem Ctx.setReg_tick (x : Ctx) (d : Reg) (v : Word) : (x.setReg d v).tick = x.tick := by unfold Ctx.setReg; split <;> rfl

@[simp] theorem Ctx.setReg_rrb (x : Ctx) (d : Reg) (v : Word) : (x.setReg d v).rrb = x.rrb := by unfold Ctx.setReg; split <;> rfl

@[simp] theorem Ctx.setReg_lc (x : Ctx) (d : Reg) (v : Word) : (x.setReg d v).lc = x.lc := by unfold Ctx.setReg; split <;> rfl

@[simp] theorem Ctx.setReg_ec (x : Ctx) (d : Reg) (v : Word) : (x.setReg d v).ec = x.ec := by unfold Ctx.setReg; split <;> rfl

@[simp] theorem Ctx.setReg_plen (x : Ctx) (d : Reg) (v : Word) : (x.setReg d v).plen = x.plen := by unfold Ctx.setReg; split <;> rfl

@[simp] theorem Ctx.setReg_subcnt (x : Ctx) (d : Reg) (v : Word) : (x.setReg d v).subcnt = x.subcnt := by unfold Ctx.setReg; split <;> rfl

@[simp] theorem Ctx.setReg_efault (x : Ctx) (d : Reg) (v : Word) : (x.setReg d v).efault = x.efault := by unfold Ctx.setReg; split <;> rfl

@[simp] theorem Ctx.setReg_latch (x : Ctx) (d : Reg) (v : Word) : (x.setReg d v).latch = x.latch := by unfold Ctx.setReg; split <;> rfl

@[simp] theorem Ctx.setReg_marks (x : Ctx) (d : Reg) (v : Word) : (x.setReg d v).marks = x.marks := by unfold Ctx.setReg; split <;> rfl

@[simp] theorem Ctx.setReg_held (x : Ctx) (d : Reg) (v : Word) : (x.setReg d v).held = x.held := by unfold Ctx.setReg; split <;> rfl

@[simp] theorem Ctx.setReg_fetchHeld (x : Ctx) (d : Reg) (v : Word) : (x.setReg d v).fetchHeld = x.fetchHeld := by unfold Ctx.setReg; split <;> rfl

@[simp] theorem Ctx.setReg_wait (x : Ctx) (d : Reg) (v : Word) : (x.setReg d v).wait = x.wait := by unfold Ctx.setReg; split <;> rfl

@[simp] theorem Ctx.setReg_barAt (x : Ctx) (d : Reg) (v : Word) : (x.setReg d v).barAt = x.barAt := by unfold Ctx.setReg; split <;> rfl

@[simp] theorem Ctx.setReg_sup (x : Ctx) (d : Reg) (v : Word) : (x.setReg d v).sup = x.sup := by unfold Ctx.setReg; split <;> rfl

@[simp] theorem Ctx.setPred_pc (x : Ctx) (p : BitVec 3) (v : Bool) : (x.setPred p v).pc = x.pc := by unfold Ctx.setPred; split <;> rfl

@[simp] theorem Ctx.setPred_regs (x : Ctx) (p : BitVec 3) (v : Bool) : (x.setPred p v).regs = x.regs := by unfold Ctx.setPred; split <;> rfl

@[simp] theorem Ctx.setPred_kmask (x : Ctx) (p : BitVec 3) (v : Bool) : (x.setPred p v).kmask = x.kmask := by unfold Ctx.setPred; split <;> rfl

@[simp] theorem Ctx.setPred_pwb (x : Ctx) (p : BitVec 3) (v : Bool) : (x.setPred p v).pwb = x.pwb := by unfold Ctx.setPred; split <;> rfl

@[simp] theorem Ctx.setPred_savedPwb (x : Ctx) (p : BitVec 3) (v : Bool) : (x.setPred p v).savedPwb = x.savedPwb := by unfold Ctx.setPred; split <;> rfl

@[simp] theorem Ctx.setPred_pwbSel (x : Ctx) (p : BitVec 3) (v : Bool) : (x.setPred p v).pwbSel = x.pwbSel := by unfold Ctx.setPred; split <;> rfl

@[simp] theorem Ctx.setPred_rq (x : Ctx) (p : BitVec 3) (v : Bool) : (x.setPred p v).rq = x.rq := by unfold Ctx.setPred; split <;> rfl

@[simp] theorem Ctx.setPred_epc (x : Ctx) (p : BitVec 3) (v : Bool) : (x.setPred p v).epc = x.epc := by unfold Ctx.setPred; split <;> rfl

@[simp] theorem Ctx.setPred_cause (x : Ctx) (p : BitVec 3) (v : Bool) : (x.setPred p v).cause = x.cause := by unfold Ctx.setPred; split <;> rfl

@[simp] theorem Ctx.setPred_tval (x : Ctx) (p : BitVec 3) (v : Bool) : (x.setPred p v).tval = x.tval := by unfold Ctx.setPred; split <;> rfl

@[simp] theorem Ctx.setPred_tvec (x : Ctx) (p : BitVec 3) (v : Bool) : (x.setPred p v).tvec = x.tvec := by unfold Ctx.setPred; split <;> rfl

@[simp] theorem Ctx.setPred_scratch (x : Ctx) (p : BitVec 3) (v : Bool) : (x.setPred p v).scratch = x.scratch := by unfold Ctx.setPred; split <;> rfl

@[simp] theorem Ctx.setPred_inh (x : Ctx) (p : BitVec 3) (v : Bool) : (x.setPred p v).inh = x.inh := by unfold Ctx.setPred; split <;> rfl

@[simp] theorem Ctx.setPred_done (x : Ctx) (p : BitVec 3) (v : Bool) : (x.setPred p v).done = x.done := by unfold Ctx.setPred; split <;> rfl

@[simp] theorem Ctx.setPred_efq (x : Ctx) (p : BitVec 3) (v : Bool) : (x.setPred p v).efq = x.efq := by unfold Ctx.setPred; split <;> rfl

@[simp] theorem Ctx.setPred_tick (x : Ctx) (p : BitVec 3) (v : Bool) : (x.setPred p v).tick = x.tick := by unfold Ctx.setPred; split <;> rfl

@[simp] theorem Ctx.setPred_rrb (x : Ctx) (p : BitVec 3) (v : Bool) : (x.setPred p v).rrb = x.rrb := by unfold Ctx.setPred; split <;> rfl

@[simp] theorem Ctx.setPred_lc (x : Ctx) (p : BitVec 3) (v : Bool) : (x.setPred p v).lc = x.lc := by unfold Ctx.setPred; split <;> rfl

@[simp] theorem Ctx.setPred_ec (x : Ctx) (p : BitVec 3) (v : Bool) : (x.setPred p v).ec = x.ec := by unfold Ctx.setPred; split <;> rfl

@[simp] theorem Ctx.setPred_plen (x : Ctx) (p : BitVec 3) (v : Bool) : (x.setPred p v).plen = x.plen := by unfold Ctx.setPred; split <;> rfl

@[simp] theorem Ctx.setPred_subcnt (x : Ctx) (p : BitVec 3) (v : Bool) : (x.setPred p v).subcnt = x.subcnt := by unfold Ctx.setPred; split <;> rfl

@[simp] theorem Ctx.setPred_efault (x : Ctx) (p : BitVec 3) (v : Bool) : (x.setPred p v).efault = x.efault := by unfold Ctx.setPred; split <;> rfl

@[simp] theorem Ctx.setPred_latch (x : Ctx) (p : BitVec 3) (v : Bool) : (x.setPred p v).latch = x.latch := by unfold Ctx.setPred; split <;> rfl

@[simp] theorem Ctx.setPred_marks (x : Ctx) (p : BitVec 3) (v : Bool) : (x.setPred p v).marks = x.marks := by unfold Ctx.setPred; split <;> rfl

@[simp] theorem Ctx.setPred_held (x : Ctx) (p : BitVec 3) (v : Bool) : (x.setPred p v).held = x.held := by unfold Ctx.setPred; split <;> rfl

@[simp] theorem Ctx.setPred_fetchHeld (x : Ctx) (p : BitVec 3) (v : Bool) : (x.setPred p v).fetchHeld = x.fetchHeld := by unfold Ctx.setPred; split <;> rfl

@[simp] theorem Ctx.setPred_wait (x : Ctx) (p : BitVec 3) (v : Bool) : (x.setPred p v).wait = x.wait := by unfold Ctx.setPred; split <;> rfl

@[simp] theorem Ctx.setPred_barAt (x : Ctx) (p : BitVec 3) (v : Bool) : (x.setPred p v).barAt = x.barAt := by unfold Ctx.setPred; split <;> rfl

@[simp] theorem Ctx.setPred_sup (x : Ctx) (p : BitVec 3) (v : Bool) : (x.setPred p v).sup = x.sup := by unfold Ctx.setPred; split <;> rfl

/-! ### A context with a write scheduled, or with the due ones landed (R25) -/

@[simp] theorem Ctx.put_pc (x : Ctx) (d : Reg) (v : Word) (lat : Nat) : (x.put d v lat).pc = x.pc := by
  obtain ⟨r, p, h⟩ := Ctx.put_eq x d v lat
  rw [h]

@[simp] theorem Ctx.put_preds (x : Ctx) (d : Reg) (v : Word) (lat : Nat) : (x.put d v lat).preds = x.preds := by
  obtain ⟨r, p, h⟩ := Ctx.put_eq x d v lat
  rw [h]

@[simp] theorem Ctx.put_kmask (x : Ctx) (d : Reg) (v : Word) (lat : Nat) : (x.put d v lat).kmask = x.kmask := by
  obtain ⟨r, p, h⟩ := Ctx.put_eq x d v lat
  rw [h]

@[simp] theorem Ctx.put_savedPwb (x : Ctx) (d : Reg) (v : Word) (lat : Nat) : (x.put d v lat).savedPwb = x.savedPwb := by
  obtain ⟨r, p, h⟩ := Ctx.put_eq x d v lat
  rw [h]

@[simp] theorem Ctx.put_pwbSel (x : Ctx) (d : Reg) (v : Word) (lat : Nat) : (x.put d v lat).pwbSel = x.pwbSel := by
  obtain ⟨r, p, h⟩ := Ctx.put_eq x d v lat
  rw [h]

@[simp] theorem Ctx.put_rq (x : Ctx) (d : Reg) (v : Word) (lat : Nat) : (x.put d v lat).rq = x.rq := by
  obtain ⟨r, p, h⟩ := Ctx.put_eq x d v lat
  rw [h]

@[simp] theorem Ctx.put_epc (x : Ctx) (d : Reg) (v : Word) (lat : Nat) : (x.put d v lat).epc = x.epc := by
  obtain ⟨r, p, h⟩ := Ctx.put_eq x d v lat
  rw [h]

@[simp] theorem Ctx.put_cause (x : Ctx) (d : Reg) (v : Word) (lat : Nat) : (x.put d v lat).cause = x.cause := by
  obtain ⟨r, p, h⟩ := Ctx.put_eq x d v lat
  rw [h]

@[simp] theorem Ctx.put_tval (x : Ctx) (d : Reg) (v : Word) (lat : Nat) : (x.put d v lat).tval = x.tval := by
  obtain ⟨r, p, h⟩ := Ctx.put_eq x d v lat
  rw [h]

@[simp] theorem Ctx.put_tvec (x : Ctx) (d : Reg) (v : Word) (lat : Nat) : (x.put d v lat).tvec = x.tvec := by
  obtain ⟨r, p, h⟩ := Ctx.put_eq x d v lat
  rw [h]

@[simp] theorem Ctx.put_scratch (x : Ctx) (d : Reg) (v : Word) (lat : Nat) : (x.put d v lat).scratch = x.scratch := by
  obtain ⟨r, p, h⟩ := Ctx.put_eq x d v lat
  rw [h]

@[simp] theorem Ctx.put_inh (x : Ctx) (d : Reg) (v : Word) (lat : Nat) : (x.put d v lat).inh = x.inh := by
  obtain ⟨r, p, h⟩ := Ctx.put_eq x d v lat
  rw [h]

@[simp] theorem Ctx.put_done (x : Ctx) (d : Reg) (v : Word) (lat : Nat) : (x.put d v lat).done = x.done := by
  obtain ⟨r, p, h⟩ := Ctx.put_eq x d v lat
  rw [h]

@[simp] theorem Ctx.put_efq (x : Ctx) (d : Reg) (v : Word) (lat : Nat) : (x.put d v lat).efq = x.efq := by
  obtain ⟨r, p, h⟩ := Ctx.put_eq x d v lat
  rw [h]

@[simp] theorem Ctx.put_tick (x : Ctx) (d : Reg) (v : Word) (lat : Nat) : (x.put d v lat).tick = x.tick := by
  obtain ⟨r, p, h⟩ := Ctx.put_eq x d v lat
  rw [h]

@[simp] theorem Ctx.put_rrb (x : Ctx) (d : Reg) (v : Word) (lat : Nat) : (x.put d v lat).rrb = x.rrb := by
  obtain ⟨r, p, h⟩ := Ctx.put_eq x d v lat
  rw [h]

@[simp] theorem Ctx.put_lc (x : Ctx) (d : Reg) (v : Word) (lat : Nat) : (x.put d v lat).lc = x.lc := by
  obtain ⟨r, p, h⟩ := Ctx.put_eq x d v lat
  rw [h]

@[simp] theorem Ctx.put_ec (x : Ctx) (d : Reg) (v : Word) (lat : Nat) : (x.put d v lat).ec = x.ec := by
  obtain ⟨r, p, h⟩ := Ctx.put_eq x d v lat
  rw [h]

@[simp] theorem Ctx.put_plen (x : Ctx) (d : Reg) (v : Word) (lat : Nat) : (x.put d v lat).plen = x.plen := by
  obtain ⟨r, p, h⟩ := Ctx.put_eq x d v lat
  rw [h]

@[simp] theorem Ctx.put_subcnt (x : Ctx) (d : Reg) (v : Word) (lat : Nat) : (x.put d v lat).subcnt = x.subcnt := by
  obtain ⟨r, p, h⟩ := Ctx.put_eq x d v lat
  rw [h]

@[simp] theorem Ctx.put_efault (x : Ctx) (d : Reg) (v : Word) (lat : Nat) : (x.put d v lat).efault = x.efault := by
  obtain ⟨r, p, h⟩ := Ctx.put_eq x d v lat
  rw [h]

@[simp] theorem Ctx.put_latch (x : Ctx) (d : Reg) (v : Word) (lat : Nat) : (x.put d v lat).latch = x.latch := by
  obtain ⟨r, p, h⟩ := Ctx.put_eq x d v lat
  rw [h]

@[simp] theorem Ctx.put_marks (x : Ctx) (d : Reg) (v : Word) (lat : Nat) : (x.put d v lat).marks = x.marks := by
  obtain ⟨r, p, h⟩ := Ctx.put_eq x d v lat
  rw [h]

@[simp] theorem Ctx.put_held (x : Ctx) (d : Reg) (v : Word) (lat : Nat) : (x.put d v lat).held = x.held := by
  obtain ⟨r, p, h⟩ := Ctx.put_eq x d v lat
  rw [h]

@[simp] theorem Ctx.put_fetchHeld (x : Ctx) (d : Reg) (v : Word) (lat : Nat) : (x.put d v lat).fetchHeld = x.fetchHeld := by
  obtain ⟨r, p, h⟩ := Ctx.put_eq x d v lat
  rw [h]

@[simp] theorem Ctx.put_wait (x : Ctx) (d : Reg) (v : Word) (lat : Nat) : (x.put d v lat).wait = x.wait := by
  obtain ⟨r, p, h⟩ := Ctx.put_eq x d v lat
  rw [h]

@[simp] theorem Ctx.put_barAt (x : Ctx) (d : Reg) (v : Word) (lat : Nat) : (x.put d v lat).barAt = x.barAt := by
  obtain ⟨r, p, h⟩ := Ctx.put_eq x d v lat
  rw [h]

@[simp] theorem Ctx.put_sup (x : Ctx) (d : Reg) (v : Word) (lat : Nat) : (x.put d v lat).sup = x.sup := by
  obtain ⟨r, p, h⟩ := Ctx.put_eq x d v lat
  rw [h]

@[simp] theorem Ctx.landDue_pc (x : Ctx) : x.landDue.pc = x.pc := by
  obtain ⟨r, h⟩ := x.landDue_eq
  rw [h]

@[simp] theorem Ctx.landDue_preds (x : Ctx) : x.landDue.preds = x.preds := by
  obtain ⟨r, h⟩ := x.landDue_eq
  rw [h]

@[simp] theorem Ctx.landDue_kmask (x : Ctx) : x.landDue.kmask = x.kmask := by
  obtain ⟨r, h⟩ := x.landDue_eq
  rw [h]

@[simp] theorem Ctx.landDue_savedPwb (x : Ctx) : x.landDue.savedPwb = x.savedPwb := by
  obtain ⟨r, h⟩ := x.landDue_eq
  rw [h]

@[simp] theorem Ctx.landDue_pwbSel (x : Ctx) : x.landDue.pwbSel = x.pwbSel := by
  obtain ⟨r, h⟩ := x.landDue_eq
  rw [h]

@[simp] theorem Ctx.landDue_rq (x : Ctx) : x.landDue.rq = x.rq := by
  obtain ⟨r, h⟩ := x.landDue_eq
  rw [h]

@[simp] theorem Ctx.landDue_epc (x : Ctx) : x.landDue.epc = x.epc := by
  obtain ⟨r, h⟩ := x.landDue_eq
  rw [h]

@[simp] theorem Ctx.landDue_cause (x : Ctx) : x.landDue.cause = x.cause := by
  obtain ⟨r, h⟩ := x.landDue_eq
  rw [h]

@[simp] theorem Ctx.landDue_tval (x : Ctx) : x.landDue.tval = x.tval := by
  obtain ⟨r, h⟩ := x.landDue_eq
  rw [h]

@[simp] theorem Ctx.landDue_tvec (x : Ctx) : x.landDue.tvec = x.tvec := by
  obtain ⟨r, h⟩ := x.landDue_eq
  rw [h]

@[simp] theorem Ctx.landDue_scratch (x : Ctx) : x.landDue.scratch = x.scratch := by
  obtain ⟨r, h⟩ := x.landDue_eq
  rw [h]

@[simp] theorem Ctx.landDue_inh (x : Ctx) : x.landDue.inh = x.inh := by
  obtain ⟨r, h⟩ := x.landDue_eq
  rw [h]

@[simp] theorem Ctx.landDue_done (x : Ctx) : x.landDue.done = x.done := by
  obtain ⟨r, h⟩ := x.landDue_eq
  rw [h]

@[simp] theorem Ctx.landDue_efq (x : Ctx) : x.landDue.efq = x.efq := by
  obtain ⟨r, h⟩ := x.landDue_eq
  rw [h]

@[simp] theorem Ctx.landDue_tick (x : Ctx) : x.landDue.tick = x.tick := by
  obtain ⟨r, h⟩ := x.landDue_eq
  rw [h]

@[simp] theorem Ctx.landDue_rrb (x : Ctx) : x.landDue.rrb = x.rrb := by
  obtain ⟨r, h⟩ := x.landDue_eq
  rw [h]

@[simp] theorem Ctx.landDue_lc (x : Ctx) : x.landDue.lc = x.lc := by
  obtain ⟨r, h⟩ := x.landDue_eq
  rw [h]

@[simp] theorem Ctx.landDue_ec (x : Ctx) : x.landDue.ec = x.ec := by
  obtain ⟨r, h⟩ := x.landDue_eq
  rw [h]

@[simp] theorem Ctx.landDue_plen (x : Ctx) : x.landDue.plen = x.plen := by
  obtain ⟨r, h⟩ := x.landDue_eq
  rw [h]

@[simp] theorem Ctx.landDue_subcnt (x : Ctx) : x.landDue.subcnt = x.subcnt := by
  obtain ⟨r, h⟩ := x.landDue_eq
  rw [h]

@[simp] theorem Ctx.landDue_efault (x : Ctx) : x.landDue.efault = x.efault := by
  obtain ⟨r, h⟩ := x.landDue_eq
  rw [h]

@[simp] theorem Ctx.landDue_latch (x : Ctx) : x.landDue.latch = x.latch := by
  obtain ⟨r, h⟩ := x.landDue_eq
  rw [h]

@[simp] theorem Ctx.landDue_marks (x : Ctx) : x.landDue.marks = x.marks := by
  obtain ⟨r, h⟩ := x.landDue_eq
  rw [h]

@[simp] theorem Ctx.landDue_held (x : Ctx) : x.landDue.held = x.held := by
  obtain ⟨r, h⟩ := x.landDue_eq
  rw [h]

@[simp] theorem Ctx.landDue_fetchHeld (x : Ctx) : x.landDue.fetchHeld = x.fetchHeld := by
  obtain ⟨r, h⟩ := x.landDue_eq
  rw [h]

@[simp] theorem Ctx.landDue_wait (x : Ctx) : x.landDue.wait = x.wait := by
  obtain ⟨r, h⟩ := x.landDue_eq
  rw [h]

@[simp] theorem Ctx.landDue_barAt (x : Ctx) : x.landDue.barAt = x.barAt := by
  obtain ⟨r, h⟩ := x.landDue_eq
  rw [h]

@[simp] theorem Ctx.landDue_sup (x : Ctx) : x.landDue.sup = x.sup := by
  obtain ⟨r, h⟩ := x.landDue_eq
  rw [h]

/-! ### The machine -/

@[simp] theorem Mach.base_reply (m : Mach) (r : Reply) : (m.reply r).base = m.base := rfl

@[simp] theorem Mach.log_reply (m : Mach) (r : Reply) : (m.reply r).log = m.log := rfl

@[simp] theorem Mach.cid_reply (m : Mach) (r : Reply) : (m.reply r).cid = m.cid := rfl

@[simp] theorem Mach.kid_reply (m : Mach) (r : Reply) : (m.reply r).kid = m.kid := rfl

@[simp] theorem Mach.core_reply (m : Mach) (r : Reply) (g : Nat) : (m.reply r).core g = m.core g := rfl

@[simp] theorem Mach.base_bump (m : Mach) : (m.bump).base = m.base := rfl

@[simp] theorem Mach.log_bump (m : Mach) : (m.bump).log = m.log := rfl

@[simp] theorem Mach.cid_bump (m : Mach) : (m.bump).cid = m.cid := rfl

@[simp] theorem Mach.kid_bump (m : Mach) : (m.bump).kid = m.kid := rfl

@[simp] theorem Mach.core_bump (m : Mach) (g : Nat) : (m.bump).core g = m.core g := rfl

@[simp] theorem Mach.base_bumpFree (m : Mach) : (m.bumpFree).base = m.base := rfl

@[simp] theorem Mach.log_bumpFree (m : Mach) : (m.bumpFree).log = m.log := rfl

@[simp] theorem Mach.cid_bumpFree (m : Mach) : (m.bumpFree).cid = m.cid := rfl

@[simp] theorem Mach.kid_bumpFree (m : Mach) : (m.bumpFree).kid = m.kid := rfl

@[simp] theorem Mach.core_bumpFree (m : Mach) (g : Nat) : (m.bumpFree).core g = m.core g := rfl

@[simp] theorem Mach.base_onJob (m : Mach) (j : Nat) (f : Job → Job) : (m.onJob j f).base = m.base := rfl

@[simp] theorem Mach.log_onJob (m : Mach) (j : Nat) (f : Job → Job) : (m.onJob j f).log = m.log := rfl

@[simp] theorem Mach.cid_onJob (m : Mach) (j : Nat) (f : Job → Job) : (m.onJob j f).cid = m.cid := rfl

@[simp] theorem Mach.kid_onJob (m : Mach) (j : Nat) (f : Job → Job) : (m.onJob j f).kid = m.kid := rfl

@[simp] theorem Mach.core_onJob (m : Mach) (j : Nat) (f : Job → Job) (g : Nat) : (m.onJob j f).core g = m.core g := rfl

@[simp] theorem Mach.base_wr (m : Mach) (a : Nat) (b : Byte) : (m.wr a b).base = m.base := rfl

@[simp] theorem Mach.dev_wr (m : Mach) (a : Nat) (b : Byte) : (m.wr a b).dev = m.dev := rfl

@[simp] theorem Mach.cid_wr (m : Mach) (a : Nat) (b : Byte) : (m.wr a b).cid = m.cid := rfl

@[simp] theorem Mach.kid_wr (m : Mach) (a : Nat) (b : Byte) : (m.wr a b).kid = m.kid := rfl

@[simp] theorem Mach.core_wr (m : Mach) (a : Nat) (b : Byte) (g : Nat) : (m.wr a b).core g = m.core g := rfl

@[simp] theorem Mach.base_wipe (m : Mach) (lo hi : Nat) : (m.wipe lo hi).base = m.base := rfl

@[simp] theorem Mach.dev_wipe (m : Mach) (lo hi : Nat) : (m.wipe lo hi).dev = m.dev := rfl

@[simp] theorem Mach.cid_wipe (m : Mach) (lo hi : Nat) : (m.wipe lo hi).cid = m.cid := rfl

@[simp] theorem Mach.kid_wipe (m : Mach) (lo hi : Nat) : (m.wipe lo hi).kid = m.kid := rfl

@[simp] theorem Mach.core_wipe (m : Mach) (lo hi : Nat) (g : Nat) : (m.wipe lo hi).core g = m.core g := rfl

end Sys2Proof.Machine
end

