-- ==== Sys2Proof/Laws/Memory.lean ====
section
/-! SUPPORT. Laws of memory: every operation keeps the canonical form, and what a read gives after a write (R1; log entry 2). -/

namespace Sys2Proof.Machine

/-! ### The canonical form -/

/-- Every listed address lies above `lo`. -/
theorem Mem.wfFrom_lower {lo lo' : Nat} {m : Mem} (hl : lo' ≤ lo) (h : Mem.wfFrom (some lo) m = true) : Mem.wfFrom (some lo') m = true := by
  cases m with
  | nil => rfl
  | cons c m =>
    simp only [Mem.wfFrom, Bool.and_eq_true, decide_eq_true_eq] at h ⊢
    exact ⟨⟨by omega, h.1.2⟩, h.2⟩

/-- Forgetting the lower bound. -/
theorem Mem.wf_of_wfFrom {lo : Option Nat} {m : Mem} (h : Mem.wfFrom lo m = true) : m.wf = true := by
  cases m with
  | nil => rfl
  | cons c m =>
    simp only [Mem.wf, Mem.wfFrom, Bool.and_eq_true, Bool.true_and] at h ⊢
    exact ⟨h.1.2, h.2⟩

/-- The canonical form of a list with a first cell. -/
theorem Mem.wfFrom_cons (lo : Option Nat) (k : Nat) (v : Byte) (m : Mem) (hlo : ∀ l, lo = some l → l < k) (hv : v ≠ 0)
    (hm : Mem.wfFrom (some k) m = true) : Mem.wfFrom lo ((k, v) :: m) = true := by
  cases lo with
  | none => simp only [Mem.wfFrom, Bool.true_and, Bool.and_eq_true, bne_iff_ne]; exact ⟨hv, hm⟩
  | some l => simp only [Mem.wfFrom, Bool.and_eq_true, bne_iff_ne, decide_eq_true_eq]; exact ⟨⟨hlo l rfl, hv⟩, hm⟩

/-- What the canonical form says of the first cell. -/
theorem Mem.wfFrom_head {lo : Option Nat} {k : Nat} {v : Byte} {m : Mem} (h : Mem.wfFrom lo ((k, v) :: m) = true) :
    (∀ l, lo = some l → l < k) ∧ v ≠ 0 ∧ Mem.wfFrom (some k) m = true := by
  simp only [Mem.wfFrom, Bool.and_eq_true, bne_iff_ne] at h
  refine ⟨?_, h.1.2, h.2⟩
  intro l hl
  subst hl
  simpa using h.1.1

/-- A write above a bound keeps the canonical form above it. -/
theorem Mem.write_wfFrom (lo : Option Nat) (m : Mem) (a : Nat) (b : Byte) (hlo : ∀ l, lo = some l → l < a) (h : Mem.wfFrom lo m = true) :
    Mem.wfFrom lo (m.write a b) = true := by
  induction m generalizing lo with
  | nil =>
    simp only [Mem.write]
    split
    · rfl
    · rename_i hb
      exact Mem.wfFrom_cons lo a b [] hlo hb rfl
  | cons c m ih =>
    obtain ⟨k, v⟩ := c
    obtain ⟨hk, hv, hm⟩ := Mem.wfFrom_head h
    simp only [Mem.write]
    split
    · rename_i hak
      split
      · exact h
      · rename_i hb
        exact Mem.wfFrom_cons lo a b _ hlo hb (Mem.wfFrom_cons _ k v m (fun l e => by cases e; exact hak) hv hm)
    · split
      · rename_i _ hak
        subst hak
        split
        · cases lo with
          | none => exact Mem.wf_of_wfFrom hm
          | some l => exact Mem.wfFrom_lower (Nat.le_of_lt (hlo l rfl)) hm
        · rename_i hb
          exact Mem.wfFrom_cons lo a b m hlo hb hm
      · rename_i h1 h2
        have hlt : k < a := by omega
        exact Mem.wfFrom_cons lo k v _ hk hv (ih (some k) (fun l e => by cases e; exact hlt) hm)

/-- A write keeps the canonical form. -/
theorem Mem.write_wf {m : Mem} (a : Nat) (b : Byte) (h : m.wf = true) : (m.write a b).wf = true :=
  Mem.write_wfFrom none m a b (fun _ hl => by cases hl) h

/-- Taking cells away keeps the canonical form above a bound. -/
theorem Mem.filter_wfFrom (p : Host.Cell → Bool) (lo : Option Nat) (m : Mem) (h : Mem.wfFrom lo m = true) : Mem.wfFrom lo (m.filter p) = true := by
  induction m generalizing lo with
  | nil => rfl
  | cons c m ih =>
    obtain ⟨k, v⟩ := c
    obtain ⟨hk, hv, hm⟩ := Mem.wfFrom_head h
    simp only [List.filter]
    split
    · exact Mem.wfFrom_cons lo k v _ hk hv (ih _ hm)
    · cases lo with
      | none => exact Mem.wf_of_wfFrom (ih _ hm)
      | some l => exact Mem.wfFrom_lower (Nat.le_of_lt (hk l rfl)) (ih _ hm)

/-- Dropping a range keeps the canonical form. -/
theorem Mem.drop_wf {m : Mem} (lo hi : Nat) (h : m.wf = true) : (m.drop lo hi).wf = true := Mem.filter_wfFrom _ none m h

/-- One operation keeps the canonical form. -/
theorem MemOp.apply_wf {m : Mem} (o : MemOp) (h : m.wf = true) : (o.apply m).wf = true := by
  cases o with
  | byte a b => exact Mem.write_wf a b h
  | zero lo hi => exact Mem.drop_wf lo hi h

/-- The operations of a step keep the canonical form. -/
theorem Mem.apply_wf {m : Mem} (log : List MemOp) (h : m.wf = true) : (m.apply log).wf = true := by
  induction log with
  | nil => exact h
  | cons o log ih => exact MemOp.apply_wf o ih

/-! ### Reads -/

/-- Below every listed address a read gives zero. -/
theorem Mem.read_below (m : Mem) (a : Nat) (lo : Nat) (h : Mem.wfFrom (some lo) m = true) (ha : a ≤ lo) : m.read a = 0 := by
  induction m generalizing lo with
  | nil => rfl
  | cons c m ih =>
    obtain ⟨k, v⟩ := c
    obtain ⟨hk, _, hm⟩ := Mem.wfFrom_head h
    have hk := hk lo rfl
    have : k ≠ a := by omega
    simp only [Mem.read, this, if_false]
    exact ih k hm (by omega)

/-- A read of the address written gives the byte written, above a bound. -/
theorem Mem.read_write_same_from (lo : Option Nat) (m : Mem) (a : Nat) (b : Byte) (h : Mem.wfFrom lo m = true) : (m.write a b).read a = b := by
  induction m generalizing lo with
  | nil =>
    simp only [Mem.write]
    split
    · rename_i hb; simp [Mem.read, hb]
    · simp [Mem.read]
  | cons c m ih =>
    obtain ⟨k, v⟩ := c
    obtain ⟨hk, hv, hm⟩ := Mem.wfFrom_head h
    simp only [Mem.write]
    split
    · rename_i hak
      split
      · rename_i hb
        have : k ≠ a := by omega
        simp only [Mem.read, this, if_false]
        rw [Mem.read_below m a k hm (by omega), hb]
      · simp [Mem.read]
    · split
      · rename_i _ hak
        subst hak
        split
        · rename_i hb
          rw [Mem.read_below m a a hm (by omega), hb]
        · simp [Mem.read]
      · rename_i _ h2
        have : k ≠ a := fun e => h2 e.symm
        simp only [Mem.read, this, if_false]
        exact ih (some k) hm

/-- A read of the address written gives the byte written. -/
theorem Mem.read_write_same {m : Mem} (a : Nat) (b : Byte) (h : m.wf = true) : (m.write a b).read a = b :=
  Mem.read_write_same_from none m a b h

/-- A write leaves every other address as it was. -/
theorem Mem.read_write_other (m : Mem) (a x : Nat) (b : Byte) (hx : x ≠ a) : (m.write a b).read x = m.read x := by
  have hax : a ≠ x := fun e => hx e.symm
  induction m with
  | nil =>
    simp only [Mem.write]
    split
    · rfl
    · simp [Mem.read, hax]
  | cons c m ih =>
    obtain ⟨k, v⟩ := c
    simp only [Mem.write]
    split
    · split
      · rfl
      · simp [Mem.read, hax]
    · split
      · rename_i _ hak
        subst hak
        split
        · simp [Mem.read, hax]
        · simp [Mem.read, hax]
      · simp only [Mem.read]
        split
        · rfl
        · exact ih

/-- A dropped address reads zero, and every other one as before. -/
theorem Mem.read_drop (m : Mem) (lo hi x : Nat) : (m.drop lo hi).read x = if lo ≤ x ∧ x < hi then 0 else m.read x := by
  induction m with
  | nil => simp [Mem.drop, Mem.read]
  | cons c m ih =>
    obtain ⟨k, v⟩ := c
    have step : Mem.drop ((k, v) :: m) lo hi = if k < lo ∨ hi ≤ k then (k, v) :: Mem.drop m lo hi else Mem.drop m lo hi := by
      simp only [Mem.drop, List.filter]
      by_cases h1 : k < lo <;> by_cases h2 : hi ≤ k <;> simp [h1, h2]
    rw [step]
    split
    · rename_i hk
      simp only [Mem.read, ih]
      by_cases hkx : k = x
      · subst hkx
        simp only [if_true]
        split
        · omega
        · rfl
      · simp [hkx]
    · rename_i hk
      rw [ih]
      simp only [Mem.read]
      split
      · rfl
      · rename_i hx
        have : k ≠ x := by omega
        simp [this]

/-- What a step has left in memory: at each address the newest of its operations there, else what it found. -/
theorem Mem.read_apply (m : Mem) (log : List MemOp) (x : Nat) (h : m.wf = true) :
    (m.apply log).read x = (logFind log x).getD (m.read x) := by
  induction log with
  | nil => rfl
  | cons o log ih =>
    have hw : (Mem.apply m log).wf = true := Mem.apply_wf log h
    cases o with
    | byte a b =>
      show (Mem.write (Mem.apply m log) a b).read x = _
      simp only [logFind]
      split
      · rename_i e; subst e; simp [Mem.read_write_same _ _ hw]
      · rename_i e; rw [Mem.read_write_other _ _ _ _ (fun h => e h.symm)]; exact ih
    | zero lo hi =>
      show (Mem.drop (Mem.apply m log) lo hi).read x = _
      rw [Mem.read_drop]
      simp only [logFind]
      split
      · simp
      · exact ih

/-- The step's own view of memory is what it leaves there. -/
theorem Mach.rd_eq (m : Mach) (x : Nat) (h : m.base.wf = true) : m.rd x = (m.base.apply m.log).read x := by
  rw [Mem.read_apply _ _ _ h]
  unfold Mach.rd
  cases logFind m.log x <;> rfl

/-- Reading back a write. -/
theorem Mach.rd_wr (m : Mach) (a x : Nat) (b : Byte) : (m.wr a b).rd x = if a = x then b else m.rd x := by
  simp only [Mach.rd, Mach.wr, logFind]
  by_cases h : a = x <;> simp [h]

/-- Bytes written one after another: inside the run the byte of that place, outside what was there. -/
theorem Mach.rd_wrBytes (m : Mach) (a : Nat) (bs : List Byte) (x : Nat) :
    (m.wrBytes a bs).rd x = if a ≤ x ∧ x < a + bs.length then bs.getD (x - a) 0 else m.rd x := by
  induction bs generalizing m a with
  | nil =>
    have : ¬(a ≤ x ∧ x < a) := by omega
    simp [Mach.wrBytes, this]
  | cons b bs ih =>
    simp only [Mach.wrBytes, ih, Mach.rd_wr, List.length_cons]
    by_cases h1 : a = x
    · subst h1
      have h2 : ¬(a + 1 ≤ a ∧ a < a + 1 + bs.length) := by omega
      have h3 : a ≤ a ∧ a < a + (bs.length + 1) := by omega
      simp [h2, h3]
    · by_cases h2 : a + 1 ≤ x ∧ x < a + 1 + bs.length
      · have h3 : a ≤ x ∧ x < a + (bs.length + 1) := by omega
        rw [if_pos h2, if_pos h3]
        obtain ⟨k, hk⟩ : ∃ k, x - a = k + 1 := ⟨x - a - 1, by omega⟩
        have hk' : x - (a + 1) = k := by omega
        rw [hk, hk']
        rfl
      · have h3 : ¬(a ≤ x ∧ x < a + (bs.length + 1)) := by omega
        rw [if_neg h2, if_neg h3, if_neg h1]

@[simp] theorem leBytes_length (n v : Nat) : (leBytes n v).length = n := by
  induction n generalizing v with
  | zero => rfl
  | succ n ih => simp [leBytes, ih]

/-- Reset memory is canonical. -/
theorem State.reset_mem_wf : Mem.wf State.reset.mem = true := rfl

end Sys2Proof.Machine
end

