-- ==== Sys2Proof/Laws/Ops.lean ====
section
/-! SUPPORT. Laws of the shared operations: completing an issue, guards, register writes, precise traps. -/

namespace Sys2Proof.Machine

/-- Every meaning answers a next state. -/
theorem lift_next (f : Mach → Mach) (s : State) : ∃ t, lift f s = .next t := ⟨_, rfl⟩

/-- Two meanings that agree on a state's machine answer alike there. -/
theorem lift_congr {f g : Mach → Mach} {s : State} (h : f ⟨s.mem, [], s.dev, false⟩ = g ⟨s.mem, [], s.dev, false⟩) : lift f s = lift g s := by
  unfold lift
  rw [h]

/-- Every meaning keeps memory canonical. -/
theorem lift_wf {f : Mach → Mach} {s t : State} (h : lift f s = .next t) (hs : s.mem.wf = true) : t.mem.wf = true := by
  unfold lift at h
  injection h with h
  subst h
  exact Mem.apply_wf _ hs

/-- A guard that holds. -/
theorem Mach.guarded_true {m : Mach} {g : Guard} {body : Mach → Mach} (h : m.cur.guard g = true) : m.guarded g body = body m := if_pos h

/-- A guard that does not hold: the instruction only issues (R84, R104). -/
theorem Mach.guarded_false {m : Mach} {g : Guard} {body : Mach → Mach} (h : m.cur.guard g = false) : m.guarded g body = m.fin4 id :=
  if_neg (by rw [h]; exact Bool.false_ne_true)

/-- An issue that completes. -/
theorem lift_fin (s : State) (pc : Word) (eff : Ctx → Ctx) :
    ∃ t, lift (·.fin pc eff) s = .next t ∧ OnlyCtx s.cid s.kid s t ∧ t.cur = s.cur.retire pc eff := lift_onCur s (·.retire pc eff)

/-- An instruction whose guard does not hold. -/
theorem lift_guarded_false {s : State} {g : Guard} {body : Mach → Mach} (h : s.cur.guard g = false) :
    ∃ t, lift (·.guarded g body) s = .next t ∧ OnlyIssued s t := by
  obtain ⟨t, h1, h2, h3⟩ := lift_fin s (s.cur.pc + 4) id
  refine ⟨t, ?_, h2, ?_⟩
  · rw [← h1]
    exact lift_congr (Mach.guarded_false h)
  · rw [h3]
    exact Ctx.retire_id _ _

/-- Room for a write means that the ninth-entry trap is not taken. -/
theorem pwbFull_false {x : Ctx} {d : Reg} {lat : Nat} (h : HasRoom x d lat) : x.pwbFull d lat = false := by
  unfold Ctx.pwbFull
  obtain h | h | h := h
  · simp [h]
  · have : ¬ 1 < lat := by omega
    simp [this]
  · have : ¬ 8 ≤ (pendStay x.pwb).length := by omega
    simp [this]

/-- The register write that an issue makes, by its latency (R24, R25). -/
theorem lift_finWrite {s : State} (d : Reg) (v : Word) (lat : Nat) (pc : Word) (h : HasRoom s.cur d lat) :
    ∃ t, lift (fun m => m.finWrite d v lat pc id) s = .next t ∧ OnlyCtx s.cid s.kid s t ∧ Issued s.cur s.cur pc t.cur ∧
      (if lat ≤ 1 then Wrote s.cur d v t.cur else Pends s.cur d v lat t.cur) := by
  obtain ⟨t, h1, h2, h3⟩ := lift_fin s pc (fun y => y.put d v lat)
  refine ⟨t, ?_, h2, ?_, ?_⟩
  · rw [← h1]
    refine lift_congr ?_
    exact if_neg (by rw [show (Mach.mk s.mem [] s.dev false).cur = s.cur from rfl, pwbFull_false h]; exact Bool.false_ne_true)
  · rw [h3]
    exact Ctx.retire_put _ _ _ _ _
  · rw [h3]
    split
    · rename_i hl
      exact Ctx.retire_put_wrote _ _ _ _ _ hl
    · rename_i hl
      exact Ctx.retire_put_pends _ _ _ _ _ (by omega)

/-- A register-to-register instruction. -/
theorem lift_regOp {s : State} (g : Guard) (d : Reg) (lat : Nat) (f : Ctx → Word) (hg : s.cur.guard g = true) (h : HasRoom s.cur d lat) :
    ∃ t, lift (fun m => m.regOp g d lat f) s = .next t ∧ OnlyCtx s.cid s.kid s t ∧ Issued s.cur s.cur (s.cur.pc + 4) t.cur ∧
      (if lat ≤ 1 then Wrote s.cur d (f s.cur) t.cur else Pends s.cur d (f s.cur) lat t.cur) := by
  obtain ⟨t, h1, h2⟩ := lift_finWrite d (f s.cur) lat (s.cur.pc + 4) h
  refine ⟨t, ?_, h2⟩
  rw [← h1]
  exact lift_congr (Mach.guarded_true hg)

/-- Setting a predicate changes nothing but the predicates. -/
theorem Ctx.setPred_eq (x : Ctx) (p : BitVec 3) (v : Bool) : ∃ ps, x.setPred p v = { x with preds := ps } := by
  unfold Ctx.setPred
  split
  · exact ⟨x.preds, rfl⟩
  · exact ⟨_, rfl⟩

/-- A predicate after a write (R20). -/
theorem Ctx.pred_setPred (x : Ctx) (p q : BitVec 3) (v : Bool) : (x.setPred p v).pred q = if q = p ∧ p ≠ 0 then v else x.pred q := by
  unfold Ctx.setPred Ctx.pred
  by_cases hp : p = 0
  · simp [hp]
  · have key : ∀ (ps : BitVec 8) (p q : BitVec 3) (v : Bool), p ≠ 0 → q ≠ 0 →
        (if v then ps ||| (1#8 <<< p.toNat) else ps &&& ~~~(1#8 <<< p.toNat)).getLsbD q.toNat = if q = p then v else ps.getLsbD q.toNat := by
      intro ps p q v _ _
      have e : (p.toNat = q.toNat) ↔ (q = p) := ⟨fun h => (BitVec.eq_of_toNat_eq h).symm, fun h => by rw [h]⟩
      have hq := q.isLt
      have hs : (1#8 <<< p.toNat).getLsbD q.toNat = decide (q = p) := by
        rw [BitVec.getLsbD_shiftLeft, BitVec.getLsbD_one]
        by_cases h : q = p
        · subst h
          simp
          omega
        · have : p.toNat ≠ q.toNat := fun he => h (e.mp he)
          simp only [h, decide_false]
          rcases Nat.lt_or_ge q.toNat p.toNat with hl | hl
          · simp [hl]
          · have : q.toNat - p.toNat ≠ 0 := by omega
            simp [this]
      cases v
      · simp only [Bool.false_eq_true, if_false, BitVec.getLsbD_and, BitVec.getLsbD_not, hs]
        by_cases h : q = p <;> simp [h]
        intro _
        omega
      · simp only [if_true, BitVec.getLsbD_or, hs]
        by_cases h : q = p <;> simp [h]
    rw [if_neg hp]
    by_cases hq : q = 0
    · have : ¬(q = p ∧ p ≠ 0) := fun h => hp (h.1 ▸ hq)
      rw [if_pos hq, if_neg this, if_pos hq]
    · rw [if_neg hq, if_neg hq, key x.preds p q v hp hq]
      by_cases h : q = p
      · rw [if_pos h, if_pos ⟨h, hp⟩]
      · rw [if_neg h, if_neg fun g => h g.1]

/-- An instruction that writes a predicate. -/
theorem lift_predOp (s : State) (pd : BitVec 3) (f : Ctx → Bool) :
    ∃ t, lift (fun m => m.predOp pd f) s = .next t ∧ OnlyCtx s.cid s.kid s t ∧ Issued s.cur { s.cur with preds := t.cur.preds } (s.cur.pc + 4) t.cur ∧
      NoWrite s.cur t.cur ∧ ∀ p : BitVec 3, t.cur.pred p = if p = pd ∧ pd ≠ 0 then f s.cur else s.cur.pred p := by
  obtain ⟨t, h1, h2, h3⟩ := lift_fin s (s.cur.pc + 4) (fun x => x.setPred pd (f s.cur))
  obtain ⟨rs, hl⟩ := s.cur.landDue_eq
  obtain ⟨ps, h4⟩ := Ctx.setPred_eq s.cur.landDue pd (f s.cur)
  have hr : s.cur.retire (s.cur.pc + 4) (fun x => x.setPred pd (f s.cur)) =
      { s.cur with pc := s.cur.pc + 4, tick := s.cur.tick + 1, regs := rs, pwb := pendStay s.cur.pwb, preds := ps } := by
    show { s.cur.landDue.setPred pd (f s.cur) with pc := s.cur.pc + 4, tick := (s.cur.landDue.setPred pd (f s.cur)).tick + 1 } = _
    rw [h4, hl]
  refine ⟨t, h1, h2, ?_, ⟨?_, ?_⟩, fun p => ?_⟩
  · rw [h3, hr]
    rfl
  · rw [h3, hr, hl]
  · rw [h3, hr]
  · have hp := Ctx.pred_setPred s.cur.landDue pd p (f s.cur)
    rw [h4, hl] at hp
    rw [h3, hr]
    exact hp

/-- An instruction that would need a ninth pending entry traps (R27). -/
theorem finWrite_full {m : Mach} {d : Reg} {v : Word} {lat : Nat} {pc : Word} {eff : Ctx → Ctx} (h : m.cur.pwbFull d lat = true) :
    m.finWrite d v lat pc eff = m.trap Cause.illegal (limitTval 0x09) := if_pos h

/-- A precise trap into the handler (R28). -/
theorem lift_trap {s : State} (cause : Nat) (tval : Word) (h : CanTrap s.cur cause) :
    ∃ t, lift (fun m => m.trap cause tval) s = .next t ∧ Trapped cause tval s.cur.pc s t := by
  obtain ⟨h1, h2, h3, h4⟩ := h
  obtain ⟨t, e1, e2, e3⟩ := lift_onCur s (fun y => y.enterHandler cause tval s.cur.pc)
  refine ⟨t, ?_, e2, ?_⟩
  · rw [← e1]
    refine lift_congr ?_
    have hh : s.cur.trapHeld cause = false := by
      unfold Ctx.trapHeld
      rw [h1, h3, beq_eq_false_iff_ne.mpr h2]
      rfl
    have hu : (Mach.mk s.mem [] s.dev false).unwait s.cid s.kid = Mach.mk s.mem [] s.dev false := by
      unfold Mach.unwait
      rw [show ((Mach.mk s.mem [] s.dev false).core s.cid).ctx s.kid = s.cur from rfl, h4]
    show (Mach.mk s.mem [] s.dev false).trapEntry s.cid s.kid cause tval s.cur.pc = _
    unfold Mach.trapEntry
    rw [hu]
    exact if_neg (by rw [show ((Mach.mk s.mem [] s.dev false).core s.cid).ctx s.kid = s.cur from rfl, hh]; exact Bool.false_ne_true)
  · rw [e3]
    rfl

end Sys2Proof.Machine
end

