-- ==== Sys2Proof/Laws/Engines.lean ====
section
/-! SUPPORT. What the shared operations of engines and of the fabric can do, said once: the step of an engine, an engine fault, an answer that leaves, a request
to the supervisor, the turn of a transaction. -/

namespace Sys2Proof.Machine

/-- An engine takes no step for a command that is not in progress, or is not of its kind. -/
theorem Mach.engineStep_idle {m : Mach} {c u : Nat} {d : Cmd} {kind : Cmd → Bool} (f : Nat → Cmd → El Unit) (h : (m.core c).cmd u = some d)
    (hw : d.working = false ∨ kind d = false) : m.engineStep c u kind f = m := by
  unfold Mach.engineStep
  simp only [h]
  rw [if_pos]
  obtain hw | hw := hw <;> simp [hw]

/-- An engine does the next element of a command in progress: what the element leaves, or what has stopped it. -/
theorem Mach.engineStep_working {m : Mach} {c u : Nat} {d : Cmd} {kind : Cmd → Bool} (f : Nat → Cmd → El Unit) (h : (m.core c).cmd u = some d)
    (hw : d.working = true) (hk : kind d = true) (hn : d.null = false) :
    m.engineStep c u kind f = match (f c d).run.run m with
      | (.ok _, n) => n
      | (.error s, n) => n.stopped c d s := by
  unfold Mach.engineStep
  simp only [h]
  rw [if_neg (by simp [hw, hk]), hn]
  rfl

/-- A nullified command only waits at its chase points (R351). -/
theorem Mach.engineStep_null {m : Mach} {c u : Nat} {d : Cmd} {kind : Cmd → Bool} (f : Nat → Cmd → El Unit) (h : (m.core c).cmd u = some d)
    (hw : d.working = true) (hk : kind d = true) (hn : d.null = true) :
    m.engineStep c u kind f = match (El.nullElement c d).run.run m with
      | (.ok _, n) => n
      | (.error s, n) => n.stopped c d s := by
  unfold Mach.engineStep
  simp only [h]
  rw [if_neg (by simp [hw, hk]), hn]
  rfl

/-- A command whose queue has a faulted command waits at its fault point (R152). -/
theorem Mach.faultAt_waits {m : Mach} {c : Nat} {d : Cmd} (pos sub : Nat) (tval : Word) (hh : d.handler = false) (hq : (m.core c).queueFaulted d = true) :
    m.faultAt c d pos sub tval = m := by
  unfold Mach.faultAt
  rw [if_neg (by simp [hh]), if_pos hq]

/-- A handler record that faults is squashed (R405). -/
theorem Mach.faultAt_handler {m : Mach} {c : Nat} {d : Cmd} (pos sub : Nat) (tval : Word) (hh : d.handler = true) : m.faultAt c d pos sub tval = m.squash c d.uid := by
  unfold Mach.faultAt
  rw [if_pos hh]

/-- Otherwise the fault is delivered to the command's context (R10, R13). -/
theorem Mach.faultAt_delivers {m : Mach} {c : Nat} {d : Cmd} {x : CtxId} (pos sub : Nat) (tval : Word) (hh : d.handler = false)
    (hq : (m.core c).queueFaulted d = false) (hx : d.ctx = some x) :
    m.faultAt c d pos sub tval =
      ((m.onCore c fun k => k.onCmd d.uid fun e => { e with fault := some ⟨d.q, d.seq, pos, sub, tval⟩ }).latchShown c d.uid).onCtx c x
        fun y => { y with efq := y.efq ++ [⟨d.q, d.seq, pos, sub, tval⟩], latch := true } := by
  unfold Mach.faultAt
  rw [if_neg (by simp [hh]), if_neg (by simp [hq]), hx]

/-- An answer that leaves on the fabric changes no memory and no core. -/
@[simp] theorem Mach.base_transmit (m : Mach) (cls : Nat) (r : Reply) : (m.transmit cls r).base = m.base := by
  unfold Mach.transmit
  dsimp only
  split <;> rfl

@[simp] theorem Mach.log_transmit (m : Mach) (cls : Nat) (r : Reply) : (m.transmit cls r).log = m.log := by
  unfold Mach.transmit
  dsimp only
  split <;> rfl

@[simp] theorem Mach.core_transmit (m : Mach) (cls : Nat) (r : Reply) (g : Nat) : (m.transmit cls r).core g = m.core g := by
  unfold Mach.transmit
  dsimp only
  split <;> rfl

/-- The answer joins those that have left. -/
theorem Mach.outbox_transmit (m : Mach) (cls : Nat) (r : Reply) : (m.transmit cls r).dev.outbox = m.dev.outbox ++ [r] := by
  unfold Mach.transmit
  dsimp only
  split <;> rfl

/-- The supervisor makes a change that it is asked for. -/
theorem Mach.managed_supervisor {m : Mach} (f : Mach → Mach) (h : m.dev.inRom = false) : m.managed f = f m := by
  unfold Mach.managed
  rw [if_neg (by simp [h])]

/-- The boot ROM refuses it (R420). -/
theorem Mach.managed_rom {m : Mach} (f : Mach → Mach) (h : m.dev.inRom = true) : m.managed f = m.reply (.refused 0) := by
  unfold Mach.managed
  rw [if_pos h]

/-- A transaction whose turn it is not is held as it came (R364, R368). -/
theorem Mach.inTurn_held {m : Mach} {i : Instr} {node pa n : Nat} {rel : Bool} (f : Mach → Mach) (h : m.dev.mustWait node pa n rel = true) :
    m.inTurn i node pa n rel f = m.onDev fun d => { d with deferred := d.deferred ++ [(node, i)] } := by
  unfold Mach.inTurn
  rw [if_pos h]

/-- One whose turn it is is performed. -/
theorem Mach.inTurn_free {m : Mach} {i : Instr} {node pa n : Nat} {rel : Bool} (f : Mach → Mach) (h : m.dev.mustWait node pa n rel = false) :
    m.inTurn i node pa n rel f = f m := by
  unfold Mach.inTurn
  rw [if_neg (by simp [h])]

end Sys2Proof.Machine
end

