-- ==== Sys2Proof/Laws/LoadStore.lean ====
section
/-! SUPPORT. Laws of local loads and stores (R112). -/

namespace Sys2Proof.Machine

/-- The number that a state's bytes make is the one that a meaning reads. -/
theorem le_eq_num (s : State) (a n : Nat) : (Mach.mk s.mem [] s.dev false).le a n = s.num a n := by
  induction n generalizing a with
  | zero => rfl
  | succ n ih =>
    show (s.byte a).toNat + 256 * leNat ((Mach.mk s.mem [] s.dev false).bytes (a + 1) n) = _
    rw [show leNat ((Mach.mk s.mem [] s.dev false).bytes (a + 1) n) = (Mach.mk s.mem [] s.dev false).le (a + 1) n from rfl, ih]
    rfl

/-- A local load that passes its checks (R112). -/
theorem lift_localLoad {s : State} (t a : Reg) (off : BitVec 12) (g : Guard) (size : Nat) (ext : Nat → Word) (hg : s.cur.guard g = true)
    (hr : HasRoom s.cur t 4) (hc : localCheck (localEa s.cur a off size) size false = none)
    (hs : s.here.scalarOk (localEa s.cur a off size).toNat ((localEa s.cur a off size).toNat + size) false = true)
    (hp : s.dev.poisonIn (localPa s.cid (localEa s.cur a off size).toNat) size = none) :
    ∃ u, lift (fun m => m.localLoad t a off g size ext) s = .next u ∧ OnlyCtx s.cid s.kid s u ∧ Issued s.cur s.cur (s.cur.pc + 4) u.cur ∧
      Pends s.cur t (ext (s.num (localPa s.cid (localEa s.cur a off size).toNat) size)) 4 u.cur := by
  obtain ⟨u, h1, h2, h3, h4⟩ := lift_finWrite t (ext (s.num (localPa s.cid (localEa s.cur a off size).toNat) size)) 4 (s.cur.pc + 4) hr
  refine ⟨u, ?_, h2, h3, h4⟩
  rw [← h1]
  refine lift_congr ?_
  unfold Mach.localLoad
  rw [Mach.guarded_true (show (Mach.mk s.mem [] s.dev false).cur.guard g = true from hg)]
  rw [show (Mach.mk s.mem [] s.dev false).cur = s.cur from rfl]
  simp only [hc]
  rw [show (Mach.mk s.mem [] s.dev false).here = s.here from rfl, hs]
  rw [show (Mach.mk s.mem [] s.dev false).dev.poisonIn (localPa (Mach.mk s.mem [] s.dev false).cid (localEa s.cur a off size).toNat) size = none from hp]
  rw [le_eq_num]
  rfl

/-- What a store leaves in the machine: its bytes, and the substitution marks of the words it touches cleared (R315). -/
theorem Mach.store_parts (m : Mach) (pa : Nat) (bs : List Byte) :
    (m.store pa bs).base = m.base ∧ (m.store pa bs).log = (m.wrBytes pa bs).log ∧
    (m.store pa bs).dev = { m.dev with subst := m.dev.subst.filter fun u => !(wordsOf pa bs.length).contains u } := by
  have hb : ∀ (bs : List Byte) (m : Mach) (a : Nat), (m.wrBytes a bs).base = m.base ∧ (m.wrBytes a bs).dev = m.dev := by
    intro bs
    induction bs with
    | nil => exact fun m a => ⟨rfl, rfl⟩
    | cons b bs ih => exact fun m a => ih (m.wr a b) (a + 1)
  obtain ⟨h1, h2⟩ := hb bs m pa
  by_cases he : (m.wrBytes pa bs).dev.subst.isEmpty = true
  · have e : m.store pa bs = m.wrBytes pa bs := if_pos he
    rw [h2, List.isEmpty_iff] at he
    rw [e, h2, he, List.filter_nil]
    exact ⟨h1, rfl, by rw [← he]⟩
  · have e : m.store pa bs = (m.wrBytes pa bs).onDev fun d => { d with subst := d.subst.filter fun u => !(wordsOf pa bs.length).contains u } := if_neg he
    rw [e, Mach.onDev_dev, h2]
    exact ⟨h1, rfl, rfl⟩

theorem leBytes_getElem (n v k : Nat) (h : k < n) : (leBytes n v)[k]? = some (BitVec.ofNat 8 (v / 2 ^ (8 * k))) := by
  induction n generalizing v k with
  | zero => omega
  | succ n ih =>
    cases k with
    | zero => simp [leBytes]
    | succ k =>
      simp only [leBytes, List.getElem?_cons_succ]
      rw [ih (v / 256) k (by omega), Nat.div_div_eq_div_mul, show (256 : Nat) = 2 ^ 8 from rfl, ← Nat.pow_add, show 8 + 8 * k = 8 * (k + 1) by omega]

/-- A local store that passes its checks (R112). -/
theorem lift_localStore {s : State} (hw : s.mem.wf = true) (t a : Reg) (off : BitVec 12) (g : Guard) (size : Nat) (hg : s.cur.guard g = true)
    (hc : localCheck (localEa s.cur a off size) size true = none)
    (hs : s.here.scalarOk (localEa s.cur a off size).toNat ((localEa s.cur a off size).toNat + size) true = true) :
    ∃ u, lift (fun m => m.localStore t a off g size) s = .next u ∧
      (∀ x, u.byte x = if localPa s.cid (localEa s.cur a off size).toNat ≤ x ∧ x < localPa s.cid (localEa s.cur a off size).toNat + size then
        (leBytes size (s.cur.reg t).toNat).getD (x - localPa s.cid (localEa s.cur a off size).toNat) 0 else s.byte x) ∧
      u.dev = { s.dev with
        cores := u.dev.cores, subst := s.dev.subst.filter fun w => !(wordsOf (localPa s.cid (localEa s.cur a off size).toNat) size).contains w } ∧
      SameCores s.cid s u ∧ SameCoreBut s.cid s.kid s u ∧ u.cur = s.cur.retire (s.cur.pc + 4) id := by
  let m : Mach := ⟨s.mem, [], s.dev, false⟩
  let pa := localPa s.cid (localEa s.cur a off size).toNat
  let bs := leBytes size (s.cur.reg t).toNat
  obtain ⟨h1, h2, h3⟩ := Mach.store_parts m pa bs
  have hrun : m.localStore t a off g size = (m.store pa bs).fin4 id := by
    unfold Mach.localStore
    rw [Mach.guarded_true (show m.cur.guard g = true from hg)]
    rw [show m.cur = s.cur from rfl]
    simp only [hc]
    rw [show m.here = s.here from rfl, hs]
    rfl
  have hcid : (m.store pa bs).cid = s.cid := by unfold Mach.cid State.cid; rw [h3]
  have hkid : (m.store pa bs).kid = s.kid := by unfold Mach.kid State.kid; rw [h3]
  have hcore : ∀ c, (m.store pa bs).core c = s.core c := by intro c; unfold Mach.core State.core; rw [h3]
  have hcur : (m.store pa bs).cur = s.cur := by
    unfold Mach.cur Mach.here State.cur State.ctx
    rw [hcid, hkid, hcore]
  have hfin : (m.store pa bs).fin4 id = (m.store pa bs).onCtx s.cid s.kid (·.retire (s.cur.pc + 4) id) := by
    unfold Mach.fin4 Mach.fin Mach.pc4 Mach.onCur
    rw [hcid, hkid, hcur]
  have hself : ((m.store pa bs).onCtx s.cid s.kid (·.retire (s.cur.pc + 4) id)).core s.cid = (s.core s.cid).setCtx s.kid (s.cur.retire (s.cur.pc + 4) id) := by
    unfold Mach.onCtx
    rw [Mach.core_onCore, hcore]
    rfl
  refine ⟨⟨s.mem.apply ((m.store pa bs).onCtx s.cid s.kid (·.retire (s.cur.pc + 4) id)).log, ((m.store pa bs).onCtx s.cid s.kid (·.retire (s.cur.pc + 4) id)).dev⟩,
    ?_, fun x => ?_, ?_, fun c hne => ?_, ?_, ?_⟩
  · rw [lift_eq, hrun, hfin]
  · show (s.mem.apply (m.store pa bs).log).read x = _
    have hr := Mach.rd_eq ⟨s.mem, (m.store pa bs).log, s.dev, false⟩ x hw
    show _ = if pa ≤ x ∧ x < pa + size then _ else _
    rw [← hr]
    have h5 := Mach.rd_wrBytes m pa bs x
    have h6 : (Mach.mk s.mem (m.store pa bs).log s.dev false).rd x = (m.wrBytes pa bs).rd x := by
      have hb : (m.wrBytes pa bs).base = s.mem := by
        have : ∀ (bs : List Byte) (m : Mach) (a : Nat), (m.wrBytes a bs).base = m.base := by
          intro bs
          induction bs with
          | nil => exact fun m a => rfl
          | cons b bs ih => exact fun m a => ih (m.wr a b) (a + 1)
        exact this bs m pa
      unfold Mach.rd
      rw [h2, hb]
    rw [h6, h5, show bs.length = size from leBytes_length _ _]
    rfl
  · have key : ∀ (d : Dev) (v : Core), d = { s.dev with subst := s.dev.subst.filter fun w => !(wordsOf pa size).contains w } →
        d.setCore s.cid v = { s.dev with cores := (d.setCore s.cid v).cores, subst := s.dev.subst.filter fun w => !(wordsOf pa size).contains w } := by
      intro d v h
      subst h
      rfl
    refine key _ _ ?_
    rw [h3, show bs.length = size from leBytes_length _ _]
  · show ((m.store pa bs).onCtx s.cid s.kid (·.retire (s.cur.pc + 4) id)).core c = s.core c
    unfold Mach.onCtx
    rw [Mach.core_onCore_other _ _ _ _ hne, hcore]
  · show ((m.store pa bs).onCtx s.cid s.kid (·.retire (s.cur.pc + 4) id)).core s.cid = (s.core s.cid).setCtx s.kid (((m.store pa bs).onCtx s.cid s.kid (·.retire (s.cur.pc + 4) id)).core s.cid |>.ctx s.kid)
    rw [hself, Core.ctx_setCtx]
  · show (((m.store pa bs).onCtx s.cid s.kid (·.retire (s.cur.pc + 4) id)).core (m.store pa bs).cid).ctx (m.store pa bs).kid = _
    rw [hcid, hkid, hself, Core.ctx_setCtx]

end Sys2Proof.Machine
end

