-- ==== Sys2Proof/Tests/Slice0.lean ====
section
/-! SUPPORT. The model's own tests: terms that the checks of WellFormed refuse, words written out from the encoding tables, a witness for the hypotheses of
each statement (clause by clause, at the ends of their ranges), and single steps whose results are the manual's. -/

namespace Sys2Proof.Tests

section

set_option Elab.async false

open Sys2Proof.Machine Sys2Proof.Claims

/-! ## Small states -/

/-- A running context at 0x40 with a handler at 0x100 and the registers listed. -/
def tx (l : List (Nat × Word)) : Ctx := { Ctx.reset with pc := 0x40, tvec := 0x100, regs := l.foldl (fun v p => v.set! p.1 p.2) (Vector.replicate 32 0) }

/-- Core 0 in an iteration of job 1, with context A as given. -/
def tc (x : Ctx) : Core :=
  { Core.reset 0 with a := x, x := tx [], s := tx [], life := .running, busy := true, imgLen := 0x1000, job := some 1, jobid := 1, asid := 1 }

/-- A job of queue 0 on cluster 0 whose group 3 is core 0. -/
def tj : Job where
  id := 1
  queue := 0
  domain := some 0
  launch := []
  level := 0
  clusters := [0]
  groups := [(3, [0])]
  handlers := []
  regv := []
  spad := []
  image := []
  pool := []
  mapped := []
  leaving := []
  key := none
  saveKey := []
  ptbase := 0
  next := []
  gens := []
  inj := 0
  con := 0
  lost := 0
  abandoned := 0
  parked := []
  log := []
  ending := none
  admitted := 0
  seen := [0]
  away := []
  awaySince := 0
  saved := []
  waved := false
  qlost := 0
  qabandon := 0
  qwave := 0

/-- The machine with that core, and key slot 5 of the job's domain; the slot is context A of core 0. -/
def tsj (j : Job) (k : Core) : State := { mem := [], dev := { Dev.reset with cores := [(0, k)], jobs := [j], keys := [⟨5, 0, some 0, none⟩] } }

def ts (k : Core) : State := tsj tj k

/-- The same with context A given. -/
def tsx (x : Ctx) : State := ts (tc x)

/-- The state that an outcome leaves, when it leaves one. -/
def after (r : Result) : Option State :=
  match r with
  | .next t => some t
  | _ => none

/-- `n` pending entries of x4 with two counts to go. -/
def pends (n : Nat) : List Pend := List.replicate n ⟨4, 3, 7⟩

/-! ## Ill-formed terms -/

theorem test_wf_refuses_service_rows : Instr.wf (.trap 3) = false := by decide
theorem test_wf_refuses_slot_in_mode0 : Instr.wf (.fwait 5 .seq 1 always) = false ∧ Instr.wf (.fread 5 .seq 1 always) = false := by decide
theorem test_wf_refuses_record_rows : Instr.wf (.copy 0 0) = false ∧ Instr.wf .quietWave = false ∧ Instr.wf .deviceReset = false := by decide

/-- A record with nothing set. -/
def trec : Record := decodeRecord 0

/-- A command in LQ with identifier and sequence number 1, all of whose operands are as given. -/
def tcmd (r : Record) (ops : List Operand) (total : Nat) : Cmd where
  uid := 1
  seq := 1
  q := .lq
  work := .record r
  ctx := some .a
  phase := some 0
  during := 0
  fmtw := none
  ops := ops
  edges := []
  regions := []
  members := []
  null := false
  ready := true
  issued := true
  n := 0
  total := total
  fault := none
  resumed := false
  stopped := false
  gang := none
  refetchWait := none
  refetch := false
  handler := false
  fired := false
  stopAt := none
  acc := []
  cover := []
  moved := []
  subs := []
  smarks := []
  refused := []
  again := []
  pre := 0
  exps := []
  since := none
  paused := none
  born := 0

/-- A one-dimensional operand of `n` bytes at offset `o` of core 0. -/
def top (o : Int) (n : Nat) (dst : Bool) : Operand := ⟨⟨.core 0, 2 * o, 2, [n, 1, 1, 1], [1, 0, 0, 0], 0⟩, dst, false, o, o + n⟩

/-! ## Scalar instructions -/

/-- Seven entries that stay leave room for a latency of 12; eight leave room for a latency of 1. -/
theorem test_ScalarResults_met :
    (∃ r, arithRow (.div 1 2 3 always) = some r ∧ (tsx { tx [] with pwb := pends 7 }).cur.guard r.g = true ∧
      HasRoom (tsx { tx [] with pwb := pends 7 }).cur r.d r.lat) ∧
    (∃ r, immRow (.lui 31 0) = some r ∧ (tsx { tx [] with pwb := pends 8 }).cur.guard r.g = true ∧
      HasRoom (tsx { tx [] with pwb := pends 8 }).cur r.d r.lat) :=
  ⟨⟨_, rfl, by decide, by unfold HasRoom; decide⟩, ⟨_, rfl, by decide, by unfold HasRoom; decide⟩⟩

theorem test_ComparesAndPredicates_met :
    (∃ r, predRow (.cmp 7 1 2 .geu) = some r ∧ (tsx (tx [])).cur.guard r.g = true) ∧
    (∃ r, predRow (.pnot 0 (.k 15) ⟨1, true⟩) = some r ∧ (tsx (tx [])).cur.guard r.g = true) := ⟨⟨_, rfl, by decide⟩, ⟨_, rfl, by decide⟩⟩

/-- A latency of 3 with no other entry, and an entry that is due at this issue. -/
theorem test_PendingWritesLand_met :
    ∃ r, arithRow (.mul 31 2 3 always) = some r ∧ (tsx { tx [] with pwb := [⟨31, 1, 9⟩, ⟨31, 0, 8⟩] }).cur.guard r.g = true ∧
      HasRoom (tsx { tx [] with pwb := [⟨31, 1, 9⟩, ⟨31, 0, 8⟩] }).cur r.d r.lat := ⟨_, rfl, by decide, by unfold HasRoom; decide⟩

/-- A context whose x5 is the address of the last doubleword of the scratchpad, with a wait that has ended. -/
def tzero : State :=
  let k := tc { tx [(5, 0xBFFF8)] with rq := [⟨4, some 9, none⟩], wait := some (.quiet 0 0 0 (some 3)) }
  ts { k with rings := [(.x, .a, [8])] }

theorem test_ZeroRegisterDiscards_met :
    (∃ r, arithRow (.add 0 1 2 always) = some r ∧ tzero.cur.guard r.g = true ∧ r.d = 0) ∧
    (∃ r, loadRow (.ldd 0 5 0 always) = some r ∧ r.t = 0 ∧ tzero.cur.guard r.g = true ∧ r.ea tzero.cur % r.size = 0 ∧
      (oneStorage (r.ea tzero.cur) (r.ea tzero.cur + r.size)).isSome = true ∧ tzero.here.scalarOk (r.ea tzero.cur) (r.ea tzero.cur + r.size) false = true ∧
      tzero.dev.poisonIn (r.pa tzero) r.size = none) ∧
    (∃ r, predRow (.cmp 0 1 2 .eq) = some r ∧ tzero.cur.guard r.g = true ∧ r.pd = 0) ∧
    (listed 0xA4 = true ∧ 0x035 ∈ jobWrites) ∧
    (endpointCtx (6 : BitVec 8).toNat = some .x ∧ CtxId.x ≠ tzero.kid ∧ tzero.here.ring .x tzero.kid ≠ []) ∧
    (tzero.cur.rq = [⟨4, some 9, none⟩]) ∧
    ((BitVec.ofInt 64 ((tzero.cur.reg 5).toInt + (0x7FF : BitVec 12).toInt * 4)).toNat % 4 = 0) ∧
    (tzero.cur.wait = some (.quiet 0 0 0 (some 3))) ∧
    (tzero.cur.lguard (.pred always) = true ∧ window tzero.cid + 0x200000 + 16 * 2047 ∉ tzero.dev.poison ∧
      (tzero.region tzero.cid 2047).extractLsb' 72 56 = 0 ∧ (tzero.region tzero.cid 2047).getLsbD 26 = false) :=
  ⟨⟨_, rfl, by decide, by decide⟩,
   ⟨_, rfl, by decide, by decide, by decide, by decide, by decide, by decide⟩, ⟨_, rfl, by decide, by decide⟩, by decide, by decide, by decide, by decide,
   by decide, by decide⟩

/-- Eight entries that stay. -/
def tfull : State := tsx { tx [(5, 0xBFFF8)] with pwb := pends 8 }

theorem test_NinthPendingWriteTraps_met :
    (∃ r, arithRow (.mul 1 2 3 always) = some r ∧ tfull.cur.guard r.g = true ∧ ¬HasRoom tfull.cur r.d r.lat) ∧ CanTrap tfull.cur Cause.illegal ∧
    (∃ r, loadRow (.ldd 31 5 0 always) = some r ∧ tfull.cur.guard r.g = true ∧ ¬HasRoom tfull.cur r.t 4 ∧ r.ea tfull.cur % r.size = 0 ∧
      (oneStorage (r.ea tfull.cur) (r.ea tfull.cur + r.size)).isSome = true ∧ tfull.here.scalarOk (r.ea tfull.cur) (r.ea tfull.cur + r.size) false = true ∧
      tfull.dev.poisonIn (r.pa tfull) r.size = none) ∧
    ¬HasRoom tfull.cur 1 2 ∧ listed 0 = true ∧ 0x001 ∈ jobWrites :=
  ⟨⟨_, rfl, by decide, by unfold HasRoom; decide⟩, by unfold CanTrap; decide,
   ⟨_, rfl, by decide, by unfold HasRoom; decide, by decide, by decide, by decide, by decide⟩, by unfold HasRoom; decide, by decide, by decide⟩

theorem test_add_wraps :
    (after (exec (.add 3 1 1 always) (tsx (tx [(1, 0x8000000000000001)])))).map (·.cur.reg 3) = some 2 := by decide

/-- −7 / 2 is −3 in C's convention (R105), after eleven issues more. -/
theorem test_div_rounds_to_zero : (after (exec (.div 3 1 2 always) (tsx (tx [(1, -7), (2, 2)])))).map (·.cur.pwb) = some [⟨3, 11, -3⟩] := by decide

/-- The remainder takes the sign of the dividend (R105). -/
theorem test_rem_sign : (after (exec (.rem 3 1 2 always) (tsx (tx [(1, -7), (2, 2)])))).map (·.cur.pwb) = some [⟨3, 11, -1⟩] := by decide

/-- Division by zero gives all ones (R105). -/
theorem test_divu_by_zero : (after (exec (.divu 3 1 2 always) (tsx (tx [(1, 5)])))).map (·.cur.pwb) = some [⟨3, 11, -1⟩] := by decide

/-- The top half of −1 × −1 is 0; unsigned it is 2^64 − 2 (R105). -/
theorem test_mulh : (after (exec (.mulh 3 1 1 always) (tsx (tx [(1, -1)])))).map (·.cur.pwb) = some [⟨3, 2, 0⟩] := by decide
theorem test_mulhu : (after (exec (.mulhu 3 1 1 always) (tsx (tx [(1, -1)])))).map (·.cur.pwb) = some [⟨3, 2, -2⟩] := by decide

/-- A shift takes the amount modulo 64 (R105). -/
theorem test_shl_modulo : (after (exec (.shl 3 1 2 always) (tsx (tx [(1, 1), (2, 65)])))).map (·.cur.reg 3) = some 2 := by decide
theorem test_sar_sign : (after (exec (.sar 3 1 2 always) (tsx (tx [(1, -8), (2, 1)])))).map (·.cur.reg 3) = some (-4) := by decide
theorem test_clz_of_zero : (after (exec (.clz 3 1 always) (tsx (tx [])))).map (·.cur.reg 3) = some 64 := by decide
theorem test_popc_of_ones : (after (exec (.popc 3 1 always) (tsx (tx [(1, -1)])))).map (·.cur.reg 3) = some 64 := by decide
theorem test_sextb : (after (exec (.sextb 3 1 always) (tsx (tx [(1, 0x80)])))).map (·.cur.reg 3) = some 0xFFFFFFFFFFFFFF80 := by decide

/-- lui puts its field at bit 11, sign-extended; luih keeps the low half (R108). -/
theorem test_lui_sign : (after (exec (.lui 3 0x100000) (tsx (tx [])))).map (·.cur.reg 3) = some 0xFFFFFFFF80000000 := by decide
theorem test_luih_keeps_low : (after (exec (.luih 3 0x1234) (tsx (tx [(3, 0xAABBCCDD)])))).map (·.cur.reg 3) = some 0x1234AABBCCDD := by decide

/-- addpc counts from its own address (R108). -/
theorem test_addpc : (after (exec (.addpc 3 8) (tsx (tx [])))).map (·.cur.reg 3) = some 0x60 := by decide
theorem test_cmp_signed : (after (exec (.cmp 1 2 3 .lt) (tsx (tx [(2, -1), (3, 1)])))).map (·.cur.pred 1) = some true := by decide
theorem test_cmp_unsigned : (after (exec (.cmp 1 2 3 .ltu) (tsx (tx [(2, -1), (3, 1)])))).map (·.cur.pred 1) = some false := by decide

/-! ## Local loads and stores -/

/-- The last doubleword of each storage that a load reads, and the first byte of the second. -/
theorem test_LocalLoadsAndStores_loads_met : ∀ o ∈ [0x0, 0xBFFF8, 0x100000, 0x13FFF8, 0x200000, 0x207FF8, 0x300000, 0x30FFF8],
    ∃ r, loadRow (.ldd 3 5 0 always) = some r ∧ (tsx (tx [(5, BitVec.ofNat 64 o)])).cur.guard r.g = true ∧
      HasRoom (tsx (tx [(5, BitVec.ofNat 64 o)])).cur r.t 4 ∧ r.ea (tsx (tx [(5, BitVec.ofNat 64 o)])).cur % r.size = 0 ∧
      (oneStorage o (o + 8)).isSome = true ∧ (tsx (tx [(5, BitVec.ofNat 64 o)])).here.scalarOk o (o + 8) false = true ∧
      (tsx (tx [(5, BitVec.ofNat 64 o)])).dev.poisonIn (0x7F0000000000 + o) 8 = none := by
  intro o ho
  fin_cases ho <;> exact ⟨_, rfl, by decide, by unfold HasRoom; decide, by decide, by decide, by decide, by decide⟩

theorem test_LocalLoadsAndStores_stores_met : ∀ o ∈ [0x0, 0xBFFF8, 0x100000, 0x13FFF8, 0x200000, 0x207FF8],
    State.Inv (tsx (tx [(5, BitVec.ofNat 64 o)])) ∧
    ∃ r, storeRow (.std 3 5 0 always) = some r ∧ (tsx (tx [(5, BitVec.ofNat 64 o)])).cur.guard r.g = true ∧
      r.ea (tsx (tx [(5, BitVec.ofNat 64 o)])).cur = o ∧ r.ea (tsx (tx [(5, BitVec.ofNat 64 o)])).cur % r.size = 0 ∧
      (∃ st, oneStorage o (o + 8) = some st ∧ st ≠ .istore) ∧ (tsx (tx [(5, BitVec.ofNat 64 o)])).here.scalarOk o (o + 8) true = true := by
  intro o ho
  fin_cases ho <;> exact ⟨by unfold State.Inv; decide, _, rfl, by decide, by decide, by decide, ⟨_, rfl, by decide⟩, by decide⟩

/-- Misaligned at 1; unassigned at the ends of the gaps; the ends of the instruction store, for a store. -/
theorem test_LocalAccessTraps_met :
    CanTrap (tsx (tx [])).cur Cause.misalign ∧ CanTrap (tsx (tx [])).cur Cause.access ∧
    (∃ r, loadRow (.ldw 3 5 0 always) = some r ∧ (tsx (tx [(5, 1)])).cur.guard r.g = true ∧ r.ea (tsx (tx [(5, 1)])).cur % r.size ≠ 0) ∧
    (∀ o ∈ [0xC0000, 0xFFFF8, 0x140000, 0x1FFFF8, 0x208000, 0x2FFFF8, 0x310000, 0xFFFFFFFFFFFFFFF8],
      ∃ r, loadRow (.ldd 3 5 0 always) = some r ∧ r.ea (tsx (tx [(5, BitVec.ofNat 64 o)])).cur % r.size = 0 ∧
        ∃ k, k < r.size ∧ assigned (r.ea (tsx (tx [(5, BitVec.ofNat 64 o)])).cur + k) = false) ∧
    (∀ o ∈ [0x300000, 0x30FFF8],
      ∃ r, storeRow (.std 3 5 0 always) = some r ∧ r.ea (tsx (tx [(5, BitVec.ofNat 64 o)])).cur % r.size = 0 ∧
        0x300000 ≤ r.ea (tsx (tx [(5, BitVec.ofNat 64 o)])).cur ∧ r.ea (tsx (tx [(5, BitVec.ofNat 64 o)])).cur < 0x310000) := by
  refine ⟨by unfold CanTrap; decide, by unfold CanTrap; decide, ⟨_, rfl, by decide, by decide⟩, ?_, ?_⟩
  · intro o ho; fin_cases ho <;> exact ⟨_, rfl, by decide, 0, by decide, by decide⟩
  · intro o ho; fin_cases ho <;> exact ⟨_, rfl, by decide, by decide, by decide⟩

/-- A byte is extended with its sign (R112), and leaves its register alone for three issues. -/
theorem test_ldb_sign :
    (after (exec (.ldb 3 5 0 always) { tsx (tx [(5, 8)]) with mem := [(0x7F0000000008, 0x80)] })).map (·.cur.pwb) =
      some [⟨3, 3, 0xFFFFFFFFFFFFFF80⟩] := by decide

/-- The offset counts in units of the access (R112). -/
theorem test_sth_scaled :
    (after (exec (.sth 3 5 0xFFF always) (tsx (tx [(5, 8), (3, 0x12345)])))).map (·.mem) = some [(0x7F0000000006, 0x45), (0x7F0000000007, 0x23)] := by decide

/-! ## Control flow -/

/-- x5 aligned after the largest offset, x6 not. -/
theorem test_BranchesAndLoops_met :
    (tsx (tx [])).cur.guard always = true ∧ (BitVec.ofInt 64 (((tsx (tx [(5, -8)])).cur.reg 5).toInt + (0x7FF : BitVec 12).toInt * 4)).toNat % 4 = 0 ∧
    (BitVec.ofInt 64 (((tsx (tx [(5, 1)])).cur.reg 5).toInt + (0x800 : BitVec 12).toInt * 4)).toNat % 4 ≠ 0 ∧ CanTrap (tsx (tx [])).cur Cause.misalign ∧
    (tsx { tx [] with lc := 1 }).cur.lc ≠ 0 ∧ (tsx (tx [])).cur.lc = 0 ∧ (tsx { tx [] with ec := 2 }).cur.ec = 2 ∧
    (tsx { tx [] with ec := 1 }).cur.ec = 1 :=
  ⟨by decide, by decide, by decide, by unfold CanTrap; decide, by decide, by decide, by decide, by decide⟩

theorem test_DoneEndsTheContext_met :
    (allCtx.all fun k => k == (tsx (tx [])).kid || ((tsx (tx [])).ctx 0 k).done) = false ∧
    (let s := ts { tc (tx []) with x := { tx [] with done := true }, s := { tx [] with done := true } }
     s.cur.guard always = true ∧ (allCtx.all fun k => k == s.kid || (s.ctx s.cid k).done) = true) := by decide

theorem test_FalseGuardOnlyIssues_met : guardOf (.done ⟨7, false⟩) = some ⟨7, false⟩ ∧ (tsx (tx [])).cur.guard ⟨7, false⟩ = false ∧
    guardOf (.add 1 2 3 ⟨0, true⟩) = some ⟨0, true⟩ ∧ (tsx (tx [])).cur.guard ⟨0, true⟩ = false := by decide

/-- A loop counts down and branches; at zero it goes on (R127). -/
theorem test_loop_last : (after (exec (.loop 2 always) (tsx { tx [] with lc := 1 }))).map (fun t => (t.cur.pc, t.cur.lc)) = some (0x48, 0) := by decide

/-- In the epilogue `loopr` counts EC down and shifts a zero into KMASK (R128). -/
theorem test_loopr_drains :
    (after (exec (.loopr 2 always) (tsx { tx [] with ec := 2, kmask := 3 }))).map (fun t => (t.cur.pc, t.cur.ec, t.cur.kmask, t.cur.rrb)) =
      some (0x48, 1, 6, 1023) := by decide
theorem test_loopr_ends : (after (exec (.loopr 2 always) (tsx { tx [] with ec := 1 }))).map (fun t => (t.cur.pc, t.cur.ec)) = some (0x44, 0) := by decide

/-- A call links in x1 (R126). -/
theorem test_call_links : (after (exec (.call (-4) always) (tsx (tx [])))).map (fun t => (t.cur.pc, t.cur.reg 1)) = some (0x30, 0x44) := by decide

/-- An indirect branch reads its register before it links in it. -/
theorem test_jr_same : (after (exec (.jr 5 5 1 always) (tsx (tx [(5, 0x80)])))).map (fun t => (t.cur.pc, t.cur.reg 5)) = some (0x84, 0x44) := by decide

/-! ## Waiting -/

/-- A copy of 16 bytes from 0 to 64, with no element done. -/
def tcopy : Cmd := tcmd trec [top 64 16 true, top 0 16 false] 16

/-- Everything that a context can wait for, at once: a full ring, an unfilled entry of the return queue, an unmet barrier, a marker behind a command. -/
def twait : State :=
  let x := { tx [(5, 0x10000000010), (6, 64)] with rq := [⟨4, none, none⟩], marks := [(.lq, [1])] }
  ts { tc x with rings := [(.a, .x, List.replicate 16 0)], lq := [tcopy], gmap := 0x100000003, arr := [(3, 1)] }

theorem test_WaitingChangesNothing_met :
    twait.cur.guard always = true ∧ endpointCtx 6 = some .x ∧ 16 ≤ (twait.here.ring twait.kid .x).length ∧ twait.here.ring .x twait.kid = [] ∧
    twait.cur.rq = [⟨4, none, none⟩] ∧ (4 ≠ ctxEndpoint twait.kid ∧ twait.here.tok 4 (ctxEndpoint twait.kid) = 0) ∧
    (twait.mach.descCore .seq (twait.cur.reg 5) = some 0 ∧ twait.mach.fwaitOk twait.cid .seq 0 0 (twait.cur.reg 5) = false) ∧
    twait.cur.marks.all twait.here.markAtHead = false ∧ (twait.here.inGroup 3 = true ∧ twait.mach.barrierMet 3 = false) ∧ twait.cur.latch = false ∧
    (∃ r, loadRow (.ldd 3 6 0 always) = some r ∧ r.g = always ∧ r.ea twait.cur % r.size = 0 ∧
      (∃ st, oneStorage (r.ea twait.cur) (r.ea twait.cur + r.size) = some st ∧ st ≠ .istore) ∧
      twait.here.scalarOk (r.ea twait.cur) (r.ea twait.cur + r.size) false = false) ∧
    (∃ r, storeRow (.stb 3 0 15 always) = some r ∧ r.g = always ∧ r.ea twait.cur = 15 ∧
      (∃ st, oneStorage (r.ea twait.cur) (r.ea twait.cur + r.size) = some st ∧ st ≠ .istore) ∧
      twait.here.scalarOk (r.ea twait.cur) (r.ea twait.cur + r.size) true = false) :=
  ⟨by decide, by decide, by decide, by decide, by decide, by decide, by decide +kernel, by decide, by decide, by decide,
   ⟨_, rfl, rfl, by decide, ⟨_, rfl, by decide⟩, by decide +kernel⟩, ⟨_, rfl, rfl, by decide, ⟨_, rfl, by decide⟩, by decide +kernel⟩⟩

/-! ## Rings, tokens, formats -/

/-- A ring with fifteen entries, one with one, and an empty return queue; fourteen and fifteen tokens. -/
def tring : State :=
  ts { tc (tx [(5, 0)]) with rings := [(.a, .x, List.replicate 15 0), (.s, .a, [7])], tokens := [(5, 0, 14), (5, 1, 15), (4, 5, 1)] }

theorem test_RingsAndReturnQueue_met :
    tring.cur.guard always = true ∧ (endpointCtx 6 = some .x ∧ (tring.here.ring tring.kid .x).length < 16) ∧
    (endpointCtx 7 = some .s ∧ tring.here.ring .s tring.kid = [7]) ∧ tzero.cur.rq = [⟨4, some 9, none⟩] ∧ tring.cur.rq = [] ∧
    CanTrap tring.cur Cause.illegal := ⟨by decide, by decide, by decide, by decide, by decide, by unfold CanTrap; decide⟩

theorem test_TokensAndFormats_met :
    ((0b1 : BitVec 8).getLsbD (ctxEndpoint tring.kid) = false ∧ ∀ q, q < 8 → (0b1 : BitVec 8).getLsbD q = true → tring.here.tok (ctxEndpoint tring.kid) q < 15) ∧
    ((0b11 : BitVec 8).getLsbD 1 = true ∧ 15 ≤ tring.here.tok (ctxEndpoint tring.kid) 1) ∧ (4 ≠ ctxEndpoint tring.kid ∧ 0 < tring.here.tok 4 (ctxEndpoint tring.kid)) ∧
    ((tring.cur.reg 5).extractLsb' 44 2 = 0 ∧ (fmtBits (Fw.afmt (tring.cur.reg 5))).isSome = true ∧ (fmtBits (Fw.bfmt (tring.cur.reg 5))).isSome = true ∧
      (fmtBits (Fw.ofmt (tring.cur.reg 5))).isSome = true ∧ (tring.cur.reg 5).extractLsb' 47 17 = 0 ∧ tring.here.fmts.length < 16) ∧
    (16 ≤ (ts { tc (tx []) with fmts := List.replicate 16 0 }).here.fmts.length) := by decide

/-- `toksig` of two consumers raises both counts, or neither (R117). -/
theorem test_toksig_all : (after (exec (.toksig 0x05 always) (tsx (tx [])))).map (fun t => (t.here.tok 5 0, t.here.tok 5 1, t.here.tok 5 2)) = some (1, 0, 1) := by decide
theorem test_toksig_none : (after (exec (.toksig 0x03 always) tring)).map (fun t => (t.here.tok 5 0, t.cur.cause, t.cur.tval)) =
    some (14, 1, 0x800000000000000F) := by decide
theorem test_popq_order : (after (exec (.popq 3 6 always) (ts { tc (tx []) with rings := [(.x, .a, [1, 2])] }))).map (fun t => (t.cur.reg 3, t.here.ring .x .a)) =
    some (1, [2]) := by decide

/-! ## Frontiers, markers, barriers, phases -/

/-- A slot that shows 16 elements of sequence number 1; a command that has done none; a descriptor of 16 elements in x5, of none in x6. -/
def tfront : State :=
  let x := tx [(5, 0x10000000010), (6, 0x10000000000)]
  ts { tc x with lq := [tcopy], slots := [(15, ⟨1, 9, false, false, 16, 0, none⟩)], freads := [⟨4, .x, .slot, 0, 15, 1⟩] }

theorem test_Frontiers_met :
    tfront.cur.guard always = true ∧
    (∀ d, tfront.here.cmdSeq ((tfront.cur.reg 6).extractLsb' 40 16) = some d → ((tfront.cur.reg 6).extractLsb' 0 40).toNat ≤ d.shownF) ∧
    (tfront.mach.descCore .slot (tfront.cur.reg 5) = some 0 ∧ (tfront.mach.view tfront.cid 0).slotShows 15 = some ⟨1, 9, false, false, 16, 0, none⟩ ∧
      ((tfront.cur.reg 5).extractLsb' 0 40).toNat ≤ 16) ∧
    tfront.mach.descCore .cslot (tfront.cur.reg 5) = some 0 ∧
    (⟨4, .x, .slot, 0, 15, 1⟩ ∈ (tfront.core 0).freads ∧ ∀ f' ∈ (tfront.core 0).freads, f'.rq = 4 → f' = ⟨4, .x, .slot, 0, 15, 1⟩) ∧
    ((tsx { tx [] with rq := List.replicate 16 ⟨1, none, none⟩ }).cur.rq.length = 16) := by
  refine ⟨by decide, ?_, by decide, by decide, by decide, by decide⟩
  intro d hd
  exact Nat.zero_le _

/-- A marker behind a command that has left, with another behind it. -/
theorem test_Markers_met : (1 : BitVec 5) ≠ 0 ∧
    (let s := ts { tc { tx [] with marks := [(.lq, [3])] } with lq := [tcopy] }
     s.cur.guard always = true ∧ ∀ q us, (q, us) ∈ s.cur.marks → ∀ d ∈ s.here.queue q, d.uid ∉ us) := by
  have h : let s := ts { tc { tx [] with marks := [(.lq, [3])] } with lq := [tcopy] }
      ∀ p ∈ s.cur.marks, ∀ d ∈ s.here.queue p.1, d.uid ∉ p.2 := by decide
  exact ⟨by decide, by decide, fun q us hp => h (q, us) hp⟩

/-- Core 0 is alone in group 3; it has arrived at a `bar`. -/
def tbar : State := ts { tc { tx [] with barAt := some 0x40 } with gmap := 0x100000003 }

/-- Core 1 has arrived at the group of both; core 0 is the last. -/
def tbar2 : State :=
  let s := tsj { tj with groups := [(3, [0, 1])] } { tc (tx []) with gmap := 0x100000003 }
  { s with dev := { s.dev with cores := s.dev.cores ++ [(1, { Core.reset 1 with job := some 1, arr := [(3, 1)] })] } }

theorem test_Barriers_met :
    (tbar.cur.guard always = true ∧ tbar.here.inGroup 3 = true ∧ natAt tbar.here.arr 3 ≤ tbar.mach.gen tbar.cid 3 ∧ MayArrive tbar 3) ∧
    (tbar2.cur.guard always = true ∧ tbar2.here.inGroup 3 = true ∧ MayArrive tbar2 3 ∧ tbar2.cur.barAt ≠ some tbar2.cur.pc ∧
      ∃ j, tbar2.jobOf tbar2.cid = some j ∧ j.members 3 = some [0, 1] ∧ (∀ v ∈ j.saved, v.core.id ≠ tbar2.cid) ∧
        natAt tbar2.here.arr 3 = natAt j.gens 3 ∧ ∀ k ∈ [0, 1], k ≠ tbar2.cid → natAt j.gens 3 + 1 ≤ tbar2.mach.arrivals j k 3) ∧
    (tbar.cur.barAt = some tbar.cur.pc ∧ natAt tbar.here.arr 3 ≤ tbar.mach.gen tbar.cid 3) ∧
    (let s := ts { tc { tx [] with barAt := some 0x40 } with gmap := 0x100000003, arr := [(3, 1)] }
     s.cur.barAt = some s.cur.pc ∧ s.mach.gen s.cid 3 < natAt s.here.arr 3) :=
  ⟨⟨by decide, by decide, by decide, by unfold MayArrive; decide⟩,
   ⟨by decide, by decide, by unfold MayArrive; decide, by decide, _, rfl, by decide, by decide, by decide, by decide⟩, by decide, by decide⟩

/-- `bara` waits for an arrival that is not met, for an access of the core, for one that is visible to its context, and for the replica of its die. -/
theorem test_Barriers_waits_met :
    let k := { tc (tx []) with gmap := 0x100000003 }
    let acc : Acc := ⟨9, .a, .store, 0, 0, 8, .system, false, false, false, false, 0, 0, 0, none, [], 0, true, [], .waiting, 0⟩
    let far := { ts { k with sees := [(.ctx .a, 9)] } with dev := { (ts k).dev with
      cores := [(0, { k with sees := [(.ctx .a, 9)] }), (1, { Core.reset 1 with accs := [acc] })] } }
    ¬MayArrive (ts { k with arr := [(3, 1)] }) 3 ∧ ¬MayArrive (ts { k with accs := [acc] }) 3 ∧ ¬MayArrive far 3 ∧ far.here.inGroup 3 = true ∧
    ¬MayArrive { ts k with dev := { (ts k).dev with updates := [⟨0, 0x20000, [1], 0, 1, 1⟩], applied := [1, 0, 0, 0] } } 3 := by
  refine ⟨?_, ?_, ?_, by decide, ?_⟩ <;> · unfold MayArrive; decide

/-- A phase that has ended or not. -/
def tphase (n : Nat) (ended : Bool) : Phase := ⟨n, ended, false, none, [], 0, none, true, none, []⟩

theorem test_PhaseBegins_met :
    ((ts { tc (tx []) with phases := (List.range 7).map fun n => tphase n true }).here.phases.filter fun p => p.ended).length = 7 ∧
    8 ≤ ((ts { tc (tx []) with phases := (List.range 8).map fun n => tphase n true }).here.phases.filter fun p => p.ended).length := by decide

/-- A lone member's arrival raises the generation at once, and `bar` goes on (R124). -/
theorem test_bar_alone :
    (after (exec (.bar 3 always) (ts { tc (tx []) with gmap := 0x100000003 }))).map (fun t => (t.cur.pc, natAt t.here.arr 3, t.mach.gen 0 3)) = some (0x44, 1, 1) := by decide

/-! ## System accesses -/

/-- The page at 0x10000 in the translation buffer, readable and written to; x5 its first doubleword, x6 misaligned, x7 at 2^57, x8 a page that no table maps. -/
def tsys (rq : List RqEntry) : State :=
  let x := { tx [(5, 0x10FF8), (6, 0x10001), (7, 0x200000000000000), (8, 0x40000)] with rq := rq }
  ts { tc x with tlb := [⟨1, 0x10000, 4096, 0x20000, 0x50000000000063, 0x3000, [], true⟩] }

theorem test_SystemAccessesIssue_met :
    (∃ r m, sysRow (.lds 5 .core .d false always) = some r ∧ (tsys []).cur.guard r.g = true ∧ ((tsys []).cur.reg r.a).toNat % r.size = 0 ∧
      ((tsys []).cur.reg r.a).toNat < 2 ^ 57 ∧ (tsys []).mach.transBusy (tsys []).cid ((tsys []).cur.reg r.a).toNat (r.op != .load) ((tsys []).dev.uid, 0) = false ∧
      (tsys []).mach.translate 0 ((tsys []).cur.reg r.a).toNat (r.op != .load) ((tsys []).dev.uid, 0) = (m, .ok (0x20FF8, 0x50000000000063)) ∧
      (m.dev.memKind 0x20FF8 r.size).isSome = true ∧ (tsys []).cur.rq.length < 16) ∧
    (∃ r m, sysRow (.amocas 5 3 .system true true true always) = some r ∧
      (tsys (List.replicate 15 ⟨1, none, none⟩)).mach.translate 0 0x10FF8 (r.op != .load) (0, 0) = (m, .ok (0x20FF8, 0x50000000000063)) ∧
      (m.dev.memKind 0x20FF8 r.size).isSome = true ∧ (tsys (List.replicate 15 ⟨1, none, none⟩)).cur.rq.length < 16) ∧
    (∃ r, sysRow (.sts 6 1 .core .h false always) = some r ∧ (tsys []).cur.guard r.g = true ∧ ((tsys []).cur.reg r.a).toNat % r.size ≠ 0) ∧
    (∃ r, sysRow (.sts 7 1 .core .d false always) = some r ∧ ((tsys []).cur.reg r.a).toNat % r.size = 0 ∧ 2 ^ 57 ≤ ((tsys []).cur.reg r.a).toNat) ∧
    (∃ r m, sysRow (.sts 8 1 .core .b false always) = some r ∧
      (tsys []).mach.translate 0 ((tsys []).cur.reg r.a).toNat (r.op != .load) ((tsys []).dev.uid, 0) = (m, .error Cause.pageNotPresent)) ∧
    (∃ r m, sysRow (.lds 5 .core .d false always) = some r ∧ r.op ≠ .store ∧
      (tsys (List.replicate 16 ⟨1, none, none⟩)).mach.translate 0 0x10FF8 (r.op != .load) (0, 0) = (m, .ok (0x20FF8, 0x50000000000063)) ∧
      (m.dev.memKind 0x20FF8 r.size).isSome = true ∧ 16 ≤ (tsys (List.replicate 16 ⟨1, none, none⟩)).cur.rq.length) ∧
    CanTrap (tsys []).cur Cause.misalign ∧ CanTrap (tsys []).cur Cause.access ∧ CanTrap (tsys []).cur Cause.pageNotPresent ∧
    CanTrap (tsys (List.replicate 16 ⟨1, none, none⟩)).cur Cause.illegal :=
  ⟨⟨_, _, rfl, by decide, by decide, by decide, by decide, rfl, by decide, by decide⟩, ⟨_, _, rfl, rfl, by decide, by decide⟩,
   ⟨_, rfl, by decide, by decide⟩, ⟨_, rfl, by decide, by decide⟩, ⟨_, _, rfl, rfl⟩, ⟨_, _, rfl, by decide, rfl, by decide, by decide⟩,
   by unfold CanTrap; decide, by unfold CanTrap; decide, by unfold CanTrap; decide, by unfold CanTrap; decide⟩

/-- A translation that reaches no memory; one that the CXL home agent holds up. -/
theorem test_SystemAccessesIssue_memory_met :
    (∃ r m pa leaf, let s := ts { tc (tx [(5, 0x10FF8)]) with tlb := [⟨1, 0x10000, 4096, 0x600000000000, 0x50000000000063, 0x3000, [], true⟩] }
      sysRow (.lds 5 .core .d false always) = some r ∧ s.mach.transBusy s.cid 0x10FF8 (r.op != .load) (s.dev.uid, 0) = false ∧
      s.mach.translate s.cid 0x10FF8 (r.op != .load) (s.dev.uid, 0) = (m, .ok (pa, leaf)) ∧ m.dev.memKind pa r.size = none ∧ CanTrap s.cur Cause.access) ∧
    (∃ r, let a : Acc := ⟨9, .a, .store, 0, 0x100000000000, 8, .system, false, false, false, false, 0, 0, 0, none, [], 0, true, [], .cxl, 0⟩
      let t := ts { tc (tx [(5, 0x10FF8)]) with ptbase := 0x100000000000, accs := [a] }
      let s : State := { t with dev := { t.dev with cxlBytes := 0x100000 } }
      sysRow (.lds 5 .core .d false always) = some r ∧ (s.cur.reg r.a).toNat % r.size = 0 ∧
        s.mach.transBusy s.cid (s.cur.reg r.a).toNat (r.op != .load) (s.dev.uid, 0) = true) :=
  ⟨⟨_, _, _, _, rfl, by decide, rfl, by decide, by unfold CanTrap; decide⟩, ⟨_, rfl, by decide, by decide +kernel⟩⟩

/-- An access in flight. -/
def tacc (uid : Nat) (op : AccOp) (pa n : Nat) (st : AccStage) (rq : Option Nat) : Acc :=
  ⟨uid, .a, op, 0x10000, pa, n, .system, false, false, false, false, 0, 5, 7, rq, [], 0, true, [], st, 0⟩

/-- A machine with that access in flight on core 0, an unfilled entry 4 of the return queue, and an expander of 1 MiB. -/
def taccs (l : List Acc) : State :=
  let s := ts { tc { tx [] with rq := [⟨4, none, none⟩] } with accs := l }
  { s with dev := { s.dev with cxlBytes := 0x100000 } }

/-- A fence behind an access of its context; one of another context that is visible to it; none. -/
theorem test_FenceHoldsLaterAccesses_met :
    (∃ a ∈ (taccs [tacc 1 .load 0 8 .waiting (some 4)]).here.accs, a.ctx = .a) ∧ (∀ a ∈ (tsx (tx [])).here.accs, a.ctx ≠ .a) ∧
    (tsx (tx [])).here.visible (.ctx .a) = [] ∧ (tsx (tx [])).dev.dieSettled 0 = true ∧
    (let k := { tc (tx []) with accs := [{ tacc 1 .store 0 8 .waiting none with ctx := .x }], sees := [(.ctx .a, 1)] }
     k.visible (.ctx .a) = [1] ∧ ∃ a ∈ (ts k).dev.flying, a.uid = 1) := by decide

/-- An access behind a fence that waits, behind an acquire of its context, behind one that shares a byte, and a release behind a load; and one behind another
that holds it in no way. -/
theorem test_FenceHoldsLaterAccesses_behind_met :
    let b := tacc 1 .load 0 8 .waiting none
    let f := tacc 2 .fence 0 0 .waiting none
    let a := tacc 3 .load 8 8 .waiting none
    (Behind (taccs [b, f, a]) 0 [b, f] a ∧ moves a ∧ [b, f] = [b] ++ f :: [] ∧ f.ctx = a.ctx ∧ (∀ x ∈ [b], x.uid ≠ f.uid) ∧ b.ctx = f.ctx ∧ moves b) ∧
    (Behind (taccs [{ b with acq := true }, a]) 0 [{ b with acq := true }] a ∧ moves { b with acq := true }) ∧
    (Behind (taccs [b, { a with pa := 7 }]) 0 [b] { a with pa := 7 } ∧ b.pa < 15 ∧ 7 < b.pa + b.bytes) ∧
    (Behind (taccs [b, { a with rel := true }]) 0 [b] { a with rel := true } ∧ b.ctx = a.ctx) ∧
    (Behind (taccs [b, a]) 0 [b] a ∧ a.ready = true ∧ a.edges = [] ∧ ¬(b.pa < a.pa + a.bytes ∧ a.pa < b.pa + b.bytes) ∧ b.acq = false ∧ a.rel = false) ∧
    (Unsettled (taccs [b]) 0 { a with rel := true, after := [1] } ∧ ¬Unsettled (taccs [b]) 0 a) ∧
    ((taccs [b, { a with pa := 7 }]).here.acc 3 = some { a with pa := 7 } ∧ (taccs [b, { a with pa := 7 }]).dev.accMay 0 { a with pa := 7 } = false) := by
  refine ⟨⟨⟨⟨[], rfl⟩, by decide⟩, by unfold moves; decide, rfl, rfl, by decide, rfl, by unfold moves; decide⟩,
    ⟨⟨⟨[], rfl⟩, by decide⟩, by unfold moves; decide⟩, ⟨⟨⟨[], rfl⟩, by decide⟩, by decide, by decide⟩, ⟨⟨⟨[], rfl⟩, by decide⟩, rfl⟩,
    ⟨⟨⟨[], rfl⟩, by decide⟩, rfl, rfl, by decide, rfl, rfl⟩, ⟨Or.inl ⟨_, List.mem_cons_self .., by decide⟩, ?_⟩, rfl, by decide⟩
  unfold Unsettled
  decide

theorem test_SystemAccessesPerform_loads_met :
    (taccs [tacc 1 .load 0x20FF8 8 .waiting (some 4)]).mach.accReady 0 1 (fun a => a.op == .load) = some (tacc 1 .load 0x20FF8 8 .waiting (some 4)) ∧
    (taccs []).dev.memKind (8 * 48 * 2 ^ 30 - 8) 8 = some .hbm ∧ (taccs []).dev.memKind 0x20FF8 8 = some .hbm ∧ (taccs []).dev.poisonIn 0x20FF8 8 = none ∧
    KeyFits (taccs []) 0x20FF8 8 0 := ⟨by decide, by decide, by decide, by decide, by unfold KeyFits; decide⟩

/-- A load at its die's own replica; a load of a poisoned unit. -/
theorem test_SystemAccessesPerform_replica_met :
    (let a := { tacc 1 .load 0x20000 8 .waiting (some 4) with rep := true }
     let s : State := { taccs [a] with dev := { (taccs [a]).dev with replicas := [⟨0x20000, 4096, [0x20000, 0x30000, 0x40000, 0x50000]⟩] } }
     s.mach.accReady 0 1 (fun a => a.op == .load) = some a ∧ s.dev.replicaPa (dieOf 0) a.pa = 0x20000 ∧ s.dev.replicaPa 3 a.pa = 0x50000 ∧
       s.dev.memKind a.pa a.bytes = some .hbm) ∧
    (let a := { tacc 1 .add 0x20000 4 .waiting (some 4) with et := true }
     let s : State := { taccs [a] with dev := { (taccs [a]).dev with poison := [0x20000] } }
     s.dev.poisonIn 0x20000 4 = some 0x20000 ∧ s.mach.accReady 0 1 (fun a => !(a.op == .load || a.op == .store || a.op == .fence) && !a.rep) = some a ∧
       State.Inv s) := ⟨by decide, by decide, by decide, by unfold State.Inv; decide⟩

theorem test_SystemAccessesPerform_stores_met :
    State.Inv (taccs [tacc 1 .store 0 1 .waiting none]) ∧
    (taccs [tacc 1 .store 0 1 .waiting none]).mach.accReady 0 1 (fun a => a.op == .store && !a.rep) = some (tacc 1 .store 0 1 .waiting none) ∧
    (taccs []).dev.memKind 0 1 = some .hbm ∧ KeyFits (taccs []) 0 1 0 := ⟨by unfold State.Inv; decide, by decide, by decide, by unfold KeyFits; decide⟩

theorem test_SystemAccessesPerform_atomics_met :
    State.Inv (taccs [tacc 1 .cas 0x20000 4 .waiting (some 4)]) ∧
    (taccs [tacc 1 .cas 0x20000 4 .waiting (some 4)]).mach.accReady 0 1 (fun a => !(a.op == .load || a.op == .store || a.op == .fence) && !a.rep) =
      some (tacc 1 .cas 0x20000 4 .waiting (some 4)) ∧ KeyFits (taccs []) 0x20000 4 0 ∧ (taccs []).dev.poisonIn 0x20000 4 = none :=
  ⟨by unfold State.Inv; decide, by decide, by unfold KeyFits; decide, by decide⟩

/-- The first and the last doubleword of the expander. -/
theorem test_CxlAccesses_met :
    (taccs [tacc 1 .load 0x100000000000 8 .waiting (some 4)]).mach.accReady 0 1 (fun a => a.op == .load) =
      some (tacc 1 .load 0x100000000000 8 .waiting (some 4)) ∧
    (taccs [tacc 1 .store 0x1000000FFFF8 8 .waiting none]).mach.accReady 0 1 (fun a => a.op == .store && !a.rep) =
      some (tacc 1 .store 0x1000000FFFF8 8 .waiting none) ∧
    (taccs []).dev.memKind 0x100000000000 8 = some .cxl ∧ (taccs []).dev.memKind 0x1000000FFFF8 8 = some .cxl ∧
    State.Inv (taccs [tacc 1 .store 0x100000000000 8 .cxl none]) ∧
    ((taccs [tacc 1 .store 0x100000000000 8 .cxl none]).core 0).acc 1 = some (tacc 1 .store 0x100000000000 8 .cxl none) ∧
    ((taccs [tacc 1 .load 0x100000000000 8 .cxl (some 4)]).core 0).acc 1 = some (tacc 1 .load 0x100000000000 8 .cxl (some 4)) ∧
    (taccs []).dev.poisonIn 0x100000000000 8 = none ∧ KeyFits (taccs []) 0x100000000000 8 0 ∧ 0x100000000000 < 0x7F0000000000 ∧ 0x100000000000 % 8 = 0 ∧
    (∃ k, (0, k) ∈ (taccs [tacc 1 .load 0x100000000000 8 .waiting none, tacc 2 .store 0x100000000004 4 .cxl none]).dev.cores ∧
      tacc 2 .store 0x100000000004 4 .cxl none ∈ k.accs ∧
      (taccs [tacc 1 .load 0x100000000000 8 .waiting none, tacc 2 .store 0x100000000004 4 .cxl none]).here.acc 1 =
        some (tacc 1 .load 0x100000000000 8 .waiting none)) :=
  ⟨by decide, by decide, by decide, by decide, by unfold State.Inv; decide, by decide, by decide, by decide, by unfold KeyFits; decide, by decide, by decide,
   _, List.mem_cons_self .., by decide, by decide⟩

/-- An access of core 0 to the replicated page at 0x20000, with that page's replicas. -/
def trep (op : AccOp) : State :=
  let s := taccs [{ tacc 1 op 0x20000 8 .waiting (if op = .store then none else some 4) with rep := true }]
  { s with dev := { s.dev with replicas := [⟨0x20000, 4096, [0x20000, 0x30000, 0x40000, 0x50000]⟩] } }

/-- An update that three dies have applied, with the access that it is of, and the write of a node with it. -/
def tupd : State :=
  let s := taccs [{ tacc 1 .swap 0x20000 1 (.sequenced 0) (some 4) with rep := true }]
  { s with dev := { s.dev with updates := [⟨0, 0x20000, [1], 0, 0, 1⟩], nextUpdate := 1, applied := [1, 1, 1, 0], pendingMem := [⟨0, 2, 0x20000, 1, false, some (.put 2 0 0)⟩] } }

theorem test_ReplicatedUpdates_met :
    (∀ op ∈ [AccOp.store, .swap], ∃ a, (trep op).here.acc 1 = some a ∧ a.op = op ∧ a.rep = true ∧ a.stage = .waiting ∧
      (trep op).dev.accMay 0 a = true ∧ (trep op).dev.cxlBusy a.pa a.bytes = false ∧ a.bytes = 8 ∧
      (trep op).dev.poisonIn ((trep op).dev.replicaPa 0 a.pa) a.bytes = none) ∧
    (tupd.mem.wf = true ∧ tupd.dev.applied.length = 4 ∧
      tupd.dev.updates.find? (fun x => x.pos == tupd.dev.applied.getD (3 : BitVec 2).toNat 0) = some ⟨0, 0x20000, [1], 0, 0, 1⟩ ∧
      KeyFits tupd (tupd.dev.replicaPa 3 0x20000) 1 0) := by
  refine ⟨?_, by decide, by decide, by decide, by unfold KeyFits; decide⟩
  intro op ho
  fin_cases ho <;> exact ⟨_, rfl, by decide, by decide, by decide, by decide, by decide, by decide, by decide⟩

/-- The last die applies: the swap's access is done with, and its old value fills the entry (R365). -/
theorem test_ReplicatedUpdates_last :
    (after (exec (.replicaApply 3) tupd)).map (fun t => ((t.here.accs, t.cur.rq), (t.dev.updates, t.dev.pendingMem), (t.dev.outbox.contains (.put 2 0 0), t.dev.applied))) =
      some (([], [⟨4, some 5, none⟩]), ([], []), (true, [1, 1, 1, 1])) := by decide +kernel

/-- It is acknowledged by no earlier die. -/
theorem test_ReplicatedUpdates_Acknowledged : ∀ t, after (exec (.replicaApply 3) tupd) = some t → ∃ a, Acknowledged tupd 0 1 t a := by
  intro t ht
  obtain rfl : _ = t := Option.some.inj ht
  refine ⟨{ tacc 1 .swap 0x20000 1 (.sequenced 0) (some 4) with rep := true }, ⟨_, List.mem_cons_self .., by decide⟩, rfl, 0, rfl, by decide +kernel⟩

/-- An unsigned minimum of words: the old value returns with its sign, and the smaller one stays (R115). -/
theorem test_amominu :
    (after (exec (.atomicPerform 0 1) { taccs [tacc 1 .minu 0x20000 4 .waiting (some 4)] with mem := [(0x20003, 0x80)] })).map
      (fun t => (t.mem, t.cur.rq.map (·.val))) = some ([(0x20000, 5)], [some 0xFFFFFFFF80000000]) := by decide

/-- A compare-and-swap that finds another value leaves memory as it is (R115). -/
theorem test_amocas_differs :
    (after (exec (.atomicPerform 0 1) { taccs [tacc 1 .cas 0x20000 8 .waiting (some 4)] with mem := [(0x20000, 6)] })).map
      (fun t => (t.mem, t.cur.rq.map (·.val))) = some ([(0x20000, 6)], [some 6]) := by decide

/-- A store to a page that is read only takes PAGE_PERMISSION (R33, R156). -/
theorem test_sts_permission :
    (after (exec (.sts 5 1 .core .d false always)
      (ts { tc (tx [(5, 0x10000)]) with tlb := [⟨1, 0x10000, 4096, 0x20000, 0x50000000000021, 0x3000, [], true⟩] }))).map (fun t => (t.cur.cause, t.cur.tval)) =
      some (7, 0x10000) := by decide

/-! ## Control registers, services, handlers -/

theorem test_ControlRegisters_met :
    listed 0 = true ∧ listed 0x0A4 = true ∧ HasRoom (tsx { tx [] with pwb := pends 7 }).cur 1 2 ∧ 0x035 ∈ jobWrites ∧
    ((tsx (tx [])).mach.csrRead 0 .a 0x035).isSome = true ∧ (0x034 ∈ jobWrites ∧ ((tsx (tx [])).mach.csrRead 0 .a 0x034).isSome = true) ∧
    (tsx (tx [])).cur.sup = false ∧
    (listed 0x006 = false ∧ listed 0xFFF = false) ∧ (listed 0x000 = true ∧ 0x000 ∉ jobWrites) ∧ CanTrap (tsx (tx [])).cur Cause.illegal ∧
    CanTrap (tsx (tx [])).cur Cause.privilege :=
  ⟨by decide, by decide, by unfold HasRoom; decide, by decide, by decide, by decide, by decide, by decide, by decide, by unfold CanTrap; decide,
   by unfold CanTrap; decide⟩

/-- A write keeps TVEC's low bits zero and returns the old value two issues later (R135). -/
theorem test_csrw_tvec : (after (exec (.csrw 3 5 0x004) (tsx (tx [(5, 0x207)])))).map (fun t => (t.cur.tvec, t.cur.pwb)) = some (0x204, [⟨3, 1, 0x100⟩]) := by
  decide

/-- The supervisor's registers are not a job's. -/
theorem test_csrr_privilege : (after (exec (.csrr 3 0x100) (tsx (tx [])))).map (fun t => (t.cur.cause, t.cur.tval, t.cur.pc)) = some (3, 0x100, 0x100) := by decide

theorem test_Services_met :
    (tsx (tx [])).jobOf 0 = some tj ∧ tj.log.length < 65536 ∧
    65536 ≤ ({ tj with log := List.replicate 65536 ⟨0, 0, 0, 0, 0, 0⟩ } : Job).log.length ∧ tj.ending = none := by
  exact ⟨by decide, by decide, ge_of_eq List.length_replicate, by decide⟩

/-- A job whose pool has one page, for the address 0x4000; the tables of its upper levels, with a leaf for that address or without. -/
def tpool (va : Word) (leaf : Bool) (j : Job) : State :=
  let m := [(0x1000, 1), (0x1001, 0x20), (0x2000, 1), (0x2001, 0x30), (0x3000, 1), (0x3001, 0x40), (0x4000, 1), (0x4001, 0x50)]
  { tsj j { tc (tx [(10, va)]) with ptbase := 0x1000 } with mem := if leaf then m ++ [(0x5020, 3)] else m }

def tpoolJob : Job :=
  { tj with launch := List.replicate 56 0 ++ [0, 0x40, 0, 0, 0, 0, 0, 0, 1, 0, 0, 0] ++ List.replicate 60 0, pool := [0x9000], key := some 0 }

theorem test_PoolServices_met :
    (tpool 0x3FFF false tpoolJob).jobOf 0 = some tpoolJob ∧ tpoolJob.elastic 0x3FFF = false ∧ tpoolJob.elastic 0x5000 = false ∧
    (tpoolJob.elastic 0x4FFF = true ∧ (tpool 0x4FFF true tpoolJob).mach.present 0x4FFF = true) ∧
    (tpool 0x4000 false { tpoolJob with pool := [] }).mach.present 0x4000 = false ∧ (tpoolJob.mapped.find? fun p => p.1 == 0x4000) = none ∧
    (({ tpoolJob with mapped := [(0x4000, 0x9000)] } : Job).mapped.find? fun p => p.1 == 0x4000) = some (0x4000, 0x9000) := by decide +kernel

theorem test_PoolServices_maps :
    ((tpool 0x4000 false tpoolJob).mach.reclaim tpoolJob).jobOf 0 = some { tpoolJob with pool := 0x9000 :: [] } ∧
    ((((tpool 0x4000 false tpoolJob).mach.reclaim tpoolJob).zeroPage 0x9000 0).mapFrom 0x4000 (BitVec.ofNat 64 0x9003) 5 0x1000).isSome = true := by
  decide +kernel

/-- A call for which the home agent holds nothing, and calls for which it holds an entry of the tables. -/
theorem test_PoolServices_busy_met :
    let a : Acc := ⟨9, .a, .store, 0, 0x100000000000, 4096, .system, false, false, false, false, 0, 0, 0, none, [], 0, true, [], .cxl, 0⟩
    let j : Job := { tpoolJob with mapped := [(0x4000, 0x9000)] }
    let t := tsj j { tc (tx [(10, 0x4000)]) with ptbase := 0x100000000000, accs := [a] }
    let s : State := { t with dev := { t.dev with cxlBytes := 0x100000 } }
    (tpool 0x4000 false tpoolJob).mach.poolBusy tpoolJob 0x4000 = false ∧ (tpool 0x4000 true j).mach.walkBusy 0x4000 5 0x1000 = false ∧
    (s.jobOf s.cid = some j ∧ j.elastic 0x4000 = true ∧ s.mach.poolBusy j 0x4000 = true ∧ s.mach.walkBusy (s.cur.reg 10).toNat 5 s.here.ptbase.toNat = true) := by
  decide +kernel

/-- A context with a return to make, an event, an engine fault pending and the supervisor's rights. -/
def thand : State :=
  ts { tc { tx [(5, 0x1000000000000)] with efq := [⟨.lq, 1, 0, 6, 0x10000⟩], latch := true } with s := { tx [] with inh := true, sup := true, tvec := 0 } }

theorem test_HandlersAndEvents_met : (thand.ctx 0 .s).inh = true ∧ thand.cur.latch = true ∧ CanTrap thand.cur Cause.illegal ∧ CanTrap thand.cur Cause.brk :=
  ⟨by decide, by decide, by unfold CanTrap; decide, by unfold CanTrap; decide⟩

theorem test_IllegalWordsTrap_met : CanTrap thand.cur (0x01 : BitVec 8).toNat ∧ thand.jobOf 0 = some tj ∧ tj.ending = none ∧ thand.cur.wait = none ∧
    (thand.ctx 0 .s).inh = true ∧ (thand.ctx 0 .s).tvec = 0 ∧ toSupervisor (0x18 : BitVec 8).toNat = true :=
  ⟨by unfold CanTrap; decide, by decide, by decide, by decide, by decide, by decide, by decide⟩

theorem test_EngineFaultsAreTaken_met : (thand.ctx 0 .a).efq = [⟨.lq, 1, 0, 6, 0x10000⟩] ∧ (thand.ctx 0 .a).inh = false ∧ (thand.ctx 0 .a).held = none ∧
    (thand.ctx 0 .a).tvec ≠ 0 ∧ (thand.ctx 0 .a).wait = none ∧ (31 : Nat) < 32 ∧ (2 ^ 40 - 1 : Nat) < 2 ^ 40 := by decide

/-- A faulted copy of sequence number 1, and the operands that name it, no command, and no queue. -/
def tfaulted : State :=
  ts { tc (tx [(5, 0x1000000000000), (6, 0x2000000000000), (7, 5)]) with lq := [{ tcopy with fault := some ⟨.lq, 1, 0, 6, 0x10000⟩ }] }

theorem test_ResumeAndSquash_met :
    (((tfaulted.cur.reg 5).extractLsb' 0 3).toNat = queueNum .lq ∧
      (tfaulted.here.queue .lq).find? (fun e => e.fault.isSome && e.seq == (tfaulted.cur.reg 5).extractLsb' 48 16) =
        some { tcopy with fault := some ⟨.lq, 1, 0, 6, 0x10000⟩ } ∧
      ∀ e ∈ tfaulted.here.cmds, e.uid = 1 → e = { tcopy with fault := some ⟨.lq, 1, 0, 6, 0x10000⟩ }) ∧
    (((tfaulted.cur.reg 6).extractLsb' 0 3).toNat = queueNum .lq ∧
      ∀ e ∈ tfaulted.here.queue .lq, e.fault.isSome = true → e.seq ≠ (tfaulted.cur.reg 6).extractLsb' 48 16) ∧
    4 < ((tfaulted.cur.reg 7).extractLsb' 0 3).toNat ∧ CanTrap tfaulted.cur Cause.illegal :=
  ⟨by decide +kernel, by decide, by decide, by unfold CanTrap; decide⟩

/-- A slot that shows the faulted command; an entry of the translation buffer that the supervisor selects and that is in use. -/
theorem test_ResumeAndSquash_slot_met :
    ((({ tfaulted.here with slots := [(15, ⟨1, 1, false, false, 0, 0, none⟩)] } : Core).slots.any fun p => p.2.uid == 1) = true) ∧
    ({ tcopy with fault := some ⟨.lq, 1, 0, 6, 0x10000⟩ } : Cmd) ∈ tfaulted.here.queue .lq := ⟨by decide, List.mem_cons_self ..⟩

theorem test_TranslationInvalidate_waits_met :
    let s := ts { tc { tx [(5, 0x10FF8)] with sup := true } with tlb := [⟨1, 0x10000, 4096, 0x20000, 0x50000000000063, 0x3000, [(3, 0)], true⟩] }
    s.cur.sup = true ∧ ∀ sel : BitVec 2, sel ≠ 3 → ∃ e ∈ s.here.tlb, e.selected sel.toNat s.here.asid (s.cur.reg 5) = true ∧ e.users ≠ [] := by decide

theorem test_TranslationInvalidate_met :
    (tsys []).cur.sup = false ∧ CanTrap (tsys []).cur Cause.privilege ∧ (thand.ctx 0 .s).sup = true ∧
    (∀ e ∈ (tsys []).here.tlb, e.selected 2 (tsys []).here.asid 0 = true → e.users = []) ∧ (2 : BitVec 2) ≠ 3 :=
  ⟨by decide, by unfold CanTrap; decide, by decide, by decide, by decide⟩

/-- A break saves the address behind it (R139), and `eret` goes there. -/
theorem test_brk_epc : (after (exec .brk (tsx (tx [])))).map (fun t => (t.cur.epc, t.cur.cause, t.cur.pc, t.cur.inh)) = some (0x44, 0x17, 0x100, true) := by decide

/-- `eret` restores the pending writes that the trap saved (R29). -/
theorem test_eret_pwb :
    (after (exec .eret (tsx { tx [] with inh := true, epc := 0x80, savedPwb := [⟨3, 2, 9⟩], pwb := [⟨4, 8, 1⟩] }))).map
      (fun t => (t.cur.pc, t.cur.inh, t.cur.pwb, t.cur.reg 4)) = some (0x80, false, [⟨3, 2, 9⟩], 1) := by decide

/-! ## From template to queue -/

/-- `fill` of the 64 bytes from 0 of the scratchpad with 0xAB (R93, R163). -/
def rfill : Record := { trec with opc := 0x16, t0 := 64, t1 := 1, t2 := 1, t3 := 1, ds0 := 1, dbase := 0x1000000000000000, aux := 0xAB00000003 }

/-- The bytes of a list from an address up that are not zero. -/
def cells (a : Nat) (bs : List Byte) : Mem := ((bs.mapIdx fun i b => (a + i, b)) : Mem).filter fun c => c.2 != 0

/-- A template at the end of the image, named by x5; x6 is not aligned; x7 is past the image. -/
def tenq : State := { tsx (tx [(5, 0xFC0), (6, 0x20), (7, 0x1000)]) with mem := cells (window 0 + 0x300FC0) (leBytes 64 (encodeRecord rfill).toNat) }

/-- The same with format words outstanding, in a FIXED job or not, and a template of one's own. -/
def tenqr (fx : Bool) (fmts : List Word) (r : Record) : State :=
  { ts { tc (tx [(5, 0xFC0)]) with fmts := fmts, fixed := fx } with mem := cells (window 0 + 0x300FC0) (leBytes 64 (encodeRecord r).toNat) }

/-- The format word that an opcode takes. -/
def tword (fmts : List Word) (r : Record) : Option Word := if popsFormat r.opc.toNat then fmts.head? else none

def tplan (fx : Bool) (fmts : List Word) (r : Record) (q : Queue) (gang : Bool) : Built :=
  (tenqr fx fmts r).mach.plan ⟨0, 0, q, r, r, tword fmts r, gang, (tenqr fx fmts r).mach.instrWord⟩

theorem test_EnqPlan (fx : Bool) (fmts : List Word) (r : Record) (q : Queue) (gang : Bool)
    (h : r = decodeRecord (BitVec.ofNat 512 ((tenqr fx fmts r).num (window 0 + 0x300000 + 0xFC0) 64)) ∧ r = completeRecord r 0 0) :
    EnqPlan (tenqr fx fmts r) q 5 0 0 gang r (tplan fx fmts r q gang) (tword fmts r) := by
  have e : (tenqr fx fmts r).cur.reg 5 = 0xFC0 := rfl
  refine ⟨?_, ?_, rfl, r, ?_, h.2, rfl⟩
  · rw [e]; decide
  · rw [e]; exact Nat.le_of_ble_eq_true rfl
  · rw [e]; exact h.1

/-- A `drain` of four words, which takes a format word. -/
def rdrain : Record := { trec with opc := 0x23, t0 := 4, t1 := 1, t2 := 1, t3 := 1, ds0 := 1, ss0 := 1, dbase := 0x1000000000000000, sbase := 0x1000000000100000 }

/-- A template of no element: its trip count fails first, its empty interval later. -/
def rnone : Record := { rfill with t0 := 0 }

theorem test_Enqueue_met :
    (∀ p ∈ [(Queue.lq, rfill, []), (.mq, rdrain, [0])],
      EnqPlan (tenqr false p.2.2 p.2.1) p.1 5 0 0 false p.2.1 (tplan false p.2.2 p.2.1 p.1 false) (tword p.2.2 p.2.1) ∧
      (tplan false p.2.2 p.2.1 p.1 false).leads = [] ∧ (popsFormat p.2.1.opc.toNat = true → p.2.2 ≠ []) ∧
      (∀ c ∈ (tplan false p.2.2 p.2.1 p.1 false).conds, c.2 = .ok ()) ∧ aliasBroken (tplan false p.2.2 p.2.1 p.1 false).ops = false ∧
      (tenqr false p.2.2 p.2.1).cur.wait = none ∧ (tenqr false p.2.2 p.2.1).mach.noEntry p.1 = false) ∧
    (ts { tc (tx []) with lq := List.replicate 32 tcopy }).mach.noEntry .lq = true := by
  refine ⟨?_, by decide +kernel⟩
  intro p hp
  fin_cases hp <;> exact ⟨test_EnqPlan _ _ _ _ _ (by decide +kernel), by decide +kernel, by decide +kernel, by decide +kernel, by decide +kernel, by decide +kernel, by decide +kernel⟩

theorem test_Enqueue_pages (m : Mach) (c u : Nat) : m.leadPages c u [] = (m, none) := rfl

/-- A failing check is the first by its step, then by its cause. -/
theorem test_Enqueue_first (l : List StagedCheck) (st : Stage) (cause : Nat)
    (h : (l.all fun p => match p.2 with
      | .ok _ => true
      | .error e => decide ((p.1 = .fields → st = .fields) ∧ (p.1 = .resolve → st = .fields ∨ st = .resolve) ∧
          ((p.1 = st ∨ (st ∈ [Stage.spaces, .storage] ∧ p.1 ∈ [Stage.spaces, .storage])) → cause ≤ e.1))) = true) :
    ∀ p ∈ l, ∀ e, p.2 = .error e → (p.1 = .fields → st = .fields) ∧ (p.1 = .resolve → st = .fields ∨ st = .resolve) ∧
      ((p.1 = st ∨ (st ∈ [Stage.spaces, .storage] ∧ p.1 ∈ [Stage.spaces, .storage])) → cause ≤ e.1) := by
  intro p hp e he
  have := List.all_eq_true.mp h p hp
  rw [he] at this
  exact of_decide_eq_true this

theorem test_Enqueue_traps_met :
    EnqPlan (tenqr false [] rnone) .lq 5 0 0 false rnone (tplan false [] rnone .lq false) none ∧
    (Stage.fields, Except.error (0x01, (tenqr false [] rnone).mach.instrWord)) ∈ (tplan false [] rnone .lq false).conds ∧
    CanTrap (tenqr false [] rnone).cur 0x01 ∧
    (∀ p ∈ (tplan false [] rnone .lq false).conds, ∀ e, p.2 = .error e → (p.1 = .fields → Stage.fields = .fields) ∧
      (p.1 = .resolve → Stage.fields = .fields ∨ Stage.fields = .resolve) ∧
      ((p.1 = .fields ∨ (Stage.fields ∈ [Stage.spaces, .storage] ∧ p.1 ∈ [Stage.spaces, .storage])) → 0x01 ≤ e.1)) ∧
    (EnqPlan (tenqr false [] rdrain) .mq 5 0 0 false rdrain (tplan false [] rdrain .mq false) none ∧ popsFormat rdrain.opc.toNat = true ∧
      (tplan false [] rdrain .mq false).leads = [] ∧ (∀ c ∈ (tplan false [] rdrain .mq false).conds, c.2 = .ok ()) ∧
      CanTrap (tenqr false [] rdrain).cur Cause.fqUnderflow) :=
  ⟨test_EnqPlan _ _ _ _ _ (by decide +kernel), by decide +kernel, by unfold CanTrap; decide, test_Enqueue_first _ _ _ (by decide +kernel),
   test_EnqPlan _ _ _ _ _ (by decide +kernel), by decide, by decide +kernel, by decide +kernel, by unfold CanTrap; decide⟩

/-- A `fill` of virtual addresses that no table maps, and a `copy` that overlaps its source without being in place. -/
def rvirt : Record := { rfill with dbase := 0x10000 }
def rover : Record := { trec with opc := 0x10, t0 := 64, t1 := 1, t2 := 1, t3 := 1, ds0 := 1, ss0 := 1, dbase := 0x1000000000000008, sbase := 0x1000000000000000 }

/-- A lead page that does not translate, one that the CXL home agent holds up, and `REGION_ALIAS`. -/
theorem test_Enqueue_late_met :
    (EnqPlan (tenqr false [] rvirt) .lq 5 0 0 false rvirt (tplan false [] rvirt .lq false) none ∧
      (∀ c ∈ (tplan false [] rvirt .lq false).conds, c.2 = .ok ()) ∧ (tplan false [] rvirt .lq false).leads = [(0, 0x10000, true)] ∧
      LeadsFree (tenqr false [] rvirt) (tplan false [] rvirt .lq false) ∧
      (match ((tenqr false [] rvirt).mach.translate 0 0x10000 true (0, 0)).2 with | .error e => e | .ok _ => 0) = 6 ∧ CanTrap (tenqr false [] rvirt).cur 6) ∧
    (EnqPlan (tenqr false [] rover) .lq 5 0 0 false rover (tplan false [] rover .lq false) none ∧
      (∀ c ∈ (tplan false [] rover .lq false).conds, c.2 = .ok ()) ∧ (tplan false [] rover .lq false).leads = [] ∧
      aliasBroken (tplan false [] rover .lq false).ops = true ∧ CanTrap (tenqr false [] rover).cur Cause.regionAlias) := by
  refine ⟨⟨test_EnqPlan _ _ _ _ _ (by decide +kernel), by decide +kernel, by decide +kernel, ?_, by decide +kernel, by unfold CanTrap; decide⟩,
    test_EnqPlan _ _ _ _ _ (by decide +kernel), by decide +kernel, by decide +kernel, by decide +kernel, by unfold CanTrap; decide⟩
  unfold LeadsFree
  decide +kernel

theorem test_Enqueue_held_met :
    let a : Acc := ⟨9, .a, .store, 0, 0x100000000000, 8, .system, false, false, false, false, 0, 0, 0, none, [], 0, true, [], .cxl, 0⟩
    let t := ts { tc (tx []) with ptbase := 0x100000000000, accs := [a] }
    let s : State := { t with dev := { t.dev with cxlBytes := 0x100000 } }
    ¬LeadsFree s (tplan false [] rvirt .lq false) ∧ s.cur.wait = none := by
  refine ⟨?_, by decide⟩
  unfold LeadsFree
  decide +kernel

/-- A command that has waited behind 31 others, and the templates that trap. -/
theorem test_Enqueue_other_met :
    (tenq.cur.reg 6).toNat % 64 ≠ 0 ∧ ((tenq.cur.reg 7).toNat % 64 = 0 ∧ tenq.here.imgLen < (tenq.cur.reg 7).toNat + 64) ∧
    CanTrap tenq.cur Cause.misalign ∧ CanTrap tenq.cur Cause.access ∧
    (let s := ts { tc { tx [] with wait := some (.enq tcopy) } with lq := List.replicate 31 tcopy }
     s.cur.wait = some (.enq tcopy) ∧ s.mach.noEntry tcopy.q = false) :=
  ⟨by decide, by decide, by unfold CanTrap; decide, by unfold CanTrap; decide, by decide +kernel⟩

/-- Nullified and skipped: a false guard in a FIXED job and in another (R84, R133). -/
theorem test_FalseGuardOfCommands_met :
    (regionGuard (.vcopy 0 1 (.pred ⟨1, false⟩)) = some (.pred ⟨1, false⟩) ∧ (tsx (tx [])).cur.lguard (.pred ⟨1, false⟩) = false) ∧
    (vqGuard (.sinit 3 5 (.pred ⟨1, false⟩)) = some (.pred ⟨1, false⟩) ∧ (tsx (tx [])).here.fixed = false) ∧
    ((tsx (tx [])).cur.guard ⟨1, false⟩ = false) ∧
    (∀ p ∈ [(Queue.lq, rfill, []), (.mq, rdrain, [0])], (tenqr true p.2.2 p.2.1).cur.guard ⟨1, false⟩ = false ∧ (tenqr true p.2.2 p.2.1).here.fixed = true ∧
      (tenqr true p.2.2 p.2.1).cur.wait = none ∧
      EnqPlan (tenqr true p.2.2 p.2.1) p.1 5 0 0 false p.2.1 (tplan true p.2.2 p.2.1 p.1 false) (tword p.2.2 p.2.1) ∧
      (popsFormat p.2.1.opc.toNat = true → p.2.2 ≠ []) ∧ (∀ c ∈ (tplan true p.2.2 p.2.1 p.1 false).conds, c.2 = .ok ()) ∧
      (tenqr true p.2.2 p.2.1).mach.noEntry p.1 = false) := by
  refine ⟨by decide, by decide, by decide, ?_⟩
  intro p hp
  fin_cases hp <;> exact ⟨by decide, by decide, by decide, test_EnqPlan _ _ _ _ _ (by decide +kernel), by decide +kernel, by decide +kernel, by decide +kernel⟩

/-- The enqueued command has the next sequence number, and its template is not completed with `NULL` (R131). -/
theorem test_enq_enters :
    (after (exec (.enq .lq 5 0 0 always) tenq)).map (fun t => (t.here.lq.map (fun d => (d.seq, d.total, d.work)), t.here.nextSeq, t.cur.pc)) =
      some ([(0, 64, .record rfill)], 1, 0x44) := by decide +kernel

/-- A gang's `tzero` of 16 words of the TRF, for the group of core 0 alone. -/
def rgang : Record := { trec with opc := 0x24, t0 := 16, t1 := 1, t2 := 1, t3 := 1, ds0 := 1, dbase := 0x1000000000100000, aux := 0x0300000000000000 }
def tgangCmd : Cmd := { tcmd rgang [] 16 with q := .mq }

/-- It waits with every reservation, or with none. -/
def tgang (got : List Nat) : State := ts { tc { tx [] with wait := some (.gang tgangCmd 3 [0] got 0) } with gangwait := 0, reserved := got.length }

/-- A command of a waiting gang whose part has retired but for its leaving. -/
def tgangPart : Cmd := { tgangCmd with n := 16, gang := some ⟨7, some 1, 0, [0], 0b101⟩ }

theorem test_Gangs_met :
    ((tgang [0]).cur.guard always = true ∧ (tgang [0]).cur.wait = some (.gang tgangCmd 3 [0] [0] 0) ∧ tgangCmd.work = .record rgang ∧ [0].Nodup ∧
      (∀ k ∈ [0], k ∈ [0] ∧ (tgang [0]).mach.gangLive (tgang [0]).here.job k = true) ∧
      ((tgang [0]).mach.gangPart tgangCmd .a 0 (tgang [0]).mach.instrWord).toOption.isSome = true) ∧
    (EnqPlan (tenqr false [] rgang) .mq 5 0 0 true rgang (tplan false [] rgang .mq true) none ∧ (tplan false [] rgang .mq true).leads = [] ∧
      popsFormat rgang.opc.toNat = false ∧ (∀ c ∈ (tplan false [] rgang .mq true).conds, c.2 = .ok ()) ∧ aliasBroken (tplan false [] rgang .mq true).ops = false ∧
      (tenqr false [] rgang).jobOf 0 = some tj ∧ tj.members (rgang.aux.extractLsb' 56 8).toNat = some [0]) ∧
    ((tgang []).mach.gangFree (some 1) 0 = true ∧ 0 ∉ ([] : List Nat) ∧ FirstAt (tgang []).mach 0 0 (ctxNum .a) 0) ∧
    (((tgang []).core 0).gangwait.toNat ≤ (tgang []).dev.now - 0 ∧ (∃ g ∈ [0], g ∉ ([] : List Nat)) ∧ ((tgang []).ctx 0 .a).inh = false ∧
      ((tgang []).ctx 0 .a).tvec ≠ 0) ∧
    (let s := ts { tc (tx []) with mq := [{ tgangCmd with refetchWait := some ([5], 0) }] }
     s.cmd 0 1 = some { tgangCmd with refetchWait := some ([5], 0) } ∧ s.cmd 0 5 = none) ∧
    (let s := ts { tc (tx []) with mq := [tgangPart] }
     s.cmd 0 1 = some tgangPart ∧ s.mach.mayRetire 0 tgangPart = true ∧ [0].Nodup ∧ (member (some 1) 0 s).heldTokens = [] ∧
       ∀ q, q < 8 → (member (some 1) 0 s).tok 2 q < 15) :=
  ⟨by decide +kernel, ⟨test_EnqPlan _ _ _ _ _ (by decide +kernel), by decide +kernel, by decide, by decide +kernel, by decide +kernel, by decide, by decide +kernel⟩,
   ⟨by decide, by decide, by unfold FirstAt; decide⟩, by decide, by decide +kernel, ⟨by decide +kernel, by decide +kernel, by decide, by decide +kernel, by decide +kernel⟩⟩

/-! ## Region registers and vector instructions -/

/-- A region register of unit stride. -/
def tregion (base count fmt : Nat) : BitVec 128 := BitVec.ofNat 128 (base + count * 2 ^ 27 + 2 ^ 43 + fmt * 2 ^ 67)

/-- v0 to v2: four bytes at 0, 64 and the end of the scratchpad; v3 and v4: room for summaries. -/
def tvec (i : List (Nat × Word)) : State :=
  let reg (n : Nat) (v : BitVec 128) : Mem := cells (window 0 + 0x200000 + 16 * n) (leBytes 16 v.toNat)
  let m := reg 0 (tregion 0 4 3) ++ reg 1 (tregion 64 4 3) ++ reg 2 (tregion 0xBFFFC 4 3) ++ reg 3 (tregion 0x1000 65535 3) ++ reg 4 (tregion 0x20000 65535 3)
  { tsx { tx i with plen := 4 } with mem := m }

theorem test_RegionRegisters_met :
    State.Inv (tvec []) ∧ (tvec []).cur.lguard (.pred always) = true ∧ (tvec []).region 0 2 = tregion 0xBFFFC 4 3 ∧
    window 0 + 0x200000 + 16 * 2 ∉ (tvec []).dev.poison ∧ (tregion 0xBFFFC 4 3).extractLsb' 72 56 = 0 ∧ (tregion 0xBFFFC 4 3).getLsbD 26 = false ∧
    (fieldFits .base 0xFFFFF = true ∧ fieldFits .base 0x100000 = false) ∧ (fieldFits .peer 63 = true ∧ fieldFits .peer 64 = false) ∧
    (fieldFits .count 65535 = true ∧ fieldFits .count 65536 = false) ∧
    (fieldFits .stride (-8388608) = true ∧ fieldFits .stride 8388607 = true ∧ fieldFits .stride 8388608 = false) ∧
    (fieldFits .fmt 0x11 = true ∧ fieldFits .fmt 0x12 = false ∧ fieldFits .fmt 32 = false) ∧
    ((0xBFFFC : Int) + (0x40003 : Word).toInt = 2 ^ 20 - 1 ∧ (0xBFFFC : Int) + (0x40004 : Word).toInt = 2 ^ 20 ∧ (0xBFFFC : Int) + (-0xBFFFD : Word).toInt = -1) ∧
    CanTrap (tvec []).cur Cause.illegal :=
  ⟨by unfold State.Inv; decide +kernel, by decide, by decide +kernel, by decide, by decide, by decide, by decide, by decide, by decide, by decide, by decide,
   by decide, by unfold CanTrap; decide⟩

/-- A predicate is set while a part of the count is left (R289). -/
theorem test_vpred_part :
    (after (exec (.vpred 1 5 0 (.pred always)) (tvec [(5, 3)]))).map (fun t => (t.cur.plen, t.cur.pred 1, t.cur.pc)) = some (3, true, 0x48) := by decide +kernel
theorem test_vpred_whole : (after (exec (.vpred 1 5 0 (.pred always)) (tvec [(5, 4)]))).map (fun t => (t.cur.plen, t.cur.pred 1)) = some (4, false) := by
  decide +kernel

/-- The head of a predicated instruction without a guard. -/
def thead : VHead := ⟨true, .pred always⟩

/-- Elementwise, absorbing, merging, querying, starting, loading a line and storing one. -/
theorem test_Resolves_elementwise :
    ∃ b, Resolves true (tvec []).mach (.vadd 0 1 (.reg 2) thead) b 0 ∧ (∀ c ∈ b.conds, c = .ok ()) ∧ aliasBroken b.ops = false := by
  refine ⟨_, Or.inl ⟨.binary 0 1 (.reg 2) thead, some (tregion 0 4 3), some (tregion 64 4 3), some (tregion 0xBFFFC 4 3), rfl, ?_, ?_, ?_, ?_, rfl, rfl⟩, ?_, ?_⟩ <;>
    decide +kernel

theorem test_Resolves_absorbs :
    ∃ b, Resolves true (tvec []).mach (.vskd 3 1 thead) b 0 ∧ (∀ c ∈ b.conds, c = .ok ()) ∧ aliasBroken b.ops = false := by
  refine ⟨_, Or.inr (Or.inl ⟨3, 1, thead, tregion 0x1000 65535 3, tregion 64 4 3, Or.inr (Or.inr rfl), ?_, ?_, ?_, rfl, rfl⟩), ?_, ?_⟩ <;> decide +kernel

theorem test_Resolves_merges :
    ∃ b, Resolves true (tvec []).mach (.smerge 3 4 (.pred always)) b 0 ∧ (∀ c ∈ b.conds, c = .ok ()) ∧ aliasBroken b.ops = false := by
  refine ⟨_, Or.inr (Or.inr (Or.inl ⟨3, 4, .pred always, tregion 0x1000 65535 3, tregion 0x20000 65535 3, rfl, ?_, ?_, ?_, rfl, rfl⟩)), ?_, ?_⟩ <;>
    decide +kernel

theorem test_Resolves_queries :
    (∃ b, Resolves true (tvec []).mach (.squeryRank 3 5 (.pred always)) b 0 ∧ (∀ c ∈ b.conds, c = .ok ()) ∧ aliasBroken b.ops = false) ∧
    (∃ b, Resolves true (tvec []).mach (.squeryEst 3 (.pred always)) b 0 ∧ (∀ c ∈ b.conds, c = .ok ()) ∧ aliasBroken b.ops = false) := by
  constructor
  · refine ⟨_, Or.inr (Or.inr (Or.inr (Or.inl ⟨3, 5, .pred always, tregion 0x1000 65535 3, Or.inr (Or.inl rfl), ?_, ?_, rfl, ?_⟩))), ?_, ?_⟩ <;> decide +kernel
  · refine ⟨_, Or.inr (Or.inr (Or.inr (Or.inr (Or.inl ⟨3, .pred always, tregion 0x1000 65535 3, rfl, ?_, ?_, rfl, rfl⟩)))), ?_, ?_⟩ <;> decide +kernel

/-- A hash summary of INT32 values with the least precision (R318). -/
theorem test_Resolves_starts :
    ∃ b, Resolves true (tvec [(5, 0x00040602)]).mach (.sinit 3 5 (.pred always)) b 0x00040602 ∧ (∀ c ∈ b.conds, c = .ok ()) ∧ aliasBroken b.ops = false := by
  refine ⟨_, Or.inr (Or.inr (Or.inr (Or.inr (Or.inr (Or.inl ⟨3, 5, .pred always, tregion 0x1000 65535 3, rfl, ?_, ?_, rfl, ?_⟩))))), ?_, ?_⟩ <;> decide +kernel

/-- A line of the TRF's rows at its end, loaded and stored (R227). -/
theorem test_Resolves_lines :
    (∃ b, Resolves true (tvec []).mach (.tload 0 .row 255 252) b 0 ∧ (∀ c ∈ b.conds, c = .ok ()) ∧ aliasBroken b.ops = false) ∧
    (∃ b, Resolves true (tvec []).mach (.tstore 0 .adi 255 252) b 0 ∧ (∀ c ∈ b.conds, c = .ok ()) ∧ aliasBroken b.ops = false) := by
  constructor
  · refine ⟨⟨_, _, tregion 0 4 3, 0, 0, RegionReg.count (tregion 0 4 3)⟩, Or.inr (Or.inr (Or.inr (Or.inr (Or.inr (Or.inr ⟨0, .row, 255, 252, tregion 0 4 3, _, _,
      Or.inl ⟨rfl, rfl, rfl, rfl⟩, rfl, ?_, rfl, ?_, ?_, rfl, rfl, rfl, rfl, rfl⟩))))), ?_, ?_⟩ <;> decide +kernel
  · refine ⟨⟨_, _, tregion 0 4 3, 0, 0, RegionReg.count (tregion 0 4 3)⟩, Or.inr (Or.inr (Or.inr (Or.inr (Or.inr (Or.inr ⟨0, .adi, 255, 252, tregion 0 4 3, _, _,
      Or.inr ⟨rfl, ?_, rfl, rfl, rfl⟩, rfl, ?_, rfl, ?_, ?_, rfl, rfl, rfl, rfl, rfl⟩))))), ?_, ?_⟩ <;> decide +kernel

/-- A false guard in a FIXED job: the instruction's registers resolve as ever, and there is room (R351, R285). -/
def tvecFixed : State := { tvec [] with dev := { (tvec []).dev with cores := [(0, { (tvec []).here with fixed := true })] } }

theorem test_Resolves_nullified :
    tvecFixed.here.fixed = true ∧ tvecFixed.cur.wait = none ∧ tvecFixed.here.queueFull .vq = false ∧
    ∃ b, Resolves false tvecFixed.mach (.vadd 0 1 (.reg 2) ⟨true, .pred ⟨1, false⟩⟩) b 0 ∧ (∀ c ∈ b.conds, c = .ok ()) := by
  refine ⟨by decide, by decide, by decide, _, Or.inl ⟨.binary 0 1 (.reg 2) ⟨true, .pred ⟨1, false⟩⟩, some (tregion 0 4 3), some (tregion 64 4 3),
    some (tregion 0xBFFFC 4 3), rfl, ?_, ?_, ?_, ?_, rfl, rfl⟩, ?_⟩ <;> decide +kernel

theorem test_VectorInstructionsIssue_room :
    (tvec []).cur.wait = none ∧ (ts { tc (tx []) with vq := List.replicate 31 tcopy }).here.queueFull .vq = false ∧ (tvec []).cur.rq.length < 16 ∧
    (let s := ts { tc { tx [] with wait := some (.enq { tcopy with q := .vq }) } with vq := List.replicate 31 tcopy }
     vqGuard (.vadd 0 1 (.reg 2) thead) = some (.pred always) ∧ s.cur.lguard (.pred always) = true ∧ s.cur.wait = some (.enq { tcopy with q := .vq }) ∧
     s.here.queueFull .vq = false) := by decide +kernel

/-- v0 to v2 as given. -/
def tthree (v w z : BitVec 128) : State :=
  let reg (n : Nat) (v : BitVec 128) : Mem := cells (window 0 + 0x200000 + 16 * n) (leBytes 16 v.toNat)
  { tsx { tx [] with plen := 4 } with mem := reg 0 v ++ reg 1 w ++ reg 2 z }

/-- `vadd.p v0, v1, v2` resolves there, over four elements. -/
def tnamed (v w z : BitVec 128) : Prop :=
  ((tthree v w z).mach.regionOf 0 = .ok v ∧ (tthree v w z).mach.regionOf 1 = .ok w ∧ (tthree v w z).mach.regionOf 2 = .ok z) ∧
  (tthree v w z).cur.lguard thead.g = true ∧ (rolesOf (.vadd 0 1 (.reg 2) thead)).isSome = true ∧
  4 = Min.min (v.extractLsb' 27 16).toNat (tthree v w z).cur.plen.toNat

/-- Four bytes on PEER 1. -/
def tpeer : BitVec 128 := tregion (64 + 2 ^ 20 + 2 ^ 25) 4 3

/-- A source whose count differs, a format that is none, a remote destination, and one that does not move on. -/
theorem test_VectorInstructionsIssue_illegal :
    (tnamed (tregion 0 4 3) (tregion 64 4 3) (tregion 128 3 3) ∧
      ∃ x, FailsVq (tthree (tregion 0 4 3) (tregion 64 4 3) (tregion 128 3 3)) (tregion 0 4 3) [tregion 64 4 3, tregion 128 3 3] 4 0x01 x) ∧
    (tnamed (tregion 0 4 3) (tregion 64 4 0x1F) (tregion 128 4 3) ∧
      ∃ x, FailsVq (tthree (tregion 0 4 3) (tregion 64 4 0x1F) (tregion 128 4 3)) (tregion 0 4 3) [tregion 64 4 0x1F, tregion 128 4 3] 4 0x01 x) ∧
    (tnamed tpeer (tregion 64 4 3) (tregion 128 4 3) ∧
      ∃ x, FailsVq (tthree tpeer (tregion 64 4 3) (tregion 128 4 3)) tpeer [tregion 64 4 3, tregion 128 4 3] 4 0x01 x) ∧
    (tnamed (tregion 0 4 3 ^^^ BitVec.ofNat 128 (2 ^ 43)) (tregion 64 4 3) (tregion 128 4 3) ∧
      ∃ x, FailsVq (tthree (tregion 0 4 3 ^^^ BitVec.ofNat 128 (2 ^ 43)) (tregion 64 4 3) (tregion 128 4 3)) (tregion 0 4 3 ^^^ BitVec.ofNat 128 (2 ^ 43))
        [tregion 64 4 3, tregion 128 4 3] 4 0x01 x) := by
  refine ⟨⟨?_, _, .inl ⟨rfl, rfl, .inr (.inl ⟨tregion 128 3 3, .tail _ (.head _), ?_⟩)⟩⟩, ⟨?_, _, .inl ⟨rfl, rfl, .inl ⟨tregion 64 4 0x1F, .tail _ (.head _), ?_⟩⟩⟩,
    ⟨?_, _, .inl ⟨rfl, rfl, .inr (.inr (.inl ?_))⟩⟩, ⟨?_, _, .inl ⟨rfl, rfl, .inr (.inr (.inr ?_))⟩⟩⟩ <;> (try unfold tnamed) <;> decide +kernel

/-- A base that is not aligned: no cause is lower. -/
theorem test_VectorInstructionsIssue_misalign :
    tnamed (tregion 0 4 0x10) (tregion 66 4 0x10) (tregion 128 4 0x10) ∧
    FailsVq (tthree (tregion 0 4 0x10) (tregion 66 4 0x10) (tregion 128 4 0x10)) (tregion 0 4 0x10) [tregion 66 4 0x10, tregion 128 4 0x10] 4 0x04 66 ∧
    ∀ c x, FailsVq (tthree (tregion 0 4 0x10) (tregion 66 4 0x10) (tregion 128 4 0x10)) (tregion 0 4 0x10) [tregion 66 4 0x10, tregion 128 4 0x10] 4 c x → 4 ≤ c := by
  refine ⟨by unfold tnamed; decide +kernel, .inr (.inl ⟨rfl, tregion 66 4 0x10, .tail _ (.head _), by decide +kernel, by decide +kernel⟩), ?_⟩
  rintro c x (⟨rfl, -, ⟨u, h, k⟩ | ⟨u, h, k⟩ | k | k⟩ | ⟨rfl, -⟩ | ⟨rfl, -⟩ | ⟨rfl, -⟩)
  · rcases h with _ | ⟨_, _ | ⟨_, _ | ⟨_, h⟩⟩⟩ <;> first | cases h | exact absurd k (by decide +kernel)
  · rcases h with _ | ⟨_, _ | ⟨_, h⟩⟩ <;> first | cases h | exact absurd k (by decide +kernel)
  · exact absurd k (by decide +kernel)
  · exact absurd k (by decide +kernel)
  all_goals decide +kernel

/-- A footprint past the end of the scratchpad, a peer that does not run the job, and registers that fail nothing, one of them broadcast. -/
theorem test_VectorInstructionsIssue_access :
    (tnamed (tregion 0 4 3) (tregion 64 4 3) (tregion 0xBFFFD 4 3) ∧
      ∃ x, FailsVq (tthree (tregion 0 4 3) (tregion 64 4 3) (tregion 0xBFFFD 4 3)) (tregion 0 4 3) [tregion 64 4 3, tregion 0xBFFFD 4 3] 4 0x05 x) ∧
    (tnamed (tregion 0 4 3) tpeer (tregion 128 1 3) ∧
      ∃ x, FailsVq (tthree (tregion 0 4 3) tpeer (tregion 128 1 3)) (tregion 0 4 3) [tpeer, tregion 128 1 3] 4 0x05 x) :=
  ⟨⟨by unfold tnamed; decide +kernel, _, .inr (.inr (.inl ⟨rfl, tregion 0xBFFFD 4 3, .tail _ (.tail _ (.head _)), ⟨3, by decide +kernel⟩, rfl⟩))⟩,
   ⟨by unfold tnamed; decide +kernel, _, .inr (.inr (.inr ⟨rfl, tpeer, .head _, by decide +kernel, 1, by decide +kernel, by decide, by decide +kernel, rfl⟩))⟩⟩

theorem test_VectorInstructionsIssue_none : tnamed (tregion 0 4 3) (tregion 64 1 3) (tregion 0xBFFFC 4 3) ∧
    ∀ c x, ¬FailsVq (tthree (tregion 0 4 3) (tregion 64 1 3) (tregion 0xBFFFC 4 3)) (tregion 0 4 3) [tregion 64 1 3, tregion 0xBFFFC 4 3] 4 c x := by
  refine ⟨by unfold tnamed; decide +kernel, ?_⟩
  rintro c x (⟨rfl, -, ⟨u, h, k⟩ | ⟨u, h, k⟩ | k | k⟩ | ⟨-, u, h, k, -⟩ | ⟨-, u, h, ⟨i, hi, k⟩, -⟩ | ⟨-, u, h, k, -⟩)
  · rcases h with _ | ⟨_, _ | ⟨_, _ | ⟨_, h⟩⟩⟩ <;> first | cases h | exact absurd k (by decide +kernel)
  · rcases h with _ | ⟨_, _ | ⟨_, h⟩⟩ <;> first | cases h | exact absurd k (by decide +kernel)
  · exact absurd k (by decide +kernel)
  · exact absurd k (by decide +kernel)
  · rcases h with _ | ⟨_, _ | ⟨_, _ | ⟨_, h⟩⟩⟩ <;> first | cases h | exact absurd k (by decide +kernel)
  · interval_cases i <;> rcases h with _ | ⟨_, _ | ⟨_, _ | ⟨_, h⟩⟩⟩ <;> first | cases h | exact absurd k (by decide +kernel)
  · rcases h with _ | ⟨_, _ | ⟨_, h⟩⟩ <;> first | cases h | exact absurd k (by decide +kernel)

/-- A reduction that finds sixteen entries in the return queue; a failing check with the least cause; sources that overlap the destination out of place. -/
theorem test_VectorInstructionsIssue_traps :
    (∃ b, Resolves true (tthree (tregion 0 4 3) (tregion 0 4 3) (tregion 2 4 3)).mach (.vadd 0 1 (.reg 2) thead) b 0 ∧ (∀ c ∈ b.conds, c = .ok ()) ∧
      aliasBroken b.ops = true) ∧
    (∃ b, Resolves true (tvec []).mach (.squeryEst 3 (.pred always)) b 0 ∧ (∀ c ∈ b.conds, c = .ok ()) ∧ toRq (.squeryEst 3 (.pred always)) = true ∧
      16 ≤ (List.replicate 16 (⟨0, none, none⟩ : RqEntry)).length) ∧
    (∃ b, Resolves true (tthree (tregion 0 4 0x10) (tregion 66 4 0x10) (tregion 128 4 0x10)).mach (.vadd 0 1 (.reg 2) thead) b 0 ∧
      Except.error (Cause.misalign, 66) ∈ b.conds ∧ (b.conds.all fun c => match c with | .error e => decide (Cause.misalign ≤ e.1) | .ok _ => true) = true) ∧
    ((tthree (tregion 0 0 3) 0 0).mach.regionOf 0 = .ok (tregion 0 0 3) ∧ ((tregion 0 0 3).extractLsb' 27 16).toNat = 0) ∧
    ((tvec []).mach.regionOf 0 = .ok (tregion 0 4 3) ∧ 256 < (253 : BitVec 8).toNat + ((tregion 0 4 3).extractLsb' 27 16).toNat) ∧
    ((tthree tpeer 0 0).mach.regionOf 0 = .ok tpeer ∧ tpeer.getLsbD 25 = true) := by
  refine ⟨⟨_, Or.inl ⟨.binary 0 1 (.reg 2) thead, some (tregion 0 4 3), some (tregion 0 4 3), some (tregion 2 4 3), rfl, ?_, ?_, ?_, ?_, rfl, rfl⟩, ?_, ?_⟩,
    ⟨_, Or.inr (Or.inr (Or.inr (Or.inr (Or.inl ⟨3, .pred always, tregion 0x1000 65535 3, rfl, ?_, ?_, rfl, rfl⟩)))), ?_, rfl, by decide⟩,
    ⟨_, Or.inl ⟨.binary 0 1 (.reg 2) thead, some (tregion 0 4 0x10), some (tregion 66 4 0x10), some (tregion 128 4 0x10), rfl, ?_, ?_, ?_, ?_, rfl, rfl⟩, ?_, ?_⟩, ?_, ?_, ?_⟩
  all_goals decide +kernel

/-! ## Elements of the engines -/

/-- Core 0 with one command, in its queue. -/
def tel (d : Cmd) : State := ts ((tc (tx [])).setQueue d.q [d])

/-- A record command's opcode. -/
def rop (o : BitVec 8) : Record := { trec with opc := o, t0 := 1, t1 := 1, t2 := 1, t3 := 1 }

theorem test_Ready (d : Cmd) (h : (tel d).cmd 0 1 = some d) (w : d.working = true) (z : d.null = false ∧ d.again = [] ∧ d.edges = [] ∧ d.remote 0 = none) :
    Ready (tel d) 0 1 d := ⟨⟨h, w, z.1, z.2.2.1, z.2.2.2⟩, z.2.1⟩

theorem test_OnChip (s : State) (o : Operand) (n pa : Nat) (h : o.nest.space = .core 0 ∧ 1 ≤ o.nest.esz ∧ pa = window 0 + (o.nest.addr n / 2).toNat) :
    OnChip s 0 o n pa := ⟨0, h.1, by simp [Mach.reachable], h.2.2, h.2.1⟩

theorem test_Reaches (m : Mach) (d : Cmd) (op : Nat) (a : Int) (nibs : Nat) (w : Bool) (pa : Nat) (h : 1 ≤ nibs) (p : pa = window 0 + (a / 2).toNat) :
    Reaches m 0 d op (.core 0) a nibs w m pa := ⟨0, h, by simp [Mach.reachable], rfl, p⟩

/-- A copy of a byte from 8 to the end of the scratchpad, one of nibbles within a byte, a `copyt`, a `fill` and an `mcast`. -/
def dcopy : Cmd := tcmd (rop 0x10) [top 0xBFFFF 1 true, top 8 1 false] 1
def dnib : Cmd := tcmd (rop 0x10) [⟨⟨.core 0, 17, 1, [1, 1, 1, 1], [1, 0, 0, 0], 0⟩, true, false, 8, 9⟩, ⟨⟨.core 0, 16, 1, [1, 1, 1, 1], [1, 0, 0, 0], 0⟩, false, false, 8, 9⟩] 1
def dcopyt : Cmd := tcmd (rop 0x11) [⟨⟨.core 0, 0x200000, 8, [1, 1, 1, 1], [1, 0, 0, 0], 0⟩, true, false, 0x100000, 0x100004⟩, top 8 1 false] 1
def dfill : Cmd := tcmd (rop 0x16) [top 0 1 true] 1
def dmcast : Cmd := tcmd (rop 0x17) [top 0 1 true, top 8 1 false] 1

theorem test_CopyElements_met :
    (State.Inv (tel dcopy) ∧ Ready (tel dcopy) 0 1 dcopy ∧ (tel dcopy).dev.poison = [] ∧ dcopy.isOpc 0x10 = true ∧
      Reaches (tel dcopy).mach 0 dcopy 1 (.core 0) 16 2 false (tel dcopy).mach (window 0 + 8) ∧
      Reaches (tel dcopy).mach 0 dcopy 0 (.core 0) 0x17FFFE 2 true (tel dcopy).mach (window 0 + 0xBFFFF)) ∧
    (Ready (tel dnib) 0 1 dnib ∧ Reaches (tel dnib).mach 0 dnib 1 (.core 0) 16 1 false (tel dnib).mach (window 0 + 8) ∧
      Reaches (tel dnib).mach 0 dnib 0 (.core 0) 17 1 true (tel dnib).mach (window 0 + 8)) ∧
    (Ready (tel dcopyt) 0 1 dcopyt ∧ dcopyt.isOpc 0x11 = true ∧
      Reaches (tel dcopyt).mach 0 dcopyt 0 (.core 0) 0x200000 8 true (tel dcopyt).mach (window 0 + 0x100000)) ∧
    (Ready (tel dfill) 0 1 dfill ∧ dfill.isOpc 0x16 = true ∧ Reaches (tel dfill).mach 0 dfill 0 (.core 0) 0 2 true (tel dfill).mach (window 0)) ∧
    (Ready (tel dmcast) 0 1 dmcast ∧ dmcast.isOpc 0x17 = true ∧ [0].Nodup ∧ (∀ g ∈ [0], (tel dmcast).mach.reachable 0 g = true) ∧
      dmcast.ops = [0].map (fun g => { top 0 1 true with nest := { (top 0 1 true).nest with space := .core g } }) ++ [top 8 1 false] ∧
      (0 : Int) ≤ (top 0 1 true).nest.addr dmcast.n ∧ ((top 0 1 true).nest.addr dmcast.n / 2).toNat + 1 ≤ 2 ^ 22) :=
  ⟨⟨by unfold State.Inv; decide, test_Ready _ (by decide +kernel) (by decide +kernel) (by decide +kernel), by decide, by decide, test_Reaches _ _ _ _ _ _ _ (by decide +kernel) (by decide +kernel),
     test_Reaches _ _ _ _ _ _ _ (by decide +kernel) (by decide +kernel)⟩,
   ⟨test_Ready _ (by decide +kernel) (by decide +kernel) (by decide +kernel), test_Reaches _ _ _ _ _ _ _ (by decide +kernel) (by decide +kernel), test_Reaches _ _ _ _ _ _ _ (by decide +kernel) (by decide +kernel)⟩,
   ⟨test_Ready _ (by decide +kernel) (by decide +kernel) (by decide +kernel), by decide, test_Reaches _ _ _ _ _ _ _ (by decide +kernel) (by decide +kernel)⟩,
   ⟨test_Ready _ (by decide +kernel) (by decide +kernel) (by decide +kernel), by decide, test_Reaches _ _ _ _ _ _ _ (by decide +kernel) (by decide +kernel)⟩,
   ⟨test_Ready _ (by decide +kernel) (by decide +kernel) (by decide +kernel), by decide, by decide, by decide, by decide, by decide, by decide⟩⟩

/-- A nibble copied to the other half of its own byte keeps the half that it came from (R146). -/
theorem test_copy_nibble : (after (exec (.copy 0 1) { tel dnib with mem := [(window 0 + 8, 0x9A)] })).map (·.mem) = some [(window 0 + 8, 0xAA)] := by decide +kernel

/-- The range bounds of an indexed command: LO and HI, and ZOOB (R170). -/
def iaux (lo hi zoob f : Nat) : Word := BitVec.ofNat 64 (f * 2 ^ 11 + zoob * 2 ^ 16 + lo * 2 ^ 18 + hi * 2 ^ 41)

/-- An indexed command whose index is the word at 0x100, which is 0; its bounds are as given. -/
def dindex (o : BitVec 8) (lo hi zoob f : Nat) : Cmd :=
  { tcmd { rop o with aux := iaux lo hi zoob f, ss0 := 1, ds0 := 1 } [top 64 4 true, top 8 4 false, ⟨⟨.core 0, 0x200, 8, [1, 1, 1, 1], [1, 0, 0, 0], 0⟩, false, false, 0x100, 0x104⟩] 1
    with regions := [tregion 0x100 1 6, 8] }

theorem test_IndexedElements_met :
    (∀ o ∈ [0x12, 0x13, 0x14, 0x15], State.Inv (tel (dindex o 0 0 0 6)) ∧ Ready (tel (dindex o 0 0 0 6)) 0 1 (dindex o 0 0 0 6) ∧
      (dindex o 0 0 0 6).isOpc o.toNat = true ∧ (dindex o 0 0 0 6).ops.take 2 = [top 64 4 true, top 8 4 false] ∧
      (dindex o 0 0 0 6).regions.getLast? = some 8 ∧ IndexIs (tel (dindex o 0 0 0 6)) 0 (dindex o 0 0 0 6) 0) ∧
    (decide (((iaux 0 0 0 6).extractLsb' 18 23).toInt ≤ 0) && decide ((0 : Int) ≤ ((iaux 0 0 0 6).extractLsb' 41 23).toInt)) = true ∧
    (decide (((iaux 1 1 1 6).extractLsb' 18 23).toInt ≤ 0) && decide ((0 : Int) ≤ ((iaux 1 1 1 6).extractLsb' 41 23).toInt)) = false ∧
    (decide (((iaux 0x7FFFFF 0x7FFFFF 0 6).extractLsb' 18 23).toInt ≤ 0) && decide ((0 : Int) ≤ ((iaux 0x7FFFFF 0x7FFFFF 0 6).extractLsb' 41 23).toInt)) = false ∧
    (iaux 1 1 1 6).getLsbD 16 = true ∧ (iaux 0x7FFFFF 0x7FFFFF 0 6).getLsbD 16 = false ∧ ((iaux 0 0 0 6).extractLsb' 11 5).toNat = 6 ∧
    placed 8 6 1 0 = 16 ∧ Reaches (tel (dindex 0x15 0 0 0 6)).mach 0 (dindex 0x15 0 0 0 6) 0 (.core 0) 16 8 true (tel (dindex 0x15 0 0 0 6)).mach (window 0 + 8) ∧
    (dindex 0x12 0 0 0 6).ctx = some .a ∧ (dindex 0x12 0 0 0 6).handler = false ∧ ((tel (dindex 0x12 0 0 0 6)).core 0).queueFaulted (dindex 0x12 0 0 0 6) = false := by
  refine ⟨?_, by decide, by decide, by decide, by decide, by decide, by decide, by decide, test_Reaches _ _ _ _ _ _ _ (by decide +kernel) (by decide +kernel), by decide, by decide,
    by decide +kernel⟩
  intro o ho
  fin_cases ho <;> exact ⟨by unfold State.Inv; decide, test_Ready _ (by decide +kernel) (by decide +kernel) (by decide +kernel), by decide, by decide, by decide,
    _, rfl, rfl, rfl, by decide +kernel⟩

/-- An index outside its bounds stops the command at its element (R171), or is read as a zero and counted (R172). -/
theorem test_gather_oob :
    (after (exec (.gather 0 1) (tel (dindex 0x12 1 1 0 6)))).map (fun t => t.cur.efq.map fun f => (f.pos, f.sub)) = some [(0, 0x0F)] := by decide +kernel
theorem test_gather_zoob :
    (after (exec (.gather 0 1) { tel { dindex 0x12 1 1 1 2 with ops := [top 64 1 true, top 8 1 false] ++ (dindex 0x12 1 1 1 2).ops.drop 2 } with
                                 mem := [(window 0 + 8, 1), (window 0 + 64, 7)] })).map (fun t => (t.mem, t.cur.subcnt)) = some ([(window 0 + 8, 1)], 1) := by
  decide +kernel

/-- A `gatherff` whose index leads to a page that is not mapped. -/
def dff : Cmd :=
  { dindex 0x13 0 0 0 6 with
    ops := [top 64 4 true, { top 8 4 false with nest := { (top 8 4 false).nest with space := .virt } }, ⟨⟨.core 0, 0x200, 8, [1, 1, 1, 1], [1, 0, 0, 0], 0⟩, false, false, 0x100, 0x104⟩] }

theorem test_IndexedElements_ff_met :
    State.Inv (tel dff) ∧ Ready (tel dff) 0 1 dff ∧ dff.regions.getLast? = some 8 ∧ IndexIs (tel dff) 0 dff 0 ∧ dff.isOpc 0x13 = true ∧
    ∃ m1, (tel dff).mach.translate 0 (placed 8 6 1 0 / 2).toNat false (1, 1) = (m1, .error Cause.pageNotPresent) :=
  ⟨by unfold State.Inv; decide, test_Ready _ (by decide +kernel) (by decide +kernel) (by decide +kernel), by decide, ⟨_, rfl, rfl, rfl, by decide +kernel⟩, by decide, _, rfl⟩

/-! ### The matrix engine -/

/-- Word `n` of the TRF, and `n` bytes of values from 8. -/
def ttrf (n : Nat) : Operand := ⟨⟨.core 0, 0x200000, 8, [n, 1, 1, 1], [1, 0, 0, 0], 0⟩, true, false, 0x100000, 0x100000 + 4 * n⟩

/-- INT8 by INT8 to INT32, no groups (R196). -/
def fw8 : Word := 0x1842

def dmat (o m : BitVec 8) (ops : List Operand) (n total : Nat) : Cmd := { tcmd { rop o with mod := m, aux := 0x10000 } ops total with q := .mq, fmtw := some fw8, n := n }

/-- Seat 0 with one column of depth 1, loaded under that word. -/
def tseat : Seat := { Seat.empty with full := true, record := 0x1842, kd := 1, cols := 1, raw := [[3]], ints := [[3]], exps := [[0]] }

def tmat (d : Cmd) : State := ts { (tc (tx [])).setQueue .mq [d] with seat0 := tseat }

theorem test_MatrixElements_met :
    (State.Inv (tel (dmat 0x24 0 [ttrf 1] 0 1)) ∧ Ready (tel (dmat 0x24 0 [ttrf 1] 0 1)) 0 1 (dmat 0x24 0 [ttrf 1] 0 1) ∧
      OnChip (tel (dmat 0x24 0 [ttrf 1] 0 1)) 0 (ttrf 1) 0 (window 0 + 0x100000) ∧ (dmat 0x24 0 [ttrf 1] 0 1).isOpc 0x24 = true ∧
      (dmat 0x24 0 [ttrf 1] 0 1).mod / 4 % 2 = 0 ∧ (dmat 0x24 4 [ttrf 1] 0 1).mod / 4 % 2 = 1 ∧ Ready (tel (dmat 0x24 4 [ttrf 1] 0 1)) 0 1 (dmat 0x24 4 [ttrf 1] 0 1)) ∧
    (Ready (tel (dmat 0x25 0 [ttrf 1, top 8 1 false] 0 1)) 0 1 (dmat 0x25 0 [ttrf 1, top 8 1 false] 0 1) ∧
      OnChip (tel (dmat 0x25 0 [ttrf 1, top 8 1 false] 0 1)) 0 (top 8 1 false) 0 (window 0 + 8)) ∧
    (Ready (tel (dmat 0x23 0 [ttrf 1, top 8 1 false] 0 1)) 0 1 (dmat 0x23 0 [ttrf 1, top 8 1 false] 0 1) ∧ fw8.getLsbD 46 = false ∧ fw8.extractLsb' 15 2 = 0) ∧
    (Ready (tel (dmat 0x20 0 [top 8 2 false] 0 2)) 0 1 (dmat 0x20 0 [top 8 2 false] 0 2) ∧ 0 + 1 < (dmat 0x20 0 [top 8 2 false] 0 2).total ∧
      Ready (tel (dmat 0x20 0 [top 8 2 false] 1 2)) 0 1 (dmat 0x20 0 [top 8 2 false] 1 2) ∧ 1 + 1 = (dmat 0x20 0 [top 8 2 false] 1 2).total ∧
      (dmat 0x20 0 [top 8 2 false] 1 2).regions.headD 0 = 0 ∧ (dmat 0x20 0 [top 8 2 false] 1 2).regions[1]? = none) ∧
    (Ready (tel (dmat 0x21 0 [top 8 2 false, top 64 1 false] 0 2)) 0 1 (dmat 0x21 0 [top 8 2 false, top 64 1 false] 0 2) ∧
      0 + 1 < (dmat 0x21 0 [top 8 2 false, top 64 1 false] 0 2).total ∧
      bitsAt { tel (dmat 0x21 0 [top 8 2 false, top 64 1 false] 0 2) with mem := [(window 0 + 64, 4)] }.mach (window 0 + 64) 128 2 = 4 ∧ (4 : Nat) % 4 < 4 / 4) := by
  refine ⟨⟨by unfold State.Inv; decide, test_Ready _ ?_ ?_ ?_, test_OnChip _ _ _ _ ?_, ?_, ?_, ?_, test_Ready _ ?_ ?_ ?_⟩, ⟨test_Ready _ ?_ ?_ ?_, test_OnChip _ _ _ _ ?_⟩,
    ⟨test_Ready _ ?_ ?_ ?_, ?_, ?_⟩, ⟨test_Ready _ ?_ ?_ ?_, ?_, test_Ready _ ?_ ?_ ?_, ?_, ?_, ?_⟩, ⟨test_Ready _ ?_ ?_ ?_, ?_, ?_, ?_⟩⟩ <;> decide +kernel

theorem test_MatrixElements_mmul_met :
    (let d := dmat 0x22 0 [ttrf 1, top 8 1 false] 0 1
     (tmat d).cmd 0 1 = some d ∧ d.working = true ∧ d.isOpc 0x22 = true ∧ d.fmtw = some fw8 ∧ d.ops = [ttrf 1, top 8 1 false] ∧ d.regions.headD 0 = 0 ∧
     d.aux 16 9 = 1 ∧ (ttrf 1).nest.trip 0 = 1 ∧ ((tmat d).core 0).seatOf (d.mod % 2) = tseat ∧ tseat.poisoned = false ∧ tseat.full = true ∧
     tseat.record = fw8.extractLsb' 0 19 ∧ 1 ≤ tseat.kd ∧ (ttrf 1).nest.esz = 8) ∧
    OnChip (tmat (dmat 0x22 0 [ttrf 1, top 8 1 false] 0 1)) 0 (top 8 1 false) 0 (window 0 + 8) ∧
    OnChip (tmat (dmat 0x22 0 [ttrf 1, top 8 1 false] 0 1)) 0 (ttrf 1) 0 (window 0 + 0x100000) :=
  ⟨by decide +kernel, test_OnChip _ _ _ _ (by decide +kernel), test_OnChip _ _ _ _ (by decide +kernel)⟩

/-- Five times the seat's three, in INT32 (R200). -/
theorem test_mmul_int :
    (after (exec (.mmul 0 1) { tmat (dmat 0x22 0 [ttrf 1, top 8 1 false] 0 1) with mem := [(window 0 + 8, 5)] })).map (fun t => t.mem) =
      some [(window 0 + 8, 5), (window 0 + 0x100000, 15)] := by decide +kernel

/-- An MX drain of 32 values in INT8 elements, before the last of its block and at it: the elements from 0, the scale byte at 0x100. -/
def fwmx : Word := 0x1842 + 2 ^ 46
def dmx (n : Nat) : Cmd :=
  { dmat 0x23 0 [top 0 32 true, top 0x100 1 true, ⟨⟨.core 0, 0x200000, 8, [32, 1, 1, 1], [1, 0, 0, 0], 0⟩, false, false, 0x100000, 0x100080⟩] n 32 with
    fmtw := some fwmx, acc := List.replicate n 0 }

theorem test_MatrixElements_mx_met :
    (∀ n ∈ [30, 31], Ready (tel (dmx n)) 0 1 (dmx n) ∧ (dmx n).isOpc 0x23 = true ∧ fwmx.getLsbD 46 = true) ∧ 30 % 32 ≠ 31 ∧ 31 % 32 = 31 ∧ (dmx 31).acc.length = 31 ∧
    (∀ i, i < 32 → OnChip (tel (dmx 31)) 0 (top 0 32 true) (31 / 32 * 32 + i) (window 0 + ((top 0 32 true).nest.addr (31 / 32 * 32 + i) / 2).toNat)) ∧
    (∀ j, j < 32 → ∀ i, i < j → 2 * (window 0 + ((top 0 32 true).nest.addr i / 2).toNat) + 2 ≤ 2 * (window 0 + ((top 0 32 true).nest.addr j / 2).toNat)) ∧
    OnChip (tel (dmx 31)) 0 (top 0x100 1 true) 0 (window 0 + 0x100) ∧ (∀ i, i < 32 → window 0 + ((top 0 32 true).nest.addr i / 2).toNat + 1 ≤ window 0 + 0x100) := by
  refine ⟨?_, by decide, by decide, by decide, fun i _ => test_OnChip _ _ _ _ ⟨rfl, by decide, rfl⟩, by decide +kernel, test_OnChip _ _ _ _ (by decide +kernel), by decide +kernel⟩
  intro n hn
  fin_cases hn <;> exact ⟨test_Ready _ (by decide +kernel) (by decide +kernel) (by decide +kernel), by decide, by decide⟩
/-- The last value of a seat, of a sparse seat with the pair (0, 1) of positions, and metadata that does not rise. -/
def dseat : Cmd := { dmat 0x20 0 [top 8 2 false] 1 2 with acc := [3] }
def dseats : Cmd := { dmat 0x21 0 [top 8 2 false, top 64 1 false] 1 2 with acc := [3] }

theorem test_MatrixElements_last_met :
    (Ready (tel dseat) 0 1 dseat ∧ OnChip (tel dseat) 0 (top 8 2 false) 1 (window 0 + 9) ∧ dseat.acc.length = dseat.n ∧ dseat.fmtw = some fw8 ∧
      dseat.n + 1 = dseat.total ∧ dseat.total = (top 8 2 false).nest.trip 0 * (top 8 2 false).nest.trip 1 ∧ 1 ≤ (top 8 2 false).nest.trip 0) ∧
    (Ready (tel dseats) 0 1 dseats ∧ OnChip (tel dseats) 0 (top 64 1 false) (1 / 2) (window 0 + 64) ∧ dseats.acc.length = dseats.n ∧
      bitsAt { tel dseats with mem := [(window 0 + 64, 4)] }.mach (window 0 + 64) 128 2 = 4 ∧ (4 : Nat) % 4 < 4 / 4 ∧ dseats.n + 1 = dseats.total ∧
      (top 8 2 false).nest.trip 0 % 2 = 0) ∧
    (bitsAt (tel dseats).mach (window 0 + 64) 128 2 = 0 ∧ (0 : Nat) / 4 ≤ 0 % 4 ∧ CanFault (tel dseats) 0 dseats .a) :=
  ⟨⟨test_Ready _ (by decide +kernel) (by decide +kernel) (by decide +kernel), test_OnChip _ _ _ _ (by decide +kernel), by decide, by decide, by decide, by decide, by decide⟩,
   ⟨test_Ready _ (by decide +kernel) (by decide +kernel) (by decide +kernel), test_OnChip _ _ _ _ (by decide +kernel), by decide, by decide +kernel, by decide, by decide, by decide⟩,
   ⟨by decide +kernel, by decide, by unfold CanFault; decide +kernel⟩⟩

/-- Before the last element of a block, a destination on this core; a destination whose page is not mapped; a seat that is empty. -/
def dmxv : Cmd := { dmx 5 with ops := (dmx 5).ops.map fun o => if o.dst = true then { o with nest := { o.nest with space := .virt } } else o }

theorem test_MatrixElements_drain_met :
    Reaches (tel (dmx 30)).mach 0 (dmx 30) 0 (.core 0) ((top 0 32 true).nest.addr 30) 2 true (tel (dmx 30)).mach (window 0 + 30) ∧
    (Ready (tel dmxv) 0 1 dmxv ∧ dmxv.isOpc 0x23 = true ∧ (dmxv.ops.headD (ttrf 1)).nest.space = .virt ∧
      ((dmxv.ops.headD (ttrf 1)).nest.addr 5 / 2).toNat = 5 ∧ (tel dmxv).mach.transBusy 0 5 true (1, 0) = false ∧
      (∃ m, (tel dmxv).mach.translate 0 5 true (1, 0) = (m, .error Cause.pageNotPresent)) ∧ CanFault (tel dmxv) 0 dmxv .a) ∧
    (let d := dmat 0x22 0 [ttrf 1, top 8 1 false] 0 1
     Ready (tel d) 0 1 d ∧ d.isOpc 0x22 = true ∧ d.fmtw = some fw8 ∧ (((tel d).core 0).seatOf (d.mod % 2)).full = false ∧ CanFault (tel d) 0 d .a ∧
     tseat.record ≠ (fw8 + 1).extractLsb' 0 19 ∧ tseat.kd < ({ d with work := .record { trec with opc := 0x22, aux := 0x20000 } } : Cmd).aux 16 9) :=
  ⟨test_Reaches _ _ _ _ _ _ _ (by decide +kernel) (by decide +kernel),
   ⟨test_Ready _ (by decide +kernel) (by decide +kernel) (by decide +kernel), by decide, by decide, by decide +kernel, by decide +kernel, ⟨_, rfl⟩,
    by unfold CanFault; decide +kernel⟩,
   test_Ready _ (by decide +kernel) (by decide +kernel) (by decide +kernel), by decide, by decide, by decide +kernel, by unfold CanFault; decide +kernel, by decide, by decide +kernel⟩

/-! ### The vector engine -/

/-- A vector command of 64 elements with these operands. -/
def dvec (i : Instr) (ops : List Operand) (n : Nat) (rq : Option Nat) : Cmd :=
  { tcmd trec ops (n + 1) with q := .vq, work := .vec i (tregion 0 64 3) (tregion 64 64 3) (tregion 128 64 3) 0 64 rq, n := n }

theorem test_Lane (s : State) (o : Operand) (n pa : Nat) (h : o.nest.space = .core 0 ∧ 1 ≤ o.nest.esz ∧ pa = window 0 + (o.nest.addr n / 2).toNat) :
    Lane s 0 o n pa := ⟨test_OnChip s o n pa h, Or.inl h.1⟩

/-- At the first element and at the last. -/
theorem test_VectorElements_met : ∀ n ∈ [0, 63], ∀ i ∈ [Instr.vadd 0 1 (.reg 2) thead, .vadd 0 1 (.scalar 5) thead, .vmove 0 1 thead, .vfill 0 5 thead,
      .vquant 0 1 2 5 0 thead, .vclip 0 1 2 thead, .vscan 0 1 .add thead, .vpset 1 7 (.pred always), .vzcnt 1 thead, .vrsum 1 thead],
    let d := dvec i [top 0 64 true, top 64 64 false, top 128 64 false] n (some 4)
    State.Inv (tel d) ∧ Ready (tel d) 0 1 d ∧ (tel d).dev.poison = [] ∧ d.q = .vq ∧
    Lane (tel d) 0 (top 0 64 true) n (window 0 + n) ∧ Lane (tel d) 0 (top 64 64 false) n (window 0 + (64 + n)) := by
  intro n hn i hi
  fin_cases hn <;> fin_cases hi <;>
    exact ⟨by unfold State.Inv; decide, test_Ready _ (by decide +kernel) (by decide +kernel) (by decide +kernel), rfl, rfl, test_Lane _ _ _ _ (by decide +kernel),
      test_Lane _ _ _ _ (by decide +kernel)⟩

/-- A chunk of 128 bytes of UINT8, every lane of it. -/
theorem test_VectorElements_vperm_met :
    let d := dvec (.vperm 0 1 7 (.pred always)) [top 0 128 true, top 128 128 false] 0 none
    State.Inv (tel d) ∧ Ready (tel d) 0 1 d ∧ (4 * fmtNibs (RegionReg.fmt (tregion 64 64 3)) = 8) ∧ (top 0 128 true).nest.esz = 8 / 4 ∧
    (∀ j, j < 1024 / 8 → Lane (tel d) 0 (top 0 128 true) (d.n + j) (window 0 + j) ∧ Lane (tel d) 0 (top 128 128 false) (d.n + j) (window 0 + (128 + j))) ∧
    (∀ j l, j < l → l < 1024 / 8 → window 0 + j + 8 / 8 ≤ window 0 + l ∨ window 0 + l + 8 / 8 ≤ window 0 + j) := by
  refine ⟨by unfold State.Inv; decide, test_Ready _ (by decide +kernel) (by decide +kernel) (by decide +kernel), by decide, by decide, ?_, ?_⟩
  · intro j hj
    have h : ∀ j ∈ List.range 128, ((top 0 128 true).nest.addr j / 2).toNat = j ∧ ((top 128 128 false).nest.addr j / 2).toNat = 128 + j := by decide +kernel
    have := h j (List.mem_range.2 hj)
    refine ⟨test_Lane _ _ _ _ ⟨rfl, by decide, ?_⟩, test_Lane _ _ _ _ ⟨rfl, by decide, ?_⟩⟩
    · show window 0 + j = window 0 + ((top 0 128 true).nest.addr (0 + j) / 2).toNat
      rw [Nat.zero_add, this.1]
    · show window 0 + (128 + j) = window 0 + ((top 128 128 false).nest.addr (0 + j) / 2).toNat
      rw [Nat.zero_add, this.2]
  · intro j l h _
    left
    omega

/-- The bounds of a `vclip`. -/
theorem test_VectorElements_vclip_met :
    let d := dvec (.vclip 0 1 2 thead) [top 0 64 true, top 64 64 false, top 128 2 false] 0 none
    Lane (tel d) 0 (top 128 2 false) 0 (window 0 + 128) ∧ Lane (tel d) 0 (top 128 2 false) 1 (window 0 + 129) :=
  ⟨test_Lane _ _ _ _ (by decide +kernel), test_Lane _ _ _ _ (by decide +kernel)⟩

/-- The last byte of a `vpset`. -/
def dpset : Cmd := { dvec (.vpset 1 7 (.pred always)) [top 64 44 false] 43 none with acc := List.replicate 43 255 }

theorem test_VectorElements_vpset_met : Ready (tel dpset) 0 1 dpset ∧ Lane (tel dpset) 0 (top 64 44 false) 43 (window 0 + 107) ∧ dpset.n + 1 = dpset.total :=
  ⟨test_Ready _ rfl rfl ⟨rfl, rfl, rfl, rfl⟩, test_Lane _ _ _ _ (by decide +kernel), by decide +kernel⟩

theorem test_VectorElements_vpset_bytes : ∀ b ∈ dpset.acc ++ [BitVec.ofNat 64 (bitsAt (tel dpset).mach (window 0 + 107) 214 2)], b.toNat < 256 := by
  intro b hb
  obtain h | h := List.mem_append.1 hb
  · rw [List.eq_of_mem_replicate h]
    decide
  · rw [List.mem_singleton.1 h]
    show (BitVec.ofNat 64 _).toNat < 256
    have : bitsAt (tel dpset).mach (window 0 + 107) 214 2 = 0 := by decide +kernel
    rw [this]
    decide

/-- A line of the TRF that wraps: its fourth word, and the first of its second run. -/
noncomputable def tline (load : Bool) (n : Nat) : Cmd :=
  dvec (if load then .tload 0 .dia 5 250 else .tstore 0 .adi 5 250) (if load then [ttrf 4, top 64 6 false, ttrf 2] else [top 64 6 true, ttrf 4, ttrf 2]) n none

theorem test_LineElements_met : ∀ load ∈ [true, false],
    Ready (tel (tline load 3)) 0 1 (tline load 3) ∧ 3 < (ttrf 4).nest.total ∧ OnChip (tel (tline load 3)) 0 (ttrf 4) 3 (window 0 + 0x10000C) ∧
    OnChip (tel (tline load 3)) 0 (top 64 6 (!load)) 3 (window 0 + 67) ∧
    Ready (tel (tline load 4)) 0 1 (tline load 4) ∧ (ttrf 4).nest.total ≤ 4 ∧ 3 ≤ (tline load 4).ops.length ∧ OnChip (tel (tline load 4)) 0 (ttrf 2) 0 (window 0 + 0x100000) ∧
    OnChip (tel (tline load 4)) 0 (top 64 6 (!load)) 4 (window 0 + 68) := by
  intro load hl
  fin_cases hl <;> exact ⟨test_Ready _ rfl rfl ⟨rfl, rfl, rfl, rfl⟩, by decide, test_OnChip _ _ _ _ (by decide +kernel),
    test_OnChip _ _ _ _ (by decide +kernel), test_Ready _ rfl rfl ⟨rfl, rfl, rfl, rfl⟩, by decide, by decide, test_OnChip _ _ _ _ (by decide +kernel),
    test_OnChip _ _ _ _ (by decide +kernel)⟩

/-- The image whose only set bit is bit 160 exchanges lanes 0 and 1; all switches of stages 0 to 5 reverse the lanes (R304). -/
theorem test_benes_exchange : benes (BitVec.ofNat 352 (2 ^ 160)) (List.range 64) = 1 :: 0 :: (List.range 62).map (· + 2) := by decide +kernel
theorem test_benes_reverse : benes (BitVec.ofNat 352 (2 ^ 192 - 1)) (List.range 64) = (List.range 64).reverse := by decide +kernel

theorem test_IntegerLanes_switch_met : (10 : Nat) < 11 ∧ 31 < 32 ∧ (List.range 64).length = 64 := by decide

theorem test_IntegerLanes_met : (7 : Nat) ≤ 7 ∧ (fmtBits 7).getD 0 = 32 ∧ (0xFFFFFFFF : Nat) < 2 ^ 32 ∧ (fmtBits 0).getD 0 = 4 := by decide

/-- Each format's largest magnitude of both signs is finite and nonzero; above it stand the infinity and the NaNs that the format has (R188, R192). -/
theorem test_IntegerLanes_finite_met :
    (∀ r ∈ fpRows, ∀ b ∈ [r.top, r.top + r.half], r.Finite b ∧ r.val b ≠ 0 ∧ r.mag b ≤ r.top) ∧
    (∀ r ∈ fpRows, r.ieee = true → r.infinite (r.top + 1) = true ∧ r.top + 1 < 2 * r.half ∧ r.nan (r.top + 2) = true ∧ r.top + 2 < 2 * r.half) ∧
    (∃ r ∈ fpRows, r.ieee = false ∧ r.nan 0x7F = true ∧ 0x7F < 2 * r.half) ∧ (∃ p ∈ fpRows, p.val 0 = 0) ∧
    ((fmtBits 7).getD 0 = 32 ∧ (7 : Nat) ≤ 7 ∧ (2 ^ 32 - 1 : Nat) < 2 ^ 32 ∧ (254 : Nat) < 255) := by
  unfold FpRow.Finite
  decide +kernel

/-- A K-step of FP16 by BF16 over 384 positions and over one block: with a NaN, with an infinity of either sign, and with finite values. -/
def kw : Word := 0x0E + 0x0F * 32 + 0x10 * 1024
def kxs (n x : Nat) : List Nat := x :: List.replicate (32 * n - 1) 0x3C00
def kys (n : Nat) : List Nat := List.replicate (32 * n) 0x3F80

theorem test_IntegerLanes_step_met :
    ((kw.extractLsb' 0 5).toNat = 0x0E ∧ (kw.extractLsb' 5 5).toNat = 0x0F ∧ kw.extractLsb' 15 2 = 0 ∧ (12 : Nat) ≤ 12 ∧ (0xFFFFFFFF : Nat) < 2 ^ 32) ∧
    (∀ x ∈ [0x3C00, 0x7E00, 0x7C00, 0xFC00], ∀ n ∈ [1, 12], (kxs n x).length = 32 * n ∧ ∀ z ∈ kxs n x, z < 2 * 2 ^ 15) ∧
    ∀ n ∈ [1, 12], (kys n).length = 32 * n ∧ ∀ z ∈ kys n, z < 2 * 2 ^ 15 := by decide +kernel

/-- Which of those values is a NaN or an infinity, by the row of FP16; the terms of a block of ones sum to 32, in units of 2^-400. -/
theorem test_IntegerLanes_values_met :
    (∃ p ∈ fpRows, p.code = 0x0E ∧ p.nan 0x7E00 = true ∧ p.infinite 0x7C00 = true ∧ p.infinite 0xFC00 = true ∧ p.neg 0xFC00 = true ∧ p.nan 0x3C00 = false ∧
      p.infinite 0x3C00 = false ∧ ∃ q ∈ fpRows, q.code = 0x0F ∧ q.nan 0x3F80 = false ∧ q.mag 0x3F80 ≠ 0 ∧
      blockTerm p q (kxs 1 0x3C00) (kys 1) = 32 * 2 ^ 400 ∧ windowSum [0, 32 * 2 ^ 400] ≠ 0) ∧ windowSum [0, 0] = 0 := by decide +kernel

/-- A block with a NaN, and one of finite values, of MX INT8 and of E2M1 (R204). -/
theorem test_IntegerLanes_mx_met :
    (∃ b ∈ [0x3F800000, 0x7FC00000], fp32.top < fp32.mag b) ∧ (∀ b ∈ [0x3F800000, 0xFF7FFFFF, 0], fp32.mag b ≤ fp32.top ∧ b < 2 ^ 32) ∧ (∃ r ∈ fpRows, r.code = 0x09) ∧
    (fp32.val 0 = 0 ∧ fp32.val 0xFF7FFFFF ≠ 0) := by decide +kernel

/-- Saturation in INT8 and UINT8 (R191): 127 + 1 stays 127; 3 − 5 is 0. -/
theorem test_vadd_saturates : vresult (.vadd 0 1 (.reg 2) thead) 2 2 2 0 false 0 127 1 0 = some 127 := by decide +kernel
theorem test_vsub_saturates : vresult (.vsub 0 1 (.reg 2) thead) 3 3 3 0 false 0 3 5 0 = some 0 := by decide +kernel

/-- 1.5 + 2.5 in FP16 is 4; 1/3 rounds to 0x3555 (R195). -/
theorem test_vadd_fp16 : vresult (.vadd 0 1 (.reg 2) thead) 0x0E 0x0E 0x0E 0 false 0 0x3E00 0x4100 0 = some 0x4400 := by decide +kernel
theorem test_vdiv_fp16 : vresult (.vdiv 0 1 (.reg 2) thead) 0x0E 0x0E 0x0E 0 false 0 0x3C00 0x4200 0 = some 0x3555 := by decide +kernel

/-! ### Summaries -/

/-- A command of the Cabinet engine with its summary at 0 of the core. -/
def dcab (i : Instr) (x : Word) : Cmd :=
  { tcmd trec [top 0 128 true, top 1024 64 false] 1 with q := .vq, work := .vec i (tregion 0 65535 3) (tregion 0 65535 3) (tregion 0 65535 3) x 1 (some 4) }

/-- Nothing there, or a fresh summary of the least precision: heavy hitters of INT32, cardinality of UINT8 (R308, R318). -/
def tcab (d : Cmd) (z : Option Summary) : State := { tel d with mem := match z with | some z => cells (window 0) z.bytes | none => [] }
def tfresh (kind : Nat) : Summary := if kind = 2 then Summary.fresh 2 6 2 0 else Summary.fresh 3 3 4 0

theorem test_SummaryAt (d : Cmd) : ∀ kind ∈ [2, 3], SummaryAt (tcab d (some (tfresh kind))) 0 (tregion 0 65535 3) (tfresh kind) := by
  have k : ∀ kind ∈ [2, 3], SummaryAt { tsx (tx []) with mem := cells (window 0) (tfresh kind).bytes } 0 (tregion 0 65535 3) (tfresh kind) := by
    intro kind h
    obtain rfl | rfl : kind = 2 ∨ kind = 3 := by simpa using h
    · exact ⟨_, _, (tfresh 2).bytes.length, rfl, rfl, by decide +kernel, by decide +kernel, by decide +kernel, by decide +kernel⟩
    · exact ⟨_, _, (tfresh 3).bytes.length, rfl, rfl, by decide +kernel, by decide +kernel, by decide +kernel, by decide +kernel⟩
  exact k

theorem test_no_SummaryAt (d : Cmd) (z : Summary) : ¬SummaryAt (tcab d none) 0 (tregion 0 65535 3) z := by
  rintro ⟨pa, ext, size, rfl, rfl, -, h, -, -⟩
  have : headerSize (Claims.bytesAt { tsx (tx []) with mem := [] } (window 0) 64) = none := by decide +kernel
  exact nomatch this.symm.trans h

/-- What absorbs, merges, is queried and starts: ready, on this core, with its value to read; what is faulted where nothing stands at the region. -/
theorem test_CabinetElements_met : ∀ p ∈ [(Instr.vskh 3 1 thead, 2), (.vskd 3 1 thead, 3), (.smerge 3 4 (.pred always), 3), (.squeryCount 3 5 (.pred always), 2),
      (.squeryEst 3 (.pred always), 3), (.sinit 3 5 (.pred always), 3)],
    let d := dcab p.1 0x00040303
    State.Inv (tcab d (some (tfresh p.2))) ∧ Ready (tcab d (some (tfresh p.2))) 0 1 d ∧ d.q = .vq ∧ (tregion 0 65535 3).getLsbD 25 = false ∧
    Lane (tcab d (some (tfresh p.2))) 0 (top 1024 64 false) 0 (window 0 + 1024) ∧ (tfresh p.2).kind = p.2 ∧ (tfresh 2).vfmt = 6 ∧ (tfresh 3).vfmt = RegionReg.fmt (tregion 0 65535 3) ∧
    (tcab d (some (tfresh p.2))).mach.reachable 0 0 = true ∧ (0x00040303 : Word).toNat < 2 ^ 32 ∧ Ready (tcab d none) 0 1 d ∧ CanFault (tcab d none) 0 d .a := by
  intro p hp
  have k : ∀ i : Instr, (dcab i 0x00040303).q = .vq ∧ (dcab i 0x00040303).handler = false ∧ (dcab i 0x00040303).ctx = some .a ∧ (dcab i 0x00040303).working = true ∧
      (dcab i 0x00040303).null = false ∧ (dcab i 0x00040303).edges = [] ∧ (dcab i 0x00040303).again = [] := fun i => ⟨rfl, rfl, rfl, rfl, rfl, rfl, rfl⟩
  have w : ∀ kind ∈ [2, 3], (cells (window 0) (tfresh kind).bytes).wf = true := by decide +kernel
  have h : p.2 = 2 ∨ p.2 = 3 := by fin_cases hp <;> decide
  have wf : (cells (window 0) (tfresh p.2).bytes).wf = true := by obtain h | h := h <;> rw [h] <;> exact w _ (by decide)
  refine ⟨wf, ⟨⟨rfl, rfl, rfl, rfl, ?_⟩, rfl⟩, rfl, by decide, ⟨⟨0, rfl, rfl, ?_, by decide⟩, Or.inl rfl⟩, ?_, by decide, by decide, rfl, by decide, ⟨⟨rfl, rfl, rfl, rfl, ?_⟩, rfl⟩,
    rfl, ?_, rfl⟩
  · fin_cases hp <;> decide
  · decide
  · obtain h | h := h <;> rw [h] <;> decide
  · fin_cases hp <;> decide
  · fin_cases hp <;> decide

/-! ### Sending commands -/

/-- A KQ command of one element, with its format in MOD and AUX as given. -/
def dsend (o m : BitVec 8) (aux : Word) (ops : List Operand) : Cmd := { tcmd { rop o with mod := m, aux := aux } ops 1 with q := .kq, fired := true }

theorem test_SendingCommands_met :
    (∀ d ∈ [dsend 0x30 0x18 0 [top 8 1 false], dsend 0x33 0 0x1800 [top 8 1 false], dsend 0x31 0x19 0 [top 8 1 false],
        { dsend 0x31 0x18 0 [top 8 1 false] with pre := 1, exps := [(0, 5)] }],
      State.Inv (tel d) ∧ Ready (tel d) 0 1 d ∧ Reaches (tel d).mach 0 d 0 (.core 0) ((top 8 1 false).nest.addr d.n) 2 false (tel d).mach (window 0 + 8)) ∧
    ((dsend 0x30 0x18 0 []).isOpc 0x30 = true ∧ (dsend 0x33 0 0x1800 []).isOpc 0x33 = true ∧ (dsend 0x31 0x19 0 []).mod % 8 ≠ 0 ∧ (dsend 0x31 0x18 0 []).mod % 8 = 0 ∧
      1 ≤ 32 * 1 ∧ (([(0, 5)] : List (Nat × Int)).find? fun q => q.1 == 0 / 32) = some (0 / 32, 5)) ∧
    (Ready (tel { dsend 0x31 0x18 0 [top 8 32 false] with total := 32 }) 0 1 { dsend 0x31 0x18 0 [top 8 32 false] with total := 32 } ∧ 32 * 0 < 32 ∧
      ∀ i, i < 32 → OnChip (tel { dsend 0x31 0x18 0 [top 8 32 false] with total := 32 }) 0 (top 8 32 false) (32 * 0 + i)
        (window 0 + ((top 8 32 false).nest.addr (32 * 0 + i) / 2).toNat)) ∧
    (∀ d ∈ [dsend 0x34 0 0 [], { dsend 0x35 0 0 [] with acc := [1] }, dsend 0x32 0 0x500 []], Ready (tel d) 0 1 d) ∧
    ({ dsend 0x35 0 0 [] with acc := [1] } : Cmd).acc ≠ [] ∧ (dsend 0x32 0 0x500 []).aux 8 3 = 5 ∧ ∀ j, (tel (dsend 0x32 0 0x500 [])).jobOf 0 = some j → j.parked = [] := by
  refine ⟨?_, by decide, ⟨test_Ready _ (by decide +kernel) (by decide +kernel) (by decide +kernel), by decide, fun i _ => test_OnChip _ _ _ _ ⟨rfl, by decide, rfl⟩⟩, ?_,
    by decide, by decide, ?_⟩
  · intro d hd
    fin_cases hd <;> exact ⟨by unfold State.Inv; decide, test_Ready _ (by decide +kernel) (by decide +kernel) (by decide +kernel),
      test_Reaches _ _ _ _ _ _ _ (by decide +kernel) (by decide +kernel)⟩
  · intro d hd
    fin_cases hd <;> exact test_Ready _ (by decide +kernel) (by decide +kernel) (by decide +kernel)
  · intro j hj
    have : j = tj := Option.some.inj (hj.symm.trans (by decide +kernel : (tel (dsend 0x32 0 0x500 [])).jobOf 0 = some tj))
    subst this
    rfl

/-- A refused transfer to send again, after the last element; a block whose places follow one another, and one whose do not; a window posted in place or staged. -/
def dblock (stride : BitVec 24) : Cmd :=
  { dsend 0x31 0x18 0 [top 8 32 false] with
    work := .record { rop 0x31 with mod := 0x18, t0 := 32, ds0 := stride }, total := 32 }

theorem test_SendingCommands_more_met :
    (let d := { dsend 0x30 0x18 0 [top 8 1 false] with n := 1, again := [0] }
     Working (tel d) 0 1 d ∧ State.Inv (tel d) ∧ d.again = 2 * 0 :: [] ∧ d.isOpc 0x30 = true ∧
     Reaches (tel d).mach 0 d 0 (.core 0) ((top 8 1 false).nest.addr 0) 2 false (tel d).mach (window 0 + 8)) ∧
    (∀ i, i < 32 → (dblock 1).peer ((dblock 1).iteration i) = (dblock 1).peer ((dblock 1).iteration 0) ∧
      (dblock 1).destAt 4 ((dblock 1).iteration i) = (dblock 1).destAt 4 ((dblock 1).iteration 0) + 4 * i) ∧
    (dblock 2).destAt 4 ((dblock 2).iteration 1) ≠ (dblock 2).destAt 4 ((dblock 2).iteration 0) + 4 * 1 ∧
    (∀ aux : Word, ∃ w : Window, let d := dsend 0x32 0 aux []
      w.base = d.destBase ∧ w.tile = d.aux 44 20 ∧ w.tiles = d.aux 35 9 ∧ w.expect = d.aux 24 11 ∧ w.ac = d.aux 16 8 ∧ w.fmt = d.aux 11 5 ∧ w.op = d.aux 8 3 ∧
      w.err = false ∧ w.finishing = [] ∧ w.counts = List.replicate w.tiles 0 ∧ w.pre = [] ∧ w.exps = [] ∧ w.cover = [] ∧ w.moved = []) ∧
    (dsend 0x32 0 0x500 []).aux 8 3 = 5 ∧ (dsend 0x32 0 0x600 []).aux 8 3 = 6 := by
  refine ⟨⟨⟨by decide +kernel, by decide +kernel, by decide +kernel, by decide +kernel, by decide +kernel⟩, by unfold State.Inv; decide +kernel, by decide +kernel, by decide +kernel,
    test_Reaches _ _ _ _ _ _ _ (by decide +kernel) (by decide +kernel)⟩, by decide +kernel, by decide +kernel,
    fun aux => ⟨⟨(dsend 0x32 0 aux []).destBase, (dsend 0x32 0 aux []).aux 44 20, (dsend 0x32 0 aux []).aux 35 9, (dsend 0x32 0 aux []).aux 24 11,
      (dsend 0x32 0 aux []).aux 16 8, (dsend 0x32 0 aux []).aux 11 5, (dsend 0x32 0 aux []).aux 8 3, 0, false, List.replicate ((dsend 0x32 0 aux []).aux 35 9) 0, [], [], [], [], []⟩,
      rfl, rfl, rfl, rfl, rfl, rfl, rfl, rfl, rfl, rfl, rfl, rfl, rfl, rfl⟩, by decide, by decide⟩

/-- The first transfer of an `smrg`, whose region holds a summary (R326). -/
def dsmrg : Cmd := { dsend 0x35 0 0 [] with regions := [tregion 0 65535 3] }

theorem test_SendingCommands_smrg_met :
    Ready (tcab dsmrg (some (tfresh 3))) 0 1 dsmrg ∧ dsmrg.isOpc 0x35 = true ∧ dsmrg.acc = [] ∧ tregion 0 65535 3 = dsmrg.regions.headD 0 ∧
    SummaryAt (tcab dsmrg (some (tfresh 3))) 0 (tregion 0 65535 3) (tfresh 3) ∧ State.Inv (tcab dsmrg (some (tfresh 3))) ∧
    ∃ k, k < 8 ∧ ((tfresh 3).bytes ++ List.replicate k (0 : Byte)).length % 8 = 0 :=
  ⟨⟨⟨rfl, rfl, rfl, rfl, by decide +kernel⟩, rfl⟩, by decide +kernel, rfl, rfl, test_SummaryAt _ _ (by decide), by unfold State.Inv; decide +kernel, 0, by decide, by decide +kernel⟩

/-! ### From issue to retirement -/

/-- A command that has not issued, and one that has done its one element. -/
def dfresh : Cmd := { dcopy with issued := false }
def ddone : Cmd := { dcopy with n := 1 }

theorem test_CommandLife_met :
    ((tel dfresh).cmd 0 1 = some dfresh ∧ (tel dfresh).mach.mayIssue 0 dfresh = true ∧ ((tel dfresh).core 0).waitsFinish dfresh = false) ∧
    (let d := { dfresh with refetch := true }
     (tel d).cmd 0 1 = some d ∧ (tel d).mach.mayIssue 0 d = true ∧ ((tel d).core 0).waitsFinish d = false) ∧
    ((tel ddone).cmd 0 1 = some ddone ∧ (tel ddone).mach.mayRetire 0 ddone = true ∧ ddone.gang = none) ∧
    (∀ d ∈ [{ dindex 0x13 0 0 0 6 with n := 1 }, { dindex 0x13 1 1 0 6 with stopAt := some 0 }, dmat 0x20 0 [top 8 2 false] 2 2, dmat 0x21 1 [top 8 2 false, top 64 1 false] 2 2],
      (tel d).cmd 0 1 = some d ∧ (tel d).mach.mayRetire 0 d = true ∧ d.gang = none ∧ d.null = false) ∧
    (let s := ts { tc (tx []) with heldTokens := [(0, 1, some 0)], tokens := [(0, 1, 14)], phases := [{ tphase 0 false with ckpt := some (tc (tx [])).checkpoint }] }
     (s.core 0).heldTokens.find? (fun h => h.1 == 0 && h.2.1 == 1) = some (0, 1, some 0) ∧ (s.core 0).tok 0 1 < 15 ∧
     ∃ r ∈ (s.core 0).phases, r.ckpt.isSome = true) ∧
    (let d := { dsend 0x33 0 0 [] with fired := false }
     (tel d).cmd 0 1 = some d ∧ d.isOpc 0x33 = true ∧ d.null = false ∧ d.issued = true ∧ d.fired = false ∧ d.stopped = false ∧
     d.aux 16 32 ≤ natAt ((tel d).core 0).acs (d.aux 56 8)) := by decide +kernel

theorem test_RowOf : RowOf 0 1 dcopy (.copy 0 1) ∧ RowOf 0 1 (dsend 0x30 0x18 0 []) (.cput 0 1) :=
  ⟨Or.inl ⟨by decide, Or.inl ⟨rfl, by decide⟩⟩, Or.inr ⟨by decide, Or.inl ⟨rfl, by decide⟩⟩⟩

/-- An address with an entry, at its page's last byte, and one with none, whose walk finds no page. -/
theorem test_CommandLife_walk :
    (∃ e ∈ ((tsys []).core 0).tlb, e.maps ((tsys []).core 0) 0x10FFF = true ∧ e.usable = true) ∧
    (∀ e ∈ ((tsys []).core 0).tlb, e.maps ((tsys []).core 0) 0x40000 = true → e.usable = false) ∧
    ∃ m, (tsys []).mach.walk 0 0x40000 false = (m, .error Cause.pageNotPresent) := ⟨by decide, by decide, _, rfl⟩

/-- A page under key slot 1, which is of the job's domain and loaded. -/
theorem test_CommandLife_walk_ok :
    (let s := tpool 0x4000 true tpoolJob
     let s : State := { mem := s.mem ++ [(0x5026, 0x10)], dev := { s.dev with keys := [⟨1, 0, some 1, none⟩] } }
     (s.mach.walk 0 0x4000 false).2.toOption.isSome) = true := by decide +kernel

/-- A command that waits for itself, since 256 cycles ago, behind another command of its queue or alone. -/
def dloop : Cmd := { dcopy with edges := [⟨0, 1, 0, (top 0xBFFFF 1 true).nest, true, none⟩] }
def tchase (l : List Cmd) : State :=
  let s := ts { tc (tx []) with lq := l ++ [dloop] }
  { s with dev := { s.dev with now := 256, cores := s.dev.cores.map fun p => (p.1, { p.2 with arcs := s.mach.agedArcs 0 }) } }

theorem test_CommandLife_chase :
    ((tel dcopy).mach.onCore 0 fun k => { k with arcs := (tel dcopy).mach.agedArcs 0 }).chaseVictims 0 = [] ∧
    (((tchase []).mach.onCore 0 fun k => { k with arcs := (tchase []).mach.agedArcs 0 }).chaseVictims 0 = [dloop] ∧ (tchase []).cmd 0 1 = some dloop ∧
      dloop.again = [] ∧ CanFault (tchase []) 0 dloop .a) ∧
    (let s := tchase [{ ddone with uid := 2, fault := some ⟨.lq, 2, 1, 0x0F, 0⟩ }]
     (s.mach.onCore 0 fun k => { k with arcs := s.mach.agedArcs 0 }).chaseVictims 0 = [dloop] ∧ (s.core 0).queueFaulted dloop = true ∧ dloop.handler = false) := by
  refine ⟨by decide +kernel, ⟨by decide +kernel, by decide +kernel, rfl, by unfold CanFault; decide +kernel⟩, by decide +kernel⟩

/-- An `rxpost` that would take the counter of a window whose finish is in progress, one that has begun to wait, and one behind a command that has not issued;
two `tsend`s that are due. -/
def dpost : Cmd := { dsend 0x32 0 (2 ^ 35) [] with issued := false, fired := false }
def tpost (d : Cmd) : State := ts { tc (tx []) with kq := [d], windows := [⟨0, 4, 1, 1, 0, 0x10, 7, 0x1000, false, [0], [], [], [0], [], []⟩] }
def dtsend (u : Nat) : Cmd := { dsend 0x33 0 0 [] with uid := u, fired := false }

theorem test_CommandLife_wait_met :
    (∀ d ∈ [dpost, { dpost with since := some 0 }], (tpost d).cmd 0 1 = some d ∧ (tpost d).mach.mayIssue 0 d = true ∧ ((tpost d).core 0).waitsFinish d = true) ∧
    (let s := ts { tc (tx []) with kq := [{ dpost with uid := 2 }, dpost] }
     s.cmd 0 1 = some dpost ∧ s.mach.mayIssue 0 dpost = false ∧ dpost.issued = false) := by decide +kernel

theorem test_CommandLife_due_met :
    (let s := ts { tc (tx []) with kq := [dtsend 1, dtsend 2] }
     (s.core 0).kq = [] ++ dtsend 1 :: [dtsend 2] ∧ (s.core 0).kq = [dtsend 1] ++ dtsend 2 :: [] ∧ s.cmd 0 1 = some (dtsend 1) ∧ s.cmd 0 2 = some (dtsend 2) ∧
     Due (s.core 0) (dtsend 1) ∧ Due (s.core 0) (dtsend 2) ∧ (dtsend 1).uid ≠ 2) := by
  unfold Due; decide +kernel

/-! ## Phases, checking and errors -/

/-- Core 0 with its first phase ended, checked or paired, and a command not yet compared. -/
def trec2 (k : Core) : State := { tsj tj k with dev := { (tsj tj k).dev with now := 6, cores := [(0, k), (1, { k with id := 1 })] } }
def tch (p : Phase) : Core := { tc (tx []) with phases := [p], checked := true }
def tpair (p : Phase) : Core := { tc (tx []) with phases := [p], paired := true }

/-- A phase whose signature is known and not resolved, and a pair, cores 0 and 1, whose signatures are 0 and 1, with what the spare core 30 has come to. -/
def tapart : Phase := { tphase 0 true with resolved := false, sig := some 0, ckpt := some (tc (tx [])).checkpoint }
def ttie (served : Option Nat) (sig : BitVec 64) (fault : Bool) : State :=
  let a := tpair tapart
  let sp : Core := { tpair { tapart with sig := some sig } with id := 30, tie := served, a := { tx [] with efault := if fault then 1 else 0 } }
  { tsj tj a with dev := { (tsj tj a).dev with cores := [(0, a), (1, { tpair { tapart with sig := some 1 } with id := 1 })] ++
    if served.isSome then [(30, sp)] else [] } }

/-- The spare matches the odd core: the odd core's phase is resolved, and the even core goes on at the next phase (R262). -/
theorem test_tie_odd : (match exec (.tieBreak 0) (ttie (some 0) 1 false) with
    | .next t => ((t.core 1).phases.all (·.resolved), (t.core 0).phase, (t.core 30).tie)
    | _ => (false, 0, none)) = (true, 1, none) := by decide +kernel

/-- Two cores that run the job, with this command in the queue of core 0; its source is on core 1. -/
def twoCores (l : List Cmd) : State := trec2 { tc (tx []) with vq := l }
def tremote (o : Operand) : Operand := { o with nest := { o.nest with space := .core 1 } }

theorem test_Lane_peer : (∀ n ∈ [0, 63], Lane (twoCores [dvec (.vadd 0 1 (.reg 2) thead) [top 0 64 true, tremote (top 64 64 false)] n none]) 0
      (tremote (top 64 64 false)) n (window 1 + (64 + n))) ∧
    Lane (twoCores [dvec (.vadd 0 1 (.reg 2) thead) [ttrf 4, tremote (top 64 6 false), ttrf 2] 4 none]) 0 (tremote (top 64 6 false)) 4 (window 1 + 68) := by
  refine ⟨?_, ⟨1, rfl, by decide +kernel, by decide +kernel, by decide⟩, .inr ?_⟩
  · intro n hn
    fin_cases hn <;> refine ⟨⟨1, rfl, by decide +kernel, by decide +kernel, by decide⟩, .inr ?_⟩ <;> rintro g ⟨⟩ <;> decide +kernel
  · rintro g ⟨⟩
    decide +kernel

/-- Two commands that draw from the value that one write of `COIN` left to them, and one that draws from `COIN`. -/
theorem test_CabinetElements_coin_met :
    (let d := { dcab (.vskd 3 1 thead) 0 with acc := [9, 7] }
     let e := { dcab (.smerge 3 4 (.pred always)) 0 with uid := 2, acc := [9, 7] }
     let f := { dcab (.vskd 3 1 thead) 0 with uid := 3 }
     let s := ts { tc (tx []) with vq := [d, e, f] }
     d ∈ (s.core 0).vq ∧ (∀ e ∈ (s.core 0).lq ++ (s.core 0).sq ++ (s.core 0).mq, e.uid ≠ 1) ∧ d.acc.headD (s.core 0).coin = 9 ∧ f.acc.headD (s.core 0).coin = 0 ∧
     d.acc ≠ [] ∧ SharesCoin d e ∧ ¬SharesCoin d f ∧ e ∈ (s.core 0).vq ∧ f ∈ (s.core 0).vq ∧ e.uid ≠ 1 ∧ f.uid ≠ 1) :=
  ⟨List.mem_cons_self .., (by intro e he; cases he), rfl, by decide +kernel, by decide, ⟨rfl, by decide, rfl⟩, fun h => h.2.1 rfl, .tail _ (.head _), .tail _ (.tail _ (.head _)),
   by decide, by decide⟩

/-- The first phase, open, that can be cancelled, with `n` mismatches and these units against it; and a core of a FIXED job in it. -/
def topen (n : Nat) (units : List Nat) : Phase := { tphase 0 false with ckpt := some (tc (tx [])).checkpoint, mismatches := n, units := units }
def tchk (p : Phase) (lq : List Cmd) (accs : List Acc) : State := trec2 { tch p with fixed := true, lq := lq, accs := accs }

theorem test_CanCancel (n : Nat) (us : List Nat) (lq : List Cmd) (accs : List Acc) (h : lq = [] ∨ ∃ d, lq = [d]) :
    CanCancel ((tchk (topen n us) lq accs).core 0) 0 (topen n us) (tc (tx [])).checkpoint ∧ Settled (tchk (topen n us) lq accs) 0 := by
  refine ⟨⟨rfl, rfl, ?_⟩, ?_, ?_, ?_⟩
  · intro q hq _
    obtain rfl : q = topen n us := List.mem_singleton.1 hq
    exact ⟨rfl, rfl⟩
  · intro x; cases x <;> rfl
  · intro z hz; cases hz
  · obtain rfl | ⟨d, rfl⟩ := h
    · intro d hd; cases hd
    · intro a ha b hb _
      exact (List.mem_singleton.1 ha).trans (List.mem_singleton.1 hb).symm

theorem test_Recovery_met :
    (((trec2 { tch (tphase 0 true) with checked := false }).core 0).phases = [tphase 0 true] ∧ (tphase 0 true).ended = true ∧
      ((trec2 { tch (tphase 0 true) with checked := false }).core 0).paired = false) ∧
    (let d := { dfresh with ready := false, born := 0 }
     let s := trec2 { tch { tphase 0 false with irrevocable := true } with lq := [d] }
     s.cmd 0 1 = some d ∧ (s.core 0).checked = true ∧ d.ready = false ∧ d.born + 4 ≤ s.dev.now ∧ (s.core 0).cancelled = none ∧ d.during = 0 ∧
     (s.core 0).phaseRec 0 = some { tphase 0 false with irrevocable := true } ∧ s.jobOf 0 = some tj ∧ tj.ending = none) ∧
    (let a := { tacc 9 .store 0x20000 8 .waiting none with ready := false, born := 2 }
     let s := tchk (topen 0 []) [] [a]
     s.cmd 0 9 = none ∧ (s.core 0).acc 9 = some a ∧ (s.core 0).checked = true ∧ a.ready = false ∧ a.born + 4 ≤ s.dev.now ∧ (s.core 0).cancelled = none ∧ a.phase = 0) ∧
    (((tchk (topen 1 []) [] []).core 0).phaseRec 0 = some (topen 1 []) ∧ (topen 1 []).mismatches ≠ 0 ∧ (tchk (topen 1 []) [] []).jobOf 0 = some tj ∧
      ((tsx (tx [])).core 0).checked = false ∧ ((tsx (tx [])).core 0).paired = false ∧ (tsx (tx [])).jobOf 0 = some tj ∧ (topen 0 []).mismatches = 0) ∧
    (((trec2 (tpair { tphase 0 true with resolved := false })).core 0).signable = some { tphase 0 true with resolved := false } ∧
      ((trec2 (tpair { tphase 0 true with resolved := false })).core 0).phaseStores 0 = [] ∧
      ((trec2 (tpair { tphase 0 true with resolved := false })).core 1).signature = none) ∧
    (let s : State := { ttie none 0 false with dev := { (ttie none 0 false).dev with cores := [(0, tpair { tphase 0 true with resolved := false }), (1, { tpair tapart with id := 1 })] } }
     (s.core 0).signable = some { tphase 0 true with resolved := false } ∧ (s.core 1).signature = some (0, 0) ∧
     ∀ k ∈ [s.core 0, s.core 1], k.phaseStores 0 = []) ∧
    (((ttie none 0 false).core 0).signature = some (0, 0) ∧ ((ttie none 0 false).core 1).signature = some (0, 1) ∧ (ttie none 0 false).jobOf 0 = some tj ∧
      (ttie none 0 false).mach.spareFree 30 = true ∧ ((ttie none 0 false).core 0).phaseRec 0 = some tapart ∧ tapart.ckpt = some (tc (tx [])).checkpoint ∧
      (tc (tx [])).checkpoint.filled = true ∧ (ttie none 0 false).mem.wf = true) ∧
    (((ttie (some 0) 0 false).core 30).tie = some 0 ∧ (ttie (some 0) 0 false).dev.waving = none ∧
      ((ttie (some 0) 0 false).core 30).spareVerdict = some (some 0) ∧ ((ttie (some 0) 1 false).core 30).spareVerdict = some (some 1) ∧
      ((ttie (some 0) 2 false).core 30).spareVerdict = some (some 2) ∧ ((ttie (some 0) 0 true).core 30).spareVerdict = some none) ∧
    (let s := ts { tc (tx []) with x := { tx [] with fetchHeld := some 0xFFC } }
     (s.ctx 0 .x).fetchHeld = some 0xFFC ∧ s.jobOf 0 = some tj) ∧
    (let s : State := { tsj tj { tc (tx []) with fixed := true } with dev := { (tsj tj { tc (tx []) with fixed := true }).dev with now := 1 } }
     (s.core 0).fixed = true ∧ (s.core 0).freeAt = none ∧ (s.core 0).life = .running ∧ (s.core 0).tie = none ∧
     (s.core 0).budget.toNat < (s.core 0).budgetUsed s.dev.now) ∧
    (32 * 24575 < 0xC0000 ∧ 65535 < 65536 ∧ 2047 < 2048 ∧ 16383 < 16384 ∧ ((tsx (tx [])).dev.memKind (32 * 0x2FFFFFFFF) 32).isSome = true) := by
  refine ⟨?_, ?_, ?_, ?_, ?_, ?_, ?_, ?_, ?_, ?_, ?_⟩ <;> decide +kernel

theorem test_Recovery_image : ∃ m image, (tsx (tx [])).mach.jobImage tj = (m, image) ∧ m.held = false := ⟨_, _, rfl, rfl⟩

/-- Not yet compared: a command at the head of its queue, behind one that has issued, or behind one that has not; an access behind one that is ready. -/
theorem test_Recovery_queue_met :
    (let d := { dfresh with ready := false, born := 0 }
     let e := { dcopy with uid := 2 }
     let s (l : List Cmd) : State := trec2 { tch (tphase 0 false) with lq := l ++ [d] }
     ((s []).core 0).lq = [] ++ d :: [] ∧ ((s [e]).core 0).lq = [e] ++ d :: [] ∧ (s [e]).cmd 0 1 = some d ∧ e.uid ≠ 1 ∧ e.issued = true ∧
     (s [{ e with issued := false }]).cmd 0 1 = some d ∧ ({ e with issued := false } : Cmd).issued = false) ∧
    (let a := { tacc 9 .store 0x20000 8 .waiting none with ready := false, born := 2 }
     let s := tchk (topen 0 []) [] [tacc 8 .store 0x20000 8 .waiting none, a]
     (s.core 0).accs = [tacc 8 .store 0x20000 8 .waiting none] ++ a :: [] ∧ (s.core 0).acc 9 = some a ∧ (tacc 8 .store 0x20000 8 .waiting none).uid ≠ 9 ∧
     (tacc 8 .store 0x20000 8 .waiting none).ready = true) := by decide +kernel

theorem test_Recovery_commit_met : (∀ d ∈ ((trec2 { tch (tphase 0 true) with checked := false }).core 0).cmds, d.phase = some 0 → d.q = .sq) ∧
    ∀ q, ∀ d ∈ ((trec2 { tch (tphase 0 true) with checked := false }).core 0).queue q, d.q = q := by
  refine ⟨by decide, ?_⟩
  intro q d h
  cases q <;> cases h

/-- The unit at 8 of core 0 is poisoned, with its phase open: no unit has cancelled it yet, or this one has. -/
def tpois (us : List Nat) (x : Ctx) (lq : List Cmd) : State :=
  let s := tchk (topen 0 us) lq []
  { s with dev := { s.dev with poison := [window 0], cores := [(0, { s.core 0 with a := x })] } }

theorem test_tpois_absorbed (x : Ctx) (lq : List Cmd) (w : x.wait = none) (h : lq = [] ∨ ∃ d, lq = [d]) :
    Absorbed ((tpois [] x lq).core 0) 0 (window 0) (topen 0 []) (tc (tx [])).checkpoint ∧ Settled (tpois [] x lq) 0 := by
  obtain ⟨⟨-, -, -⟩, -, h2⟩ := test_CanCancel 0 [] lq [] h
  refine ⟨⟨⟨rfl, rfl, ?_⟩, by decide⟩, ?_, h2⟩
  · intro q hq _
    obtain rfl : q = topen 0 [] := List.mem_singleton.1 hq
    exact ⟨rfl, rfl⟩
  · intro k; cases k
    · exact w
    · rfl
    · rfl

theorem test_tpois_again (x : Ctx) (lq : List Cmd) (p : Phase) (k : Ckpt) : ¬Absorbed ((tpois [window 0] x lq).core 0) 0 (window 0) p k := by
  rintro ⟨⟨h, -⟩, hu⟩
  obtain rfl : topen 0 [window 0] = p := Option.some.inj h
  exact hu (by decide)

theorem test_PoisonAndCancellation_met :
    (∀ us ∈ [[], [window 0]],
      (let s := tpois us { tx [(5, 8)] with rq := [⟨4, some 9, some (BitVec.ofNat 64 (window 0))⟩] } []
       s.cur.guard always = true ∧ s.cur.rq = [⟨4, some 9, some (BitVec.ofNat 64 (window 0))⟩] ∧ (BitVec.ofNat 64 (window 0)).toNat = window 0 ∧ s.here.phase = 0 ∧ CanTrap s.cur Cause.uncorrectable) ∧
      (let s := tpois us (tx [(5, 8)]) []
       ∃ r, loadRow (.ldd 3 5 0 always) = some r ∧ s.cur.guard r.g = true ∧ r.ea s.cur % r.size = 0 ∧ (oneStorage (r.ea s.cur) (r.ea s.cur + r.size)).isSome = true ∧
         s.here.scalarOk (r.ea s.cur) (r.ea s.cur + r.size) false = true ∧ s.dev.poisonIn (r.pa s) r.size = some (window 0) ∧ s.cid = 0) ∧
      (let d := { dmat 0x20 0 [top 8 2 false] 0 2 with q := .lq }
       let s := tpois us (tx []) [d]
       Ready s 0 1 d ∧ OnChip s 0 (top 8 2 false) 0 (window 0 + 8) ∧ s.dev.poisonIn (window 0 + 8) 1 = some (window 0) ∧ d.phase = some 0 ∧ d.gang = none ∧
         CanFault s 0 d .a)) := by
  intro us hu
  fin_cases hu <;>
    exact ⟨⟨by decide, by decide, by decide, by decide, by unfold CanTrap; decide⟩, ⟨_, rfl, by decide, by decide, by decide, by decide, by decide, by decide⟩,
      ⟨⟨⟨by decide +kernel, by decide, by decide, by decide, by decide⟩, by decide⟩, test_OnChip _ _ _ _ (by decide), by decide, by decide, by decide, by unfold CanFault; decide +kernel⟩⟩

/-! ### Poison that an engine meets -/

/-- Core 0 with one command, these marks and this memory. -/
def tmark (marks : List Nat) (m : Mem) (d : Cmd) : State := { tel d with mem := m, dev := { (tel d).dev with poison := marks } }

theorem test_tmark (marks : List Nat) (m : Mem) (d : Cmd) (h : (tel d).cmd 0 1 = some d) (w : d.working = true)
    (z : d.null = false ∧ d.again = [] ∧ d.edges = [] ∧ d.remote 0 = none) : Ready (tmark marks m d) 0 1 d := ⟨⟨h, w, z.1, z.2.2.1, z.2.2.2⟩, z.2.1⟩

theorem test_Marked (marks : List Nat) (pa n u : Nat) (h : u ∈ marks ∧ (unit pa).1 = u ∧ 1 ≤ n) : Marked marks pa n u :=
  ⟨h.1, 0, h.2.2, h.2.1, fun _ hk => absurd hk (Nat.not_lt_zero _)⟩

/-- An element of an operand on core 0 begins in a marked unit, or touches none. -/
theorem test_MarkedElem (s : State) (o : Operand) (n u : Nat) (h : o.nest.space = .core 0 ∧ 1 ≤ o.nest.esz)
    (k : u ∈ s.dev.poison ∧ (unit (window 0 + (o.nest.addr n / 2).toNat)).1 = u) : MarkedElem s 0 o n u :=
  ⟨_, test_OnChip _ o n _ ⟨h.1, h.2, rfl⟩, test_Marked _ _ _ _ ⟨k.1, k.2, by have := h.2; omega⟩⟩

theorem test_CleanElem (s : State) (o : Operand) (n : Nat) (h : o.nest.space = .core 0 ∧ 1 ≤ o.nest.esz)
    (k : ∀ i, i < (o.nest.esz + 1) / 2 → (unit (window 0 + (o.nest.addr n / 2).toNat + i)).1 ∉ s.dev.poison) : CleanElem s 0 o n :=
  ⟨_, test_OnChip _ o n _ ⟨h.1, h.2, rfl⟩, k⟩

def wmark (pa : Nat) : Nat := window 0 + pa
def dseats0 : Cmd := { dseats with n := 0, acc := [] }
def ddrain : Cmd := dmat 0x23 0 [ttrf 1, top 8 1 false] 0 1

/-- The metadata of a sparse seat and, where that is clean, its values; the word of a drain, of an MX one in the TRF. -/
theorem test_Poison_loads_met :
    (Ready (tmark [wmark 64] [] dseats0) 0 1 dseats0 ∧ MarkedElem (tmark [wmark 64] [] dseats0) 0 (top 64 1 false) (dseats0.n / 2) (wmark 64)) ∧
    (Ready (tmark [wmark 0] [(wmark 64, 4)] dseats0) 0 1 dseats0 ∧ OnChip (tmark [wmark 0] [(wmark 64, 4)] dseats0) 0 (top 64 1 false) 0 (wmark 64) ∧
      Clean [wmark 0] (wmark 64) 1 ∧ bitsAt (tmark [wmark 0] [(wmark 64, 4)] dseats0).mach (wmark 64) 128 2 = 4 ∧
      MarkedElem (tmark [wmark 0] [(wmark 64, 4)] dseats0) 0 (top 8 2 false) 0 (wmark 0)) ∧
    (Ready (tmark [wmark 0] [] ddrain) 0 1 ddrain ∧ MarkedElem (tmark [wmark 0] [] ddrain) 0 (top 8 1 false) 0 (wmark 0)) ∧
    (Ready (tmark [wmark 0x100000] [] (dmx 0)) 0 1 (dmx 0) ∧
      ∃ p, (dmx 0).ops[2]? = some p ∧ MarkedElem (tmark [wmark 0x100000] [] (dmx 0)) 0 p 0 (wmark 0x100000)) ∧ wmark 0x100000 < 2 ^ 60 := by
  refine ⟨⟨test_tmark _ _ _ ?_ ?_ ?_, test_MarkedElem _ _ _ _ ?_ ?_⟩, ⟨test_tmark _ _ _ ?_ ?_ ?_, test_OnChip _ _ _ _ ?_, ?_, ?_, test_MarkedElem _ _ _ _ ?_ ?_⟩,
    ⟨test_tmark _ _ _ ?_ ?_ ?_, test_MarkedElem _ _ _ _ ?_ ?_⟩, ⟨test_tmark _ _ _ ?_ ?_ ?_, _, rfl, test_MarkedElem _ _ _ _ ?_ ?_⟩, ?_⟩ <;>
    (try unfold Clean) <;> decide +kernel

/-- A row of two columns over a depth of two: a seat that is marked, the second value of the row, and the second output of an `mmul` that accumulates. -/
def dmm (m : BitVec 8) : Cmd :=
  { dmat 0x22 m [ttrf 2, top 31 16 false] 0 2 with work := .record { rop 0x22 with mod := m, aux := 0x20000 }, regions := [0] }
def tseatIs (p : Bool) : Seat := { tseat with kd := 2, cols := 2, poisoned := p }
def tmm (marks : List Nat) (p : Bool) (m : BitVec 8) : State :=
  let s := tmark marks [] (dmm m)
  { s with dev := { s.dev with cores := s.dev.cores.map fun k => (k.1, { k.2 with seat0 := tseatIs p }) } }

theorem test_Poison_mmul_met :
    (∀ p ∈ [true, false], ∀ m ∈ [0, 2], (tmm [wmark 32] p m).cmd 0 1 = some (dmm m) ∧ (dmm m).working = true ∧ (dmm m).null = false ∧ (dmm m).edges = [] ∧
      (dmm m).remote 0 = none ∧ (dmm m).again = [] ∧ (dmm m).isOpc 0x22 = true ∧ (dmm m).fmtw = some fw8 ∧ (ttrf 2).nest.trip 0 = 2 ∧ (dmm m).aux 16 9 = 2 ∧
      ((tmm [wmark 32] p m).core 0).seatOf ((dmm m).mod % 2) = tseatIs p) ∧
    ((tseatIs false).full = true ∧ (tseatIs false).record = fw8.extractLsb' 0 19 ∧ 2 ≤ (tseatIs false).kd ∧ (tseatIs true).poisoned = true) ∧
    (CleanElem (tmm [wmark 32] false 0) 0 (top 31 16 false) 0 ∧ MarkedElem (tmm [wmark 32] false 0) 0 (top 31 16 false) 1 (wmark 32)) ∧
    ((dmm 2).mod / 2 % 2 = 1 ∧ (dmm 2).regions = [0] ∧ (∀ j, j < 2 → CleanElem (tmm [wmark 0x100004] false 2) 0 (top 31 16 false) (0 * 2 + j)) ∧
      CleanElem (tmm [wmark 0x100004] false 2) 0 (ttrf 2) 0 ∧ MarkedElem (tmm [wmark 0x100004] false 2) 0 (ttrf 2) 1 (wmark 0x100004)) := by
  refine ⟨by decide +kernel, by decide +kernel, ⟨test_CleanElem _ _ _ ?_ ?_, test_MarkedElem _ _ _ _ ?_ ?_⟩, ?_, ?_, ?_, test_CleanElem _ _ _ ?_ ?_,
    test_MarkedElem _ _ _ _ ?_ ?_⟩
  case refine_7 => intro j hj; interval_cases j <;> exact test_CleanElem _ _ _ (by decide +kernel) (by decide +kernel)
  all_goals decide +kernel

/-- The index of an indexed command; the value and the place of a `scattera`. -/
def dscat (src : Int) : Cmd := { dindex 0x15 0 0 0 6 with ops := [top 64 4 true, top src 4 false] ++ (dindex 0x15 0 0 0 6).ops.drop 2 }

theorem test_Poison_indexed_met :
    (∀ o ∈ [0x12, 0x13, 0x14, 0x15], Ready (tmark [wmark 0x100] [] (dindex o 0 0 0 6)) 0 1 (dindex o 0 0 0 6) ∧
      ∃ l, (dindex o 0 0 0 6).ops[2]? = some l ∧ MarkedElem (tmark [wmark 0x100] [] (dindex o 0 0 0 6)) 0 l 0 (wmark 0x100)) ∧
    (∀ src ∈ [8, 96], Ready (tmark [wmark 0] [] (dscat src)) 0 1 (dscat src) ∧ (dscat src).isOpc 0x15 = true ∧ ScatteraRow 0 1 ((dscat src).mod % 8) (.scatteraAdd 0 1) ∧
      (dscat src).regions.getLast? = some 8 ∧ IndexIs (tmark [wmark 0] [] (dscat src)) 0 (dscat src) 0 ∧
      ∃ l, (dscat src).ops[2]? = some l ∧ CleanElem (tmark [wmark 0] [] (dscat src)) 0 l 0) ∧
    MarkedElem (tmark [wmark 0] [] (dscat 8)) 0 (top 8 4 false) 0 (wmark 0) ∧ CleanElem (tmark [wmark 0] [] (dscat 96)) 0 (top 96 4 false) 0 ∧
    placed 8 6 1 0 = 16 ∧ (tmark [wmark 0] [] (dscat 96)).mach.reachable 0 0 = true ∧ Marked [wmark 0] (window 0 + (16 / 2 : Int).toNat) 4 (wmark 0) := by
  refine ⟨?_, ?_, test_MarkedElem _ _ _ _ ?_ ?_, test_CleanElem _ _ _ ?_ ?_, ?_, ?_, test_Marked _ _ _ _ ?_⟩
  · intro o ho
    fin_cases ho <;> exact ⟨test_tmark _ _ _ (by decide +kernel) (by decide +kernel) (by decide +kernel), _, rfl, test_MarkedElem _ _ _ _ (by decide +kernel) (by decide +kernel)⟩
  · intro src hs
    fin_cases hs <;> exact ⟨test_tmark _ _ _ (by decide +kernel) (by decide +kernel) (by decide +kernel), by decide +kernel, .inl ⟨by decide +kernel, rfl⟩, by decide +kernel,
      ⟨_, rfl, rfl, rfl, by decide +kernel⟩, _, rfl, test_CleanElem _ _ _ (by decide +kernel) (by decide +kernel)⟩
  all_goals decide +kernel

/-- A source of a vector instruction, the header of a summary, and the next value of an absorbing command whose summary is valid and clean. -/
def dabs : Cmd := { dcab (.vskd 3 1 thead) 0 with work := .vec (.vskd 3 1 thead) (tregion 0 96 3) (tregion 1024 64 3) 0 0 1 none }
def tabs (marks : List Nat) : State := tmark marks (cells (window 0) (tfresh 3).bytes) dabs

theorem test_Poison_vector_met :
    (∀ p ∈ [(1, Instr.vadd 0 1 (.reg 2) thead), (0, .vrsum 1 thead)],
      let d := dvec p.2 [top 0 64 true, top 64 64 false, top 128 64 false] 0 (some 4)
      Ready (tmark [wmark 0, wmark 64] [] d) 0 1 d ∧ d.q = .vq ∧ takesFrom p.1 p.2 = true ∧
      Lane (tmark [wmark 0, wmark 64] [] d) 0 (top 0 64 true) 0 (wmark 0) ∧ Lane (tmark [wmark 0, wmark 64] [] d) 0 (top 64 64 false) 0 (wmark 64) ∧
      Marked [wmark 0, wmark 64] (wmark 0) 1 (wmark 0) ∧ Marked [wmark 0, wmark 64] (wmark 64) 1 (wmark 64)) ∧
    (∀ p ∈ [Instr.vskd 3 1 thead, .smerge 3 4 (.pred always), .squeryEst 3 (.pred always)], Ready (tmark [wmark 0] [] (dcab p 0)) 0 1 (dcab p 0)) ∧
    ((tregion 0 65535 3).getLsbD 25 = false ∧ 64 ≤ ((tregion 0 65535 3).extractLsb' 27 16).toNat * (fmtNibs ((tregion 0 65535 3).extractLsb' 67 5).toNat / 2) ∧
      Marked [wmark 0] (wmark 0) 64 (wmark 0)) := by
  refine ⟨?_, ?_, by decide, by decide, test_Marked _ _ _ _ (by decide)⟩
  · intro p hp
    fin_cases hp <;> exact ⟨test_tmark _ _ _ rfl rfl ⟨rfl, rfl, rfl, rfl⟩, rfl, rfl, test_Lane _ _ _ _ (by decide +kernel), test_Lane _ _ _ _ (by decide +kernel),
      test_Marked _ _ _ _ (by decide), test_Marked _ _ _ _ (by decide)⟩
  · intro p hp
    fin_cases hp <;> exact test_tmark _ _ _ rfl rfl ⟨rfl, rfl, rfl, rfl⟩

theorem test_Poison_absorb_met :
    Ready (tabs [wmark 1024]) 0 1 dabs ∧ (tregion 0 96 3).getLsbD 25 = false ∧ SummaryAt (tabs [wmark 1024]) 0 (tregion 0 96 3) (tfresh 3) ∧
    Clean [wmark 1024] (window 0 + ((tregion 0 96 3).extractLsb' 0 20).toNat) (((tregion 0 96 3).extractLsb' 27 16).toNat * (fmtNibs ((tregion 0 96 3).extractLsb' 67 5).toNat / 2)) ∧
    (tfresh 3).kind = 3 ∧ (tfresh 3).vfmt = RegionReg.fmt (tregion 1024 64 3) ∧ dabs.ops = [top 0 128 true, top 1024 64 false] ∧
    Lane (tabs [wmark 1024]) 0 (top 1024 64 false) 0 (wmark 1024) ∧ Marked [wmark 1024] (wmark 1024) 1 (wmark 1024) := by
  refine ⟨test_tmark _ _ _ rfl rfl ⟨rfl, rfl, rfl, rfl⟩, by decide, ⟨_, _, (tfresh 3).bytes.length, rfl, rfl, by decide +kernel, ?_, by decide +kernel, ?_⟩, ?_,
    by decide, by decide, rfl, test_Lane _ _ _ _ (by decide +kernel), test_Marked _ _ _ _ (by decide)⟩
  · decide +kernel
  · decide +kernel
  · unfold Clean; decide +kernel

/-- What moves a mark: the copies, an indexed move, a line; and a `gatherff`, which ends. -/
def dtcopy : Cmd := dmat 0x25 0 [ttrf 1, top 8 1 false] 0 1
def dput : Cmd := { dindex 0x14 0 0 0 6 with ops := [top 64 4 true, top 128 4 false] ++ (dindex 0x14 0 0 0 6).ops.drop 2 }
noncomputable def dline (load : Bool) : Cmd :=
  dvec (if load then .tload 0 .dia 5 250 else .tstore 0 .adi 5 250) (if load then [ttrf 4, top 64 4 false] else [top 64 4 true, ttrf 4]) 3 none

theorem test_Poison_moved_met :
    (∀ d ∈ [dcopy, dtcopy], Ready (tmark [wmark 0] [] d) 0 1 d ∧ OnChip (tmark [wmark 0] [] d) 0 (top 8 1 false) 0 (wmark 8) ∧
      Marked [wmark 0] (wmark 8) 1 (wmark 0)) ∧
    (OnChip (tmark [wmark 0] [] dcopy) 0 (top 0xBFFFF 1 true) 0 (wmark 0xBFFFF) ∧ OnChip (tmark [wmark 0] [] dtcopy) 0 (ttrf 1) 0 (wmark 0x100000)) ∧
    (∀ o ∈ [0x12, 0x13], Ready (tmark [wmark 0] [] (dindex o 0 0 0 6)) 0 1 (dindex o 0 0 0 6) ∧ OnChip (tmark [wmark 0] [] (dindex o 0 0 0 6)) 0 (top 64 4 true) 0 (wmark 64) ∧
      ∃ l, (dindex o 0 0 0 6).ops[2]? = some l ∧ CleanElem (tmark [wmark 0] [] (dindex o 0 0 0 6)) 0 l 0) ∧
    (placed 8 6 1 0 = 16 ∧ 1 ≤ fmtNibs 6 ∧ Marked [wmark 0] (window 0 + (16 / 2 : Int).toNat) ((fmtNibs 6 + 1) / 2) (wmark 0)) ∧
    (Ready (tmark [wmark 128] [] dput) 0 1 dput ∧ dput.isOpc 0x14 = true ∧ MarkedElem (tmark [wmark 128] [] dput) 0 (top 128 4 false) 0 (wmark 128) ∧
      IndexIs (tmark [wmark 128] [] dput) 0 dput 0 ∧ ∃ l, dput.ops[2]? = some l ∧ CleanElem (tmark [wmark 128] [] dput) 0 l 0) := by
  refine ⟨?_, ⟨test_OnChip _ _ _ _ ?_, test_OnChip _ _ _ _ ?_⟩, ?_, ⟨?_, ?_, test_Marked _ _ _ _ ?_⟩, test_tmark _ _ _ ?_ ?_ ?_, ?_, test_MarkedElem _ _ _ _ ?_ ?_,
    ⟨_, rfl, rfl, rfl, ?_⟩, _, rfl, test_CleanElem _ _ _ ?_ ?_⟩
  case refine_1 =>
    intro d hd
    fin_cases hd <;> exact ⟨test_tmark _ _ _ (by decide +kernel) (by decide +kernel) (by decide +kernel), test_OnChip _ _ _ _ (by decide +kernel), test_Marked _ _ _ _ (by decide)⟩
  case refine_4 =>
    intro o ho
    fin_cases ho <;> exact ⟨test_tmark _ _ _ (by decide +kernel) (by decide +kernel) (by decide +kernel), test_OnChip _ _ _ _ (by decide +kernel), _, rfl,
      test_CleanElem _ _ _ (by decide +kernel) (by decide +kernel)⟩
  all_goals decide +kernel

theorem test_Poison_line_met :
    (Ready (tmark [wmark 64] [] (dline true)) 0 1 (dline true) ∧ Lane (tmark [wmark 64] [] (dline true)) 0 (ttrf 4) 3 (wmark 0x10000C) ∧
      Lane (tmark [wmark 64] [] (dline true)) 0 (top 64 4 false) 3 (wmark 67) ∧ Marked [wmark 64] (wmark 67) 1 (wmark 64)) ∧
    (Ready (tmark [wmark 0x10000C] [] (dline false)) 0 1 (dline false) ∧ Lane (tmark [wmark 0x10000C] [] (dline false)) 0 (ttrf 4) 3 (wmark 0x10000C) ∧
      Lane (tmark [wmark 0x10000C] [] (dline false)) 0 (top 64 4 true) 3 (wmark 67) ∧ Marked [wmark 0x10000C] (wmark 0x10000C) 4 (wmark 0x10000C)) ∧
    3 < (ttrf 4).nest.total ∧ 3 < (top 64 4 false).nest.total :=
  ⟨⟨test_tmark _ _ _ rfl rfl ⟨rfl, rfl, rfl, rfl⟩, test_Lane _ _ _ _ (by decide +kernel), test_Lane _ _ _ _ (by decide +kernel), test_Marked _ _ _ _ (by decide)⟩,
   ⟨test_tmark _ _ _ rfl rfl ⟨rfl, rfl, rfl, rfl⟩, test_Lane _ _ _ _ (by decide +kernel), test_Lane _ _ _ _ (by decide +kernel), test_Marked _ _ _ _ (by decide)⟩,
   by decide, by decide⟩

/-- A copy from a page of the job that is error-tolerant, at a marked sector (R258), which the command has met before or not. -/
def det (subs : List Nat) : Cmd :=
  { tcmd (rop 0x10) [top 0 1 true, { top 0x10008 1 false with nest := { (top 0x10008 1 false).nest with space := .virt } }] 1 with subs := subs }
def tet (subs : List Nat) : State :=
  let s := tmark [0x20000] [] (det subs)
  { s with dev := { s.dev with sectorKeys := [(0x20000, 1)], cores := s.dev.cores.map fun k => (k.1, { k.2 with tlb := [⟨1, 0x10000, 4096, 0x20000, 0x50000000000067, 0x3000, [], true⟩] }) } }

theorem test_Poison_et_met : ∀ subs ∈ [[], [0x20000]],
    (tet subs).cmd 0 1 = some (det subs) ∧ (det subs).working = true ∧ (det subs).isOpc 0x10 = true ∧ (0x50000000000067 : Word).getLsbD 2 = true ∧
    (∃ m, (tet subs).mach.translate 0 0x10008 false (1, 1) = (m, .ok (0x20008, 0x50000000000067))) ∧ (tet subs).mach.transBusy 0 0x10008 false (1, 1) = false ∧
    ((tet subs).dev.memKind 0x20008 1).isSome = true ∧ (0x50000000000067 : Word).getLsbD 3 = false ∧ (tet subs).dev.cxlBusy 0x20008 1 = false ∧ (tet subs).dev.flying = [] ∧
    (tet subs).dev.sectorKey 0x20008 = (tet subs).dev.keyId 5 ∧ OnChip (tet subs) 0 (top 0 1 true) 0 (wmark 0) ∧ Marked [0x20000] 0x20008 1 0x20000 := by
  intro subs hs
  fin_cases hs <;> exact ⟨by decide +kernel, by decide, by decide, by decide, ⟨_, rfl⟩, by decide +kernel, by decide +kernel, by decide, by decide +kernel, by decide +kernel,
    by decide +kernel, test_OnChip _ _ _ _ (by decide), test_Marked _ _ _ _ (by decide)⟩

/-- A byte of a marked sector that a `fill` writes, and all four of a word of the TRF by a `tzero`. -/
theorem test_Poison_cover_met :
    (Ready (tmark [wmark 0] [] dfill) 0 1 dfill ∧ OnChip (tmark [wmark 0] [] dfill) 0 (top 0 1 true) 0 (wmark 0) ∧ (unit (wmark 0)).1 ∉ dfill.moved ∧
      (unit (wmark 0)).1 ∈ [wmark 0] ∧ 2 * wmark 0 + 2 ≤ 2 * ((unit (wmark 0)).1 + (unit (wmark 0)).2)) ∧
    (let d := dmat 0x24 0 [ttrf 1] 0 1
     Ready (tmark [wmark 0x100000] [] d) 0 1 d ∧ OnChip (tmark [wmark 0x100000] [] d) 0 (ttrf 1) 0 (wmark 0x100000) ∧ (unit (wmark 0x100000)).1 ∉ d.moved ∧
     (unit (wmark 0x100000)).1 ∈ [wmark 0x100000] ∧ 2 * wmark 0x100000 + 8 ≤ 2 * ((unit (wmark 0x100000)).1 + (unit (wmark 0x100000)).2)) :=
  ⟨⟨test_tmark _ _ _ (by decide +kernel) (by decide +kernel) (by decide +kernel), test_OnChip _ _ _ _ (by decide), by decide, by decide, by decide⟩,
   test_tmark _ _ _ (by decide +kernel) (by decide +kernel) (by decide +kernel), test_OnChip _ _ _ _ (by decide +kernel), by decide, by decide, by decide⟩

/-- A cancellation of this cycle that serves a consumption of its own phase. -/
theorem test_Poison_served_met :
    (let s := tpois [] { tx [(5, 8)] with rq := [⟨4, some 9, some (BitVec.ofNat 64 (window 0))⟩] } []
     let s : State := { s with dev := { s.dev with cores := s.dev.cores.map fun k => (k.1, { k.2 with cancelled := some (6, 0, [3]) }) } }
     s.cur.guard always = true ∧ s.cur.rq = [⟨4, some 9, some (BitVec.ofNat 64 (window 0))⟩] ∧ Absorbed s.here 0 (window 0) (topen 0 []) (tc (tx [])).checkpoint ∧
     s.here.phase = 0 ∧ s.here.cancelled = some (s.dev.now, 0, [3])) := by
  refine ⟨by decide, by decide, ⟨⟨rfl, rfl, ?_⟩, by decide⟩, by decide, by decide⟩
  intro q hq _
  obtain rfl : q = topen 0 [] := List.mem_singleton.1 hq
  exact ⟨rfl, rfl⟩

/-! ## Messages -/

/-- A window of two tiles of 64 bytes of UINT8 from 0, with counters 8 and 9 and two contributions each. -/
def twin (op : Nat) : Window := ⟨0, 64, 2, 2, 8, 3, op, 0x1000, false, [63, 0], [], [], [], [], []⟩

/-- A message from core 1 to core 0 on its way, in a job of which core 0 has this state. -/
def tmsg (kind : MsgKind) : Msg := { id := 7, job := 1, src := 1, cmd := 1, dst := 0, kind := kind, n := 0, size := 1, refused := false }
def tnet (x : Msg) (k : Core) : State :=
  let s := ts k
  { s with dev := { s.dev with net := [x], cores := [(0, k), (1, { tc (tx []) with id := 1, kq := [{ dsend 0x31 0x18 0 [] with q := .kq }] })] } }

theorem test_Arrives (x : Msg) (k : Core) (h : x.id = 7 ∧ x.refused = false ∧ x.job = 1 ∧ x.dst = 0 ∧ k.life = .running ∧ k.job = some 1)
    (r : (tnet x k).mach.msgReady x = true) : Arrives (tnet x k) 7 x := by
  obtain ⟨h1, -, h3, h4, h5, h6⟩ := h
  refine ⟨?_, r, ?_, ?_, ?_⟩
  · show List.find? _ [x] = _
    simp [h1]
  · rw [h3]; rfl
  · rw [h4]; exact h5
  · rw [h4, h3]; exact h6

/-- The last element of the first tile, which ends a contribution, and the first of the second. -/
theorem test_Arrivals_elements_met :
    (∀ off ∈ [63, 64], Arrives (tnet (tmsg (.elem 0 8 off 3 5 false)) { tc (tx []) with windows := [twin 5] }) 7 (tmsg (.elem 0 8 off 3 5 false))) ∧
    (let s := tnet (tmsg (.elem 0 8 63 3 5 false)) { tc (tx []) with windows := [twin 5] }
     State.Inv s ∧ (s.core 0).window 8 = some (twin 5) ∧ (s.core 0).postPending 8 = false ∧ fmtNibs (twin 5).fmt / 2 = 1 ∧ (twin 5).tile % 1 = 0 ∧
     63 = (twin 5).base + (twin 5).tile * 0 + 1 * 63 ∧ 64 = (twin 5).base + (twin 5).tile * 1 + 1 * 0 ∧ 1 < (twin 5).tiles ∧ 1 * 63 < (twin 5).tile ∧
     natAt (s.core 0).acs (8 + 1) < (twin 5).expect ∧ 1 ∉ (twin 5).finishing ∧ (twin 5).op ≤ 5) ∧
    (let s := tnet (tmsg (.elem 0 8 63 3 5 false)) { tc (tx []) with windows := [twin 5], acs := [(8, 2)] }
     (twin 5).expect ≤ natAt (s.core 0).acs 8) ∧
    (let s := tnet (tmsg (.elem 0 8 63 3 5 false)) (tc (tx []))
     (s.core 0).window 8 = none ∧ s.job 1 = some tj ∧ (tj.parked.map Msg.area).foldl (· + ·) 0 + (tmsg (.elem 0 8 63 3 5 false)).area ≤ tj.quota ∧
     tj.quota < 0 + { tmsg (.elem 0 8 63 3 5 false) with size := 2 ^ 24 }.area) := by
  refine ⟨?_, ?_, by decide, by decide +kernel⟩
  · intro off ho
    fin_cases ho <;> exact test_Arrives _ _ (by decide) (by decide +kernel)
  · unfold State.Inv; decide +kernel

/-- A staged window of two tiles of 16 FP32 values: the last element but one of the first tile, the last one, before the window's last contribution and at an
earlier one; of EXACT elements, under an exponent that is decided, or not. -/
def tstage (op e n : Nat) : Window := { twin op with fmt := 0x10, expect := e, counts := [n, 0], exps := if op = 6 then [(0, 5)] else [] }

theorem test_Arrivals_staged_met : ∀ p ∈ [(1, 6, 2, 14), (1, 6, 1, 15), (1, 6, 2, 15), (2, 7, 2, 14), (2, 7, 1, 15), (2, 7, 2, 15)],
    let w := tstage p.2.1 p.2.2.1 p.2.2.2
    let x := tmsg (.elem p.1 8 60 (if p.1 = 1 then 0x10 else 0x0F) 0x3C00 false)
    let s := tnet x { tc (tx []) with windows := [w] }
    State.Inv s ∧ Arrives s 7 x ∧ (s.core 0).window 8 = some w ∧ (s.core 0).postPending 8 = false ∧ fmtNibs w.fmt / 2 = 4 ∧ w.tile % 4 = 0 ∧
    60 = w.base + w.tile * 0 + 4 * 15 ∧ 4 * 15 < w.tile ∧ 15 = w.tile / 4 * 0 + 15 ∧ natAt (s.core 0).acs (w.ac + 0) < w.expect ∧ 0 ∉ w.finishing ∧
    (p.1 = 1 ∧ w.op = 6 ∧ (∃ q ∈ w.exps, q.1 = 15 / 32) ∨ p.1 = 2 ∧ w.op = 7) := by
  intro p hp
  fin_cases hp <;> exact ⟨by unfold State.Inv; decide, test_Arrives _ _ (by decide) (by decide +kernel), by decide, by decide, by decide, by decide, by decide, by decide,
    by decide, by decide, by decide, by decide⟩

/-- A refused element and a refused exponent, with its sender; a sender that stops; exponent bytes that are not the last or are; an exponent that returns. -/
theorem test_Arrivals_others_met :
    (let x := { tmsg (.elem 0 8 63 3 5 false) with refused := true }
     let s := tnet x (tc (tx []))
     s.mach.msg 7 = some x ∧ (s.core 1).life = .running ∧ (s.core 1).job = some 1 ∧ (s.cmd 1 1).isSome = true ∧ x.kind.counted = true) ∧
    (let x := { tmsg (.expReturn 0 5) with refused := true }
     let s := tnet x (tc (tx []))
     s.mach.msg 7 = some x ∧ (s.core 1).life = .running ∧ (s.core 1).job = some 1 ∧ s.mach.mayReturn x = true) ∧
    (let d := { dsend 0x30 0x18 0 [top 8 1 false] with refused := [(1, 63)] }
     (tel d).cmd 0 1 = some d ∧ d.isOpc 0x30 = true ∧ d.fault = none ∧ (tel d).mach.inFlight 0 1 = false ∧
     d.handler = false ∧ ((tel d).core 0).queueFaulted d = false ∧ d.ctx = some .a) ∧
    (let w : Window := { twin 6 with fmt := 0x10, tile := 128 }
     let x := tmsg (.expByte 8 128 5 0 true)
     let s := tnet x { tc (tx []) with windows := [w] }
     s.mach.msg 7 = some x ∧ s.mach.msgReady x = true ∧ (s.core 0).window 8 = some w ∧ (s.core 0).postPending 8 = false ∧ w.place 128 = some (1, 0) ∧
     (s.core 0).tileReady w 1 = false ∧ (w.perTile * 1 + 0) / 32 = 1 ∧ w.exps = [] ∧
     ((w.pre ++ [(1, 5, 1, 1, 0)]).filter (fun (p : Nat × Nat × Nat × Nat × Nat) => p.1 == 1)).length < w.expect ∧
     w.expect ≤ (((1, 3, 1, 2, 0) :: w.pre ++ [(1, 5, 1, 1, 0)]).filter (fun (p : Nat × Nat × Nat × Nat × Nat) => p.1 == 1)).length) ∧
    (let x := { tmsg (.expReturn 0 5) with dst := 0, cmd := 1 }
     let s := tnet x { tc (tx []) with kq := [dsend 0x31 0x18 0 []] }
     s.mach.msg 7 = some x ∧ s.mach.msgReady x = true ∧ (s.cmd 0 1).isSome = true) := by
  refine ⟨?_, ?_, ?_, ?_, ?_⟩ <;> decide +kernel

/-- A cardinality summary of INT8 values of precision 4 with nothing in it (R311). -/
def tsummary : List Byte := [3, 2, 4, 0] ++ List.replicate 76 0

theorem test_Arrivals_merge_met :
    (let s := { tnet (tmsg (.merge 8 0 tsummary)) (tc (tx [])) with mem := cells (window 0) tsummary }
     s.mem.wf = true ∧ s.mach.msg 7 = some (tmsg (.merge 8 0 tsummary)) ∧ s.mach.msgReady (tmsg (.merge 8 0 tsummary)) = true ∧
     (match s.mach.receiving 0 0 with | .ok (some _) => true | _ => false) = true ∧
     ((readSummary tsummary).any fun q => q.agrees q) = true) := by decide +kernel

/-- A handler record that `HTAB` names, or none. -/
theorem test_Arrivals_amsg_met :
    (let x := tmsg (.amsg ⟨0, 0, 0⟩)
     let s := tnet x (tc (tx []))
     s.mach.msg 7 = some x ∧ s.mach.msgReady x = true ∧ (s.core 0).amsgs.length < 64 ∧ s.mach.amsgParked x = false ∧
     ((s.mach.dropMsg 7).buildHandler 0 ⟨0, 0, 0⟩).2.isNone = true ∧
     (let j := { tj with handlers := [0xFC0] }
      let t : State := { mem := tenq.mem, dev := { s.dev with jobs := [j] } }
      ((t.mach.dropMsg 7).buildHandler 0 ⟨0, 0, 0⟩).2.isSome = true)) ∧
    (let s := ts { tc (tx []) with amsgs := [{ tcopy with handler := true, ctx := none, phase := none }] }
     (s.core 0).amsgs = [{ tcopy with handler := true, ctx := none, phase := none }] ∧ (s.core 0).life = .running ∧ (s.core 0).queueFull .lq = false ∧
     s.jobOf 0 = some tj ∧ tj.parked = []) := by decide +kernel

/-- An active message whose handler record writes this core, or a page whose tables the CXL home agent holds or has free. -/
def tamsg (r : Record) (accs : List Acc) : State :=
  let s := tnet (tmsg (.amsg ⟨0, 0, 0⟩)) { tc (tx []) with accs := accs }
  { mem := (tenqr false [] r).mem, dev := { s.dev with jobs := [{ tj with handlers := [0xFC0] }] } }

theorem test_Arrivals_handler_met :
    (let m := (((tamsg rfill []).mach.dropMsg 7).buildHandler 0 ⟨0, 0, 0⟩)
     m.1.held = false ∧ m.2.isSome = true) ∧
    (let m := (((tamsg rvirt []).mach.dropMsg 7).buildHandler 0 ⟨0, 0, 0⟩)
     m.1.held = false ∧ m.2.isNone = true) ∧
    (((tamsg rvirt [tacc 9 .store 0 4096 .cxl none]).mach.dropMsg 7).buildHandler 0 ⟨0, 0, 0⟩).1.held = true := by decide +kernel

/-- Two parked messages whose slot names no handler, behind a handler record that waits. -/
def tunnamed (id : Nat) : Msg := { tmsg (.amsg ⟨4, 0, 0⟩) with id := id }
def tjparked : Job := { tj with parked := [tunnamed 7, tunnamed 8] }
def tparked : State := tsj tjparked { tc (tx []) with amsgs := [{ tcopy with handler := true, ctx := none, phase := none }] }

theorem test_Arrivals_parked_met :
    ((tparked.core 0).amsgs = [{ tcopy with handler := true, ctx := none, phase := none }] ∧ (tparked.core 0).life = .running ∧
      (tparked.core 0).queueFull .lq = false ∧ (tparked.core 0).job = some 1) ∧
    tparked.job 1 = some tjparked ∧ (∀ x ∈ tjparked.parked, x.dst = 0 ∧ x.job = 1 ∧ x.kind = .amsg ⟨4, 0, 0⟩) ∧ tjparked.handlers.getD 4 0xFFFF = 0xFFFF ∧
    (tunnamed 7).id ≠ (tunnamed 8).id := by
  refine ⟨?_, rfl, ?_, ?_, ?_⟩ <;> decide +kernel

/-- A merge whose turn it is, accepted or not, of a core that runs or stops; one behind a merge that was accepted before. -/
def tmerge (l : Life) (arrived : Option Nat) (others : List Msg) : State :=
  let s := tnet { tmsg (.merge 8 0 tsummary) with arrived := arrived } { tc (tx []) with life := l }
  { mem := cells (window 0) tsummary, dev := { s.dev with net := s.dev.net ++ others } }

theorem test_MergeTurn : (∀ l a, MergeTurn (tmerge l a []) { tmsg (.merge 8 0 tsummary) with arrived := a }) ∧
    ¬MergeTurn (tmerge .running none [{ tmsg (.merge 8 0 tsummary) with id := 8, src := 2, arrived := some 3 }]) (tmsg (.merge 8 0 tsummary)) := by
  constructor
  · intro l a
    refine ⟨fun _ h => (nomatch h), fun _ h => (nomatch h), ?_, ?_⟩
    · intro y hy hn
      obtain rfl := List.mem_singleton.1 hy
      exact absurd rfl hn
    · intro y hy
      cases hy
  · rintro ⟨-, -, h, -⟩
    obtain ⟨b, hb, -⟩ := h _ (.tail _ (.head _)) (by decide) rfl 3 rfl
    exact nomatch hb

theorem test_Arrivals_merge_turn_met :
    (∀ p ∈ [(Life.running, none), (.running, some 3), (.stopping, some 3)],
      let x := { tmsg (.merge 8 0 tsummary) with arrived := p.2 }
      let s := tmerge p.1 p.2 []
      State.Inv s ∧ s.mach.msg 7 = some x ∧ s.mach.msgReady x = true ∧ (s.job 1).isSome = true ∧ (s.core 0).job = some 1 ∧ (s.core 0).life = p.1 ∧
      (match s.mach.receiving 0 0 with | .ok (some _) => true | _ => false) = true) ∧
    Arrives (tmerge .running none [{ tmsg (.merge 8 0 tsummary) with id := 8, src := 2, arrived := some 3 }]) 7 (tmsg (.merge 8 0 tsummary)) := by
  constructor
  · unfold State.Inv; decide +kernel
  · exact ⟨by decide +kernel, by decide +kernel, by decide +kernel, by decide +kernel, by decide +kernel⟩

theorem test_Arrivals_finish_met :
    (∀ op ∈ [6, 7], State.Inv (ts { tc (tx []) with windows := [{ twin op with fmt := 0x10, finishing := [1] }] }) ∧
      ((ts { tc (tx []) with windows := [{ twin op with fmt := 0x10, finishing := [1] }] }).core 0).window 9 = some { twin op with fmt := 0x10, finishing := [1] }) ∧
    (9 - (twin 6).ac ∈ [1] ∧ 1 ≤ (twin 6).expect ∧ 16 = (twin 6).tile / max 1 (fmtNibs 0x10 / 2) ∧ (twin 6).base + (twin 6).tile * 1 + 4 * 16 ≤ (twin 6).staging + 8 * (16 * 1)) ∧
    (let d := { dsend 0x31 0x18 0 [top 8 1 false] with pre := 1, since := some 0 }
     d.collExpired (2 ^ 30) = true ∧ d.again = [] ∧ d.handler = false ∧ d.ctx = some .a ∧ (tel d).cmd 0 1 = some d ∧ ((tel d).core 0).queueFaulted d = false) := by
  unfold State.Inv
  decide +kernel

/-- An element is added to the byte that the window holds: bits 5 and 3 (R375), and counts a contribution only as the last of its tile's 64. -/
theorem test_messageApply_or :
    (after (exec (.messageApply 7) { tnet (tmsg (.elem 0 8 63 3 5 false)) { tc (tx []) with windows := [twin 4] } with mem := [(window 0 + 63, 3)] })).map
      (fun t => (t.mem, natAt t.here.acs 8, t.here.con)) = some ([(window 0 + 63, 7)], 1, 1) := by decide +kernel

/-! ## Waits, waves -/

/-- A window whose second counter is ready, and one with ERR. -/
def twaits (x : Ctx) : State := ts { tc x with windows := [twin 5, { twin 0 with ac := 254, err := true }], acs := [(8, 1), (9, 2)] }

theorem test_WaitsAndQuiet_acs_met :
    (twaits (tx [(5, 2), (6, 1)])).cur.guard always = true ∧ ((twaits (tx [(5, 2), (6, 1)])).cur.reg 5).extractLsb' 32 32 = 0 ∧
    (twaits (tx [(5, 2)])).here.acError 9 = none ∧ ((twaits (tx [(5, 2)])).cur.reg 5).toNat ≤ natAt (twaits (tx [(5, 2)])).here.acs 9 ∧
    natAt (twaits (tx [(5, 2)])).here.acs 8 < ((twaits (tx [(5, 2)])).cur.reg 5).toNat ∧
    (twaits (tx [])).here.window 255 = some { twin 0 with ac := 254, err := true } ∧ CanTrap (twaits (tx [])).cur Cause.access ∧
    ((twaits (tx [])).here.readyAc 8 2 = some 9 ∧ (twaits (tx [])).here.readyAc 8 1 = none ∧ ∀ k, 8 ≤ k → k < 8 + 2 → (twaits (tx [])).here.acError k = none) ∧
    (twaits (tx [])).here.anys = [] ∧ (twaits { tx [] with rq := List.replicate 15 ⟨9, none, none⟩ }).cur.rq.length < 16 ∧
    (∀ e ∈ (twaits { tx [] with rq := List.replicate 15 ⟨9, none, none⟩ }).cur.rq, e.id ≠ (twaits (tx [])).dev.uid) := by
  refine ⟨by decide, by decide, by decide, by decide, by decide, by decide, by unfold CanTrap; decide, ⟨by decide, by decide, ?_⟩, by decide, by decide, by decide⟩
  intro k h1 h2
  have : k = 8 ∨ k = 9 := by omega
  obtain rfl | rfl := this <;> decide

/-- A job with a wait pending whose quiet domain this device leads, with an agent on device 1: between waves and in one. -/
def tquiet (w : Option Wave) : State :=
  let s := ts (tc { tx [(5, 1)] with wait := some (.quiet 1 3 0 none) })
  { s with dev := { s.dev with waving := w, quietDomains := [[(0, 1), (1, 2)]] } }

/-- The job in the quiet domain that device 1 leads, with a wave of that lead in progress or none. -/
def tled (l : List (Nat × Nat)) : State :=
  let s := tquiet none
  { s with dev := { s.dev with quietDomains := [[(1, 2), (0, 1)]], ledWaves := l } }

theorem test_InProgress :
    InProgress (tquiet none) (tquiet none).here.job 0 ∧ InProgress (tquiet (some ⟨[1], 1, 4, [], []⟩)) (tquiet none).here.job 5 ∧
    InProgress (tled []) (tled []).here.job 0 ∧ InProgress (tled [(1, 7)]) (tled []).here.job 8 ∧ InProgress (tquiet none) none 0 := by
  have h : ∀ w, ¬Led (tquiet w) 1 := by
    rintro w ⟨q, hq, -, h⟩
    obtain rfl : q = [(0, 1), (1, 2)] := List.mem_singleton.1 hq
    exact h rfl
  have k : ∀ l, Led (tled l) 1 := fun l => ⟨[(1, 2), (0, 1)], List.mem_singleton.2 rfl, by decide, by decide⟩
  exact ⟨.inr ⟨1, rfl, .inl ⟨h _, .inr ⟨fun _ e => (nomatch e), rfl⟩⟩⟩, .inr ⟨1, rfl, .inl ⟨h _, .inl ⟨_, rfl, List.mem_singleton.2 rfl, rfl⟩⟩⟩, .inr ⟨1, rfl, .inr ⟨k _, .inr ⟨rfl, rfl⟩⟩⟩,
    .inr ⟨1, rfl, .inr ⟨k _, .inl ⟨_, rfl, rfl⟩⟩⟩, .inl ⟨rfl, rfl⟩⟩

theorem test_WaitsAndQuiet_waves_met :
    (((twaits (tx [(5, 1)])).cur.wait = none ∧ ((twaits (tx [(5, 1)])).cur.reg 5).extractLsb' 32 32 = 0) ∧ (tquiet none).cur.wait = some (.quiet 1 3 0 none) ∧
      tzero.cur.wait = some (.quiet 0 0 0 (some 3))) ∧
    ((tquiet none).dev.waving = none ∧ (tquiet none).dev.now % 6144 = 0 ∧ (tquiet none).dev.waveAt ≠ some 0 ∧ (tquiet none).dev.quietJobs = [1]) ∧
    ((tquiet (some ⟨[1], 1, 4, [], []⟩)).dev.waving = some ⟨[1], 1, 4, [], []⟩ ∧ (tquiet none).job 1 = some tj ∧ (tquiet none).dev.agentsOf 1 = [1]) ∧
    (∀ p ∈ [1, 2], let w : Wave := ⟨[1], p, 4, if p = 2 then [(1, (0, 0, 0, 0))] else [], [⟨1, 1, p, 0, 0, 0, 0⟩]⟩
      (tquiet (some w)).dev.waving = some w ∧ ∀ a ∈ (tquiet (some w)).dev.agentsOf 1, ∃ x ∈ w.agents, x.device = a ∧ x.job = 1 ∧ x.pass = w.pass) ∧
    ((∀ q ∈ (tquiet none).dev.quietDomains, ∀ p, q.head? = some p → p.1 ≠ 1) ∧ 1 ∈ (tquiet none).dev.agentsOf 1) ∧
    (LedBy (tled []) 1 1 (1, 2) ∧ (tled []).job 1 = some tj) ∧
    ((tled []).ctx 0 .a).wait = some (.quiet 1 3 0 none) ∧ ((tled []).dev.cores.any fun p => p.1 == 0) = true ∧ ((tled []).core 0).job = some 1 := by
  refine ⟨by decide +kernel, by decide +kernel, by decide +kernel, by decide +kernel, ⟨?_, by decide +kernel⟩,
    ⟨⟨by decide, [], [(1, 2), (0, 1)], [], rfl, rfl, rfl, by decide, by intro x hx; cases hx⟩, by decide +kernel⟩, by decide +kernel⟩
  intro q hq p hp
  obtain rfl : q = [(0, 1), (1, 2)] := List.mem_singleton.1 hq
  obtain rfl : ((0, 1) : Nat × Nat) = p := Option.some.inj hp
  decide

/-! ## Launch, dealing, pre-emption -/

/-- A launch record of one word of image at 0x4000, one iteration and one cluster (R336). -/
def tlaunch : List Byte := leBytes 256 (2 ^ 48 + 0x4000 * 2 ^ 64 + 2 ^ 544 + 2 ^ 704 + 2 ^ 896)

/-- Queue 0 enabled for domain 0 with this launch; its tables as the supervisor has prepared them, with the image's page. -/
def thub (r : List Byte) : State :=
  let q : WorkQueue := { WorkQueue.unset 0 with en := true, domain := some 0, recs := [r], done := some 0x100 }
  let m := (tpool 0x4000 true tpoolJob).mem ++ [(0x5021, 0x90), (0x5026, 0x10)]
  { mem := m, dev := { Dev.reset with queues := [q], nodes := [(5, 0)], keys := [⟨1, 0, some 1, none⟩], roots := [(0, 0x1000)], sectorKeys := [(0x9000, 2)] } }

theorem test_LaunchAndDealing_put_met :
    ¬Held (thub tlaunch) 5 0 0 true ∧ (thub tlaunch).dev.inRom = false ∧ ((thub tlaunch).dev.queue 0).recs ≠ [] ∧ (thub tlaunch).dev.nodeDomain 5 = some 0 ∧ tlaunch.length = 256 ∧
    ((thub tlaunch).dev.queue 0).recs.length < 2 ∧
    ({ thub tlaunch with mem := [] } : State).dev.choose.topChosen = some ((0, none), 0) ∧
    ((thub tlaunch).dev.choose.queue 0).recs = tlaunch :: [] ∧ (thub (List.replicate 256 0)).dev.choose.recordOk ((thub []).dev.queue 0) (List.replicate 256 0) = false := by
  refine ⟨?_, by decide, by decide +kernel, by decide +kernel, by decide +kernel, by decide +kernel, by decide +kernel, by decide +kernel, by decide +kernel⟩
  rintro (⟨p, h, -⟩ | ⟨p, h, -⟩ | ⟨p, h, -⟩) <;> cases h

theorem test_LaunchAndDealing_admit_met :
    (let d := (thub tlaunch).dev.choose
     d.recordOk (d.queue 0) tlaunch = true ∧
     (let r := Mach.readTables ⟨(thub tlaunch).mem, [], d, false⟩ (mkJob d (d.queue 0) tlaunch (d.freeId.getD 0))
      (r.2.any fun j => decide (j.launch = tlaunch) && decide (j.queue = 0)) = true ∧ r.1.held = false ∧ r.1.dev.fits tlaunch = true ∧ r.1.dev.freeId = some 0 ∧
      r.1.dev.jobs = (thub tlaunch).dev.jobs ∧ (r.1.dev.queue 0).recs = tlaunch :: [])) := by decide +kernel

/-- The job of that launch, before its iteration is dealt. -/
def tdeal : Job := { tj with launch := tlaunch, next := [0], image := [0, 0, 0, 0], handlers := [] }

theorem test_LaunchAndDealing_deal_met :
    (let s : State := { mem := [], dev := { Dev.reset with jobs := [tdeal] } }
     s.job 1 = some tdeal ∧ tdeal.id = 1 ∧ tdeal.walker 0 = some (0, 0) ∧ tdeal.ending = none ∧ Launch.paired tdeal.launch = false ∧ tdeal.parked = [] ∧
     s.mach.dealTarget tdeal (clusterOf 0) 0 = some 0) ∧
    (let j := { tj with ending := some ⟨1, 0, 0, 0, 0⟩ }
     (tsj j (tc (tx []))).job 1 = some j ∧ j.id = 1 ∧ j.ending = some ⟨1, 0, 0, 0, 0⟩) := by decide +kernel

/-- Dealing to a core whose counters are not zero, or that has slots; the end of a job that a core runs, while another job's core is saved. -/
theorem test_LaunchAndDealing_cores_met :
    (let s : State := { mem := [], dev := { Dev.reset with jobs := [tdeal], cores := [(0, { Core.reset 0 with acs := [(3, 1)] })] } }
     s.mach.dealTarget tdeal (clusterOf 0) 0 = some 0 ∧ (∀ p ∈ s.dev.cores, ∀ b ∈ p.2.accs, b.stage ≠ .cxl) ∧ ∃ p ∈ (s.core 0).acs, p.2 ≠ 0) ∧
    (let s : State := { mem := [], dev := { Dev.reset with jobs := [tdeal], cores := [(0, { Core.reset 0 with slots := [(2, ⟨1, 1, true, false, 0, 5, none⟩)] })] } }
     s.mach.dealTarget tdeal (clusterOf 0) 0 = some 0 ∧ (s.core 0).slots ≠ [] ∧ ∃ p ∈ s.dev.cores, p.1 = 0) ∧
    (let j := { tj with ending := some ⟨1, 0, 0, 0, 0⟩ }
     let o := { tj with id := 2, saved := [⟨{ Core.reset 1 with job := some 2, life := .saved }, [], [], []⟩] }
     let s : State := { mem := [], dev := { Dev.reset with jobs := [j, o], cores := [(0, tc (tx [])), (1, { Core.reset 1 with job := some 1, life := .running })] } }
     s.job 1 = some j ∧ (∀ p ∈ s.dev.cores, ∀ b ∈ p.2.accs, b.stage ≠ .cxl) ∧ (s.core 1).job = some j.id ∧ (s.dev.cores.any fun p => p.1 == 1) = true ∧
     (s.dev.jobs.any fun b => b.id != j.id && b.saved.any fun v => v.core.id == 1) = true) := by
  refine ⟨?_, ?_, ?_⟩ <;> decide +kernel

/-- Cores that run, stop, save and restore. -/
def tlife (l : Life) (j : Job) : State := tsj j { tc (tx []) with life := l }

theorem test_PreemptionAndRestoration_met :
    (((tlife .running tj).dev.jobs.find? fun j => j.clusters.contains 0 && !j.away.contains 0) = some tj ∧ tj.level < 7 ∧ tj.ending = none ∧
      (tlife .running tj).job 1 = some tj) ∧
    (let s := tsj tj { tc (tx []) with life := .stopping, lq := [dcopy, { dfresh with uid := 2 }] }
     (s.core 0).life = .stopping ∧ (s.core 0).drainlim.toNat ≤ s.dev.now - (s.core 0).stopAt ∧ (∀ d ∈ (s.core 0).cmds, d.cabinet = false) ∧
      (s.core 0).accs = [] ∧ s.dev.net = []) ∧
    (((tlife .saving tj).core 0).life = .saving ∧ (tlife .saving tj).jobOf 0 = some tj) ∧
    (let j := { tj with away := [0], saved := [⟨{ tc (tx []) with life := .saved }, [], [], []⟩] }
     let s : State := { mem := [], dev := { Dev.reset with jobs := [j], chosen := [(0, some 1, 4)] } }
     s.dev.chosen = [(j.queue, some j.id, 4)] ∧ s.job j.id = some j ∧ 0 ∈ j.away ∧ s.dev.clusterFree 0 = true ∧ (∀ x ∈ j.away, x = 0)) ∧
    (let v : Saved := ⟨{ tc (tx []) with life := .saved, inj := 3 }, [(window 0, 1)], [], []⟩
     let j := { tj with saved := [v] }
     let s := tlife .restoring j
     s.mem.wf = true ∧ (s.core 0).life = .restoring ∧ s.jobOf 0 = some j ∧ j.parked = [] ∧ (j.saved.find? fun z => z.core.id == 0) = some v ∧
     v.core.job = some j.id ∧ clusterOf 0 ∉ j.away ∧ (∀ d ∈ v.core.cmds, d.gang = none) ∧ (∀ d ∈ v.core.kq, d.since = none) ∧ s.dev.waving = none ∧
     ((v.bytes.foldl (fun m b => m.wr b.1 b.2) (s.mach.clearWindow 0)).jobImage j).2.length ≤ 0x10000 ∧ s.job 1 = some j) ∧
    ((tquiet (some ⟨[1], 1, 4, [], []⟩)).dev.waving ≠ none) := by
  refine ⟨?_, ?_, ?_, ?_, ?_, ?_⟩ <;> decide +kernel

/-- A core that stops and performs nothing; one that is saved before the last cluster returns or after it; and the machine after its image is back. -/
theorem test_Preemption_more_met :
    (let s := tsj tj { tc (tx []) with life := .stopping, lq := [dcopy] }
     s.dev.accessing 0 = false ∧ (∀ x ∈ s.dev.net, x.dst = 0 → x.arrived = none)) ∧
    (let j := { tj with away := [0], saved := [⟨{ tc (tx []) with life := .saved }, [], [], []⟩] }
     let s : State := { mem := [], dev := { Dev.reset with jobs := [j], chosen := [(0, some 1, 4)], cores := [(0, { Core.reset 0 with life := .saved })] } }
     s.dev.clusterFree 0 = true ∧ s.job 1 = some j ∧ ∀ v ∈ j.saved, (s.core v.core.id).life = .saved ∧ clusterOf v.core.id = 0) ∧
    (let v : Saved := ⟨{ tc (tx []) with life := .saved, inj := 3 }, [(window 0, 1)], [], []⟩
     let j := { tj with saved := [v] }
     ((v.bytes.foldl (fun m b => m.wr b.1 b.2) ((tlife .restoring j).mach.clearWindow 0)).jobImage j).1.held = false ∧ (tlife .restoring j).dev.waving = none) := by
  refine ⟨?_, ?_, ?_⟩ <;> decide +kernel

theorem test_Preemption_no_gang : ∀ g, ((tlife .running tj).core g).gangs = [] := by
  intro g
  by_cases h : g = 0
  · subst h; rfl
  · show (coreGet [(0, { tc (tx []) with life := .running })] g).gangs = []
    simp [coreGet, Ne.symm h]
    rfl

/-! ## The fabric -/

/-- Node 5 is of domain 0, which has key slot 1, loaded; slot 2 is empty, slot 3 bound to a job; the byte at 0x1000 is written under slot 1's key. -/
def tfab : State :=
  { mem := [(0x1000, 5)]
    dev := { Dev.reset with nodes := [(5, 0), (6, 1)], keys := [⟨1, 0, some 1, none⟩, ⟨2, 0, none, none⟩, ⟨3, 0, some 2, some 1⟩], sectorKeys := [(0x1000, 2)]
                            replicas := [⟨0x8000, 4096, [0x8000, 0x9000, 0xA000, 0xB000]⟩], pairs := [⟨9, [], false⟩], poison := [0x2000] } }

/-- A transaction of node 5. -/
def thdr (addr : Word) (key : BitVec 12) (len : BitVec 13) (ord : BitVec 2) (clean : Bool) : MemHdr := ⟨5, addr, key, 1, len, ord, clean⟩

theorem test_InMemory (a n : Nat) (h : a + n ≤ 8 * 48 * 2 ^ 30) : InMemory tfab a n := Or.inl h

theorem test_MayUse : MayUse tfab 5 1 := ⟨⟨1, 0, some 1, none⟩, by decide +kernel, by decide, Option.some_ne_none _, rfl⟩

theorem test_Single (s : State) (a n : Nat) (r : s.dev.replicas = tfab.dev.replicas) (h : a + n ≤ 0x8000 ∨ 0x9000 ≤ a) : Single s a n := by
  intro z hz x h1 h2
  rw [r] at hz
  have : z = ⟨0x8000, 4096, [0x8000, 0x9000, 0xA000, 0xB000]⟩ := by simpa [tfab] using hz
  subst this
  show ¬(0x8000 ≤ x ∧ x < 0x8000 + 4096)
  omega

theorem test_Replicated (s : State) (a n : Nat) (r : s.dev.replicas = tfab.dev.replicas) (h : 0 < n ∧ a % 4096 + n ≤ 4096 ∧ 0x8000 ≤ a ∧ a < 0x9000) :
    Replicated s a n :=
  ⟨h.1, h.2.1, ⟨0x8000, 4096, [0x8000, 0x9000, 0xA000, 0xB000]⟩, by rw [r]; exact List.mem_singleton.2 rfl, h.2.2.1, h.2.2.2⟩

theorem test_not_Poisoned (s : State) (a n : Nat) (h : s.dev.poisonIn (s.dev.replicaPa 0 a) (Min.min n (4096 - a % 4096)) = none ∧
    s.dev.poisonIn (s.dev.replicaPa 0 (a + (4096 - a % 4096))) (n - (4096 - a % 4096)) = none) : ¬Poisoned s a n :=
  fun p => p.elim (· h.1) (· h.2)

/-- Served: the longest read, an empty write, a doubleword; refused with each status at a boundary. -/
theorem test_MemTransactions_met :
    Served tfab (thdr 0x1000 1 4096 2 true) (4096 ≤ 4096) 4096 True ∧ Served tfab (thdr 0x1000 1 0 0 true) (0 ≤ 4096 ∧ ([] : List Byte).length = 0) 0 False ∧
    Served tfab (thdr 0x1000 1 8 1 true) ((8 = 4 ∨ 8 = 8) ∧ (List.replicate 8 (0 : Byte)).length = 8 ∧ 8 = 8) 8 True ∧ Single tfab 0x1000 4096 ∧ ¬Single tfab 0x8FFF 1 ∧
    KeyFits tfab 0x1000 1 1 ∧ State.Inv tfab ∧ memAtomic (.memAmocas (thdr 0x1000 1 16 1 true) []) = some (.cas, thdr 0x1000 1 16 1 true, []) ∧
    RefusedWith tfab (thdr 0x1000 1 4097 0 true) (4097 ≤ 4096) 4097 True 8 ∧ RefusedWith tfab (thdr 0x1000 1 8 3 true) (8 ≤ 4096) 8 True 8 ∧
    RefusedWith tfab (thdr 0x6000000000 1 1 0 true) (1 ≤ 4096) 1 True 5 ∧ RefusedWith tfab (thdr 0x1000 9 1 0 true) (1 ≤ 4096) 1 True 6 ∧
    RefusedWith tfab (thdr 0x2000 1 1 0 true) (1 ≤ 4096) 1 True 7 ∧ RefusedWith tfab (thdr 0x1FFF 1 2 0 true) (2 ≤ 4096) 2 True 7 := by
  refine ⟨⟨⟨rfl, by decide, by decide⟩, test_InMemory _ _ (by decide), test_MayUse, fun _ => test_not_Poisoned _ _ _ (by decide +kernel)⟩,
    ⟨⟨rfl, by decide, by decide⟩, test_InMemory _ _ (by decide), test_MayUse, fun h => h.elim⟩,
    ⟨⟨rfl, by decide, by decide⟩, test_InMemory _ _ (by decide), test_MayUse, fun _ => test_not_Poisoned _ _ _ (by decide +kernel)⟩,
    test_Single _ _ _ rfl (by decide), ?_, ?_,
    by unfold State.Inv; decide, rfl, Or.inl ⟨rfl, fun h => absurd h.2.2 (by decide)⟩, Or.inl ⟨rfl, fun h => absurd h.2.1 (by decide)⟩,
    Or.inr (Or.inl ⟨rfl, ⟨rfl, by decide, by decide⟩, ?_⟩), Or.inr (Or.inr (Or.inl ⟨rfl, ⟨rfl, by decide, by decide⟩, test_InMemory _ _ (by decide), ?_⟩)),
    Or.inr (Or.inr (Or.inr ⟨rfl, ⟨rfl, by decide, by decide⟩, test_InMemory _ _ (by decide), test_MayUse, trivial, Or.inl (by decide +kernel)⟩)),
    Or.inr (Or.inr (Or.inr ⟨rfl, ⟨rfl, by decide, by decide⟩, test_InMemory _ _ (by decide), test_MayUse, trivial, Or.inr (by decide +kernel)⟩))⟩
  · intro h
    exact absurd (h _ (List.mem_singleton.2 rfl) 0x8FFF (by decide) (by decide)) (by decide)
  · unfold KeyFits; decide +kernel
  · unfold InMemory; decide
  · rintro ⟨v, hv, -⟩
    exact absurd hv (by simp [tfab, thdr, Dev.keySlot])

/-- Nothing of a node is under way, or something that a further transaction waits for: an earlier one that is held, one that overlaps, an acquire, a release
that comes after one; a CXL access. -/
def tturn (p : Option PendMem) (l : List (Nat × Instr)) (a : List Acc) : State :=
  { tfab with dev := { tfab.dev with pendingMem := p.toList, deferred := l, cores := [(0, { tc (tx []) with accs := a })] } }

theorem test_not_Held (n a k : Nat) (rel : Bool) : ¬Held tfab n a k rel := by
  rintro (⟨p, h, -⟩ | ⟨p, h, -⟩ | ⟨p, h, -⟩) <;> cases h

theorem test_Held :
    Claims.Held (tturn none [(5, .memRead ⟨5, 0, 1, 1, 1, 0, true⟩)] []) 5 0x1000 1 false ∧
    Claims.Held (tturn (some ⟨0, 5, 0x1000, 8, false, some (.nolham 5 1 0 [])⟩) [] []) 5 0x1007 1 false ∧
    Claims.Held (tturn (some ⟨0, 5, 0x1000, 8, true, none⟩) [] []) 5 0x2000 1 false ∧
    Claims.Held (tturn (some ⟨0, 5, 0x1000, 8, false, none⟩) [] []) 5 0x2000 1 true ∧
    Claims.Held (tturn none [] [tacc 9 .store 0x100000000FF8 8 .cxl none]) 5 0x100000000FFF 1 false ∧
    (∀ i ∈ [Instr.memRead (thdr 0x1000 1 8 1 true), .memWrite (thdr 0x1000 1 8 1 true) [], .memAmoadd (thdr 0x1000 1 8 1 true) [],
        .memAmocas (thdr 0x1000 1 16 1 true) []], turnOf i = some (5, 0x1000, 8, true)) ∧
    turnOf (.queuePut 5 1 ⟨3, 256, 0, true⟩ []) = some (5, 0, 0, true) ∧ turnOf (.rdmaWrite 9 0x1000 [1, 2]) = some (65545, 0x1000, 2, false) := by
  refine ⟨.inl ⟨_, List.mem_singleton.2 rfl, rfl⟩, .inr (.inl ⟨_, List.mem_singleton.2 rfl, rfl, .inr (.inr ⟨?_, ?_⟩)⟩), .inr (.inl ⟨_, List.mem_singleton.2 rfl, rfl, .inr (.inl rfl)⟩),
    .inr (.inl ⟨_, List.mem_singleton.2 rfl, rfl, .inl rfl⟩), .inr (.inr ⟨_, List.mem_singleton.2 rfl, _, List.mem_singleton.2 rfl, rfl, ?_, ?_⟩), ?_, rfl, rfl⟩ <;> decide

/-- A read, a write and a doubleword at the last bytes of a replicated page, whose first replica is written under slot 1's key, and a write that runs out of
the page, or into it. -/
theorem test_MemTransactions_replicated_met :
    let s : State := { tfab with dev := { tfab.dev with sectorKeys := [(0x7FE0, 2), (0x8FE0, 2), (0x9000, 2)] } }
    Served s (thdr 0x8FF8 1 8 2 true) (8 ≤ 4096 ∧ (List.replicate 8 (0 : Byte)).length = 8) 8 False ∧ Replicated s 0x8FF8 8 ∧ ¬Single s 0x8FF8 8 ∧
    Served s (thdr 0x8FF8 1 8 1 true) ((8 = 4 ∨ 8 = 8) ∧ (List.replicate 8 (0 : Byte)).length = 8 ∧ 8 = 8) 8 True ∧ s.dev.updates = [] ∧
    s.dev.replicaPa 0 0x8FF8 = 0x8FF8 ∧ KeyFits s 0x8FF8 8 1 ∧
    (Served s (thdr 0x8FF8 1 16 2 true) (16 ≤ 4096 ∧ (List.replicate 16 (0 : Byte)).length = 16) 16 False ∧ 4096 - 0x8FF8 % 4096 = 8 ∧ Single s 0x9000 8 ∧
      KeyFits s 0x9000 8 1) ∧
    (Served s (thdr 0x7FF8 1 16 2 true) (16 ≤ 4096 ∧ (List.replicate 16 (0 : Byte)).length = 16) 16 False ∧ 4096 - 0x7FF8 % 4096 = 8 ∧ Single s 0x7FF8 8 ∧
      KeyFits s 0x7FF8 8 1 ∧ Replicated s 0x8000 8) := by
  have u : MayUse { tfab with dev := { tfab.dev with sectorKeys := [(0x7FE0, 2), (0x8FE0, 2), (0x9000, 2)] } } 5 1 :=
    ⟨⟨1, 0, some 1, none⟩, by decide +kernel, by decide, Option.some_ne_none _, rfl⟩
  refine ⟨⟨⟨rfl, by decide, by decide⟩, Or.inl (by decide), u, fun h => h.elim⟩, test_Replicated _ _ _ rfl (by decide), ?_,
    ⟨⟨rfl, by decide, by decide⟩, Or.inl (by decide), u, fun _ => test_not_Poisoned _ _ _ (by decide +kernel)⟩, rfl, by decide +kernel, ?_,
    ⟨⟨⟨rfl, by decide, by decide⟩, Or.inl (by decide), u, fun h => h.elim⟩, by decide, test_Single _ _ _ rfl (by decide), ?_⟩,
    ⟨⟨rfl, by decide, by decide⟩, Or.inl (by decide), u, fun h => h.elim⟩, by decide, test_Single _ _ _ rfl (by decide), ?_, test_Replicated _ _ _ rfl (by decide)⟩
  · intro h
    exact absurd (h _ (List.mem_singleton.2 rfl) 0x8FFF (by decide) (by decide)) (by decide)
  all_goals unfold KeyFits; decide +kernel

/-- A compare-and-swap of another node that finds its value (R415). -/
theorem test_memAmocas :
    (after (exec (.memAmocas (thdr 0x1000 1 8 0 true) [5, 0, 0, 0, 9, 0, 0, 0]) tfab)).map (fun t => (t.mem, t.dev.outbox)) =
      some ([(0x1000, 9)], [.nolham 5 1 0 [5, 0, 0, 0]]) := by decide +kernel

/-- A port with a frame that has been replayed seven times, and one whose replays are used up. -/
def tport : State := { mem := [], dev := { Dev.reset with ports := [⟨15, true, 3, 9, [⟨1, 0, 8, 8, [(1, 2)]⟩, ⟨2, 1, 7, 7, []⟩], [], [0, 4, 0, 0, 0], [(1, 5)], []⟩], jobs := [tj] } }

theorem test_LinksAndEthernet_met :
    ((tport.dev.port 15).frames.find? (fun g => g.id == 1) = some ⟨1, 0, 8, 8, [(1, 2)]⟩ ∧ (8 : Nat) ≤ 8) ∧
    ((tport.dev.port 15).frames.find? (fun g => g.id == 2) = some ⟨2, 1, 7, 7, []⟩ ∧ (7 : Nat) < 8) ∧ tport.job 1 = some tj ∧ tj.log.length < 65536 ∧
    (tport.dev.port 15).up = true ∧ (tport.dev.port 0).up = false ∧ (∃ x ∈ tfab.dev.pairs, x.num = 9) ∧ (∀ x ∈ tfab.dev.pairs, x.num ≠ 8) ∧
    tfab.dev.poisonIn 0x1000 1 = none ∧
    ((tport.dev.port 15).waiting = [] ∧ (let p : Port := { tport.dev.port 15 with waiting := [⟨3, 3, 0, 0, []⟩] }
      p.waiting = [⟨3, 3, 0, 0, []⟩] ∧ 3 < p.credits.length ∧ p.seq + 2 < 2 ^ 48 ∧ p.next = none ∧ p.credits.getD 3 0 = 0 ∧
      ({ p with credits := [0, 4, 0, 1, 0] } : Port).next = some ⟨3, 3, 0, 0, []⟩)) ∧
    tfab.dev.inRom = false := by decide +kernel

/-- An answer leaves at once, with the last sequence number of its key, or waits for a credit. -/
theorem test_Transmitted_met :
    tport.dev.ports.find? (fun p => p.up) = some (tport.dev.port 15) ∧ tport.dev.port (tport.dev.port 15).num = tport.dev.port 15 ∧
    (tport.dev.port 15).waiting = [] ∧ (tport.dev.port 15).credits.getD 0 0 = 0 ∧ 0 < (tport.dev.port 15).credits.getD 1 0 ∧
    2 ^ 48 ≤ ({ tport.dev.port 15 with seq := 2 ^ 48 - 2 } : Port).seq + 2 ∧ (∀ p ∈ tfab.dev.ports, p.up = false) := by decide +kernel

theorem test_LinksAndEthernet_rdma_met : InMemory tfab 0x1000 1 ∧ Single tfab 0x1000 1 ∧ KeyFits tfab 0x1000 1 (tfab.dev.rdmaKey 0x1000) ∧ Unbound tfab 0x1000 1 ∧
    (InMemory tfab 0x8FE0 1 ∧ Replicated tfab 0x8FE0 1 ∧ Unbound tfab 0x8FE0 1) ∧
    (let s : State := { tfab with dev := { tfab.dev with sectorKeys := [(0x1000, 3)], keys := [⟨3, 0, some 2, some 1⟩] } }
     ∃ v, s.dev.keySlot (s.dev.rdmaKey ((0x1000 + 31) / 32 * 32)) = some v ∧ v.job ≠ none) := by
  refine ⟨test_InMemory _ _ (by decide), test_Single _ _ _ rfl (by decide), ?_, ?_, ⟨test_InMemory _ _ (by decide), test_Replicated _ _ _ rfl (by decide), ?_⟩,
    ⟨⟨3, 0, some 2, some 1⟩, by decide +kernel, by decide⟩⟩
  · unfold KeyFits
    decide +kernel
  · intro u v h1 h2 hv
    have : u = 0x1000 := by omega
    subst this
    have : v = ⟨1, 0, some 1, none⟩ := Option.some.inj (hv.symm.trans (by decide +kernel))
    subst this
    rfl
  · intro u v h1 h2 hv
    have : u = 0x8FE0 := by omega
    subst this
    exact nomatch hv.symm.trans (show tfab.dev.keySlot (tfab.dev.rdmaKey 0x8FE0) = none by decide +kernel)

/-- A lost frame's two counted messages go from INJ to LOST (R410). -/
theorem test_frameLoss : (after (exec (.frameLoss 15 1) tport)).map (fun t => ((t.dev.port 15).inj, (t.dev.port 15).lost, (t.dev.port 15).frames.length)) =
    some ([(1, 3)], [(1, 2)], 1) := by decide +kernel

/-! ## Trust and supervision -/

/-- A job of domain 0, one that is confidential, sessions of its domain that are established or not, an expander on each port, and a loaded slot. -/
def ttrust : State :=
  { mem := []
    dev := { tfab.dev with jobs := [tj, { tj with id := 2, launch := leBytes 256 (2 ^ 571) }], sessions := [⟨1, 0, true⟩, ⟨2, 0, false⟩], negotiated := 3
                           cxlBytes := 0x2000, cxlPorts := [(0, 0x1000), (1, 0x1000)] } }

theorem test_TrustAndSupervision_met :
    (∀ f ∈ ([] : List Firmware), sha3 f.key = Config.fusedKeyHash) ∧ (1200 ≤ 1200 ∧ 1200 ≤ 2400 ∧ ¬(1200 ≤ 2401 ∧ 2401 ≤ 2400) ∧ ¬(1200 ≤ 1199 ∧ 1199 ≤ 2400)) ∧
    (ttrust.job 1 = some tj ∧ ttrust.dev.sessions.find? (fun y => y.id == 1 && y.established) = some ⟨1, 0, true⟩ ∧ tj.domain = some 0 ∧
      Launch.conf tj.launch = false ∧ ttrust.dev.nodeDomain 5 = tj.domain ∧ (ttrust.job 2).any (fun j => Launch.conf j.launch) = true) ∧
    ((4095 : BitVec 12) ≠ 0 ∧ ttrust.dev.keySlot 4095 = none) ∧ (([(0, 1), (63, 2)] : List (BitVec 6 × BitVec 12)).map (·.1)).Nodup ∧
    (0x100000001000 = 0x100000000000 + natAt ttrust.dev.cxlPorts 0 ∧ 0x100000002000 = min (0x100000001000 + natAt ttrust.dev.cxlPorts 1) (0x100000000000 + 4 * 2 ^ 40) ∧
      0x100000002000 ≤ 0x100000000000 + ttrust.dev.cxlBytes ∧ ttrust.dev.allRoots.all (fun r => !ttrust.mach.mapsRange 0x100000001000 0x100000002000 5 r) = true) ∧
    (1 ≤ ttrust.dev.negotiated ∧ State.reset.dev.negotiated = 0 ∧ 3 ≤ ttrust.dev.negotiated) ∧ (⟨2, 0, false⟩ ∈ ttrust.dev.sessions ∧ ⟨1, 0, true⟩ ∈ ttrust.dev.sessions) ∧
    (ttrust.dev.keySlot 1 = some ⟨1, 0, some 1, none⟩ ∧ ttrust.dev.keySlot 3 = some ⟨3, 0, some 2, some 1⟩) := by decide +kernel

/-- A device in its boot ROM, an image whose signer's key is not the fused one, and a device that is switched off with a job that is ending. -/
theorem test_TrustAndSupervision_off_met :
    (let s : State := { ttrust with dev := { ttrust.dev with inRom := true } }
     s.dev.inRom = true ∧ asked (.setPowerCap 1200) = true ∧ asked (.nodeDomainBind 5 0) = true ∧
     ((7 : BitVec 12) ≠ 0 ∧ ∀ v, s.dev.keySlot 7 = some v → v.job = none) ∧ ([(0, 1)] : List (BitVec 6 × BitVec 12)).length ≤ 64) ∧
    (∃ f : Firmware, sha3 f.key ≠ Config.fusedKeyHash) ∧
    (let s : State := { ttrust with dev := { ttrust.dev with diesOn := false, jobs := [{ tj with ending := some ⟨3, 0, 0, 0, 0⟩ }] } }
     s.dev.diesOn = false ∧ s.dev.inRom = false ∧ s.dev.jobs = [{ tj with ending := some ⟨3, 0, 0, 0, 0⟩ }]) := by
  refine ⟨⟨rfl, rfl, rfl, ⟨by decide, ?_⟩, by decide⟩, ?_, rfl, rfl, rfl⟩
  · intro v hv
    have h : ttrust.dev.keySlot 7 = none := by decide +kernel
    exact nomatch h.symm.trans hv
  · by_cases h : sha3 [] = Config.fusedKeyHash
    · exact ⟨⟨1, 0, [0], [], []⟩, fun e => absurd (h.trans e.symm) (by decide +kernel)⟩
    · exact ⟨⟨1, 0, [], [], []⟩, h⟩

/-- A table that maps a page of the expander on port 1. -/
theorem test_TrustAndSupervision_mapped :
    (let m := [(0x1000, 1), (0x1001, 0x20), (0x2000, 1), (0x2001, 0x30), (0x3000, 1), (0x3001, 0x40), (0x4000, 1), (0x4001, 0x50), (0x5000, 1), (0x5001, 0x10), (0x5005, 0x10)]
     let s : State := { mem := m, dev := { ttrust.dev with roots := [(0, 0x1000)], sectorKeys := [] } }
     ∃ r ∈ s.dev.allRoots, s.mach.mapsRange 0x100000001000 0x100000002000 5 r = true) := by decide +kernel

/-- SHA3-256 of nothing (FIPS 202). -/
theorem test_sha3_empty : sha3 [] = BitVec.ofNat 256 (leNat [0xa7, 0xff, 0xc6, 0xf8, 0xbf, 0x1e, 0xd7, 0x66, 0x51, 0xc1, 0x47, 0x56, 0xa0, 0x61, 0xd6, 0x62,
    0xf5, 0x80, 0xff, 0x4d, 0xe4, 0x3b, 0x49, 0xfa, 0x82, 0xd8, 0x0a, 0x4b, 0x80, 0xf8, 0x43, 0x4a]) := by decide +kernel

/-! ## Decoding -/

/-- F-RR, major 0x01 with its fn7 table (R82, R89): `op x7, x5, x6` under (!p3). -/
theorem test_decode_op :
    decodeTableWord 32 0b000001_00111_00101_00110_011_1_0000000 = some (.add 7 5 6 ⟨3, true⟩) ∧
    decodeTableWord 32 0b000001_00111_00101_00110_011_1_0000001 = some (.sub 7 5 6 ⟨3, true⟩) ∧
    decodeTableWord 32 0b000001_00111_00101_00110_011_1_0000010 = some (.and 7 5 6 ⟨3, true⟩) ∧
    decodeTableWord 32 0b000001_00111_00101_00110_011_1_0000011 = some (.or 7 5 6 ⟨3, true⟩) ∧
    decodeTableWord 32 0b000001_00111_00101_00110_011_1_0000100 = some (.xor 7 5 6 ⟨3, true⟩) ∧
    decodeTableWord 32 0b000001_00111_00101_00110_011_1_0000101 = some (.shl 7 5 6 ⟨3, true⟩) ∧
    decodeTableWord 32 0b000001_00111_00101_00110_011_1_0000110 = some (.shr 7 5 6 ⟨3, true⟩) ∧
    decodeTableWord 32 0b000001_00111_00101_00110_011_1_0000111 = some (.sar 7 5 6 ⟨3, true⟩) ∧
    decodeTableWord 32 0b000001_00111_00101_00110_011_1_0001000 = some (.min 7 5 6 ⟨3, true⟩) ∧
    decodeTableWord 32 0b000001_00111_00101_00110_011_1_0001001 = some (.max 7 5 6 ⟨3, true⟩) ∧
    decodeTableWord 32 0b000001_00111_00101_00110_011_1_0001010 = some (.minu 7 5 6 ⟨3, true⟩) ∧
    decodeTableWord 32 0b000001_00111_00101_00110_011_1_0001011 = some (.maxu 7 5 6 ⟨3, true⟩) ∧
    decodeTableWord 32 0b000001_00111_00101_00110_011_1_0010000 = some (.mul 7 5 6 ⟨3, true⟩) ∧
    decodeTableWord 32 0b000001_00111_00101_00110_011_1_0010001 = some (.mulh 7 5 6 ⟨3, true⟩) ∧
    decodeTableWord 32 0b000001_00111_00101_00110_011_1_0010010 = some (.mulhu 7 5 6 ⟨3, true⟩) ∧
    decodeTableWord 32 0b000001_00111_00101_00110_011_1_0010100 = some (.div 7 5 6 ⟨3, true⟩) ∧
    decodeTableWord 32 0b000001_00111_00101_00110_011_1_0010101 = some (.divu 7 5 6 ⟨3, true⟩) ∧
    decodeTableWord 32 0b000001_00111_00101_00110_011_1_0010110 = some (.rem 7 5 6 ⟨3, true⟩) ∧
    decodeTableWord 32 0b000001_00111_00101_00110_011_1_0010111 = some (.remu 7 5 6 ⟨3, true⟩) := by decide +kernel

/-- The unary codes of major 0x01. -/
theorem test_decode_unary :
    decodeTableWord 32 0b000001_11111_00101_00000_000_0_0011000 = some (.clz 31 5 ⟨0, false⟩) ∧
    decodeTableWord 32 0b000001_11111_00101_00000_000_0_0011001 = some (.popc 31 5 ⟨0, false⟩) ∧
    decodeTableWord 32 0b000001_11111_00101_00000_000_0_0011010 = some (.sextb 31 5 ⟨0, false⟩) ∧
    decodeTableWord 32 0b000001_11111_00101_00000_000_0_0011011 = some (.sexth 31 5 ⟨0, false⟩) ∧
    decodeTableWord 32 0b000001_11111_00101_00000_000_0_0011100 = some (.sextw 31 5 ⟨0, false⟩) ∧
    decodeTableWord 32 0b000001_11111_00101_00000_000_0_0011101 = some (.zextw 31 5 ⟨0, false⟩) := by decide +kernel

/-- F-RI and F-U, majors 0x02 to 0x0B (R83). -/
theorem test_decode_imm :
    decodeTableWord 32 0b000010_00111_00101_010_0_100000000001 = some (.addi 7 5 0x801 ⟨2, false⟩) ∧
    decodeTableWord 32 0b000011_00111_00101_010_0_100000000001 = some (.andi 7 5 0x801 ⟨2, false⟩) ∧
    decodeTableWord 32 0b000100_00111_00101_010_0_100000000001 = some (.ori 7 5 0x801 ⟨2, false⟩) ∧
    decodeTableWord 32 0b000101_00111_00101_010_0_100000000001 = some (.xori 7 5 0x801 ⟨2, false⟩) ∧
    decodeTableWord 32 0b000110_00111_00101_010_0_000000111111 = some (.shli 7 5 63 ⟨2, false⟩) ∧
    decodeTableWord 32 0b000111_00111_00101_010_0_000000111111 = some (.shri 7 5 63 ⟨2, false⟩) ∧
    decodeTableWord 32 0b001000_00111_00101_010_0_000000111111 = some (.sari 7 5 63 ⟨2, false⟩) ∧
    decodeTableWord 32 0b001001_10011_100000000000000000001 = some (.lui 19 0x100001) ∧
    decodeTableWord 32 0b001010_10011_100000000000000000001 = some (.luih 19 0x100001) ∧
    decodeTableWord 32 0b001011_10011_100000000000000000001 = some (.addpc 19 0x100001) := by decide +kernel

/-- Compares and predicate operations, majors 0x0C to 0x0F (R89 to R91): k15 is specifier 31. -/
theorem test_decode_predicates :
    decodeTableWord 32 0b001100_00111_00101_00110_000_0_0000101 = some (.cmp 7 5 6 .geu) ∧
    decodeTableWord 32 0b001101_00001_00101_001_0_000000001100 = some (.cmpi 1 5 .ne 12) ∧
    decodeTableWord 32 0b001110_00001_00111_11111_000_0_0000000 = some (.pand 1 (.p 7) (.k 15) ⟨0, false⟩) ∧
    decodeTableWord 32 0b001110_00001_00111_11111_000_0_0000001 = some (.por 1 (.p 7) (.k 15) ⟨0, false⟩) ∧
    decodeTableWord 32 0b001110_00001_00111_11111_000_0_0000010 = some (.pxor 1 (.p 7) (.k 15) ⟨0, false⟩) ∧
    decodeTableWord 32 0b001110_00001_00111_11111_000_0_0000011 = some (.pandn 1 (.p 7) (.k 15) ⟨0, false⟩) ∧
    decodeTableWord 32 0b001110_00001_10000_00000_000_0_0000100 = some (.pnot 1 (.k 0) ⟨0, false⟩) ∧
    decodeTableWord 32 0b001111_00111_00101_00110_001_0_0000011 = some (.sel 7 5 6 3 ⟨1, false⟩) := by decide +kernel

/-- Local loads and stores, majors 0x10 to 0x1A (R89). -/
theorem test_decode_local :
    decodeTableWord 32 0b010000_01001_00010_000_0_011111111111 = some (.ldb 9 2 0x7FF ⟨0, false⟩) ∧
    decodeTableWord 32 0b010001_01001_00010_000_0_011111111111 = some (.ldh 9 2 0x7FF ⟨0, false⟩) ∧
    decodeTableWord 32 0b010010_01001_00010_000_0_011111111111 = some (.ldw 9 2 0x7FF ⟨0, false⟩) ∧
    decodeTableWord 32 0b010011_01001_00010_000_0_011111111111 = some (.ldd 9 2 0x7FF ⟨0, false⟩) ∧
    decodeTableWord 32 0b010100_01001_00010_000_0_011111111111 = some (.ldbu 9 2 0x7FF ⟨0, false⟩) ∧
    decodeTableWord 32 0b010101_01001_00010_000_0_011111111111 = some (.ldhu 9 2 0x7FF ⟨0, false⟩) ∧
    decodeTableWord 32 0b010110_01001_00010_000_0_011111111111 = some (.ldwu 9 2 0x7FF ⟨0, false⟩) ∧
    decodeTableWord 32 0b010111_01001_00010_000_0_011111111111 = some (.stb 9 2 0x7FF ⟨0, false⟩) ∧
    decodeTableWord 32 0b011000_01001_00010_000_0_011111111111 = some (.sth 9 2 0x7FF ⟨0, false⟩) ∧
    decodeTableWord 32 0b011001_01001_00010_000_0_011111111111 = some (.stw 9 2 0x7FF ⟨0, false⟩) ∧
    decodeTableWord 32 0b011010_01001_00010_000_0_011111111111 = some (.std 9 2 0x7FF ⟨0, false⟩) := by decide +kernel

/-- System accesses and atomics, majors 0x1B and 0x1C: scope 3, then size, acq, rel and the last bit (R91). -/
theorem test_decode_system :
    decodeTableWord 32 0b011011_00000_00100_00000_000_0_1100100 = some (.lds 4 .system .b true ⟨0, false⟩) ∧
    decodeTableWord 32 0b011011_00000_00100_00110_000_0_0111011 = some (.sts 4 6 .cluster .d true ⟨0, false⟩) ∧
    decodeTableWord 32 0b011100_00000_00100_00110_000_0_1010100 = some (.amoadd 4 6 .package false true false ⟨0, false⟩) ∧
    decodeTableWord 32 0b011100_00001_00100_00110_000_0_1010100 = some (.amoand 4 6 .package false true false ⟨0, false⟩) ∧
    decodeTableWord 32 0b011100_00010_00100_00110_000_0_1010100 = some (.amoor 4 6 .package false true false ⟨0, false⟩) ∧
    decodeTableWord 32 0b011100_00011_00100_00110_000_0_1010100 = some (.amoxor 4 6 .package false true false ⟨0, false⟩) ∧
    decodeTableWord 32 0b011100_00100_00100_00110_000_0_1010100 = some (.amomin 4 6 .package false true false ⟨0, false⟩) ∧
    decodeTableWord 32 0b011100_00101_00100_00110_000_0_1010100 = some (.amomax 4 6 .package false true false ⟨0, false⟩) ∧
    decodeTableWord 32 0b011100_00110_00100_00110_000_0_1010100 = some (.amominu 4 6 .package false true false ⟨0, false⟩) ∧
    decodeTableWord 32 0b011100_00111_00100_00110_000_0_1010100 = some (.amomaxu 4 6 .package false true false ⟨0, false⟩) ∧
    decodeTableWord 32 0b011100_01000_00100_00110_000_0_1010100 = some (.amoswap 4 6 .package false true false ⟨0, false⟩) ∧
    decodeTableWord 32 0b011100_01001_00100_11110_000_0_0011010 = some (.amocas 4 15 .core true false true ⟨0, false⟩) := by decide +kernel

/-- F-Q, major 0x1D (R90, R116 to R119): the mode is sel[7:6] and the slot sel[3:0]. -/
theorem test_decode_queue :
    decodeTableWord 32 0b011101_00000_00101_00000110_000_0_0000 = some (.pushq 5 6 ⟨0, false⟩) ∧
    decodeTableWord 32 0b011101_00111_00000_11111111_000_0_0001 = some (.popq 7 255 ⟨0, false⟩) ∧
    decodeTableWord 32 0b011101_00000_00101_00000000_000_0_0010 = some (.fmt 5 ⟨0, false⟩) ∧
    decodeTableWord 32 0b011101_00000_00000_10000001_000_0_0011 = some (.toksig 0x81 ⟨0, false⟩) ∧
    decodeTableWord 32 0b011101_00000_00000_00000111_000_0_0100 = some (.tokwait 7 ⟨0, false⟩) ∧
    decodeTableWord 32 0b011101_00000_00101_10001111_001_1_0101 = some (.fwait 5 .cslot 15 ⟨1, true⟩) ∧
    decodeTableWord 32 0b011101_00000_00101_01000001_000_0_0110 = some (.fread 5 .slot 1 ⟨0, false⟩) ∧
    decodeTableWord 32 0b011101_00000_00101_00000000_000_0_0101 = some (.fwait 5 .seq 0 ⟨0, false⟩) := by decide +kernel

/-- F-Q, major 0x1E (R90, R121, R122, R386, R396). -/
theorem test_decode_sync :
    decodeTableWord 32 0b011110_00000_00000_00011111_000_0_0000 = some (.mfence 31 ⟨0, false⟩) ∧
    decodeTableWord 32 0b011110_00000_00000_00000000_111_0_0001 = some (.join ⟨7, false⟩) ∧
    decodeTableWord 32 0b011110_00000_00000_00000011_000_0_0010 = some (.fence .system ⟨0, false⟩) ∧
    decodeTableWord 32 0b011110_00000_00000_11111111_000_0_0011 = some (.bar 255 ⟨0, false⟩) ∧
    decodeTableWord 32 0b011110_00000_00000_00000001_000_0_0100 = some (.bara 1 ⟨0, false⟩) ∧
    decodeTableWord 32 0b011110_00000_00000_00000010_000_0_0101 = some (.barw 2 ⟨0, false⟩) ∧
    decodeTableWord 32 0b011110_00000_00000_00000000_000_0_0110 = some (.phase ⟨0, false⟩) ∧
    decodeTableWord 32 0b011110_00000_00101_00001001_000_0_0111 = some (.acwait 5 9 ⟨0, false⟩) ∧
    decodeTableWord 32 0b011110_00000_00101_00001001_000_0_1000 = some (.acany 5 9 ⟨0, false⟩) ∧
    decodeTableWord 32 0b011110_10011_00000_00000000_000_0_1001 = some (.wquiet 19 0 ⟨0, false⟩) := by decide +kernel

/-- F-B, `jr` and F-E, majors 0x1F to 0x25 (R82, R89). -/
theorem test_decode_flow :
    decodeTableWord 32 0b011111_001_0_0000000000000000000110 = some (.br 6 ⟨1, false⟩) ∧
    decodeTableWord 32 0b100000_000_0_1111111111111111111111 = some (.call (-1) ⟨0, false⟩) ∧
    decodeTableWord 32 0b100001_00001_00101_000_0_100000000000 = some (.jr 1 5 0x800 ⟨0, false⟩) ∧
    decodeTableWord 32 0b100010_000_0_0000000000000000000010 = some (.loop 2 ⟨0, false⟩) ∧
    decodeTableWord 32 0b100011_010_1_0000000000000000000010 = some (.loopr 2 ⟨2, true⟩) ∧
    decodeTableWord 32 0b100100_000_0_0000000000000000000000 = some (.done ⟨0, false⟩) ∧
    decodeTableWord 32 0b100101_100_11000_00000_01010_000_0_0_000 = some (.enq .kq 24 0 10 ⟨0, false⟩) ∧
    decodeTableWord 32 0b100101_010_11000_00000_01010_000_0_1_000 = some (.enqG 24 0 10 ⟨0, false⟩) := by decide +kernel

/-- F-S, major 0x26 (R90, R91, R141). -/
theorem test_decode_sysgroup :
    decodeTableWord 32 0b100110_00101_00000_000000000100_0000 = some (.csrr 5 4) ∧
    decodeTableWord 32 0b100110_00000_00110_000000100010_0001 = some (.csrw 0 6 0x22) ∧
    decodeTableWord 32 0b100110_00101_00110_111111111111_0010 = some (.csrs 5 6 0xFFF) ∧
    decodeTableWord 32 0b100110_00101_00110_000000000101_0011 = some (.csrc 5 6 5) ∧
    decodeTableWord 32 0b100110_00000_00000_000000000001_0100 = some (.trapMapPool) ∧
    decodeTableWord 32 0b100110_00000_00000_000000000010_0100 = some (.trapUnmap) ∧
    decodeTableWord 32 0b100110_00000_00000_000000000011_0100 = some (.trapYield) ∧
    decodeTableWord 32 0b100110_00000_00000_000000000100_0100 = some (.trapLog) ∧
    decodeTableWord 32 0b100110_00000_00000_000000000101_0100 = some (.trapExit) ∧
    decodeTableWord 32 0b100110_00000_00000_000000000000_0100 = some (.trap 0) ∧
    decodeTableWord 32 0b100110_00000_00000_000000000110_0100 = some (.trap 6) ∧
    decodeTableWord 32 0b100110_00000_00000_000000000000_0101 = some (.eret) ∧
    decodeTableWord 32 0b100110_00000_00000_000000000000_0110 = some (.wfe) ∧
    decodeTableWord 32 0b100110_00000_00000_000000000000_0111 = some (.brk) ∧
    decodeTableWord 32 0b100110_00000_00101_000000000000_1000 = some (.resume 5) ∧
    decodeTableWord 32 0b100110_00000_00101_000000000000_1001 = some (.squash 5) ∧
    decodeTableWord 32 0b100110_00000_00101_000000000010_1010 = some (.tlbinv 5 2) := by decide +kernel

/-- Long forms with two sources (R86, R87, R92, R281): a region, or xc with SC. -/
theorem test_decode_vector2 :
    decodeTableWord 64 0b00000000100_00000_001_0_1_00000_000000_11_000000_11111111111_00000000011_00 = some (.vadd 2047 3 (.reg 4) ⟨true, .pred ⟨1, false⟩⟩) ∧
    decodeTableWord 64 0b00000000100_00000_001_0_1_00000_000000_11_000001_11111111111_00000000011_00 = some (.vsub 2047 3 (.reg 4) ⟨true, .pred ⟨1, false⟩⟩) ∧
    decodeTableWord 64 0b00000000100_00000_001_0_1_00000_000000_11_000010_11111111111_00000000011_00 = some (.vmul 2047 3 (.reg 4) ⟨true, .pred ⟨1, false⟩⟩) ∧
    decodeTableWord 64 0b00000000100_00000_001_0_1_00000_000000_11_000011_11111111111_00000000011_00 = some (.vfma 2047 3 (.reg 4) ⟨true, .pred ⟨1, false⟩⟩) ∧
    decodeTableWord 64 0b00000000100_00000_001_0_1_00000_000000_11_000100_11111111111_00000000011_00 = some (.vdiv 2047 3 (.reg 4) ⟨true, .pred ⟨1, false⟩⟩) ∧
    decodeTableWord 64 0b00000000100_00000_001_0_1_00000_000000_11_000101_11111111111_00000000011_00 = some (.vmin 2047 3 (.reg 4) ⟨true, .pred ⟨1, false⟩⟩) ∧
    decodeTableWord 64 0b00000000100_00000_001_0_1_00000_000000_11_000110_11111111111_00000000011_00 = some (.vmax 2047 3 (.reg 4) ⟨true, .pred ⟨1, false⟩⟩) ∧
    decodeTableWord 64 0b00000000100_00000_001_0_1_00000_000000_11_000111_11111111111_00000000011_00 = some (.vand 2047 3 (.reg 4) ⟨true, .pred ⟨1, false⟩⟩) ∧
    decodeTableWord 64 0b00000000100_00000_001_0_1_00000_000000_11_001000_11111111111_00000000011_00 = some (.vor 2047 3 (.reg 4) ⟨true, .pred ⟨1, false⟩⟩) ∧
    decodeTableWord 64 0b00000000100_00000_001_0_1_00000_000000_11_001001_11111111111_00000000011_00 = some (.vxor 2047 3 (.reg 4) ⟨true, .pred ⟨1, false⟩⟩) ∧
    decodeTableWord 64 0b00000000100_00000_001_0_1_00000_000000_11_001010_11111111111_00000000011_00 = some (.vshl 2047 3 (.reg 4) ⟨true, .pred ⟨1, false⟩⟩) ∧
    decodeTableWord 64 0b00000000100_00000_001_0_1_00000_000000_11_001011_11111111111_00000000011_00 = some (.vshr 2047 3 (.reg 4) ⟨true, .pred ⟨1, false⟩⟩) ∧
    decodeTableWord 64 0b00000000100_00000_001_0_1_00000_000000_11_001100_11111111111_00000000011_00 = some (.vsar 2047 3 (.reg 4) ⟨true, .pred ⟨1, false⟩⟩) ∧
    decodeTableWord 64 0b00000000000_11111_010_1_0_00000_000001_11_000000_11111111111_00000000011_01 = some (.vadd 2047 3 (.scalar 31) ⟨false, .stage 10⟩) ∧
    decodeTableWord 64 0b00000000100_00000_000_0_0_00110_000000_11_001101_00000000001_00000000011_00 = some (.vcmp 1 3 (.reg 4) .un ⟨false, .pred ⟨0, false⟩⟩) ∧
    decodeTableWord 64 0b00000000100_00000_000_0_0_00000_000000_11_001110_00000000001_00000000011_00 = some (.vsel 1 3 (.reg 4) ⟨false, .pred ⟨0, false⟩⟩) := by decide +kernel

/-- The other long forms of 14_vector_isa (R289, R290). -/
theorem test_decode_vector1 :
    decodeTableWord 64 0b00000000000_00000_000_0_0_00000_000000_11_010000_00000000001_00000000011_00 = some (.vabs 1 3 ⟨false, .pred ⟨0, false⟩⟩) ∧
    decodeTableWord 64 0b00000000000_00000_000_0_0_00000_000000_11_010001_00000000001_00000000011_00 = some (.vneg 1 3 ⟨false, .pred ⟨0, false⟩⟩) ∧
    decodeTableWord 64 0b00000000000_00000_000_0_0_00000_000000_11_010010_00000000001_00000000011_00 = some (.vnot 1 3 ⟨false, .pred ⟨0, false⟩⟩) ∧
    decodeTableWord 64 0b00000000000_00000_000_0_0_00000_000000_11_010011_00000000001_00000000011_00 = some (.vcvt 1 3 ⟨false, .pred ⟨0, false⟩⟩) ∧
    decodeTableWord 64 0b00000000000_00000_000_0_0_00000_000000_11_010111_00000000001_00000000011_00 = some (.vmove 1 3 ⟨false, .pred ⟨0, false⟩⟩) ∧
    decodeTableWord 64 0b00000000100_00101_000_0_0_00000_000110_11_010100_00000000001_00000000011_00 = some (.vquant 1 3 4 5 3 ⟨false, .pred ⟨0, false⟩⟩) ∧
    decodeTableWord 64 0b00000000100_00101_000_0_0_00000_000010_11_010101_00000000001_00000000011_00 = some (.vdeq 1 3 4 5 1 ⟨false, .pred ⟨0, false⟩⟩) ∧
    decodeTableWord 64 0b00000000000_00000_000_0_0_00111_000000_11_010110_00000000001_00000000011_00 = some (.vsf 1 3 7 ⟨false, .pred ⟨0, false⟩⟩) ∧
    decodeTableWord 64 0b00000000000_00101_000_0_0_00000_000000_11_011000_00000000001_00000000000_00 = some (.vfill 1 5 ⟨false, .pred ⟨0, false⟩⟩) ∧
    decodeTableWord 64 0b00000000000_00101_000_0_0_00000_111111_11_011001_00000000001_00000000000_00 = some (.viota 1 5 63 ⟨false, .pred ⟨0, false⟩⟩) ∧
    decodeTableWord 64 0b00000000011_00000_000_0_0_00000_000000_11_011010_00000000001_00000000001_00 = some (.vclip 1 1 3 ⟨false, .pred ⟨0, false⟩⟩) ∧
    decodeTableWord 64 0b00000000000_00000_000_0_0_00010_000000_11_011011_00000000001_00000000011_00 = some (.vscan 1 3 .min ⟨false, .pred ⟨0, false⟩⟩) ∧
    decodeTableWord 64 0b00000000000_00000_000_0_0_00000_000000_11_011100_00000000000_00000000011_00 = some (.vzcnt 3 ⟨false, .pred ⟨0, false⟩⟩) ∧
    decodeTableWord 64 0b00000000000_00000_000_0_0_00111_000000_11_011101_00000000001_00000000011_00 = some (.vperm 1 3 7 (.pred ⟨0, false⟩)) ∧
    decodeTableWord 64 0b00000000000_00000_000_0_0_00111_000000_11_011110_00000000000_00000000011_00 = some (.vpset 3 7 (.pred ⟨0, false⟩)) ∧
    decodeTableWord 64 0b00000000000_00101_000_0_0_00111_000000_11_011111_00000000000_00000000011_00 = some (.vpred 7 5 3 (.pred ⟨0, false⟩)) ∧
    decodeTableWord 64 0b00000000000_00000_000_0_0_00000_000000_11_100000_00000000000_00000000011_00 = some (.vrsum 3 ⟨false, .pred ⟨0, false⟩⟩) ∧
    decodeTableWord 64 0b00000000000_00000_000_0_0_00000_000000_11_100001_00000000000_00000000011_00 = some (.vrmax 3 ⟨false, .pred ⟨0, false⟩⟩) ∧
    decodeTableWord 64 0b00000000000_00000_000_0_0_00000_000000_11_100010_00000000000_00000000011_00 = some (.vrmin 3 ⟨false, .pred ⟨0, false⟩⟩) := by decide +kernel

/-- The summary instructions (15_summary_isa). -/
theorem test_decode_summaries :
    decodeTableWord 64 0b00000000000_00000_000_0_0_00000_000000_11_100011_00000001010_00000000001_00 = some (.vskq 10 1 ⟨false, .pred ⟨0, false⟩⟩) ∧
    decodeTableWord 64 0b00000000000_00000_000_0_0_00000_000000_11_100100_00000001010_00000000001_00 = some (.vskh 10 1 ⟨false, .pred ⟨0, false⟩⟩) ∧
    decodeTableWord 64 0b00000000000_00000_000_0_0_00000_000000_11_100101_00000001010_00000000001_00 = some (.vskd 10 1 ⟨false, .pred ⟨0, false⟩⟩) ∧
    decodeTableWord 64 0b00000000000_00000_000_0_0_00000_000000_11_100110_00000001010_00000000001_00 = some (.smerge 10 1 (.pred ⟨0, false⟩)) ∧
    decodeTableWord 64 0b00000000000_01110_000_0_0_00000_000000_11_100111_00000000000_00000001011_00 = some (.squeryQuant 11 14 (.pred ⟨0, false⟩)) ∧
    decodeTableWord 64 0b00000000000_01110_000_0_0_00001_000000_11_100111_00000000000_00000001011_00 = some (.squeryRank 11 14 (.pred ⟨0, false⟩)) ∧
    decodeTableWord 64 0b00000000000_01110_000_0_0_00010_000000_11_100111_00000000000_00000001011_00 = some (.squeryCount 11 14 (.pred ⟨0, false⟩)) ∧
    decodeTableWord 64 0b00000000000_01110_000_0_0_00011_000000_11_100111_00000000000_00000001011_00 = some (.squeryEntry 11 14 (.pred ⟨0, false⟩)) ∧
    decodeTableWord 64 0b00000000000_00000_000_0_0_00100_000000_11_100111_00000000000_00000001011_00 = some (.squeryEst 11 (.pred ⟨0, false⟩)) ∧
    decodeTableWord 64 0b00000000000_10000_000_0_0_00000_000000_11_101000_00000001010_00000000000_00 = some (.sinit 10 16 (.pred ⟨0, false⟩)) := by decide +kernel

/-- TRF lines (R88, R227) and region registers (R277, R278). -/
theorem test_decode_lines :
    decodeTableWord 64 0b00000010100_01_00000101_00010000_000_11_101100_00000000000_00000000000_10 = some (.tload 20 .col 5 16) ∧
    decodeTableWord 64 0b11111111111_11_11111111_11111110_000_11_101101_00000000000_00000000000_10 = some (.tstore 2047 .adi 255 254) ∧
    decodeTableWord 64 0b00000000001_10_00000000_00000000_000_11_101100_00000000000_00000000000_10 = some (.tload 1 .dia 0 0) ∧
    decodeTableWord 64 0b00000000000_00101_000_0_0_00000_000000_11_110000_00000000001_00000000011_00 = some (.vset .base 1 3 5 (.pred ⟨0, false⟩)) ∧
    decodeTableWord 64 0b00000000000_00101_000_0_0_00001_000000_11_110000_00000000001_00000000011_00 = some (.vset .peer 1 3 5 (.pred ⟨0, false⟩)) ∧
    decodeTableWord 64 0b00000000000_00101_000_0_0_00010_000000_11_110000_00000000001_00000000011_00 = some (.vset .count 1 3 5 (.pred ⟨0, false⟩)) ∧
    decodeTableWord 64 0b00000000000_00101_000_0_0_00011_000000_11_110000_00000000001_00000000011_00 = some (.vset .stride 1 3 5 (.pred ⟨0, false⟩)) ∧
    decodeTableWord 64 0b00000000000_00101_000_0_0_00100_000000_11_110000_00000000001_00000000011_00 = some (.vset .fmt 1 3 5 (.pred ⟨0, false⟩)) ∧
    decodeTableWord 64 0b00000000000_00101_000_0_0_00100_000000_11_110001_00000000000_00000000011_00 = some (.vget .fmt 5 3 (.pred ⟨0, false⟩)) ∧
    decodeTableWord 64 0b00000000000_00101_000_0_0_00000_000000_11_110010_00000000001_00000000011_00 = some (.vaddb 1 3 5 (.pred ⟨0, false⟩)) ∧
    decodeTableWord 64 0b00000000000_00000_000_0_0_00000_000000_11_110011_00000000001_00000000011_00 = some (.vcopy 1 3 (.pred ⟨0, false⟩)) := by decide +kernel

/-- Words that the manual prints: `wquiet x19`, `vclip v1, v1, v3`, `sinit v10, x16`, `squery.quant v11, x14`, `tload t.col[5], v20, 16` (R227, R290, R317, R396). -/
theorem test_decode_printed :
    decodeTableWord 32 0x7A600009 = some (.wquiet 19 0 ⟨0, false⟩) ∧
    decodeTableWord 64 0x00600000DA002004 = some (.vclip 1 1 3 ⟨false, .pred ⟨0, false⟩⟩) ∧
    decodeTableWord 64 0x00100000E8014000 = some (.sinit 10 16 (.pred ⟨0, false⟩)) ∧
    decodeTableWord 64 0x000E0000E700002C = some (.squeryQuant 11 14 (.pred ⟨0, false⟩)) ∧
    decodeTableWord 64 0x02882880EC000002 = some (.tload 20 .col 5 16) := by decide +kernel

/-- What is no instruction (R81, R87, R89 to R91, R96): zeros, ones, an unassigned major, code, condition, size or long opcode, a reserved field. -/
theorem test_decode_refuses :
    decodeTableWord 32 0 = none ∧ decodeTableWord 32 0xFFFFFFFF = none ∧ decodeTableWord 32 0xBC000000 = none ∧ decodeTableWord 32 0x0400000C = none ∧
    decodeTableWord 32 0x30000007 = none ∧ decodeTableWord 32 0x70000000 = none ∧ decodeTableWord 64 0xCF000000 = none ∧ decodeTableWord 64 0xC0000003 = none ∧
    decodeTableWord 32 0x94000001 = none ∧ decodeTableWord 32 0x98000003 ≠ none := by decide +kernel

/-! ## The machine as a whole -/

/-- Core 0 before an instruction: at 0x40 stand these bytes. -/
def tstep (bs : List Byte) : State := { tsx (tx []) with mem := cells (window 0 + 0x300040) bs }

theorem test_StepRuns_issues : Issues (tstep []) ∧ SlotNext (tstep []) (tstep []) ∧ SlotNext ((tstep []).withAgenda [.slot]) (tstep []) := by
  refine ⟨by unfold Issues; decide, Or.inr ⟨rfl, by decide +kernel, rfl⟩, Or.inl ⟨[], rfl, rfl⟩⟩

/-- An instruction, a word that is illegal and one that is reserved, with eight bytes to fetch; an instruction at the very end of the image, and the end itself. -/
theorem test_StepRuns_fetch_met :
    (decode ((List.range 8).map fun k => (tstep [0, 0x30, 0xE5, 0x04]).byte (fetchPa (tstep []) + k)) = .ok (.add 7 5 6 ⟨0, false⟩, [0, 0, 0, 0]) ∧
      decode ((List.range 8).map fun k => (tstep []).byte (fetchPa (tstep []) + k)) = .error .illegal ∧
      decode ((List.range 8).map fun k => (tstep [1, 0, 0, 0x94]).byte (fetchPa (tstep []) + k)) = .error .reserved) ∧ CanFetch (tstep []) 8 ∧
    CanFetch (tsx { tx [] with pc := 0xFFC }) 4 ∧ (tsx { tx [] with pc := 0x1000 }).here.imgLen < (tsx { tx [] with pc := 0x1000 }).cur.pc.toNat + 4 := by
  refine ⟨by decide +kernel, by unfold CanFetch; decide +kernel, by unfold CanFetch; decide +kernel, by decide⟩

/-- A long form whose second word lies beyond the image. -/
theorem test_StepRuns_long_met :
    let s : State := { tsx { tx [] with pc := 0xFFC } with mem := cells (window 0 + 0x300FFC) [0, 0, 0, 0xC0] }
    isLong (BitVec.ofNat 32 (s.num (fetchPa s) 4)) = true ∧ CanFetch s 4 ∧ s.here.imgLen < s.cur.pc.toNat + 8 := by
  refine ⟨by decide +kernel, by unfold CanFetch; decide +kernel, by decide⟩

/-- A poisoned first word, and a poisoned second word of a long form; a slot that an engine fault takes, and slots that stay empty. -/
theorem test_StepRuns_held_met :
    (let s : State := { tstep [] with dev := { (tstep []).dev with poison := [window 0 + 0x300040] } }
     Issues s ∧ 0x40 + 4 ≤ s.here.imgLen ∧ s.dev.poisonIn (fetchPa s) 4 ≠ none) ∧
    (let s : State := { tstep [0, 0, 0, 0xC0] with dev := { (tstep []).dev with poison := [window 0 + 0x300044] } }
     0x44 + 4 ≤ s.here.imgLen ∧ s.dev.poisonIn (fetchPa s) 4 = none ∧ isLong (BitVec.ofNat 32 (s.num (fetchPa s) 4)) = true ∧
     s.dev.poisonIn (fetchPa s + 4) 4 ≠ none) := by
  refine ⟨⟨by unfold Issues; decide, by decide, by decide +kernel⟩, by decide +kernel⟩

theorem test_StepRuns_slots_met :
    (let s := tsx { tx [] with efq := [⟨.lq, 1, 0, 0x0F, 0⟩] }
     SlotNext s s ∧ s.dev.diesOn = true ∧ s.dev.inRom = false ∧ s.here.life = .running ∧ s.here.busy = true ∧ s.cur.held = none ∧ s.here.spareDone = false ∧
     s.cur.efq ≠ [] ∧ s.cur.inh = false) ∧
    (let s := tsx { tx [] with done := true }
     SlotNext s s ∧ s.cur.efq = [] ∧ s.cur.done = true) ∧
    (let s := tsx { tx [] with fetchHeld := some 0x40 }
     s.cur.efq = [] ∧ s.cur.fetchHeld ≠ none) ∧
    (SlotNext State.reset State.reset ∧ State.reset.here.busy = false) :=
  ⟨⟨Or.inr ⟨rfl, by decide +kernel, rfl⟩, by decide⟩, ⟨Or.inr ⟨rfl, by decide +kernel, rfl⟩, by decide⟩, by decide, Or.inr ⟨rfl, by decide +kernel, rfl⟩, by decide +kernel⟩

/-- A core of which all contexts are done and whose iteration is over, and one that goes on (R350). -/
theorem test_StepRuns_freed_met :
    freed { tc { tx [] with done := true } with x := { tx [] with done := true }, s := { tx [] with done := true } } = true ∧ freed (tc (tx [])) = false := by decide +kernel

theorem test_StepRuns_events_met :
    ((tstep []).withAgenda [.event .quietWave]).dev.agenda = .event .quietWave :: [] ∧ (tel dfresh).mach.autoEvent = some (.commandIssue 0 1) ∧
    (∀ c ∈ (tstep []).dev.runningCores, c ≤ (tstep []).dev.turn.toNat) ∧ (∃ c ∈ (trec2 (tc (tx []))).dev.runningCores, 0 < c) := by decide +kernel

/-- The word that the manual prints for `add x7, x5, x6`, fetched and run; the slot then passes to context X in the next cycle (R4). -/
theorem test_step_add :
    (after (step (tstep [0, 0x30, 0xE5, 0x04]))).map (fun t => ((t.ctx 0 .a).pc, (t.ctx 0 .a).tick, t.kid)) = some (0x44, 1, .x) := by decide +kernel

/-- A word placed for the host is fetched and run by the next step after reset: `addi x5, x5, 0x2BC` (0x08A502BC). -/
theorem test_withFetchWord : (after (step (State.reset.withFetchWord 32 0x08A502BC))).map (fun t => (t.ctx 0 .a).reg 5) = some 0x2BC := by decide +kernel

theorem test_DecodeReadsBackEncode_met : Instr.wf (.add 7 5 6 ⟨0, false⟩) = true ∧ Instr.wf (.trap 4095) = true ∧ Instr.wf (.fwait 5 .seq 0 ⟨0, false⟩) = true ∧
    Instr.wf (.vadd 1024 3 (.reg 4) thead) = true := by decide

theorem test_StepKeepsTheInvariant_met : State.Inv State.reset ∧ State.Inv tfab := by unfold State.Inv; decide

end

end Sys2Proof.Tests
end

section
/-! SUPPORT. The scalar instructions with a register result, as the tables of the claims give them: each is one register write of its row's value. What such a
write and the landings of its issue leave (R26). Settles O3. -/

namespace Sys2Proof.Machine
open Sys2Proof.Claims

/-! ### Values (R105-R108), in terms of the integers that the words stand for -/

theorem add_eq_ofInt (a b : Word) : a + b = BitVec.ofInt 64 (a.toInt + b.toInt) := by
  rw [BitVec.ofInt_add, BitVec.ofInt_toInt, BitVec.ofInt_toInt]

theorem sub_eq_ofInt (a b : Word) : a - b = BitVec.ofInt 64 (a.toInt - b.toInt) := by
  rw [Int.sub_eq_add_neg, BitVec.ofInt_add, BitVec.ofInt_neg, BitVec.ofInt_toInt, BitVec.ofInt_toInt, BitVec.sub_eq_add_neg]

theorem mul_eq_ofInt (a b : Word) : a * b = BitVec.ofInt 64 (a.toInt * b.toInt) := by
  rw [BitVec.ofInt_mul, BitVec.ofInt_toInt, BitVec.ofInt_toInt]

theorem shiftLeft_eq_ofNat (a : Word) (n : Nat) : a <<< n = BitVec.ofNat 64 (a.toNat * 2 ^ n) := by
  apply BitVec.eq_of_toNat_eq
  rw [BitVec.toNat_shiftLeft, Nat.shiftLeft_eq, BitVec.toNat_ofNat]

theorem shiftRight_eq_ofNat (a : Word) (n : Nat) : a >>> n = BitVec.ofNat 64 (a.toNat / 2 ^ n) := by
  rw [← Nat.shiftRight_eq_div_pow, ← BitVec.toNat_ushiftRight, BitVec.ofNat_toNat, BitVec.setWidth_eq]

theorem sshiftRight_eq_ofInt (a : Word) (n : Nat) : a.sshiftRight n = BitVec.ofInt 64 (a.toInt / 2 ^ n) := by
  unfold BitVec.sshiftRight
  rw [Int.shiftRight_eq_div_pow]
  norm_cast

/-- The shift count is the low six bits (R105). -/
theorem truncate6_toNat (b : Word) : (b.truncate 6).toNat = b.toNat % 64 := BitVec.toNat_setWidth ..

theorem aluShl_eq (a b : Word) : aluShl a b = BitVec.ofNat 64 (a.toNat * 2 ^ (b.toNat % 64)) := by
  rw [aluShl, shiftLeft_eq_ofNat, truncate6_toNat]

theorem aluShr_eq (a b : Word) : aluShr a b = BitVec.ofNat 64 (a.toNat / 2 ^ (b.toNat % 64)) := by
  rw [aluShr, shiftRight_eq_ofNat, truncate6_toNat]

theorem aluSar_eq (a b : Word) : aluSar a b = BitVec.ofInt 64 (a.toInt / 2 ^ (b.toNat % 64)) := by
  rw [aluSar, sshiftRight_eq_ofInt, truncate6_toNat]

theorem aluMin_eq (a b : Word) : aluMin a b = BitVec.ofInt 64 (Min.min a.toInt b.toInt) := by
  unfold aluMin
  split
  case isTrue h => rw [Int.min_eq_left (BitVec.slt_iff_toInt_lt.mp h).le, BitVec.ofInt_toInt]
  case isFalse h => rw [Int.min_eq_right (not_lt.mp (mt BitVec.slt_iff_toInt_lt.mpr h)), BitVec.ofInt_toInt]

theorem aluMax_eq (a b : Word) : aluMax a b = BitVec.ofInt 64 (Max.max a.toInt b.toInt) := by
  unfold aluMax
  split
  case isTrue h => rw [Int.max_eq_right (BitVec.slt_iff_toInt_lt.mp h).le, BitVec.ofInt_toInt]
  case isFalse h => rw [Int.max_eq_left (not_lt.mp (mt BitVec.slt_iff_toInt_lt.mpr h)), BitVec.ofInt_toInt]

/-- A word is the number that it stands for without a sign. -/
theorem ofNat_toNat_self (a : Word) : BitVec.ofNat 64 a.toNat = a := by rw [BitVec.ofNat_toNat, BitVec.setWidth_eq]

theorem aluMinu_eq (a b : Word) : aluMinu a b = BitVec.ofNat 64 (Min.min a.toNat b.toNat) := by
  unfold aluMinu
  split
  case isTrue h => rw [Nat.min_eq_left (BitVec.ult_iff_toNat_lt.mp h).le, ofNat_toNat_self]
  case isFalse h => rw [Nat.min_eq_right (not_lt.mp (mt BitVec.ult_iff_toNat_lt.mpr h)), ofNat_toNat_self]

theorem aluMaxu_eq (a b : Word) : aluMaxu a b = BitVec.ofNat 64 (Max.max a.toNat b.toNat) := by
  unfold aluMaxu
  split
  case isTrue h => rw [Nat.max_eq_right (BitVec.ult_iff_toNat_lt.mp h).le, ofNat_toNat_self]
  case isFalse h => rw [Nat.max_eq_left (not_lt.mp (mt BitVec.ult_iff_toNat_lt.mpr h)), ofNat_toNat_self]

theorem aluMulhu_eq (a b : Word) : aluMulhu a b = BitVec.ofNat 64 (a.toNat * b.toNat / 2 ^ 64) := by
  have hlt : a.toNat * b.toNat < 2 ^ 64 * 2 ^ 64 := Nat.mul_lt_mul'' a.isLt b.isLt
  apply BitVec.eq_of_toNat_eq
  rw [aluMulhu, BitVec.extractLsb'_toNat, BitVec.toNat_mul, BitVec.toNat_setWidth_of_le (by decide), BitVec.toNat_setWidth_of_le (by decide),
    Nat.mod_eq_of_lt (show _ < 2 ^ 128 from hlt), Nat.shiftRight_eq_div_pow, BitVec.toNat_ofNat]

/-- The product of two words' sign extensions to 128 bits is their signed product: it does not overflow. -/
theorem toInt_mul_signExtend (a b : Word) : (a.signExtend 128 * b.signExtend 128).toInt = a.toInt * b.toInt := by
  have ha : |a.toInt| ≤ 2 ^ 63 := abs_le.mpr ⟨a.le_toInt, a.toInt_lt.le⟩
  have hb : |b.toInt| ≤ 2 ^ 63 := abs_le.mpr ⟨b.le_toInt, b.toInt_lt.le⟩
  have hab : |a.toInt * b.toInt| ≤ 2 ^ 63 * 2 ^ 63 := by
    rw [abs_mul]
    exact mul_le_mul ha hb (abs_nonneg _) (by decide)
  obtain ⟨hlo, hhi⟩ := abs_le.mp hab
  rw [BitVec.toInt_mul, BitVec.toInt_signExtend_of_le (by decide), BitVec.toInt_signExtend_of_le (by decide)]
  exact Int.bmod_eq_of_le (by omega) (by omega)

theorem aluMulh_eq (a b : Word) : aluMulh a b = BitVec.ofInt 64 (a.toInt * b.toInt / 2 ^ 64) := by
  rw [aluMulh, ← toInt_mul_signExtend]
  generalize a.signExtend 128 * b.signExtend 128 = p
  apply BitVec.eq_of_toNat_eq
  rw [BitVec.extractLsb'_toNat, BitVec.toNat_ofInt, Nat.shiftRight_eq_div_pow, BitVec.toInt_eq_toNat_cond]
  have := p.isLt
  split <;> omega

theorem aluDivu_eq (a b : Word) : aluDivu a b = if b = 0 then BitVec.allOnes 64 else BitVec.ofNat 64 (a.toNat / b.toNat) := by
  rw [aluDivu, ← BitVec.toNat_udiv, ofNat_toNat_self]

theorem aluRemu_eq (a b : Word) : aluRemu a b = if b = 0 then a else BitVec.ofNat 64 (a.toNat % b.toNat) := by
  rw [aluRemu, ← BitVec.toNat_umod, ofNat_toNat_self]

theorem aluClz_eq (a : Word) : aluClz a = BitVec.ofNat 64 (64 - if a = 0 then 0 else a.toNat.log2 + 1) := by
  unfold aluClz
  split
  · rfl
  · rw [show 64 - (a.toNat.log2 + 1) = 63 - a.toNat.log2 by omega]

theorem aluPopc_eq (a : Word) : aluPopc a = BitVec.ofNat 64 ((List.range 64).map fun i => a.toNat / 2 ^ i % 2).sum := by
  have hbit : ∀ i, a.toNat / 2 ^ i % 2 = if a.getLsbD i = true then 1 else 0 := by
    intro i
    rw [← BitVec.testBit_toNat, Nat.testBit_eq_decide_div_mod_eq]
    rcases Nat.mod_two_eq_zero_or_one (a.toNat / 2 ^ i) with h | h <;> simp [h]
  simp only [hbit, aluPopc, List.sum_map_ite, List.map_const', List.sum_replicate]
  simp

/-- The low bits of a word, extended with their sign. -/
theorem truncate_signExtend (a : Word) (n : Nat) : (a.truncate n).signExtend 64 = BitVec.ofInt 64 (BitVec.ofNat n a.toNat).toInt := by
  rw [BitVec.ofNat_toNat]
  rfl

theorem truncate32_zeroExtend (a : Word) : (a.truncate 32).zeroExtend 64 = BitVec.ofNat 64 (a.toNat % 2 ^ 32) := by
  rw [← BitVec.toNat_setWidth, BitVec.ofNat_toNat]

theorem zeroExtend6_toNat_mod (sh : BitVec 6) : (sh.zeroExtend 64).toNat % 64 = sh.toNat := by
  have := sh.isLt
  rw [BitVec.zeroExtend_eq_setWidth, BitVec.toNat_setWidth]
  omega

/-- A sign-extended immediate shifted up is its product with the power of two. -/
theorem signExtend_shiftLeft {w : Nat} (imm : BitVec w) (n : Nat) : imm.signExtend 64 <<< n = BitVec.ofInt 64 (imm.toInt * 2 ^ n) := by
  rw [shiftLeft_eq_ofNat, BitVec.ofNat_mul, ofNat_toNat_self, BitVec.ofInt_mul, ← BitVec.ofInt_natCast, Nat.cast_pow]
  rfl

/-- `luih` puts its immediate above the low half of the old value (R108). -/
theorem luih_eq (imm : BitVec 21) (x : Word) :
    (imm.zeroExtend 64 <<< 32) ||| (x.truncate 32).zeroExtend 64 = BitVec.ofNat 64 (imm.toNat * 2 ^ 32 + x.toNat % 2 ^ 32) := by
  have hx := Nat.mod_lt x.toNat (show 0 < 2 ^ 32 by decide)
  have hi := imm.isLt
  apply BitVec.eq_of_toNat_eq
  rw [BitVec.toNat_or, truncate32_zeroExtend, BitVec.toNat_shiftLeft, BitVec.toNat_setWidth_of_le (by decide), BitVec.toNat_ofNat, BitVec.toNat_ofNat,
    Nat.mod_eq_of_lt (b := 2 ^ 64) (by omega), Nat.mod_eq_of_lt (b := 2 ^ 64) (by omega), ← Nat.shiftLeft_add_eq_or_of_lt hx]
  omega

/-- An immediate is its integer (R83). -/
theorem add_imm12_eq (a : Word) (imm : BitVec 12) : a + imm12 imm = BitVec.ofInt 64 (a.toInt + imm.toInt) := by
  rw [BitVec.ofInt_add, BitVec.ofInt_toInt]
  rfl

theorem aluShl_zeroExtend (a : Word) (sh : BitVec 6) : aluShl a (sh.zeroExtend 64) = BitVec.ofNat 64 (a.toNat * 2 ^ sh.toNat) := by
  rw [aluShl_eq, zeroExtend6_toNat_mod]

theorem aluShr_zeroExtend (a : Word) (sh : BitVec 6) : aluShr a (sh.zeroExtend 64) = BitVec.ofNat 64 (a.toNat / 2 ^ sh.toNat) := by
  rw [aluShr_eq, zeroExtend6_toNat_mod]

theorem aluSar_zeroExtend (a : Word) (sh : BitVec 6) : aluSar a (sh.zeroExtend 64) = BitVec.ofInt 64 (a.toInt / 2 ^ sh.toNat) := by
  rw [aluSar_eq, zeroExtend6_toNat_mod]

/-- An address or target that lies `imm` words from `a` (R108, R127). -/
theorem add_signExtend_shiftLeft_two (a : Word) {w : Nat} (imm : BitVec w) :
    a + (imm.signExtend 64 <<< 2) = BitVec.ofInt 64 (a.toInt + imm.toInt * 4) := by
  rw [signExtend_shiftLeft, BitVec.ofInt_add, BitVec.ofInt_toInt]
  rfl

/-! ### Rows and meanings -/

/-- A register-to-register instruction whose guard holds writes its value. -/
theorem lift_regOp_value {s : State} {g : Guard} {d : Reg} {lat : Nat} {f : Ctx → Word} {v : Word} (hg : s.cur.guard g = true) (hv : f s.cur = v) :
    lift (fun m => m.regOp g d lat f) s = lift (fun m => m.finWrite d v lat (s.cur.pc + 4) id) s := by
  subst hv
  exact lift_congr (Mach.guarded_true hg)

theorem lift_finWrite_congr {s : State} {d : Reg} {v v' : Word} {lat : Nat} {pc : Word} (h : v = v') :
    lift (fun m => m.finWrite d v lat pc id) s = lift (fun m => m.finWrite d v' lat pc id) s := by rw [h]

/-- An instruction of the OP group writes the value of its row (R105, R106). -/
theorem exec_arithRow {i : Instr} {r : RegRow} {s : State} (h : arithRow i = some r) (hg : s.cur.guard r.g = true) :
    exec i s = lift (fun m => m.finWrite r.d (r.v s.cur) r.lat (s.cur.pc + 4) id) s := by
  unfold arithRow two one at h
  split at h <;> cases h
  · exact lift_regOp_value hg (add_eq_ofInt ..)
  · exact lift_regOp_value hg (sub_eq_ofInt ..)
  · exact lift_regOp_value hg rfl
  · exact lift_regOp_value hg rfl
  · exact lift_regOp_value hg rfl
  · exact lift_regOp_value hg (aluShl_eq ..)
  · exact lift_regOp_value hg (aluShr_eq ..)
  · exact lift_regOp_value hg (aluSar_eq ..)
  · exact lift_regOp_value hg (aluMin_eq ..)
  · exact lift_regOp_value hg (aluMax_eq ..)
  · exact lift_regOp_value hg (aluMinu_eq ..)
  · exact lift_regOp_value hg (aluMaxu_eq ..)
  · exact lift_regOp_value hg (mul_eq_ofInt ..)
  · exact lift_regOp_value hg (aluMulh_eq ..)
  · exact lift_regOp_value hg (aluMulhu_eq ..)
  · exact lift_regOp_value hg rfl
  · exact lift_regOp_value hg (aluDivu_eq ..)
  · exact lift_regOp_value hg rfl
  · exact lift_regOp_value hg (aluRemu_eq ..)
  · exact lift_regOp_value hg (aluClz_eq _)
  · exact lift_regOp_value hg (aluPopc_eq _)
  · exact lift_regOp_value hg (truncate_signExtend _ 8)
  · exact lift_regOp_value hg (truncate_signExtend _ 16)
  · exact lift_regOp_value hg (truncate_signExtend _ 32)
  · exact lift_regOp_value hg (truncate32_zeroExtend _)

/-- An immediate form, a constant, an address and `sel` write the value of their row (R107, R108, R111). -/
theorem exec_immRow {i : Instr} {r : RegRow} {s : State} (h : immRow i = some r) (hg : s.cur.guard r.g = true) :
    exec i s = lift (fun m => m.finWrite r.d (r.v s.cur) r.lat (s.cur.pc + 4) id) s := by
  unfold immRow one at h
  split at h <;> cases h
  · exact lift_regOp_value hg (add_imm12_eq ..)
  · exact lift_regOp_value hg rfl
  · exact lift_regOp_value hg rfl
  · exact lift_regOp_value hg rfl
  · exact lift_regOp_value hg (aluShl_zeroExtend ..)
  · exact lift_regOp_value hg (aluShr_zeroExtend ..)
  · exact lift_regOp_value hg (aluSar_zeroExtend ..)
  · exact lift_finWrite_congr (signExtend_shiftLeft _ 11)
  · exact lift_finWrite_congr (luih_eq _ (s.cur.reg _))
  · exact lift_finWrite_congr (add_signExtend_shiftLeft_two ..)
  · exact lift_regOp_value hg rfl

/-- The scalar instructions with a register result make the write of their row. -/
theorem exec_regRow {i : Instr} {r : RegRow} {s : State} (h : arithRow i = some r ∨ immRow i = some r) (hg : s.cur.guard r.g = true) :
    exec i s = lift (fun m => m.finWrite r.d (r.v s.cur) r.lat (s.cur.pc + 4) id) s :=
  h.elim (exec_arithRow · hg) (exec_immRow · hg)

/-! ### Landings (R26) -/

/-- The entries of register `q` that land at the end of one issue, oldest first. -/
def dueFor (l : List Pend) (q : Reg) : List Pend := l.filter fun p => decide (p.rem ≤ 1) && p.dest == q

/-- After a run of register writes a register holds what the last one to it wrote. -/
theorem foldl_setReg_reg (l : List Pend) (x : Ctx) {q : Reg} (hq : q ≠ 0) :
    (l.foldl (fun y p => y.setReg p.dest p.val) x).reg q = ((l.filter (·.dest == q)).getLast?.map Pend.val).getD (x.reg q) := by
  induction l using List.reverseRecOn with
  | nil => rfl
  | append_singleton l p ih =>
    rw [List.foldl_append, List.foldl_cons, List.foldl_nil, Ctx.reg_setReg, List.filter_append]
    by_cases h : p.dest = q
    · rw [if_pos ⟨h.symm, h ▸ hq⟩]
      simp [h]
    · simp [h, Ne.symm h, ih]

/-- A register after the landings of an issue, by the youngest entry due for it. -/
theorem landDue_reg (x : Ctx) {q : Reg} (hq : q ≠ 0) : x.landDue.reg q = ((dueFor x.pwb q).getLast?.map Pend.val).getD (x.reg q) := by
  unfold Ctx.landDue dueFor
  rw [foldl_setReg_reg _ _ hq, List.filter_filter]
  simp only [Bool.and_comm]
  rfl

/-- The latest-issued producer among the entries due remains. -/
theorem landDue_reg_of_due {x : Ctx} {q : Reg} {p : Pend} (hq : q ≠ 0) (h : (dueFor x.pwb q).getLast? = some p) : x.landDue.reg q = p.val := by
  rw [landDue_reg x hq, h]
  rfl

/-- A register for which no entry is due stays. -/
theorem landDue_reg_of_none {x : Ctx} {q : Reg} (hq : q ≠ 0) (h : (dueFor x.pwb q).getLast? = none) : x.landDue.reg q = x.reg q := by
  rw [landDue_reg x hq, h]
  rfl

/-! ### An issue that writes a register (R24-R26) -/

section
variable {x z : Ctx} {d : Reg} {v : Word} {lat : Nat}

/-- The entries that stay keep their order, and a write of latency above 1 is the youngest. -/
theorem writes_pwb (h : Writes x d v lat z) : z.pwb = pendStay x.pwb ++ if 1 < lat ∧ d ≠ 0 then [⟨d, lat - 1, v⟩] else [] := by
  unfold Writes at h
  split at h
  case isTrue hl =>
    obtain ⟨-, hp⟩ := h
    rw [hp, if_neg (by omega), List.append_nil]
  case isFalse hl =>
    obtain ⟨-, hp⟩ := h
    by_cases hd : d = 0
    · rw [hp, if_pos hd, if_neg fun h => h.2 hd]
    · rw [hp, if_neg hd, if_pos ⟨by omega, hd⟩]

/-- A write of latency 1 is issued after every entry that lands with it, so its value remains. -/
theorem writes_reg_own (h : Writes x d v lat z) (hl : lat ≤ 1) (hd : d ≠ 0) : z.reg d = v := by
  obtain ⟨hr, -⟩ := (if_pos hl).mp h
  rw [hr, if_pos ⟨rfl, hd⟩]

/-- Any other register, and any register after a write that pends, holds what the landings leave. -/
theorem writes_reg_other (h : Writes x d v lat z) {q : Reg} (hq : ¬(lat ≤ 1 ∧ q = d)) : z.reg q = x.landDue.reg q := by
  unfold Writes at h
  split at h
  case isTrue hl =>
    obtain ⟨hr, -⟩ := h
    rw [hr, if_neg fun h => hq ⟨hl, h.1⟩]
  case isFalse hl =>
    obtain ⟨hr, -⟩ := h
    unfold Ctx.reg
    rw [hr]

end

/-- What a scalar instruction with a register result leaves of its context's registers and pending writes. -/
theorem exec_regRow_writes {i : Instr} {r : RegRow} {s : State} (h : arithRow i = some r ∨ immRow i = some r) (hg : s.cur.guard r.g = true)
    (hr : HasRoom s.cur r.d r.lat) : ∃ t, exec i s = .next t ∧ Writes s.cur r.d (r.v s.cur) r.lat t.cur := by
  obtain ⟨t, ht, -, -, hw⟩ := lift_finWrite r.d (r.v s.cur) r.lat (s.cur.pc + 4) hr
  exact ⟨t, (exec_regRow h hg).trans ht, hw⟩

end Sys2Proof.Machine

section

open Sys2Proof Sys2Proof.Machine Sys2Proof.Claims

/-- Settles O3: the landings are a run of register writes, of which the last to a register remains (`foldl_setReg_reg`); the instruction's own write follows
them when its latency is 1, and joins the entries that stay when it is greater. -/
theorem pendingWritesLand : Obligations.PendingWritesLand := by
  unfold Obligations.PendingWritesLand
  refine ⟨fun s i r hi hg hr => ?_, fun x q hq => ?_, fun x => ?_⟩
  · obtain ⟨t, ht, hw⟩ := exec_regRow_writes hi hg hr
    refine ⟨t, ht, writes_pwb hw, fun q hq => ?_⟩
    by_cases hown : r.lat ≤ 1 ∧ q = r.d
    · rw [if_pos hown]
      obtain ⟨hl, rfl⟩ := hown
      exact writes_reg_own hw hl hq
    · rw [if_neg hown, writes_reg_other hw hown]
      split
      · exact landDue_reg_of_due hq ‹_›
      · exact landDue_reg_of_none hq ‹_›
  · split
    · exact landDue_reg_of_due hq ‹_›
    · exact landDue_reg_of_none hq ‹_›
  · obtain ⟨rs, h⟩ := x.landDue_eq
    rw [h]
    rfl

end
end

section
/-! SUPPORT. What an issue leaves that writes `x0`, `p0` or nothing: no register and no pending entry of its own (R20). Settles O4. -/

namespace Sys2Proof.Machine
open Sys2Proof.Claims

/-! ### An issue that writes no register (R20) -/

/-- An effect on a context that leaves its registers and its pending writes. -/
def KeepsWrites (eff : Ctx → Ctx) : Prop := ∀ x, (eff x).regs = x.regs ∧ (eff x).pwb = x.pwb

theorem keepsWrites_id : KeepsWrites id := fun _ => ⟨rfl, rfl⟩

/-- An issue with such an effect writes nothing. -/
theorem retire_noWrite (x : Ctx) (pc : Word) {eff : Ctx → Ctx} (h : KeepsWrites eff) : NoWrite x (x.retire pc eff) := by
  obtain ⟨hr, hp⟩ := h x.landDue
  exact ⟨hr, hp.trans x.landDue_pwb⟩

/-- An issue whose effect leaves the predicates leaves each of them. -/
theorem retire_pred (x : Ctx) (pc : Word) {eff : Ctx → Ctx} (h : ∀ y, (eff y).preds = y.preds) (p : BitVec 3) : (x.retire pc eff).pred p = x.pred p := by
  unfold Ctx.pred
  rw [show (x.retire pc eff).preds = x.preds from (h x.landDue).trans x.landDue_preds]

/-- A write to `x0` needs no entry (R20, R27). -/
@[simp] theorem pwbFull_zero (x : Ctx) (lat : Nat) : x.pwbFull 0 lat = false := pwbFull_false (.inl rfl)

/-- A write to `x0` is discarded. -/
@[simp] theorem put_zero (x : Ctx) (v : Word) (lat : Nat) : x.put 0 v lat = x := if_pos rfl

/-- An issue that would write `x0` only completes. -/
theorem finWrite_zero (m : Mach) (v : Word) (lat : Nat) (pc : Word) (eff : Ctx → Ctx) : m.finWrite 0 v lat pc eff = m.fin pc eff := by
  simp only [Mach.finWrite, pwbFull_zero, put_zero, Bool.false_eq_true, if_false]

/-- The meaning completes on this state with no register written. -/
def Discards (s : State) (res : Result) : Prop := ∃ t, res = .next t ∧ NoWrite s.cur t.cur ∧ t.cur.reg 0 = 0

/-- An issue after a change of the core that leaves its contexts. -/
theorem lift_onHere_fin (s : State) (pc : Word) (eff : Ctx → Ctx) {F : Core → Core} (hF : ∀ c k, (F c).ctx k = c.ctx k) :
    ∃ t, lift (fun m => (m.onHere F).fin pc eff) s = .next t ∧ t.cur = s.cur.retire pc eff := by
  refine ⟨_, lift_eq _ s, ?_⟩
  show ((((s.mach.onHere F).onCtx s.cid s.kid (·.retire pc eff)).core s.cid).ctx s.kid) = _
  rw [Mach.ctx_onCtx]
  show (((s.mach.onCore s.cid F).core s.cid).ctx s.kid).retire pc eff = _
  rw [Mach.core_onCore, hF]
  rfl

/-- A meaning that comes to completing an issue discards its write. -/
theorem discards_of_fin {s : State} {f : Mach → Mach} {pc : Word} {eff : Ctx → Ctx} (h : f s.mach = s.mach.fin pc eff) (he : KeepsWrites eff) :
    Discards s (lift f s) := by
  obtain ⟨t, ht, -, hc⟩ := lift_fin s pc eff
  exact ⟨t, (lift_congr h).trans ht, hc ▸ retire_noWrite s.cur pc he, rfl⟩

/-- One that comes to a write of `x0` discards it. -/
theorem discards_of_finWrite {s : State} {f : Mach → Mach} {v : Word} {lat : Nat} {pc : Word} {eff : Ctx → Ctx}
    (h : f s.mach = s.mach.finWrite 0 v lat pc eff) (he : KeepsWrites eff) : Discards s (lift f s) :=
  discards_of_fin (h.trans (finWrite_zero ..)) he

/-- The same after a change of the core that leaves its contexts. -/
theorem discards_of_onHere_finWrite {s : State} {f : Mach → Mach} {F : Core → Core} {v : Word} {lat : Nat} {pc : Word} {eff : Ctx → Ctx}
    (h : f s.mach = (s.mach.onHere F).finWrite 0 v lat pc eff) (hF : ∀ c k, (F c).ctx k = c.ctx k) (he : KeepsWrites eff) : Discards s (lift f s) := by
  obtain ⟨t, ht, hc⟩ := lift_onHere_fin s pc eff hF
  exact ⟨t, (lift_congr (h.trans (finWrite_zero ..))).trans ht, hc ▸ retire_noWrite s.cur pc he, rfl⟩

/-! ### Scalar instructions and loads -/

theorem exec_regRow_discards {i : Instr} {r : RegRow} {s : State} (h : arithRow i = some r ∨ immRow i = some r) (hg : s.cur.guard r.g = true)
    (hd : r.d = 0) : Discards s (exec i s) := by
  rw [exec_regRow h hg, hd]
  exact discards_of_finWrite rfl keepsWrites_id

/-- The effective address of R112. -/
theorem ea_eq (r : LocalRow) (x : Ctx) : r.ea x = (localEa x r.a r.off r.size).toNat := by
  unfold LocalRow.ea localEa
  rw [BitVec.ofInt_add, BitVec.ofInt_mul, BitVec.ofInt_toInt, BitVec.ofInt_natCast]
  rfl

/-- What one storage holds lies below the end of the map (R35). -/
theorem lt_of_storageAt {o : Nat} {st : Storage} (h : storageAt o = some st) : o < 2 ^ 24 := by
  unfold storageAt at h
  split_ifs at h <;> omega

theorem storageAt_of_oneStorage {lo hi : Nat} {st : Storage} (h : oneStorage lo hi = some st) : storageAt lo = some st := by
  unfold oneStorage at h
  split at h
  · cases h
  · split at h
    · cases h
    · split_ifs at h
      cases h
      assumption

/-- A load passes its checks at an aligned address in one storage. -/
theorem localCheck_load {ea : Word} {size : Nat} (ha : ea.toNat % size = 0) (ho : (oneStorage ea.toNat (ea.toNat + size)).isSome = true) :
    localCheck ea size false = none := by
  obtain ⟨st, hst⟩ := Option.isSome_iff_exists.mp ho
  have hlt := lt_of_storageAt (storageAt_of_oneStorage hst)
  unfold localCheck
  rw [if_neg (not_not.mpr ha), if_neg (by omega), hst]
  rfl

/-- A local load of a row is one of `localLoad`'s. -/
theorem exec_loadRow {i : Instr} {r : LocalRow} (h : loadRow i = some r) :
    ∃ ext, ∀ s, exec i s = lift (fun m => m.localLoad r.t r.a r.off r.g r.size ext) s := by
  unfold loadRow at h
  split at h <;> cases h <;> exact ⟨_, fun _ => rfl⟩

theorem exec_loadRow_discards {i : Instr} {r : LocalRow} {s : State} (h : loadRow i = some r) (ht : r.t = 0) (hg : s.cur.guard r.g = true)
    (ha : r.ea s.cur % r.size = 0) (ho : (oneStorage (r.ea s.cur) (r.ea s.cur + r.size)).isSome = true)
    (hs : s.here.scalarOk (r.ea s.cur) (r.ea s.cur + r.size) false = true) (hp : s.dev.poisonIn (r.pa s) r.size = none) : Discards s (exec i s) := by
  obtain ⟨ext, hx⟩ := exec_loadRow h
  have hpa : r.pa s = localPa s.cid (r.ea s.cur) := rfl
  rw [hpa] at hp
  rw [ea_eq] at ha ho hs hp
  obtain ⟨t, hn, -, -, hregs, hpwb⟩ := lift_localLoad r.t r.a r.off r.g r.size ext hg (.inl ht) (localCheck_load ha ho) hs hp
  rw [if_pos ht, List.append_nil] at hpwb
  exact ⟨t, (hx s).trans hn, ⟨hregs, hpwb⟩, rfl⟩

/-! ### Predicates -/

/-- A predicate operation whose guard holds. -/
theorem lift_guarded_predOp {s : State} {g : Guard} {pd : BitVec 3} {f : Ctx → Bool} (hg : s.cur.guard g = true) :
    lift (fun m => m.guarded g fun m => m.predOp pd f) s = lift (fun m => m.predOp pd f) s := lift_congr (Mach.guarded_true hg)

/-- An instruction of R109 or R110 writes its row's predicate. -/
theorem exec_predRow {i : Instr} {r : PredRow} {s : State} (h : predRow i = some r) (hg : s.cur.guard r.g = true) :
    ∃ f, exec i s = lift (fun m => m.predOp r.pd f) s := by
  unfold predRow at h
  split at h <;> cases h
  · exact ⟨_, rfl⟩
  · exact ⟨_, rfl⟩
  all_goals exact ⟨_, lift_guarded_predOp hg⟩

theorem exec_predRow_discards {i : Instr} {r : PredRow} {s : State} (h : predRow i = some r) (hg : s.cur.guard r.g = true) (hd : r.pd = 0) :
    ∃ t, exec i s = .next t ∧ NoWrite s.cur t.cur ∧ ∀ p, t.cur.pred p = s.cur.pred p := by
  obtain ⟨f, hf⟩ := exec_predRow h hg
  obtain ⟨t, ht, -, -, hn, hp⟩ := lift_predOp s r.pd f
  exact ⟨t, hf.trans ht, hn, fun p => (hp p).trans (if_neg fun h => h.2 hd)⟩

/-! ### Control registers (R134, R135) -/

/-- A register that R34 lists has a value. -/
theorem csrRead_isSome_of_listed (m : Mach) (c : Nat) (k : CtxId) {n : Nat} (h : listed n = true) : (m.csrRead c k n).isSome = true := by
  unfold Mach.csrRead
  split
  case h_34 =>
    simp only [listed, Bool.or_eq_true, Bool.and_eq_true, decide_eq_true_eq, beq_iff_eq] at h
    split_ifs
    · rfl
    · rfl
    · rfl
    · grind
  all_goals rfl

/-- No register that R34 lists for a job is one of the supervisor's. -/
theorem csrSupervisor_of_listed {n : Nat} (h : listed n = true) : csrSupervisor n = false := by
  simp only [listed, Bool.or_eq_true, Bool.and_eq_true, decide_eq_true_eq, beq_iff_eq] at h
  simp only [csrSupervisor, Bool.and_eq_false_iff, decide_eq_false_iff_not]
  omega

/-- The registers that a job writes are listed and writable, and hold no pending write. -/
theorem jobWrites_spec : ∀ n ∈ jobWrites, listed n = true ∧ csrWritable n = true ∧ (n < 0x040 ∨ 0x048 < n) := by decide

/-- A job may read every register that R34 lists. -/
theorem csrRefuses_read (m : Mach) {n : Nat} (h : listed n = true) : m.csrRefuses n false = none := by
  unfold Mach.csrRefuses
  rw [if_neg (by rw [Option.isNone_eq_false_iff.mpr (csrRead_isSome_of_listed m m.cid m.kid h)]; exact Bool.false_ne_true)]
  simp [csrSupervisor_of_listed h]

/-- A job may write its registers. -/
theorem csrRefuses_write (m : Mach) {n : Nat} (h : n ∈ jobWrites) : m.csrRefuses n true = none := by
  obtain ⟨hl, hw, hr⟩ := jobWrites_spec n h
  unfold Mach.csrRefuses
  rw [if_neg (by rw [Option.isNone_eq_false_iff.mpr (csrRead_isSome_of_listed m m.cid m.kid hl)]; exact Bool.false_ne_true)]
  rw [if_neg (show ¬(0x040 ≤ n ∧ n ≤ 0x047) by omega)]
  simp [csrSupervisor_of_listed hl, hw]

theorem ctx_setCoin (c : Core) (v : Word) (k : CtxId) : (c.setCoin v).ctx k = c.ctx k := by
  unfold Core.setCoin
  dsimp only
  split <;> rfl

/-- A control register of the core is no field of a context. -/
theorem ctx_csrWrite (c : Core) (n : Nat) (v : Word) (k : CtxId) : (c.csrWrite n v).ctx k = c.ctx k := by
  unfold Core.csrWrite
  split
  · exact ctx_setCoin c v k
  all_goals rfl

/-- A write of a context's register that a job may write leaves the scalar registers and the pending writes. -/
theorem csrWrite_keepsWrites {n : Nat} (v : Word) (h : n ∈ jobWrites) : KeepsWrites fun x => x.csrWrite n v := by
  obtain ⟨-, -, hr⟩ := jobWrites_spec n h
  intro x
  unfold Ctx.csrWrite
  split
  case h_12 => omega
  case h_13 => simp only [show ¬(x.sup = true ∧ 0x040 ≤ n ∧ n ≤ 0x047) by omega, if_false, and_self]
  all_goals exact ⟨rfl, rfl⟩

theorem csrr_discards {s : State} {csr : BitVec 12} (h : listed csr.toNat = true) : Discards s (exec (.csrr 0 csr) s) := by
  show Discards s (execCsrr 0 csr s)
  unfold execCsrr
  refine discards_of_finWrite (v := (s.mach.csrRead s.cid s.kid csr.toNat).getD 0) (lat := 2) (pc := s.cur.pc + 4) ?_ keepsWrites_id
  simp only [csrRefuses_read s.mach h]
  rfl

/-- A job's write of one of its registers, with the old value to `x0`. -/
theorem csrModify_zero (m : Mach) {n : Nat} (h : n ∈ jobWrites) (new : Word → Word) :
    m.csrModify 0 n new = (m.onHere fun c => c.csrWrite n (new ((m.csrRead m.cid m.kid n).getD 0))).finWrite 0 ((m.csrRead m.cid m.kid n).getD 0) 2 m.pc4
      fun x => x.csrWrite n (new ((m.csrRead m.cid m.kid n).getD 0)) := by
  unfold Mach.csrModify
  simp only [csrRefuses_write m h, pwbFull_zero, Bool.false_eq_true, if_false]

theorem csrModify_discards {s : State} {n : Nat} (h : n ∈ jobWrites) (new : Mach → Word → Word) :
    Discards s (lift (fun m => m.csrModify 0 n (new m)) s) :=
  discards_of_onHere_finWrite (csrModify_zero s.mach h (new s.mach)) (fun c k => ctx_csrWrite c n _ k) (csrWrite_keepsWrites _ h)

/-- `csrr`, and `csrw`, `csrs` and `csrc` of a register that a job writes. -/
theorem csr_discards {s : State} {a : Reg} {csr : BitVec 12} {i : Instr} (h : (i = .csrr 0 csr ∧ listed csr.toNat = true) ∨
    (i ∈ [Instr.csrw 0 a csr, .csrs 0 a csr, .csrc 0 a csr] ∧ csr.toNat ∈ jobWrites)) : Discards s (exec i s) := by
  obtain ⟨rfl, hl⟩ | ⟨hi, hn⟩ := h
  · exact csrr_discards hl
  · simp only [List.mem_cons, List.not_mem_nil, or_false] at hi
    obtain rfl | rfl | rfl := hi
    · exact csrModify_discards hn fun m _ => m.cur.reg a
    · exact csrModify_discards hn fun m old => old ||| m.cur.reg a
    · exact csrModify_discards hn fun m old => old &&& ~~~(m.cur.reg a)

/-! ### The return queue and the rings (R116) -/

/-- A value of the return queue popped to `x0`. -/
theorem popq_rq_discards {s : State} {g : Guard} {e : RqEntry} {rest : List RqEntry} {v : Word} (hg : s.cur.guard g = true) (hq : s.cur.rq = e :: rest)
    (hv : e.val = some v) (hp : e.poison = none) : Discards s (exec (.popq 0 0 g) s) := by
  show Discards s (execPopq 0 0 g s)
  unfold execPopq
  refine discards_of_finWrite (v := v) (lat := 1) (pc := s.cur.pc + 4) (eff := fun x => { x with rq := rest }) ?_ fun _ => ⟨rfl, rfl⟩
  rw [Mach.guarded_true (show s.mach.cur.guard g = true from hg), if_pos rfl]
  simp only [show s.mach.cur.rq = e :: rest from hq, hv, hp]
  rfl

/-- A word of another context's ring popped to `x0`. -/
theorem popq_ring_discards {s : State} {g : Guard} {src : BitVec 8} {k : CtxId} (hg : s.cur.guard g = true) (h0 : src ≠ 0)
    (hk : endpointCtx src.toNat = some k) (hne : k ≠ s.kid) (hr : s.here.ring k s.kid ≠ []) : Discards s (exec (.popq 0 src g) s) := by
  obtain ⟨v, rest, hl⟩ := List.exists_cons_of_ne_nil hr
  show Discards s (execPopq 0 src g s)
  unfold execPopq
  refine discards_of_onHere_finWrite (v := v) (lat := 1) (pc := s.cur.pc + 4)
    (F := fun c => ((c.flow (.ring k s.kid 0) (.ctx s.kid)).leave (.ring k s.kid 0)).setRing k s.kid rest) ?_ (fun c j => by cases j <;> rfl) keepsWrites_id
  rw [Mach.guarded_true (show s.mach.cur.guard g = true from hg), if_neg h0]
  simp only [hk, show s.mach.kid = s.kid from rfl, if_neg hne, show s.mach.here = s.here from rfl, hl]
  rfl

/-! ### `jr` and `wquiet` (R127, R396) -/

/-- A jump to an aligned target that links to `x0`. -/
theorem jr_discards {s : State} {g : Guard} {a : Reg} {imm : BitVec 12} (hg : s.cur.guard g = true)
    (ha : (BitVec.ofInt 64 ((s.cur.reg a).toInt + imm.toInt * 4)).toNat % 4 = 0) : Discards s (exec (.jr 0 a imm g) s) := by
  rw [← add_signExtend_shiftLeft_two] at ha
  show Discards s (execJr 0 a imm g s)
  unfold execJr
  refine discards_of_finWrite (v := s.cur.pc + 4) (lat := 1) (pc := s.cur.reg a + (imm.signExtend 64 <<< 2)) ?_ keepsWrites_id
  rw [Mach.guarded_true (show s.mach.cur.guard g = true from hg)]
  exact if_neg (not_not.mpr ha)

/-- A wait for a wave that has ended, with its value to `x0`. -/
theorem wquiet_discards {s : State} {g : Guard} {a : Reg} {lim start seen : Nat} {v : Word} (hg : s.cur.guard g = true)
    (hw : s.cur.wait = some (.quiet lim start seen (some v))) : Discards s (exec (.wquiet 0 a g) s) := by
  show Discards s (execWquiet 0 a g s)
  unfold execWquiet
  refine discards_of_finWrite (v := v) (lat := 1) (pc := s.cur.pc + 4) (eff := fun x => { x with wait := none }) ?_ fun _ => ⟨rfl, rfl⟩
  rw [Mach.guarded_true (show s.mach.cur.guard g = true from hg)]
  simp only [show s.mach.cur.wait = some (.quiet lim start seen (some v)) from hw]
  rfl

/-! ### Region registers (R274, R275, R278, R289) -/

/-- A guard of a long form that holds. -/
theorem guarded8_true {m : Mach} {g : LGuard} {body : Mach → Mach} (h : m.cur.lguard g = true) : m.guarded8 g body = body m := if_pos h

theorem clean_of_reserved_zero {v : BitVec 128} (h72 : v.extractLsb' 72 56 = 0) (h26 : v.getLsbD 26 = false) : RegionReg.clean v = true := by
  rw [RegionReg.clean, h72, h26]
  rfl

/-- A name resolves to the register that it reaches, when that is not poisoned and its reserved bits are zero. -/
theorem regionOf_ok {s : State} {va : VReg} {a : Nat} {v : BitVec 128}
    (ha : a = (if va.toNat < 1024 then va.toNat else 1024 + (va.toNat - 1024 + s.cur.rrb.toNat) % 1024)) (hv : v = s.region s.cid a)
    (hp : window s.cid + 0x200000 + 16 * a ∉ s.dev.poison) (h72 : v.extractLsb' 72 56 = 0) (h26 : v.getLsbD 26 = false) :
    s.mach.regionOf va = .ok v := by
  have hphys : physReg va.toNat s.mach.cur.rrb.toNat = a := ha.symm
  have hbits : s.mach.regionBits s.cid a = v := by
    rw [hv]
    exact congrArg (BitVec.ofNat 128) (le_eq_num s _ 16)
  unfold Mach.regionOf Mach.resolve
  simp only [hphys, show s.mach.cid = s.cid from rfl, hbits]
  rw [if_neg (show ¬s.mach.dev.poison.contains (window s.cid + 0x200000 + 16 * a) = true from fun h => hp (List.contains_iff_mem.mp h)),
    if_pos (clean_of_reserved_zero h72 h26)]

/-- `vget` of a register that a name reaches, to `x0`. -/
theorem vget_discards {s : State} {g : LGuard} {va : VReg} {v : BitVec 128} (hg : s.cur.lguard g = true) (hv : s.mach.regionOf va = .ok v) (f : VField) :
    Discards s (exec (.vget f 0 va g) s) := by
  show Discards s (execVget f 0 va g s)
  unfold execVget
  refine discards_of_finWrite (v := fieldGet f v) (lat := 1) (pc := s.cur.pc + 8) ?_ keepsWrites_id
  rw [guarded8_true (show s.mach.cur.lguard g = true from hg), hv]
  rfl

/-- What `vpred` with `p0` does to its context, for the element count `n` and the region's count `c`. -/
def vpredZero (n c : Nat) (x : Ctx) : Ctx := { x.setPred 0 (decide (n < c)) with plen := BitVec.ofNat 16 n }

/-- `vpred` with `p0` as its predicate writes `PLEN` alone. -/
theorem exec_vpred_zero {s : State} {g : LGuard} {va : VReg} {v : BitVec 128} (hg : s.cur.lguard g = true) (hv : s.mach.regionOf va = .ok v) (xc : Reg) :
    exec (.vpred 0 xc va g) s =
      lift (·.fin (s.cur.pc + 8) (vpredZero (min (s.cur.reg xc).toNat (RegionReg.count v)) (RegionReg.count v))) s := by
  show execVpred 0 xc va g s = _
  unfold execVpred
  refine lift_congr ?_
  show s.mach.guarded8 g _ = _
  rw [guarded8_true (show s.mach.cur.lguard g = true from hg), hv]
  rfl

theorem vpred_discards {s : State} {g : LGuard} {va : VReg} {v : BitVec 128} (hg : s.cur.lguard g = true) (hv : s.mach.regionOf va = .ok v) (xc : Reg) :
    ∃ t, exec (.vpred 0 xc va g) s = .next t ∧ NoWrite s.cur t.cur ∧ ∀ p, t.cur.pred p = s.cur.pred p := by
  obtain ⟨t, ht, -, hc⟩ := lift_fin s (s.cur.pc + 8) (vpredZero (min (s.cur.reg xc).toNat (RegionReg.count v)) (RegionReg.count v))
  exact ⟨t, (exec_vpred_zero hg hv xc).trans ht, hc ▸ retire_noWrite _ _ fun _ => ⟨rfl, rfl⟩, fun p =>
    (congrArg (·.pred p) hc).trans (retire_pred s.cur (s.cur.pc + 8) (fun _ => rfl) p)⟩

end Sys2Proof.Machine

section

open Sys2Proof Sys2Proof.Machine Sys2Proof.Claims

/-- Settles O4: every meaning that writes a register comes to `finWrite`, which for `x0` only completes the issue (`finWrite_zero`); a write of `p0` is
`setPred`'s, which leaves the predicates. -/
theorem zeroRegisterDiscards : Obligations.ZeroRegisterDiscards := by
  unfold Obligations.ZeroRegisterDiscards
  refine ⟨fun s i r hi hg hd => exec_regRow_discards hi hg hd, fun s i r hi ht hg ha ho hs hp => exec_loadRow_discards hi ht hg ha ho hs hp,
    fun s i r hi hg hd => exec_predRow_discards hi hg hd, fun s a csr i hi => csr_discards hi, fun s g hg => ⟨?_, ?_, ?_, ?_⟩,
    fun s g va a v hg ha hv hp h72 h26 => ?_⟩
  · exact fun src k h0 hk hne hr => popq_ring_discards hg h0 hk hne hr
  · exact fun e rest v hq hv hp => popq_rq_discards hg hq hv hp
  · exact fun a imm w hw hw4 => jr_discards hg (hw ▸ hw4)
  · exact fun a lim start seen v hw => wquiet_discards hg hw
  · have hok := regionOf_ok ha hv hp h72 h26
    exact ⟨vget_discards hg hok, vpred_discards hg hok⟩

end
end

section
/-! SUPPORT. Branches, jumps and loops: each meaning on a state where its guard holds is one issue that goes on at the rule's target (R126-R129), and the words
of their formats as sums of fields (R82). Settles O8. -/

namespace Sys2Proof.Machine
open Sys2Proof.Claims

/-! ### One issue: an effect on other fields than the registers, and a guard that holds -/

/-- An issue with an effect on other fields than the registers leaves the context as that effect has it, here `y`, and writes no register. -/
theorem lift_fin_noWrite {s : State} (pc : Word) {eff : Ctx → Ctx} {y : Ctx}
    (he : ∀ rs pw, eff { s.cur with regs := rs, pwb := pw } = { y with regs := rs, pwb := pw }) (ht : y.tick = s.cur.tick) :
    ∃ t, lift (·.fin pc eff) s = .next t ∧ OnlyCtx s.cid s.kid s t ∧ Issued s.cur y pc t.cur ∧ NoWrite s.cur t.cur := by
  obtain ⟨t, hnext, honly, hcur⟩ := lift_fin s pc eff
  obtain ⟨rs, hl⟩ := s.cur.landDue_eq
  have heff : eff s.cur.landDue = { y with regs := s.cur.landDue.regs, pwb := pendStay s.cur.pwb } := by rw [hl, he]
  refine ⟨t, hnext, honly, ?_, ?_, ?_⟩
  · rw [hcur]
    exact Ctx.retire_issued s.cur pc eff y (fun rs pw => ⟨rs, pw, he rs pw⟩) ht
  · rw [hcur]
    exact congrArg (·.regs) heff
  · rw [hcur]
    exact congrArg (·.pwb) heff

/-- An instruction whose guard holds does what stands under the guard. -/
theorem lift_guarded_true {s : State} {g : Guard} {body : Mach → Mach} (hg : s.cur.guard g = true) : lift (·.guarded g body) s = lift body s :=
  lift_congr (Mach.guarded_true hg)

/-! ### `br`, `call` and `jr` (R126, R127) -/

theorem branchTarget_eq (pc : Word) (off : BitVec 22) : branchTarget pc off = target pc off := add_signExtend_shiftLeft_two pc off

section
variable {s : State} {g : Guard} (hg : s.cur.guard g = true)
include hg

theorem exec_br (off : BitVec 22) : exec (.br off g) s = lift (·.fin (target s.cur.pc off) id) s := by
  show execBr off g s = _
  rw [execBr, lift_guarded_true hg, ← branchTarget_eq]
  rfl

theorem exec_call (off : BitVec 22) : exec (.call off g) s = lift (·.finWrite 1 (s.cur.pc + 4) 1 (target s.cur.pc off) id) s := by
  show execCall off g s = _
  rw [execCall, lift_guarded_true hg, ← branchTarget_eq]
  rfl

/-- `jr` traps on a target that is not aligned, else it links and goes there. -/
theorem exec_jr (d a : Reg) (imm : BitVec 12) {w : Word} (hw : w = BitVec.ofInt 64 ((s.cur.reg a).toInt + imm.toInt * 4)) :
    exec (.jr d a imm g) s = lift (fun m => if w.toNat % 4 ≠ 0 then m.trap Cause.misalign w else m.finWrite d (s.cur.pc + 4) 1 w id) s := by
  show execJr d a imm g s = _
  rw [execJr, lift_guarded_true hg, hw, ← add_signExtend_shiftLeft_two]
  rfl

/-! ### `loop` (R128) -/

theorem exec_loop_taken (off : BitVec 22) (h : s.cur.lc ≠ 0) :
    exec (.loop off g) s = lift (·.fin (target s.cur.pc off) fun x => { x with lc := x.lc - 1 }) s := by
  show execLoop off g s = _
  rw [execLoop, lift_guarded_true hg, ← branchTarget_eq]
  exact lift_congr (if_pos h)

theorem exec_loop_ended (off : BitVec 22) (h : s.cur.lc = 0) : exec (.loop off g) s = lift (·.fin (s.cur.pc + 4) id) s := by
  show execLoop off g s = _
  rw [execLoop, lift_guarded_true hg]
  exact lift_congr (if_neg (not_not.mpr h))

end

/-! ### `loopr` (R129) -/

/-- The stage predicates of a software-pipelined loop shift up, and the bit comes in at the bottom. -/
theorem shiftLeft_one_or_bit (k b : BitVec 16) (hb : b.toNat < 2) : k <<< 1 ||| b = k * 2 + b := by
  apply BitVec.eq_of_toNat_eq
  rw [BitVec.toNat_or, BitVec.toNat_add, BitVec.toNat_mul, BitVec.toNat_shiftLeft, Nat.shiftLeft_eq]
  have hmod : k.toNat * 2 ^ 1 % 2 ^ 16 = (k.toNat % 2 ^ 15) <<< 1 := by
    rw [Nat.shiftLeft_eq]
    omega
  rw [hmod, ← Nat.shiftLeft_add_eq_or_of_lt hb, ← hmod, show (2 : BitVec 16).toNat = 2 from rfl]
  omega

/-- The rotation base counts down by one, modulo 1024. -/
theorem rrb_add_1023 (r : BitVec 10) : r + 1023 = BitVec.ofNat 10 ((r.toNat + 1023) % 1024) := by
  apply BitVec.eq_of_toNat_eq
  simp

/-- What R129 writes of a context: the counters, the stage predicates with `bit` shifted in, and the rotation base. -/
def loopState (x : Ctx) (lc : Word) (ec : BitVec 8) (bit : BitVec 16) : Ctx :=
  { x with lc := lc, ec := ec, kmask := x.kmask * 2 + bit, rrb := BitVec.ofNat 10 ((x.rrb.toNat + 1023) % 1024) }

theorem shift_eq_loopState (x : Ctx) (lc : Word) (ec : BitVec 8) (b : BitVec 16) (hb : b.toNat < 2) :
    { x with lc := lc, ec := ec, kmask := (x.kmask <<< 1) ||| b, rrb := x.rrb + 1023 } = loopState x lc ec b := by
  rw [shiftLeft_one_or_bit _ _ hb, rrb_add_1023]
  rfl

/-- R129's table of the counters, the bit and the branch is what `Ctx.rotate` computes. -/
theorem rotate_eq {x : Ctx} {lc : Word} {ec : BitVec 8} {bit : BitVec 16} {taken : Bool}
    (h : (lc, ec, bit, taken) = if x.lc ≠ 0 then (x.lc - 1, x.ec, 1, true) else if 1 < x.ec.toNat then (x.lc, x.ec - 1, 0, true) else (x.lc, 0, 0, false)) :
    x.rotate = (taken, loopState x lc ec bit) := by
  unfold Ctx.rotate
  by_cases hlc : x.lc ≠ 0
  · rw [if_pos hlc] at h ⊢
    cases h
    exact congrArg (true, ·) (shift_eq_loopState x _ _ 1 (by decide))
  · rw [if_neg hlc] at h ⊢
    by_cases hec : 1 < x.ec.toNat
    · rw [if_pos hec] at h ⊢
      cases h
      exact congrArg (true, ·) (shift_eq_loopState x _ _ 0 (by decide))
    · rw [if_neg hec] at h ⊢
      cases h
      exact congrArg (false, ·) (shift_eq_loopState x _ _ 0 (by decide))

/-- `loopr` writes the four fields of the rotated loop state, and goes on where the rotation says. -/
theorem exec_loopr {s : State} {g : Guard} (hg : s.cur.guard g = true) (off : BitVec 22) {taken : Bool} {z : Ctx} (h : s.cur.rotate = (taken, z)) :
    exec (.loopr off g) s = lift (·.fin (if taken then target s.cur.pc off else s.cur.pc + 4)
      fun x => { x with lc := z.lc, ec := z.ec, kmask := z.kmask, rrb := z.rrb }) s := by
  have htaken : s.cur.rotate.1 = taken := congrArg (·.1) h
  have hz : s.cur.rotate.2 = z := congrArg (·.2) h
  show execLoopr off g s = _
  rw [execLoopr, lift_guarded_true hg, ← branchTarget_eq, ← htaken, ← hz]
  rfl

/-! ### Words (R82) -/

/-- A word of format F-B as the sum of its fields. -/
theorem packB_eq (maj : BitVec 6) (g : Guard) (off : BitVec 22) : packB maj g off =
    BitVec.ofNat 32 (maj.toNat * 2 ^ 26 + g.p.toNat * 2 ^ 23 + (if g.n = true then 1 else 0) * 2 ^ 22 + off.toNat) := by
  rw [← packB_toNat, BitVec.ofNat_toNat, BitVec.setWidth_eq]

/-- A word of format F-RI as the sum of its fields. -/
theorem packRI_eq (maj : BitVec 6) (d a : Reg) (g : Guard) (imm : BitVec 12) : packRI maj d a g imm =
    BitVec.ofNat 32 (maj.toNat * 2 ^ 26 + d.toNat * 2 ^ 21 + a.toNat * 2 ^ 16 + g.p.toNat * 2 ^ 13 + (if g.n = true then 1 else 0) * 2 ^ 12 + imm.toNat) := by
  rw [← packRI_toNat, BitVec.ofNat_toNat, BitVec.setWidth_eq]

end Sys2Proof.Machine

section

open Sys2Proof Sys2Proof.Machine Sys2Proof.Claims

/-- Settles O8: on a true guard each meaning comes to one issue at its target (`exec_br`, `exec_call`, `exec_jr`, `exec_loop_taken`, `exec_loopr`), and such
an issue leaves what `lift_fin_noWrite` or `lift_finWrite` says. -/
theorem branchesAndLoops : Obligations.BranchesAndLoops := by
  unfold Obligations.BranchesAndLoops
  refine ⟨fun s g hg => ⟨fun off => ?br, fun off => ?call, fun d a imm w hw => ⟨fun h4 => ?jr, fun h4 htrap => ?jrTrap⟩⟩,
    fun s off g lc ec taken bit hg => ⟨fun hlc => ?loopTaken, fun hlc => ?loopEnded, fun h => ?loopr⟩, fun s => rfl,
    fun g off d a imm pn hpn => ?words⟩
  case br =>
    rw [exec_br hg off]
    exact lift_fin_noWrite _ (fun _ _ => rfl) rfl
  case call =>
    rw [exec_call hg off]
    exact lift_finWrite 1 _ 1 _ (.inr (.inl le_rfl))
  case jr =>
    simp only [exec_jr hg d a imm hw, if_neg (not_not.mpr h4)]
    exact lift_finWrite d _ 1 w (.inr (.inl le_rfl))
  case jrTrap =>
    simp only [exec_jr hg d a imm hw, if_pos h4]
    exact lift_trap Cause.misalign w htrap
  case loopTaken =>
    rw [exec_loop_taken hg off hlc]
    exact lift_fin_noWrite _ (fun _ _ => rfl) rfl
  case loopEnded =>
    rw [exec_loop_ended hg off hlc]
    exact lift_fin_noWrite _ (fun _ _ => rfl) rfl
  case loopr =>
    rw [exec_loopr hg off (rotate_eq h)]
    exact lift_fin_noWrite _ (fun _ _ => rfl) rfl
  case words =>
    subst hpn
    exact ⟨congrArg ([·]) (packB_eq 0x1F g off), congrArg ([·]) (packB_eq 0x20 g off), congrArg ([·]) (packRI_eq 0x21 d a g imm),
      congrArg ([·]) (packB_eq 0x22 g off), congrArg ([·]) (packB_eq 0x23 g off)⟩

end
end
